-- ==== Sys2Proof/Word.lean ====
section
/-! DEFINITION. The word types of the NY4 and the names of its units (R9, R14, R22, R32, R59). -/

namespace Sys2Proof

/-- A scalar register (R59). -/
abbrev Word := BitVec 64
/-- A byte of memory (R4). -/
abbrev Byte := BitVec 8
/-- A vector register, a cache line, a message block (R59, R11, R219). -/
abbrev Line := BitVec 512
/-- A program counter: line in bits 56:6, head index in bits 5:0 (R32). -/
abbrev Pc := BitVec 57

/-- Physical core number 48·y + x (R9). -/
abbrev CoreId := Fin 2304
/-- Hardware thread of a core (R14). -/
abbrev ThreadId := Fin 8
/-- Context number (R22). -/
abbrev CtxId := Fin 64
/-- Bobry port number 9·d + i (R20). -/
abbrev PortId := Fin 36
/-- HBM4E stack number (R16). -/
abbrev StackId := Fin 8
/-- Queue number within its context (R253). -/
abbrev QueueId := Fin 16
/-- Landing slot tag (R61). -/
abbrev Tag := Fin 32
/-- Scalar register number (R59). -/
abbrev SReg := Fin 32
/-- Vector register number (R59). -/
abbrev VReg := Fin 16
/-- Predicate number (R59). -/
abbrev PReg := Fin 8

/-- A finite map held as pairs with rising keys; what an absent key reads as is said where it is used. -/
abbrev AMap (α : Type) := List (Nat × α)

/-- A byte-addressed memory (R4): pairs of an address and a byte. -/
abbrev Memory := List Host.Cell

end Sys2Proof
end

