-- ==== Sys2Proof/Syntax.lean ====
section
/-! DEFINITION. The steps of the NY4: every instruction form of R40 and every event of the table of operations and
events, one constructor of Instr each. -/

namespace Sys2Proof

/-- Guard bits of a head: GP in bits 7:5 and GN in bit 4 (R29, R34). -/
structure Guard where
  gp : PReg
  gn : Bool
  deriving DecidableEq, Repr

/-- The data types of R39. -/
inductive Ty where
  | f32 | f16 | b16 | c32 | c16 | s8 | s16 | s32 | s64 | z8 | z16 | z32 | z64 | t8 | t6
  deriving DecidableEq, Repr

/-- Scopes (R39, R101). -/
inductive Scope where
  | core | clu | die | dev | dom | sys
  deriving DecidableEq, Repr

/-- Orders (R39, R102). -/
inductive Order where
  | rlx | acq | rel | ar
  deriving DecidableEq, Repr

/-- Uses of an atomic (R39, R106). -/
inductive AUse where
  | none | comm | unp
  deriving DecidableEq, Repr

/-- Width of an atomic (R39). -/
inductive Wd where
  | w32 | w64
  deriving DecidableEq, Repr

/-- Load types, minors 0 to 6 of majors 0x10 and 0x12 (R40). -/
inductive LdTy where
  | s8 | s16 | s32 | s64 | z8 | z16 | z32
  deriving DecidableEq, Repr

/-- Store types, minors 0 to 3 of major 0x11 (R40). -/
inductive StTy where
  | z8 | z16 | z32 | z64
  deriving DecidableEq, Repr

/-- Scalar compare conditions (R134). -/
inductive Cond where
  | eq | ne | ltS | geS | ltZ | geZ | tst | ntst
  deriving DecidableEq, Repr

/-- Vector compare conditions (R176). -/
inductive VCond where
  | eq | ne | lt | le | uno
  deriving DecidableEq, Repr

/-- Operations of posted and returning atomics (R161); swap is for returning atomics only. -/
inductive AOp where
  | add | and | or | xor | minS | maxS | minZ | maxZ | fadd | swap
  deriving DecidableEq, Repr

/-- Modes of a matrix product (R39). -/
inductive MMode where
  | zero | accum | fade
  deriving DecidableEq, Repr

/-- Scale block along K: 16, 32, 64 or 128 elements (R39). -/
inductive Blk where
  | k16 | k32 | k64 | k128
  deriving DecidableEq, Repr

/-- Accumulator operand: a quarter, or the whole tile (R39, R65). -/
inductive AccSel where
  | quarter (q : Fin 4)
  | tile
  deriving DecidableEq, Repr

/-- The control registers (R70). -/
inductive Ctl where
  | timenow | vcoreid | thid | ctxid | taskrec | trapcause | trapaddr | trappc | taketag | xferid | trapen
  | fmta | fmtb | scla | sclb | fade | lsstat | agemax | landctl | aggage
  deriving DecidableEq, Repr

/-- Operands of the matrix products MMA, MMAG and MCONV (R196). -/
structure MMOps where
  acc : AccSel
  sa : SReg
  sb : SReg
  sk : SReg
  mode : MMode
  bka : Blk
  bkb : Blk
  sx : SReg
  deriving DecidableEq, Repr

/-- Trap causes (R338). -/
inductive Cause where
  | illegalLine | illegalOp | pageFault | misaligned | writeStable | detTarget | conflict | atomicPath | linkLost
  | divZero | writeBudget | windowOverflow | landingBusy | noExchange | privilege | cbUnbound | cbUnderrun | cbOverrun
  | taskRecord | countUnderflow | watchBusy | watchFull | msgFormat | barShape | barBusy | barUnset | barMismatch
  | matrixShape | matrixFormat | groupMismatch | software
  deriving DecidableEq, Repr

/-- The answer of another device to a remote access (R329, R330): the value, or the refusal's cause. -/
inductive RemAns where
  | value (v : Line)
  | refused (c : Cause)
  deriving DecidableEq, Repr

/-- What a link peer asks of this device's memory (R328, R329): a decrement carries its epoch (R125, R213). ack: the requester
has the answer of that number, or the chime of that identifier (R329; log 42, DESIGN CHOICE). -/
inductive IngKind where
  | read (n : Nat)
  | write (data : List Byte)
  | atomic (op : AOp) (wd : Wd) (b : Word)
  | cas (wd : Wd) (b c : Word)
  | decrement (n : Nat) (epoch : BitVec 32)
  | ack (chime : Bool)
  deriving DecidableEq, Repr

/-- A request of a link peer: requester, its request number, and the local address (R329). -/
structure IngReq where
  dev : Nat
  num : Nat
  addr : Nat
  kind : IngKind
  deriving DecidableEq, Repr

/-- A message of another device to this one, with its sender's epoch (R224, R331). -/
structure LinkMsg where
  dev : Nat
  ctx : CtxId
  vx : Nat
  vy : Nat
  id : BitVec 32
  blk : Line
  epoch : BitVec 32
  deriving DecidableEq, Repr

/-- Where an active message comes from: this device's flight list, or another device (R331). -/
inductive MsgSrc where
  | own (id : Nat)
  | link (m : LinkMsg)
  deriving DecidableEq, Repr

/-- Reductions of a collective (R228). -/
inductive COp where
  | sum | min | max
  deriving DecidableEq, Repr

/-- Element types of a collective (R228). -/
inductive CTy where
  | f32 | b16 | s32 | z32
  deriving DecidableEq, Repr

/-- A contribution of another device to a collective (R332): its slots and their element patterns. -/
structure LinkContrib where
  dev : Nat
  ctx : CtxId
  id : BitVec 32
  op : COp
  ty : CTy
  count : Nat
  slot0 : Nat
  slots : List (List (BitVec 32))
  deriving DecidableEq, Repr

/-- Where a collective contribution comes from (R332). -/
inductive CollSrc where
  | own (id : Nat)
  | link (c : LinkContrib)
  deriving DecidableEq, Repr

/-- What a port's peer reports at bring-up (R325). -/
structure PeerInfo where
  sw : Bool
  domid : BitVec 16
  devnum : BitVec 14
  offer : BitVec 4
  deriving DecidableEq, Repr

/-- A received flit: its sequence number, its acknowledgement, whether its CRC holds after FEC, and whether the
acknowledgement makes this side replay what follows it (R323). -/
structure Flit where
  seq : Nat
  ack : Nat
  crcOk : Bool
  replay : Bool
  deriving DecidableEq, Repr

/-- The end of a landing slot's load: the load's serial number, and the value or the cause that another device answered (R62, R157,
R330). -/
structure SlotValue where
  id : Nat
  ext : Word
  deriving DecidableEq, Repr
structure SlotFault where
  id : Nat
  ext : Option Cause
  deriving DecidableEq, Repr

/-- What comes with a time flit beside its counter and its HOPS: the round trip that the sender measured (R334), and whether the
domain has one master (R335). -/
structure TimePath where
  rtt : Nat
  sole : Bool
  deriving DecidableEq, Repr

/-- A host access through BAR2 (R336): a read of n bytes, a write, or an AtomicOp that the device completes (FetchAdd, Swap and
CAS). -/
inductive Bar2 where
  | read (addr n : Nat)
  | write (addr : Nat) (data : List Byte)
  | fetchAdd (addr : Nat) (wd : Wd) (b : Word)
  | swap (addr : Nat) (wd : Wd) (b : Word)
  | cas (addr : Nat) (wd : Wd) (b c : Word)
  deriving DecidableEq, Repr

/-- A firmware image (R356): the header's fields and the body. -/
structure Image where
  magic : BitVec 32
  svn : Nat
  bodyLen : Nat
  digest : BitVec 256
  key : BitVec 384
  header : List Byte
  signature : List Byte
  body : List Byte
  deriving DecidableEq, Repr

/-- A management command (R350). -/
inductive Mgmt where
  | write (off : Nat) (val : Word)
  | read (off : Nat)
  | update (img : Image)
  | recover (img : Image)
  | quote (nonce : BitVec 256)
  | placement (n : CtxId)
  deriving DecidableEq, Repr

/-- A unit that can be fenced (R27). -/
inductive FenceUnit where
  | core (c : CoreId)
  | router (n : Fin 576)
  deriving DecidableEq, Repr

/-- What the scrubber or a check finds (R353). meshRetry: the CRC of a flit that a router sends fails and the flit is retried;
meshPassed: the flit is received. -/
inductive ScrubFind where
  | clean
  | hbmCorrected (line : Nat)
  | hbmUncorrected (line : Nat)
  | sramCorrected (c : CoreId)
  | sramUncorrected (c : CoreId)
  | sliceClean (n : Fin 576)
  | sliceDirty (n : Fin 576) (line : Nat)
  | sliceCorrected (n : Fin 576)
  | gatewayCorrected (n : Fin 576)
  | gatewayError (n : Fin 576) (line : Nat)
  | meshRetry (n : Fin 576)
  | meshPassed (n : Fin 576)
  deriving DecidableEq, Repr

/-- One step of the machine: an instruction form (with its guard and operands), or an event (with the unit it happens at
and what the outside supplies). One constructor per row of the table of operations and events. -/
inductive Instr where
  -- scalar, register (R131)
  | addReg (g : Guard) (d a b : SReg)
  | subReg (g : Guard) (d a b : SReg)
  | mulReg (g : Guard) (d a b : SReg)
  | mulhReg (g : Guard) (d a b : SReg)
  | mulhzReg (g : Guard) (d a b : SReg)
  | divsReg (g : Guard) (d a b : SReg)
  | divzReg (g : Guard) (d a b : SReg)
  | remsReg (g : Guard) (d a b : SReg)
  | remzReg (g : Guard) (d a b : SReg)
  | andReg (g : Guard) (d a b : SReg)
  | orReg (g : Guard) (d a b : SReg)
  | xorReg (g : Guard) (d a b : SReg)
  | andnReg (g : Guard) (d a b : SReg)
  | shlReg (g : Guard) (d a b : SReg)
  | shrzReg (g : Guard) (d a b : SReg)
  | shrsReg (g : Guard) (d a b : SReg)
  -- scalar, immediate (R131)
  | addImm (g : Guard) (d a : SReg) (imm : BitVec 22)
  | subImm (g : Guard) (d a : SReg) (imm : BitVec 22)
  | mulImm (g : Guard) (d a : SReg) (imm : BitVec 22)
  | mulhImm (g : Guard) (d a : SReg) (imm : BitVec 22)
  | mulhzImm (g : Guard) (d a : SReg) (imm : BitVec 22)
  | divsImm (g : Guard) (d a : SReg) (imm : BitVec 22)
  | divzImm (g : Guard) (d a : SReg) (imm : BitVec 22)
  | remsImm (g : Guard) (d a : SReg) (imm : BitVec 22)
  | remzImm (g : Guard) (d a : SReg) (imm : BitVec 22)
  | andImm (g : Guard) (d a : SReg) (imm : BitVec 22)
  | orImm (g : Guard) (d a : SReg) (imm : BitVec 22)
  | xorImm (g : Guard) (d a : SReg) (imm : BitVec 22)
  | andnImm (g : Guard) (d a : SReg) (imm : BitVec 22)
  | shlImm (g : Guard) (d a : SReg) (imm : BitVec 22)
  | shrzImm (g : Guard) (d a : SReg) (imm : BitVec 22)
  | shrsImm (g : Guard) (d a : SReg) (imm : BitVec 22)
  -- compares, predicates, constants (R133 to R141)
  | cmpReg (g : Guard) (c : Cond) (pd pe : PReg) (a b : SReg)
  | cmpImm (g : Guard) (c : Cond) (pd pe : PReg) (a : SReg) (imm : BitVec 21)
  | pand (g : Guard) (pd pa pb : PReg)
  | por (g : Guard) (pd pa pb : PReg)
  | pxor (g : Guard) (pd pa pb : PReg)
  | pandn (g : Guard) (pd pa pb : PReg)
  | pnot (g : Guard) (pd pa : PReg)
  | prd (g : Guard) (d : SReg)
  | pwr (g : Guard) (a : SReg)
  | sel (g : Guard) (d : SReg) (pc : PReg) (a b : SReg)
  | liL27 (g : Guard) (d : SReg) (imm : BitVec 27)
  | liL59 (g : Guard) (d : SReg) (imm : BitVec 59)
  | lih (g : Guard) (d a : SReg) (k : BitVec 6)
  | addpc (g : Guard) (d : SReg) (imm : BitVec 27)
  | clz (g : Guard) (d a : SReg)
  | ctz (g : Guard) (d a : SReg)
  | popc (g : Guard) (d a : SReg)
  | sext (g : Guard) (d a : SReg) (k : BitVec 6)
  | zext (g : Guard) (d a : SReg) (k : BitVec 6)
  | min (g : Guard) (u : Bool) (d a b : SReg)
  | max (g : Guard) (u : Bool) (d a b : SReg)
  -- control flow (R142, R143)
  | brJ16 (g : Guard) (off : BitVec 11) (hx : BitVec 5)
  | brJ32 (g : Guard) (off : BitVec 27) (hx : BitVec 5)
  | callJ16 (g : Guard) (off : BitVec 11) (hx : BitVec 5)
  | callJ32 (g : Guard) (off : BitVec 27) (hx : BitVec 5)
  | brReg (g : Guard) (b : SReg)
  | callReg (g : Guard) (b : SReg)
  | ret (g : Guard)
  | brc (g : Guard) (c : SReg) (off : BitVec 22) (hx : BitVec 5)
  -- memory (R151 to R168)
  | ld (g : Guard) (ty : LdTy) (d a : SReg) (sc : Scope) (o : Order) (imm : BitVec 17)
  | st (g : Guard) (ty : StTy) (d a : SReg) (sc : Scope) (o : Order) (imm : BitVec 17)
  | stw (g : Guard) (v : VReg) (a : SReg) (imm : BitVec 17)
  | xst (g : Guard) (wd : Wd) (x c o : SReg) (imm : BitVec 17)
  | ldt (g : Guard) (ty : LdTy) (t : Tag) (a : SReg) (imm : BitVec 22)
  | take (g : Guard) (d k : SReg) (pd : PReg)
  | amo (g : Guard) (op : AOp) (a b : SReg) (sc : Scope) (o : Order) (u : AUse) (wd : Wd)
  | amor (g : Guard) (op : AOp) (d a b : SReg) (sc : Scope) (o : Order) (u : AUse) (wd : Wd)
  | amorCas (g : Guard) (d a b c : SReg) (sc : Scope) (o : Order) (u : AUse) (wd : Wd)
  | addw (g : Guard) (a b : SReg)
  | fence (g : Guard) (sc : Scope) (o : Order)
  | rflush (g : Guard)
  | wdrain (g : Guard)
  -- vector (R174 to R186)
  | vadd (g : Guard) (d a b : VReg) (ty : Ty)
  | vsub (g : Guard) (d a b : VReg) (ty : Ty)
  | vmul (g : Guard) (d a b : VReg) (ty : Ty)
  | vmin (g : Guard) (d a b : VReg) (ty : Ty)
  | vmax (g : Guard) (d a b : VReg) (ty : Ty)
  | vabs (g : Guard) (d a : VReg) (ty : Ty)
  | vneg (g : Guard) (d a : VReg) (ty : Ty)
  | vand (g : Guard) (d a b : VReg) (ty : Ty)
  | vor (g : Guard) (d a b : VReg) (ty : Ty)
  | vxor (g : Guard) (d a b : VReg) (ty : Ty)
  | vshl (g : Guard) (d a b : VReg) (ty : Ty)
  | vshr (g : Guard) (d a b : VReg) (ty : Ty)
  | vdiv (g : Guard) (d a b : VReg) (ty : Ty)
  | vsqrt (g : Guard) (d a : VReg) (ty : Ty)
  | vadds (g : Guard) (d a b : VReg) (ty : Ty)
  | vsubs (g : Guard) (d a b : VReg) (ty : Ty)
  | vfma (g : Guard) (d a b c : VReg) (ty : Ty)
  | vfms (g : Guard) (d a b c : VReg) (ty : Ty)
  | vfnma (g : Guard) (d a b c : VReg) (ty : Ty)
  | vfnms (g : Guard) (d a b c : VReg) (ty : Ty)
  | vcmp (g : Guard) (c : VCond) (d a b : VReg) (ty : Ty)
  | vsel (g : Guard) (d a b c : VReg) (ty : Ty)
  | vcvt (g : Guard) (d a : VReg) (tyd tys : Ty)
  | vcvtz (g : Guard) (d a : VReg) (tyd tys : Ty)
  | vcvthi (g : Guard) (d a : VReg) (tyd tys : Ty)
  | vcvtzhi (g : Guard) (d a : VReg) (tyd tys : Ty)
  | vredadd (g : Guard) (d : SReg) (a : VReg) (ty : Ty)
  | vredmin (g : Guard) (d : SReg) (a : VReg) (ty : Ty)
  | vredmax (g : Guard) (d : SReg) (a : VReg) (ty : Ty)
  | vredand (g : Guard) (d : SReg) (a : VReg) (ty : Ty)
  | vredor (g : Guard) (d : SReg) (a : VReg) (ty : Ty)
  | vperm (g : Guard) (d a b : VReg) (ty : Ty)
  | vzip (g : Guard) (d a b : VReg) (ty : Ty)
  | vunzip (g : Guard) (d a b : VReg) (ty : Ty)
  | vbcast (g : Guard) (d : VReg) (a : SReg) (ty : Ty)
  | vextr (g : Guard) (d : SReg) (v : VReg) (ty : Ty) (lane : BitVec 6)
  | vins (g : Guard) (x : SReg) (v : VReg) (ty : Ty) (lane : BitVec 6)
  | vld (g : Guard) (v : VReg) (a : SReg) (imm : BitVec 17)
  | vst (g : Guard) (v : VReg) (a : SReg) (imm : BitVec 17)
  | bfly2 (g : Guard) (d a b c : VReg) (ty : Ty)
  | bfly4 (g : Guard) (d a c : VReg) (ty : Ty)
  | twid (g : Guard) (d : VReg) (a b : SReg)
  | rand (g : Guard) (d : VReg) (a b c : SReg) (ty : Ty)
  -- matrix (R196 to R208)
  | mma (g : Guard) (m : MMOps)
  | mmag (g : Guard) (m : MMOps)
  | mconv (g : Guard) (m : MMOps)
  | mldw (g : Guard) (w a n : SReg)
  | mrd (g : Guard) (acc : AccSel) (a : SReg) (ty : Ty) (raw : Bool)
  | mwr (g : Guard) (acc : AccSel) (a : SReg) (ty : Ty) (raw : Bool)
  | mspill (g : Guard) (a m : SReg)
  | mfill (g : Guard) (a m : SReg)
  | ctload (g : Guard) (e a n : SReg)
  | ctswap (g : Guard)
  | mzero (g : Guard) (acc : AccSel)
  -- tasks, messages, barriers, system (R212 to R238)
  | tspawn (g : Guard) (a b : SReg)
  | tdec (g : Guard) (a b : SReg)
  | twatch (g : Guard) (a b : SReg)
  | tend (g : Guard)
  | tunwatch (g : Guard) (a : SReg)
  | cbadv (g : Guard) (cb : Fin 16) (a : SReg) (prod : Bool)
  | send (g : Guard) (a b : SReg)
  | xcopy (g : Guard) (a b : SReg)
  | xgather (g : Guard) (a b : SReg)
  | xpref (g : Guard) (a b : SReg)
  | xcoll (g : Guard) (a b : SReg)
  | resume (g : Guard) (a b c : SReg)
  | barset (g : Guard) (bn : Fin 8) (a : SReg) (tree : Bool)
  | barv (g : Guard) (bn : Fin 8) (tree : Bool)
  | trap (g : Guard) (code : BitVec 16)
  | rte (g : Guard)
  | ctlrd (g : Guard) (d : SReg) (c : Ctl)
  | ctlwr (g : Guard) (x : SReg) (c : Ctl)
  | timenow (g : Guard) (d : SReg)
  | nop (g : Guard)
  -- events: loads, remote accesses, aggregation, write lane
  | landingSlotArrival (c : CoreId) (h : ThreadId) (t : Tag) (got : SlotValue)
  | landingSlotFault (c : CoreId) (h : ThreadId) (t : Tag) (got : SlotFault)
  | remoteAnswer (c : CoreId) (h : ThreadId) (id : Nat) (ans : RemAns)
  | remoteWriteAck (id : Nat) (refusal : Option Cause)
  | ingressRequest (p : PortId) (q : IngReq)
  | linkLostTimeout (dev : Nat)
  | aggageExpiry (c : CoreId) (b : Fin 16)
  | aggregationElementApply (id : Nat) (merge : Bool)
  | xstLand (id : Nat)
  | flushAcknowledge (c : CoreId) (h : ThreadId)
  | writeBudgetWindow (k : StackId)
  | writeLaneDrain (id : Nat)
  | wlcBackgroundPromote (id : Nat)
  -- events: tasks, messages, engines
  | decrementApply (id : Nat)
  | wakeWrite (id : Nat)
  | firingBind (c : CoreId) (h : ThreadId)
  | messageInject (id : Nat)
  | messageArrival (src : MsgSrc)
  | copyStep (id : Nat)
  | gatherElement (id : Nat)
  | prefetchLine (id : Nat)
  | xcollContribution (src : CollSrc)
  | collectiveComplete (n : CtxId) (id : BitVec 32)
  | chime (id : Nat)
  -- events: matrix unit, barriers, traps
  | matrixExecute (c : CoreId)
  | matrixComplete (c : CoreId)
  | mmagPanelAvailable (c : CoreId) (h : ThreadId)
  | barrierArrivalReceive (id : Nat)
  | barrierRelease (id : Nat)
  | treeRelease (c : CoreId) (bn : Fin 8)
  | trapEntry (c : CoreId) (h : ThreadId)
  | trapqRead
  | trapcmdResume (n : CtxId) (vcore : BitVec 16) (h : ThreadId)
  | trapcmdAbort (n : CtxId) (vcore : BitVec 16) (h : ThreadId)
  -- events: contexts, leases, pre-emption
  | create (tag : BitVec 16) (n : CtxId)
  | suspend (tag : BitVec 16) (n : CtxId)
  | ctxResume (tag : BitVec 16) (n : CtxId)
  | destroy (tag : BitVec 16) (n : CtxId)
  | ctxUpdate (tag : BitVec 16) (n : CtxId)
  | badcmd (tag : BitVec 16) (n : CtxId)
  | ctxrspRead
  | leaseGrant
  | preemptRetireExpiry (n : CtxId)
  | preemptComplete (n : CtxId)
  | teardownComplete (n : CtxId)
  -- events: queues, kernels, placement
  | doorbellWrite (n : CtxId) (q : QueueId)
  | ticketWrite (n : CtxId) (q : QueueId)
  | launchStart (n : CtxId) (q : QueueId)
  | dispatchSelection
  | taskPlace (id : Nat)
  | kernelComplete (kid : BitVec 32)
  | swapInstant
  | swapExchangeBegin (a b : CoreId)
  | swapAbandon (a b : CoreId)
  | swapExchangeEnd (a b : CoreId)
  | coreGate (c : CoreId)
  | coreWakeComplete (c : CoreId)
  | coreFence (u : FenceUnit)
  -- events: translation, links, time, host
  | tlbinv (w : Word)
  | tlbinvDone
  | tlbinvrspRead
  | portEnable (p : PortId)
  | portDisable (p : PortId)
  | trainingSuccess (p : PortId) (four : Bool)
  | trainingFail (p : PortId)
  | negotiationComplete (p : PortId) (peer : PeerInfo)
  | flitReceive (p : PortId) (f : Flit)
  | flitReplayLimit (p : PortId)
  | portstatRead (p : PortId)
  | timeFlitSend (p : PortId)
  | timeFlitReceive (p : PortId) (counter : Word) (hops : BitVec 8) (path : TimePath)
  | ptmExchange (hostTime : Word)
  | hostBar2Access (a : Bar2)
  | registerWrite (off : Nat) (val : Word)
  -- events: management, firmware, health
  | mgmtCommand (m : Mgmt)
  | fwUpdate (img : Image)
  | recover (img : Image)
  | quote (nonce : BitVec 256)
  | healthstatRead
  | poisonlogRead
  | powerOn
  | selftestComplete (bad : List FenceUnit)
  | powerWindow (milliwatts : Nat) (celsius : Nat)
  | thermalTrip
  | scrub (f : ScrubFind)
  | poison (line : Nat)
  | idleRetest (bad : List CoreId)
  | homeSliceAnswer (c : CoreId) (h : ThreadId) (id : Nat)
  | powerLoss (inFlashWrite : Bool)
  | pcieCompletionTimeout (c : CoreId) (h : ThreadId) (id : Nat)
  | atomicopRequesterEnableWrite (en : Bool)
  | hostPortDown (down : Bool)
  deriving DecidableEq, Repr

/-- The guard of a head; an event has none (R34). -/
def Instr.isEvent : Instr → Bool
  | .landingSlotArrival .. | .landingSlotFault .. | .remoteAnswer .. | .remoteWriteAck .. | .ingressRequest ..
  | .linkLostTimeout .. | .aggageExpiry .. | .aggregationElementApply .. | .xstLand .. | .flushAcknowledge ..
  | .writeBudgetWindow .. | .writeLaneDrain .. | .wlcBackgroundPromote .. | .decrementApply .. | .wakeWrite ..
  | .firingBind .. | .messageInject .. | .messageArrival .. | .copyStep .. | .gatherElement .. | .prefetchLine ..
  | .xcollContribution .. | .collectiveComplete .. | .chime .. | .matrixExecute .. | .matrixComplete ..
  | .mmagPanelAvailable .. | .barrierArrivalReceive .. | .barrierRelease .. | .treeRelease .. | .trapEntry ..
  | .trapqRead | .trapcmdResume .. | .trapcmdAbort .. | .create .. | .suspend .. | .ctxResume .. | .destroy ..
  | .ctxUpdate .. | .badcmd .. | .ctxrspRead | .leaseGrant | .preemptRetireExpiry .. | .preemptComplete ..
  | .teardownComplete .. | .doorbellWrite .. | .ticketWrite .. | .launchStart .. | .dispatchSelection | .taskPlace ..
  | .kernelComplete .. | .swapInstant | .swapExchangeBegin .. | .swapAbandon .. | .swapExchangeEnd .. | .coreGate ..
  | .coreWakeComplete .. | .coreFence .. | .tlbinv .. | .tlbinvDone | .tlbinvrspRead | .portEnable .. | .portDisable ..
  | .trainingSuccess .. | .trainingFail .. | .negotiationComplete .. | .flitReceive .. | .flitReplayLimit ..
  | .portstatRead .. | .timeFlitSend .. | .timeFlitReceive .. | .ptmExchange .. | .hostBar2Access .. | .registerWrite ..
  | .mgmtCommand .. | .fwUpdate .. | .recover .. | .quote .. | .healthstatRead | .poisonlogRead | .powerOn
  | .selftestComplete .. | .powerWindow .. | .thermalTrip | .scrub .. | .poison .. | .idleRetest ..
  | .homeSliceAnswer .. | .powerLoss .. | .pcieCompletionTimeout .. | .atomicopRequesterEnableWrite .. | .hostPortDown .. => true
  | _ => false

end Sys2Proof
end

