-- ==== Sys2Proof/WellFormed.lean ====
section
/-! DEFINITION. Which field combinations of an instruction can be encoded (the last item of R36, with the entries that it
refers to), and which arguments of an event name something that exists. -/

namespace Sys2Proof

/-- Class F of R171. -/
def Ty.isF : Ty → Bool
  | .f32 | .f16 | .b16 => true
  | _ => false

/-- Class C of R171. -/
def Ty.isC : Ty → Bool
  | .c32 | .c16 => true
  | _ => false

/-- Class T of R171. -/
def Ty.isT : Ty → Bool
  | .t8 | .t6 => true
  | _ => false

/-- Signed integer types (R75). -/
def Ty.isSigned : Ty → Bool
  | .s8 | .s16 | .s32 | .s64 => true
  | _ => false

/-- Class I of R171. -/
def Ty.isI : Ty → Bool
  | .s8 | .s16 | .s32 | .s64 | .z8 | .z16 | .z32 | .z64 => true
  | _ => false

/-- Lane width of a type (R170). -/
def Ty.width : Ty → Nat
  | .s8 | .z8 | .t8 | .t6 => 8
  | .s16 | .z16 | .f16 | .b16 => 16
  | .s32 | .z32 | .f32 | .c16 => 32
  | .s64 | .z64 | .c32 => 64

/-- Lane count of a type (R170). -/
def Ty.lanes (t : Ty) : Nat := 512 / t.width

/-- The uses and orders an atomic accepts together (R161, last items; R36). -/
def atomicUse (o : Order) (u : AUse) : Bool := u == .none || o == .rlx

/-- Type pairs of a conversion (R179). -/
def cvtPair (hi : Bool) (d s : Ty) : Bool := d.isC == s.isC && !(hi && d.width == s.width)

/-- Types MRD and MWR accept with C = 0 (R206). -/
def accTy : Ty → Bool
  | .f32 | .f16 | .b16 | .t8 | .t6 | .s8 | .s16 | .s32 | .z8 | .z16 | .z32 => true
  | _ => false

/-- Whether a field combination is among those its entry lists as encodable (R36). -/
def Instr.wf : Instr → Bool
  | .cmpReg _ _ pd pe _ _ => pd != pe || pd == 0
  | .cmpImm _ _ pd pe _ _ => pd != pe || pd == 0
  | .brc _ c _ _ => c != 0
  | .ld _ _ _ _ _ o _ => o == .rlx || o == .acq
  | .st _ _ _ _ _ o _ => o == .rlx || o == .rel
  | .take _ d k _ => d != k || d == 0
  | .amo _ op _ _ _ o u wd => op != .swap && (o == .rlx || o == .rel) && atomicUse o u && !(op == .fadd && wd == .w64)
  | .amor _ op _ _ _ _ o u wd => atomicUse o u && !(op == .fadd && wd == .w64) && !(op == .swap && u == .comm)
  | .amorCas _ _ _ _ _ _ o u _ => atomicUse o u && u != .comm
  | .fence _ _ o => o != .rlx
  | .vadd _ _ _ _ ty => ty.isF || ty.isC || ty.isI
  | .vsub _ _ _ _ ty => ty.isF || ty.isC || ty.isI
  | .vmul _ _ _ _ ty => ty.isF || ty.isC || ty.isI
  | .vneg _ _ _ ty => ty.isF || ty.isC || ty.isI
  | .vmin _ _ _ _ ty => ty.isF || ty.isI
  | .vmax _ _ _ _ ty => ty.isF || ty.isI
  | .vabs _ _ _ ty => ty.isF || ty.isI
  | .vshl _ _ _ _ ty => ty.isI
  | .vshr _ _ _ _ ty => ty.isI
  | .vdiv _ _ _ _ ty => ty.isF
  | .vsqrt _ _ _ ty => ty.isF
  | .vadds _ _ _ _ ty => ty.isI
  | .vsubs _ _ _ _ ty => ty.isI
  | .vfma _ _ _ _ _ ty => ty.isF
  | .vfms _ _ _ _ _ ty => ty.isF
  | .vfnma _ _ _ _ _ ty => ty.isF
  | .vfnms _ _ _ _ _ ty => ty.isF
  | .vcmp _ c _ _ _ ty =>
    match c with
    | .eq | .ne => ty.isF || ty.isC || ty.isI
    | .lt | .le => ty.isF || ty.isI
    | .uno => ty.isF || ty.isC
  | .vcvt _ _ _ d s => cvtPair false d s
  | .vcvtz _ _ _ d s => cvtPair false d s
  | .vcvthi _ _ _ d s => cvtPair true d s
  | .vcvtzhi _ _ _ d s => cvtPair true d s
  | .vredadd _ _ _ ty => ty.isF || ty.isC || ty.isI
  | .vredmin _ _ _ ty => ty.isF || ty.isI
  | .vredmax _ _ _ ty => ty.isF || ty.isI
  | .vredand _ _ _ ty => ty.isI
  | .vredor _ _ _ ty => ty.isI
  | .vextr _ _ _ ty lane => lane.toNat < ty.lanes
  | .vins _ _ _ ty lane => lane.toNat < ty.lanes
  | .bfly2 _ d _ _ _ ty => d.val % 2 == 0 && ty.isC
  | .bfly4 _ d a c ty => d.val % 4 == 0 && a.val % 4 == 0 && c.val ≤ 13 && ty.isC
  | .rand _ _ _ _ _ ty => ty.isF || ty.isI
  | .mrd _ _ _ ty raw => if raw then ty == .f32 else accTy ty
  | .mwr _ _ _ ty raw => if raw then ty == .f32 else accTy ty
  | .ctlwr _ _ c =>
    match c with
    | .timenow | .vcoreid | .thid | .ctxid | .taskrec | .xferid | .lsstat => false
    | .trapcause | .trapaddr | .trappc | .taketag | .trapen | .fmta | .fmtb | .scla | .sclb | .fade | .agemax | .landctl
    | .aggage => true
  | .ingressRequest _ q => q.dev ≤ 9215 && q.addr < 2 ^ 39
  | .swapExchangeBegin a b => a != b
  | .swapAbandon a b => a != b
  | .swapExchangeEnd a b => a != b
  | _ => true

end Sys2Proof
end

