-- ==== Sys2Proof/Decode.lean ====
section
/-! DEFINITION. Heads and tails to instructions and back, by R29, R38, R39 and R40. decodeHead reads a head and its tail;
encode writes them from the same tables. -/

namespace Sys2Proof

/-- Why a head is not a defined encoding (R36); each takes ILLEGAL_OP. -/
inductive DecodeError where
  /-- Major or minor unassigned (R36, first item). -/
  | unassigned
  /-- TL not permitted for the cell (second item). -/
  | tailLength
  /-- A field marked Z is not zero (third item). -/
  | nonzeroZ
  /-- A coded field holds a reserved value, or a field the entry requires to be zero is not (fourth and last items). -/
  | reservedField
  /-- A field combination that the entry does not list as encodable (last item). -/
  | combination
  deriving DecidableEq, Repr

/-- Tail formats (R38). -/
inductive Fmt where
  | n | s3 | s2k | cp | pl | j16 | tk | v4 | vc | vs | vss | vq | fn | ba | cb | aq | k16
  | i22 | ci | l27 | sl | j32 | jc | m | mv | xs | at | vf | rn | vx | cr | mr | l59 | mm
  deriving DecidableEq, Repr

/-- Tail length code of a format (R38, R29). -/
def Fmt.tl : Fmt → Nat
  | .n => 0
  | .s3 | .s2k | .cp | .pl | .j16 | .tk | .v4 | .vc | .vs | .vss | .vq | .fn | .ba | .cb | .aq | .k16 => 1
  | .i22 | .ci | .l27 | .sl | .j32 | .jc | .m | .mv | .xs | .at | .vf | .rn | .vx | .cr | .mr => 2
  | .l59 | .mm => 3

/-- Field widths of a format, most significant field first (R38). -/
def Fmt.widths : Fmt → List Nat
  | .n => []
  | .s3 => [5, 5, 5, 1]
  | .s2k => [5, 5, 6]
  | .cp => [3, 3, 5, 5]
  | .pl => [3, 3, 3, 5, 2]
  | .j16 => [11, 5]
  | .tk => [5, 5, 3, 3]
  | .v4 => [4, 4, 4, 4]
  | .vc => [4, 4, 4, 4]
  | .vs => [4, 5, 4, 3]
  | .vss => [4, 5, 5, 2]
  | .vq => [5, 4, 4, 3]
  | .fn => [3, 2, 11]
  | .ba => [3, 5, 1, 7]
  | .cb => [4, 5, 1, 6]
  | .aq => [2, 1, 13]
  | .k16 => [16]
  | .i22 => [5, 5, 22]
  | .ci => [3, 3, 5, 21]
  | .l27 => [5, 27]
  | .sl => [5, 5, 5, 3, 14]
  | .j32 => [27, 5]
  | .jc => [5, 22, 5]
  | .m => [5, 5, 3, 2, 17]
  | .mv => [4, 5, 6, 17]
  | .xs => [5, 5, 5, 17]
  | .at => [5, 5, 5, 5, 3, 2, 2, 2, 3]
  | .vf => [4, 4, 4, 4, 4, 12]
  | .rn => [4, 5, 5, 5, 4, 9]
  | .vx => [5, 4, 4, 6, 13]
  | .cr => [5, 12, 15]
  | .mr => [2, 5, 4, 1, 1, 19]
  | .l59 => [5, 59]
  | .mm => [2, 1, 5, 5, 5, 2, 2, 2, 5, 35]

/-- Position of the field marked Z, where the format has one (R38). -/
def Fmt.zAt : Fmt → Option Nat
  | .s3 | .tk | .vs | .vss | .vq | .ba | .cb => some 3
  | .fn | .aq | .cr | .mv => some 2
  | .pl | .sl | .vx => some 4
  | .vf | .rn | .mr => some 5
  | .at => some 8
  | .mm => some 9
  | .n | .s2k | .cp | .j16 | .v4 | .vc | .k16 | .i22 | .ci | .l27 | .j32 | .jc | .m | .xs | .l59 => none

/-- Splits a number into fields of the given widths, most significant first. -/
def unpack : List Nat → Nat → List Nat
  | [], _ => []
  | w :: ws, x => x / 2 ^ ws.sum % 2 ^ w :: unpack ws x

/-- Joins fields of the given widths, most significant first. -/
def pack : List Nat → List Nat → Nat
  | w :: ws, v :: vs => v % 2 ^ w * 2 ^ ws.sum + pack ws vs
  | _, _ => 0

def Scope.code : Scope → Nat
  | .core => 0 | .clu => 1 | .die => 2 | .dev => 3 | .dom => 4 | .sys => 5
def Scope.ofCode : Nat → Option Scope
  | 0 => some .core | 1 => some .clu | 2 => some .die | 3 => some .dev | 4 => some .dom | 5 => some .sys | _ => none
def Order.code : Order → Nat
  | .rlx => 0 | .acq => 1 | .rel => 2 | .ar => 3
def Order.ofCode : Nat → Option Order
  | 0 => some .rlx | 1 => some .acq | 2 => some .rel | 3 => some .ar | _ => none
def AUse.code : AUse → Nat
  | .none => 0 | .comm => 1 | .unp => 2
def AUse.ofCode : Nat → Option AUse
  | 0 => some .none | 1 => some .comm | 2 => some .unp | _ => Option.none
def Wd.code : Wd → Nat
  | .w32 => 0 | .w64 => 1
def Wd.ofCode : Nat → Option Wd
  | 0 => some .w32 | 1 => some .w64 | _ => none
def MMode.code : MMode → Nat
  | .zero => 0 | .accum => 1 | .fade => 2
def MMode.ofCode : Nat → Option MMode
  | 0 => some .zero | 1 => some .accum | 2 => some .fade | _ => none
def Blk.code : Blk → Nat
  | .k16 => 0 | .k32 => 1 | .k64 => 2 | .k128 => 3
def Blk.ofCode : Nat → Option Blk
  | 0 => some .k16 | 1 => some .k32 | 2 => some .k64 | 3 => some .k128 | _ => none
def LdTy.code : LdTy → Nat
  | .s8 => 0 | .s16 => 1 | .s32 => 2 | .s64 => 3 | .z8 => 4 | .z16 => 5 | .z32 => 6
def LdTy.ofCode : Nat → Option LdTy
  | 0 => some .s8 | 1 => some .s16 | 2 => some .s32 | 3 => some .s64 | 4 => some .z8 | 5 => some .z16 | 6 => some .z32
  | _ => none
def StTy.code : StTy → Nat
  | .z8 => 0 | .z16 => 1 | .z32 => 2 | .z64 => 3
def StTy.ofCode : Nat → Option StTy
  | 0 => some .z8 | 1 => some .z16 | 2 => some .z32 | 3 => some .z64 | _ => none
def Cond.code : Cond → Nat
  | .eq => 0 | .ne => 1 | .ltS => 2 | .geS => 3 | .ltZ => 4 | .geZ => 5 | .tst => 6 | .ntst => 7
def Cond.ofCode : Nat → Option Cond
  | 0 => some .eq | 1 => some .ne | 2 => some .ltS | 3 => some .geS | 4 => some .ltZ | 5 => some .geZ | 6 => some .tst
  | 7 => some .ntst | _ => none
def VCond.code : VCond → Nat
  | .eq => 0 | .ne => 1 | .lt => 2 | .le => 3 | .uno => 4
def VCond.ofCode : Nat → Option VCond
  | 0 => some .eq | 1 => some .ne | 2 => some .lt | 3 => some .le | 4 => some .uno | _ => none
def AOp.code : AOp → Nat
  | .add => 0 | .and => 1 | .or => 2 | .xor => 3 | .minS => 4 | .maxS => 5 | .minZ => 6 | .maxZ => 7 | .fadd => 8
  | .swap => 9
def AOp.ofCode : Nat → Option AOp
  | 0 => some .add | 1 => some .and | 2 => some .or | 3 => some .xor | 4 => some .minS | 5 => some .maxS | 6 => some .minZ
  | 7 => some .maxZ | 8 => some .fadd | 9 => some .swap | _ => none
/-- Codes of ty, tyd and tys (R39). -/
def Ty.code : Ty → Nat
  | .f32 => 0 | .f16 => 1 | .b16 => 2 | .c32 => 3 | .c16 => 4 | .s8 => 5 | .s16 => 6 | .s32 => 7 | .s64 => 8 | .z8 => 9
  | .z16 => 10 | .z32 => 11 | .z64 => 12 | .t8 => 13 | .t6 => 14
def Ty.ofCode : Nat → Option Ty
  | 0 => some .f32 | 1 => some .f16 | 2 => some .b16 | 3 => some .c32 | 4 => some .c16 | 5 => some .s8 | 6 => some .s16
  | 7 => some .s32 | 8 => some .s64 | 9 => some .z8 | 10 => some .z16 | 11 => some .z32 | 12 => some .z64 | 13 => some .t8
  | 14 => some .t6 | _ => none
/-- Control-register numbers (R70). -/
def Ctl.code : Ctl → Nat
  | .timenow => 0x000 | .vcoreid => 0x001 | .thid => 0x002 | .ctxid => 0x003 | .taskrec => 0x004 | .trapcause => 0x010
  | .trapaddr => 0x011 | .trappc => 0x012 | .taketag => 0x013 | .xferid => 0x014 | .trapen => 0x015 | .fmta => 0x020
  | .fmtb => 0x021 | .scla => 0x022 | .sclb => 0x023 | .fade => 0x024 | .lsstat => 0x030 | .agemax => 0x040
  | .landctl => 0x041 | .aggage => 0x042
def Ctl.ofCode : Nat → Option Ctl
  | 0x000 => some .timenow | 0x001 => some .vcoreid | 0x002 => some .thid | 0x003 => some .ctxid | 0x004 => some .taskrec
  | 0x010 => some .trapcause | 0x011 => some .trapaddr | 0x012 => some .trappc | 0x013 => some .taketag
  | 0x014 => some .xferid | 0x015 => some .trapen | 0x020 => some .fmta | 0x021 => some .fmtb | 0x022 => some .scla
  | 0x023 => some .sclb | 0x024 => some .fade | 0x030 => some .lsstat | 0x040 => some .agemax | 0x041 => some .landctl
  | 0x042 => some .aggage | _ => none
/-- acc and W (R39): W = 1 requires acc = 0. -/
def AccSel.acc : AccSel → Nat
  | .quarter q => q.val
  | .tile => 0
def AccSel.w : AccSel → Nat
  | .quarter _ => 0
  | .tile => 1
def AccSel.ofFields (acc w : Nat) : Option AccSel :=
  if w = 0 then some (.quarter (Fin.ofNat 4 acc)) else if acc = 0 then some .tile else none

/-- The formats that the opcode map permits for a cell (R40); none where the cell is unassigned. -/
def cellFmts (major minor : Nat) : List Fmt :=
  match major with
  | 0x00 => if minor < 16 then [.s3] else []
  | 0x01 => if minor < 16 then [.i22] else []
  | 0x02 => if minor < 8 then [.cp] else []
  | 0x03 => if minor < 8 then [.ci] else []
  | 0x04 => if minor < 7 then [.pl] else if minor = 7 then [.sl] else []
  | 0x05 =>
    if minor = 0 then [.l27, .l59] else if minor = 1 then [.s2k] else if minor = 2 then [.l27]
    else if minor < 6 then [.s3] else if minor < 8 then [.s2k] else if minor < 12 then [.s3] else []
  | 0x06 =>
    if minor < 2 then [.j16, .j32] else if minor < 4 then [.s3] else if minor = 4 then [.n] else if minor = 5 then [.jc]
    else []
  | 0x10 => if minor < 7 then [.m] else []
  | 0x11 => if minor < 4 then [.m] else if minor = 4 then [.mv] else if minor < 7 then [.xs] else []
  | 0x12 => if minor < 7 then [.i22] else if minor = 8 then [.tk] else []
  | 0x13 => if minor < 9 then [.at] else []
  | 0x14 => if minor < 11 then [.at] else []
  | 0x15 => if minor = 0 then [.s3] else if minor = 1 then [.fn] else if minor < 4 then [.n] else []
  | 0x20 => if minor < 16 then [.v4] else []
  | 0x21 => if minor < 4 then [.vf] else []
  | 0x22 => if minor < 5 then [.v4] else if minor = 5 then [.vf] else []
  | 0x23 => if minor < 4 then [.vc] else []
  | 0x24 => if minor < 5 then [.vq] else []
  | 0x25 => if minor < 3 then [.v4] else if minor = 3 then [.vs] else if minor < 6 then [.vx] else []
  | 0x26 => if minor < 2 then [.mv] else []
  | 0x27 => if minor < 2 then [.vf] else if minor = 2 then [.vss] else if minor = 3 then [.rn] else []
  | 0x30 =>
    if minor < 3 then [.mm] else if minor = 3 then [.s3] else if minor < 6 then [.mr] else if minor < 9 then [.s3]
    else if minor = 9 then [.n] else if minor = 10 then [.aq] else []
  | 0x38 => if minor < 3 then [.s3] else if minor = 3 then [.n] else if minor = 4 then [.s3] else if minor = 5 then [.cb] else []
  | 0x39 => if minor < 6 then [.s3] else []
  | 0x3A => if minor < 2 then [.ba] else []
  | 0x3B =>
    if minor = 0 then [.k16] else if minor = 1 then [.n] else if minor < 4 then [.cr] else if minor = 4 then [.s3]
    else if minor = 5 then [.n] else []
  | _ => []

/-- Register numbers and immediates from field values. -/
def sr (x : Nat) : SReg := Fin.ofNat 32 x
def vr (x : Nat) : VReg := Fin.ofNat 16 x
def pr (x : Nat) : PReg := Fin.ofNat 8 x

/-- Majors 0x00 and 0x01 (R130, R131). -/
def buildScalarReg (g : Guard) (minor : Nat) (d a b : SReg) : Option Instr :=
  match minor with
  | 0 => some (.addReg g d a b) | 1 => some (.subReg g d a b) | 2 => some (.mulReg g d a b) | 3 => some (.mulhReg g d a b)
  | 4 => some (.mulhzReg g d a b) | 5 => some (.divsReg g d a b) | 6 => some (.divzReg g d a b)
  | 7 => some (.remsReg g d a b) | 8 => some (.remzReg g d a b) | 9 => some (.andReg g d a b) | 10 => some (.orReg g d a b)
  | 11 => some (.xorReg g d a b) | 12 => some (.andnReg g d a b) | 13 => some (.shlReg g d a b)
  | 14 => some (.shrzReg g d a b) | 15 => some (.shrsReg g d a b) | _ => none

def buildScalarImm (g : Guard) (minor : Nat) (d a : SReg) (i : BitVec 22) : Option Instr :=
  match minor with
  | 0 => some (.addImm g d a i) | 1 => some (.subImm g d a i) | 2 => some (.mulImm g d a i) | 3 => some (.mulhImm g d a i)
  | 4 => some (.mulhzImm g d a i) | 5 => some (.divsImm g d a i) | 6 => some (.divzImm g d a i)
  | 7 => some (.remsImm g d a i) | 8 => some (.remzImm g d a i) | 9 => some (.andImm g d a i) | 10 => some (.orImm g d a i)
  | 11 => some (.xorImm g d a i) | 12 => some (.andnImm g d a i) | 13 => some (.shlImm g d a i)
  | 14 => some (.shrzImm g d a i) | 15 => some (.shrsImm g d a i) | _ => none

/-- Minors 0 to 6 of major 0x04, with the fields that must be zero (R135). -/
def buildPred (g : Guard) (minor d a b s : Nat) : Option Instr :=
  match minor with
  | 0 => if s = 0 then some (.pand g (pr d) (pr a) (pr b)) else none
  | 1 => if s = 0 then some (.por g (pr d) (pr a) (pr b)) else none
  | 2 => if s = 0 then some (.pxor g (pr d) (pr a) (pr b)) else none
  | 3 => if s = 0 then some (.pandn g (pr d) (pr a) (pr b)) else none
  | 4 => if s = 0 ∧ b = 0 then some (.pnot g (pr d) (pr a)) else none
  | 5 => if d = 0 ∧ a = 0 ∧ b = 0 then some (.prd g (sr s)) else none
  | 6 => if d = 0 ∧ a = 0 ∧ b = 0 then some (.pwr g (sr s)) else none
  | _ => none

/-- S3 cells of major 0x05 (R139, R141). -/
def buildCount (g : Guard) (minor d a c : Nat) : Option Instr :=
  match minor with
  | 3 => if c = 0 then some (.clz g (sr d) (sr a)) else none
  | 4 => if c = 0 then some (.ctz g (sr d) (sr a)) else none
  | 5 => if c = 0 then some (.popc g (sr d) (sr a)) else none
  | 8 => some (.min g false (sr d) (sr a) (sr c))
  | 9 => some (.max g false (sr d) (sr a) (sr c))
  | 10 => some (.min g true (sr d) (sr a) (sr c))
  | 11 => some (.max g true (sr d) (sr a) (sr c))
  | _ => none

/-- Major 0x20 (R174); unary heads require vb to be 0. -/
def buildVArith (g : Guard) (minor : Nat) (d a b : VReg) (ty : Ty) : Option Instr :=
  match minor with
  | 0 => some (.vadd g d a b ty) | 1 => some (.vsub g d a b ty) | 2 => some (.vmul g d a b ty) | 3 => some (.vmin g d a b ty)
  | 4 => some (.vmax g d a b ty)
  | 5 => if b = 0 then some (.vabs g d a ty) else none
  | 6 => if b = 0 then some (.vneg g d a ty) else none
  | 7 => some (.vand g d a b ty) | 8 => some (.vor g d a b ty) | 9 => some (.vxor g d a b ty) | 10 => some (.vshl g d a b ty)
  | 11 => some (.vshr g d a b ty) | 12 => some (.vdiv g d a b ty)
  | 13 => if b = 0 then some (.vsqrt g d a ty) else none
  | 14 => some (.vadds g d a b ty) | 15 => some (.vsubs g d a b ty) | _ => none

def buildVFma (g : Guard) (minor : Nat) (d a b c : VReg) (ty : Ty) : Option Instr :=
  match minor with
  | 0 => some (.vfma g d a b c ty) | 1 => some (.vfms g d a b c ty) | 2 => some (.vfnma g d a b c ty)
  | 3 => some (.vfnms g d a b c ty) | _ => none

def buildVCvt (g : Guard) (minor : Nat) (d a : VReg) (x y : Ty) : Option Instr :=
  match minor with
  | 0 => some (.vcvt g d a x y) | 1 => some (.vcvtz g d a x y) | 2 => some (.vcvthi g d a x y)
  | 3 => some (.vcvtzhi g d a x y) | _ => none

def buildVRed (g : Guard) (minor : Nat) (d : SReg) (a : VReg) (ty : Ty) : Option Instr :=
  match minor with
  | 0 => some (.vredadd g d a ty) | 1 => some (.vredmin g d a ty) | 2 => some (.vredmax g d a ty)
  | 3 => some (.vredand g d a ty) | 4 => some (.vredor g d a ty) | _ => none

def buildVPerm (g : Guard) (minor : Nat) (d a b : VReg) (ty : Ty) : Option Instr :=
  match minor with
  | 0 => some (.vperm g d a b ty) | 1 => some (.vzip g d a b ty) | 2 => some (.vunzip g d a b ty) | _ => none

/-- Minors 0 to 2 of major 0x30 (R196, R199, R201). -/
def buildMM (g : Guard) (minor : Nat) (m : MMOps) : Option Instr :=
  match minor with
  | 0 => some (.mma g m) | 1 => some (.mmag g m) | 2 => some (.mconv g m) | _ => none

/-- S3 cells of major 0x30 (R204, R205, R208, R188). -/
def buildMS3 (g : Guard) (minor a b c : Nat) : Option Instr :=
  match minor with
  | 3 => some (.mldw g (sr a) (sr b) (sr c))
  | 6 => if c = 0 then some (.mspill g (sr a) (sr b)) else none
  | 7 => if c = 0 then some (.mfill g (sr a) (sr b)) else none
  | 8 => some (.ctload g (sr a) (sr b) (sr c))
  | _ => none

/-- S3 cells of major 0x38, with the fields that must be zero (R210). -/
def buildTask (g : Guard) (minor a b c : Nat) : Option Instr :=
  match minor with
  | 0 => if c = 0 then some (.tspawn g (sr a) (sr b)) else none
  | 1 => if c = 0 then some (.tdec g (sr a) (sr b)) else none
  | 2 => if c = 0 then some (.twatch g (sr a) (sr b)) else none
  | 4 => if b = 0 ∧ c = 0 then some (.tunwatch g (sr a)) else none
  | _ => none

/-- Major 0x39 (R210). -/
def buildMsg (g : Guard) (minor a b c : Nat) : Option Instr :=
  match minor with
  | 0 => if c = 0 then some (.send g (sr a) (sr b)) else none
  | 1 => if c = 0 then some (.xcopy g (sr a) (sr b)) else none
  | 2 => if c = 0 then some (.xgather g (sr a) (sr b)) else none
  | 3 => if c = 0 then some (.xpref g (sr a) (sr b)) else none
  | 4 => if c = 0 then some (.xcoll g (sr a) (sr b)) else none
  | 5 => some (.resume g (sr a) (sr b) (sr c))
  | _ => none

/-- The atomics' fields (R161): AMO needs sd and sc zero, AMOR other than .cas needs sc zero. -/
def buildAtomic (g : Guard) (major minor d a b c : Nat) (sc : Scope) (o : Order) (u : AUse) (wd : Wd) : Option Instr :=
  if major = 0x13 then
    if d = 0 ∧ c = 0 then (AOp.ofCode minor).map fun op => .amo g op (sr a) (sr b) sc o u wd else none
  else if minor = 10 then some (.amorCas g (sr d) (sr a) (sr b) (sr c) sc o u wd)
  else if c = 0 then (AOp.ofCode minor).map fun op => .amor g op (sr d) (sr a) (sr b) sc o u wd
  else none

/-- The instruction of a cell and its field values, before the checks on combinations; none where a coded field is reserved
or a field that the entry requires to be zero is not. -/
def build (f : Fmt) (g : Guard) (major minor : Nat) (x : List Nat) : Option Instr :=
  let at' := fun i => x.getD i 0
  match f with
  | .n =>
    match major, minor with
    | 0x06, 4 => some (.ret g) | 0x15, 2 => some (.rflush g) | 0x15, 3 => some (.wdrain g) | 0x30, 9 => some (.ctswap g)
    | 0x38, 3 => some (.tend g) | 0x3B, 1 => some (.rte g) | 0x3B, 5 => some (.nop g) | _, _ => none
  | .s3 =>
    match major with
    | 0x00 => buildScalarReg g minor (sr (at' 0)) (sr (at' 1)) (sr (at' 2))
    | 0x05 => buildCount g minor (at' 0) (at' 1) (at' 2)
    | 0x06 =>
      if at' 0 = 0 ∧ at' 2 = 0 then
        match minor with
        | 2 => some (.brReg g (sr (at' 1))) | 3 => some (.callReg g (sr (at' 1))) | _ => none
      else none
    | 0x15 => if at' 2 = 0 then some (.addw g (sr (at' 0)) (sr (at' 1))) else none
    | 0x30 => buildMS3 g minor (at' 0) (at' 1) (at' 2)
    | 0x38 => buildTask g minor (at' 0) (at' 1) (at' 2)
    | 0x39 => buildMsg g minor (at' 0) (at' 1) (at' 2)
    | 0x3B => if at' 1 = 0 ∧ at' 2 = 0 then some (.timenow g (sr (at' 0))) else none
    | _ => none
  | .s2k =>
    match minor with
    | 1 => some (.lih g (sr (at' 0)) (sr (at' 1)) (BitVec.ofNat 6 (at' 2)))
    | 6 => some (.sext g (sr (at' 0)) (sr (at' 1)) (BitVec.ofNat 6 (at' 2)))
    | 7 => some (.zext g (sr (at' 0)) (sr (at' 1)) (BitVec.ofNat 6 (at' 2)))
    | _ => none
  | .cp => (Cond.ofCode minor).map fun c => .cmpReg g c (pr (at' 0)) (pr (at' 1)) (sr (at' 2)) (sr (at' 3))
  | .pl => buildPred g minor (at' 0) (at' 1) (at' 2) (at' 3)
  | .j16 =>
    match minor with
    | 0 => some (.brJ16 g (BitVec.ofNat 11 (at' 0)) (BitVec.ofNat 5 (at' 1)))
    | 1 => some (.callJ16 g (BitVec.ofNat 11 (at' 0)) (BitVec.ofNat 5 (at' 1)))
    | _ => none
  | .tk => some (.take g (sr (at' 0)) (sr (at' 1)) (pr (at' 2)))
  | .v4 =>
    (Ty.ofCode (at' 3)).bind fun ty =>
      match major with
      | 0x20 => buildVArith g minor (vr (at' 0)) (vr (at' 1)) (vr (at' 2)) ty
      | 0x22 => (VCond.ofCode minor).map fun c => .vcmp g c (vr (at' 0)) (vr (at' 1)) (vr (at' 2)) ty
      | 0x25 => buildVPerm g minor (vr (at' 0)) (vr (at' 1)) (vr (at' 2)) ty
      | _ => none
  | .vc =>
    (Ty.ofCode (at' 2)).bind fun d => (Ty.ofCode (at' 3)).bind fun s => buildVCvt g minor (vr (at' 0)) (vr (at' 1)) d s
  | .vs => (Ty.ofCode (at' 2)).map fun ty => .vbcast g (vr (at' 0)) (sr (at' 1)) ty
  | .vss => some (.twid g (vr (at' 0)) (sr (at' 1)) (sr (at' 2)))
  | .vq => (Ty.ofCode (at' 2)).bind fun ty => buildVRed g minor (sr (at' 0)) (vr (at' 1)) ty
  | .fn => (Scope.ofCode (at' 0)).bind fun sc => (Order.ofCode (at' 1)).map fun o => .fence g sc o
  | .ba =>
    match minor with
    | 0 => some (.barset g (Fin.ofNat 8 (at' 0)) (sr (at' 1)) (at' 2 == 1))
    | 1 => if at' 1 = 0 then some (.barv g (Fin.ofNat 8 (at' 0)) (at' 2 == 1)) else none
    | _ => none
  | .cb => some (.cbadv g (Fin.ofNat 16 (at' 0)) (sr (at' 1)) (at' 2 == 1))
  | .aq => (AccSel.ofFields (at' 0) (at' 1)).map fun s => .mzero g s
  | .k16 => some (.trap g (BitVec.ofNat 16 (at' 0)))
  | .i22 =>
    match major with
    | 0x01 => buildScalarImm g minor (sr (at' 0)) (sr (at' 1)) (BitVec.ofNat 22 (at' 2))
    | 0x12 => (LdTy.ofCode minor).map fun ty => .ldt g ty (Fin.ofNat 32 (at' 0)) (sr (at' 1)) (BitVec.ofNat 22 (at' 2))
    | _ => none
  | .ci => (Cond.ofCode minor).map fun c => .cmpImm g c (pr (at' 0)) (pr (at' 1)) (sr (at' 2)) (BitVec.ofNat 21 (at' 3))
  | .l27 =>
    match minor with
    | 0 => some (.liL27 g (sr (at' 0)) (BitVec.ofNat 27 (at' 1)))
    | 2 => some (.addpc g (sr (at' 0)) (BitVec.ofNat 27 (at' 1)))
    | _ => none
  | .sl => some (.sel g (sr (at' 0)) (pr (at' 3)) (sr (at' 1)) (sr (at' 2)))
  | .j32 =>
    match minor with
    | 0 => some (.brJ32 g (BitVec.ofNat 27 (at' 0)) (BitVec.ofNat 5 (at' 1)))
    | 1 => some (.callJ32 g (BitVec.ofNat 27 (at' 0)) (BitVec.ofNat 5 (at' 1)))
    | _ => none
  | .jc => some (.brc g (sr (at' 0)) (BitVec.ofNat 22 (at' 1)) (BitVec.ofNat 5 (at' 2)))
  | .m =>
    (Scope.ofCode (at' 2)).bind fun sc => (Order.ofCode (at' 3)).bind fun o =>
      match major with
      | 0x10 => (LdTy.ofCode minor).map fun ty => .ld g ty (sr (at' 0)) (sr (at' 1)) sc o (BitVec.ofNat 17 (at' 4))
      | 0x11 => (StTy.ofCode minor).map fun ty => .st g ty (sr (at' 0)) (sr (at' 1)) sc o (BitVec.ofNat 17 (at' 4))
      | _ => none
  | .mv =>
    match major, minor with
    | 0x11, 4 => some (.stw g (vr (at' 0)) (sr (at' 1)) (BitVec.ofNat 17 (at' 3)))
    | 0x26, 0 => some (.vld g (vr (at' 0)) (sr (at' 1)) (BitVec.ofNat 17 (at' 3)))
    | 0x26, 1 => some (.vst g (vr (at' 0)) (sr (at' 1)) (BitVec.ofNat 17 (at' 3)))
    | _, _ => none
  | .xs =>
    match minor with
    | 5 => some (.xst g .w32 (sr (at' 0)) (sr (at' 1)) (sr (at' 2)) (BitVec.ofNat 17 (at' 3)))
    | 6 => some (.xst g .w64 (sr (at' 0)) (sr (at' 1)) (sr (at' 2)) (BitVec.ofNat 17 (at' 3)))
    | _ => none
  | .at =>
    (Scope.ofCode (at' 4)).bind fun sc => (Order.ofCode (at' 5)).bind fun o => (AUse.ofCode (at' 6)).bind fun u =>
      (Wd.ofCode (at' 7)).bind fun wd => buildAtomic g major minor (at' 0) (at' 1) (at' 2) (at' 3) sc o u wd
  | .vf =>
    (Ty.ofCode (at' 4)).bind fun ty =>
      match major, minor with
      | 0x21, k => buildVFma g k (vr (at' 0)) (vr (at' 1)) (vr (at' 2)) (vr (at' 3)) ty
      | 0x22, 5 => some (.vsel g (vr (at' 0)) (vr (at' 1)) (vr (at' 2)) (vr (at' 3)) ty)
      | 0x27, 0 => some (.bfly2 g (vr (at' 0)) (vr (at' 1)) (vr (at' 2)) (vr (at' 3)) ty)
      | 0x27, 1 => if at' 2 = 0 then some (.bfly4 g (vr (at' 0)) (vr (at' 1)) (vr (at' 3)) ty) else none
      | _, _ => none
  | .rn => (Ty.ofCode (at' 4)).map fun ty => .rand g (vr (at' 0)) (sr (at' 1)) (sr (at' 2)) (sr (at' 3)) ty
  | .vx =>
    (Ty.ofCode (at' 2)).bind fun ty =>
      match minor with
      | 4 => some (.vextr g (sr (at' 0)) (vr (at' 1)) ty (BitVec.ofNat 6 (at' 3)))
      | 5 => some (.vins g (sr (at' 0)) (vr (at' 1)) ty (BitVec.ofNat 6 (at' 3)))
      | _ => none
  | .cr =>
    (Ctl.ofCode (at' 1)).bind fun c =>
      match minor with
      | 2 => some (.ctlrd g (sr (at' 0)) c) | 3 => some (.ctlwr g (sr (at' 0)) c) | _ => none
  | .mr =>
    (AccSel.ofFields (at' 0) (at' 4)).bind fun s => (Ty.ofCode (at' 2)).bind fun ty =>
      match minor with
      | 4 => some (.mrd g s (sr (at' 1)) ty (at' 3 == 1)) | 5 => some (.mwr g s (sr (at' 1)) ty (at' 3 == 1)) | _ => none
  | .l59 => some (.liL59 g (sr (at' 0)) (BitVec.ofNat 59 (at' 1)))
  | .mm =>
    (AccSel.ofFields (at' 0) (at' 1)).bind fun s => (MMode.ofCode (at' 5)).bind fun mode =>
      (Blk.ofCode (at' 6)).bind fun ka => (Blk.ofCode (at' 7)).bind fun kb =>
        buildMM g minor ⟨s, sr (at' 2), sr (at' 3), sr (at' 4), mode, ka, kb, sr (at' 8)⟩

/-- Whether the field marked Z is zero (R36, third item). -/
def Fmt.zOk (f : Fmt) (x : List Nat) : Bool :=
  match f.zAt with
  | some i => x.getD i 0 == 0
  | none => true

/-- Reads a head and its tail (both as numbers), or names the reason it is undefined (R36). -/
def decodeHead (head tail : Nat) : Except DecodeError Instr :=
  let major := head / 1024 % 64
  let tl := head / 256 % 4
  let g : Guard := ⟨Fin.ofNat 8 (head / 32), head / 16 % 2 == 1⟩
  let minor := head % 16
  match cellFmts major minor with
  | [] => .error .unassigned
  | fs =>
    match fs.find? (fun f => f.tl == tl) with
    | none => .error .tailLength
    | some f =>
      let x := unpack f.widths tail
      if f.zOk x then
        match build f g major minor x with
        | none => .error .reservedField
        | some i => if i.wf then .ok i else .error .combination
      else .error .nonzeroZ

/-- A head instruction before it is packed: guard, major, minor, format and field values. -/
structure Raw where
  g : Guard
  major : Nat
  minor : Nat
  fmt : Fmt
  fields : List Nat
  deriving DecidableEq, Repr

def rawS3 (g : Guard) (major minor : Nat) (a b c : SReg) : Raw := ⟨g, major, minor, .s3, [a.val, b.val, c.val, 0]⟩
def rawI22 (g : Guard) (minor : Nat) (d a : SReg) (i : BitVec 22) : Raw := ⟨g, 0x01, minor, .i22, [d.val, a.val, i.toNat]⟩
def rawPl (g : Guard) (minor : Nat) (d a b : PReg) (s : SReg) : Raw := ⟨g, 0x04, minor, .pl, [d.val, a.val, b.val, s.val, 0]⟩
def rawV4 (g : Guard) (major minor : Nat) (d a b : VReg) (ty : Ty) : Raw :=
  ⟨g, major, minor, .v4, [d.val, a.val, b.val, ty.code]⟩
def rawVf (g : Guard) (major minor : Nat) (d a b c : VReg) (ty : Ty) : Raw :=
  ⟨g, major, minor, .vf, [d.val, a.val, b.val, c.val, ty.code, 0]⟩
def rawVc (g : Guard) (minor : Nat) (d a : VReg) (x y : Ty) : Raw := ⟨g, 0x23, minor, .vc, [d.val, a.val, x.code, y.code]⟩
def rawVq (g : Guard) (minor : Nat) (d : SReg) (a : VReg) (ty : Ty) : Raw := ⟨g, 0x24, minor, .vq, [d.val, a.val, ty.code, 0]⟩
def rawMM (g : Guard) (minor : Nat) (m : MMOps) : Raw :=
  ⟨g, 0x30, minor, .mm, [m.acc.acc, m.acc.w, m.sa.val, m.sb.val, m.sk.val, m.mode.code, m.bka.code, m.bkb.code, m.sx.val, 0]⟩
def rawMr (g : Guard) (minor : Nat) (acc : AccSel) (a : SReg) (ty : Ty) (raw : Bool) : Raw :=
  ⟨g, 0x30, minor, .mr, [acc.acc, a.val, ty.code, raw.toNat, acc.w, 0]⟩
def rawMv (g : Guard) (major minor : Nat) (v : VReg) (a : SReg) (i : BitVec 17) : Raw :=
  ⟨g, major, minor, .mv, [v.val, a.val, 0, i.toNat]⟩

/-- The cell, format and field values of a head instruction; none for an event. -/
def Instr.raw : Instr → Option Raw
  | .addReg g d a b => some (rawS3 g 0 0 d a b)
  | .subReg g d a b => some (rawS3 g 0 1 d a b)
  | .mulReg g d a b => some (rawS3 g 0 2 d a b)
  | .mulhReg g d a b => some (rawS3 g 0 3 d a b)
  | .mulhzReg g d a b => some (rawS3 g 0 4 d a b)
  | .divsReg g d a b => some (rawS3 g 0 5 d a b)
  | .divzReg g d a b => some (rawS3 g 0 6 d a b)
  | .remsReg g d a b => some (rawS3 g 0 7 d a b)
  | .remzReg g d a b => some (rawS3 g 0 8 d a b)
  | .andReg g d a b => some (rawS3 g 0 9 d a b)
  | .orReg g d a b => some (rawS3 g 0 10 d a b)
  | .xorReg g d a b => some (rawS3 g 0 11 d a b)
  | .andnReg g d a b => some (rawS3 g 0 12 d a b)
  | .shlReg g d a b => some (rawS3 g 0 13 d a b)
  | .shrzReg g d a b => some (rawS3 g 0 14 d a b)
  | .shrsReg g d a b => some (rawS3 g 0 15 d a b)
  | .addImm g d a i => some (rawI22 g 0 d a i)
  | .subImm g d a i => some (rawI22 g 1 d a i)
  | .mulImm g d a i => some (rawI22 g 2 d a i)
  | .mulhImm g d a i => some (rawI22 g 3 d a i)
  | .mulhzImm g d a i => some (rawI22 g 4 d a i)
  | .divsImm g d a i => some (rawI22 g 5 d a i)
  | .divzImm g d a i => some (rawI22 g 6 d a i)
  | .remsImm g d a i => some (rawI22 g 7 d a i)
  | .remzImm g d a i => some (rawI22 g 8 d a i)
  | .andImm g d a i => some (rawI22 g 9 d a i)
  | .orImm g d a i => some (rawI22 g 10 d a i)
  | .xorImm g d a i => some (rawI22 g 11 d a i)
  | .andnImm g d a i => some (rawI22 g 12 d a i)
  | .shlImm g d a i => some (rawI22 g 13 d a i)
  | .shrzImm g d a i => some (rawI22 g 14 d a i)
  | .shrsImm g d a i => some (rawI22 g 15 d a i)
  | .cmpReg g c pd pe a b => some ⟨g, 0x02, c.code, .cp, [pd.val, pe.val, a.val, b.val]⟩
  | .cmpImm g c pd pe a i => some ⟨g, 0x03, c.code, .ci, [pd.val, pe.val, a.val, i.toNat]⟩
  | .pand g pd pa pb => some (rawPl g 0 pd pa pb 0)
  | .por g pd pa pb => some (rawPl g 1 pd pa pb 0)
  | .pxor g pd pa pb => some (rawPl g 2 pd pa pb 0)
  | .pandn g pd pa pb => some (rawPl g 3 pd pa pb 0)
  | .pnot g pd pa => some (rawPl g 4 pd pa 0 0)
  | .prd g d => some (rawPl g 5 0 0 0 d)
  | .pwr g a => some (rawPl g 6 0 0 0 a)
  | .sel g d pc a b => some ⟨g, 0x04, 7, .sl, [d.val, a.val, b.val, pc.val, 0]⟩
  | .liL27 g d i => some ⟨g, 0x05, 0, .l27, [d.val, i.toNat]⟩
  | .liL59 g d i => some ⟨g, 0x05, 0, .l59, [d.val, i.toNat]⟩
  | .lih g d a k => some ⟨g, 0x05, 1, .s2k, [d.val, a.val, k.toNat]⟩
  | .addpc g d i => some ⟨g, 0x05, 2, .l27, [d.val, i.toNat]⟩
  | .clz g d a => some (rawS3 g 0x05 3 d a 0)
  | .ctz g d a => some (rawS3 g 0x05 4 d a 0)
  | .popc g d a => some (rawS3 g 0x05 5 d a 0)
  | .sext g d a k => some ⟨g, 0x05, 6, .s2k, [d.val, a.val, k.toNat]⟩
  | .zext g d a k => some ⟨g, 0x05, 7, .s2k, [d.val, a.val, k.toNat]⟩
  | .min g u d a b => some (rawS3 g 0x05 (8 + 2 * u.toNat) d a b)
  | .max g u d a b => some (rawS3 g 0x05 (9 + 2 * u.toNat) d a b)
  | .brJ16 g o h => some ⟨g, 0x06, 0, .j16, [o.toNat, h.toNat]⟩
  | .brJ32 g o h => some ⟨g, 0x06, 0, .j32, [o.toNat, h.toNat]⟩
  | .callJ16 g o h => some ⟨g, 0x06, 1, .j16, [o.toNat, h.toNat]⟩
  | .callJ32 g o h => some ⟨g, 0x06, 1, .j32, [o.toNat, h.toNat]⟩
  | .brReg g b => some (rawS3 g 0x06 2 0 b 0)
  | .callReg g b => some (rawS3 g 0x06 3 0 b 0)
  | .ret g => some ⟨g, 0x06, 4, .n, []⟩
  | .brc g c o h => some ⟨g, 0x06, 5, .jc, [c.val, o.toNat, h.toNat]⟩
  | .ld g ty d a sc o i => some ⟨g, 0x10, ty.code, .m, [d.val, a.val, sc.code, o.code, i.toNat]⟩
  | .st g ty d a sc o i => some ⟨g, 0x11, ty.code, .m, [d.val, a.val, sc.code, o.code, i.toNat]⟩
  | .stw g v a i => some (rawMv g 0x11 4 v a i)
  | .xst g wd x c o i => some ⟨g, 0x11, 5 + wd.code, .xs, [x.val, c.val, o.val, i.toNat]⟩
  | .ldt g ty t a i => some ⟨g, 0x12, ty.code, .i22, [t.val, a.val, i.toNat]⟩
  | .take g d k pd => some ⟨g, 0x12, 8, .tk, [d.val, k.val, pd.val, 0]⟩
  | .amo g op a b sc o u wd => some ⟨g, 0x13, op.code, .at, [0, a.val, b.val, 0, sc.code, o.code, u.code, wd.code, 0]⟩
  | .amor g op d a b sc o u wd => some ⟨g, 0x14, op.code, .at, [d.val, a.val, b.val, 0, sc.code, o.code, u.code, wd.code, 0]⟩
  | .amorCas g d a b c sc o u wd =>
    some ⟨g, 0x14, 10, .at, [d.val, a.val, b.val, c.val, sc.code, o.code, u.code, wd.code, 0]⟩
  | .addw g a b => some (rawS3 g 0x15 0 a b 0)
  | .fence g sc o => some ⟨g, 0x15, 1, .fn, [sc.code, o.code, 0]⟩
  | .rflush g => some ⟨g, 0x15, 2, .n, []⟩
  | .wdrain g => some ⟨g, 0x15, 3, .n, []⟩
  | .vadd g d a b ty => some (rawV4 g 0x20 0 d a b ty)
  | .vsub g d a b ty => some (rawV4 g 0x20 1 d a b ty)
  | .vmul g d a b ty => some (rawV4 g 0x20 2 d a b ty)
  | .vmin g d a b ty => some (rawV4 g 0x20 3 d a b ty)
  | .vmax g d a b ty => some (rawV4 g 0x20 4 d a b ty)
  | .vabs g d a ty => some (rawV4 g 0x20 5 d a 0 ty)
  | .vneg g d a ty => some (rawV4 g 0x20 6 d a 0 ty)
  | .vand g d a b ty => some (rawV4 g 0x20 7 d a b ty)
  | .vor g d a b ty => some (rawV4 g 0x20 8 d a b ty)
  | .vxor g d a b ty => some (rawV4 g 0x20 9 d a b ty)
  | .vshl g d a b ty => some (rawV4 g 0x20 10 d a b ty)
  | .vshr g d a b ty => some (rawV4 g 0x20 11 d a b ty)
  | .vdiv g d a b ty => some (rawV4 g 0x20 12 d a b ty)
  | .vsqrt g d a ty => some (rawV4 g 0x20 13 d a 0 ty)
  | .vadds g d a b ty => some (rawV4 g 0x20 14 d a b ty)
  | .vsubs g d a b ty => some (rawV4 g 0x20 15 d a b ty)
  | .vfma g d a b c ty => some (rawVf g 0x21 0 d a b c ty)
  | .vfms g d a b c ty => some (rawVf g 0x21 1 d a b c ty)
  | .vfnma g d a b c ty => some (rawVf g 0x21 2 d a b c ty)
  | .vfnms g d a b c ty => some (rawVf g 0x21 3 d a b c ty)
  | .vcmp g c d a b ty => some (rawV4 g 0x22 c.code d a b ty)
  | .vsel g d a b c ty => some (rawVf g 0x22 5 d a b c ty)
  | .vcvt g d a x y => some (rawVc g 0 d a x y)
  | .vcvtz g d a x y => some (rawVc g 1 d a x y)
  | .vcvthi g d a x y => some (rawVc g 2 d a x y)
  | .vcvtzhi g d a x y => some (rawVc g 3 d a x y)
  | .vredadd g d a ty => some (rawVq g 0 d a ty)
  | .vredmin g d a ty => some (rawVq g 1 d a ty)
  | .vredmax g d a ty => some (rawVq g 2 d a ty)
  | .vredand g d a ty => some (rawVq g 3 d a ty)
  | .vredor g d a ty => some (rawVq g 4 d a ty)
  | .vperm g d a b ty => some (rawV4 g 0x25 0 d a b ty)
  | .vzip g d a b ty => some (rawV4 g 0x25 1 d a b ty)
  | .vunzip g d a b ty => some (rawV4 g 0x25 2 d a b ty)
  | .vbcast g d a ty => some ⟨g, 0x25, 3, .vs, [d.val, a.val, ty.code, 0]⟩
  | .vextr g d v ty l => some ⟨g, 0x25, 4, .vx, [d.val, v.val, ty.code, l.toNat, 0]⟩
  | .vins g x v ty l => some ⟨g, 0x25, 5, .vx, [x.val, v.val, ty.code, l.toNat, 0]⟩
  | .vld g v a i => some (rawMv g 0x26 0 v a i)
  | .vst g v a i => some (rawMv g 0x26 1 v a i)
  | .bfly2 g d a b c ty => some (rawVf g 0x27 0 d a b c ty)
  | .bfly4 g d a c ty => some (rawVf g 0x27 1 d a 0 c ty)
  | .twid g d a b => some ⟨g, 0x27, 2, .vss, [d.val, a.val, b.val, 0]⟩
  | .rand g d a b c ty => some ⟨g, 0x27, 3, .rn, [d.val, a.val, b.val, c.val, ty.code, 0]⟩
  | .mma g m => some (rawMM g 0 m)
  | .mmag g m => some (rawMM g 1 m)
  | .mconv g m => some (rawMM g 2 m)
  | .mldw g w a n => some (rawS3 g 0x30 3 w a n)
  | .mrd g acc a ty raw => some (rawMr g 4 acc a ty raw)
  | .mwr g acc a ty raw => some (rawMr g 5 acc a ty raw)
  | .mspill g a m => some (rawS3 g 0x30 6 a m 0)
  | .mfill g a m => some (rawS3 g 0x30 7 a m 0)
  | .ctload g e a n => some (rawS3 g 0x30 8 e a n)
  | .ctswap g => some ⟨g, 0x30, 9, .n, []⟩
  | .mzero g acc => some ⟨g, 0x30, 10, .aq, [acc.acc, acc.w, 0]⟩
  | .tspawn g a b => some (rawS3 g 0x38 0 a b 0)
  | .tdec g a b => some (rawS3 g 0x38 1 a b 0)
  | .twatch g a b => some (rawS3 g 0x38 2 a b 0)
  | .tend g => some ⟨g, 0x38, 3, .n, []⟩
  | .tunwatch g a => some (rawS3 g 0x38 4 a 0 0)
  | .cbadv g cb a p => some ⟨g, 0x38, 5, .cb, [cb.val, a.val, p.toNat, 0]⟩
  | .send g a b => some (rawS3 g 0x39 0 a b 0)
  | .xcopy g a b => some (rawS3 g 0x39 1 a b 0)
  | .xgather g a b => some (rawS3 g 0x39 2 a b 0)
  | .xpref g a b => some (rawS3 g 0x39 3 a b 0)
  | .xcoll g a b => some (rawS3 g 0x39 4 a b 0)
  | .resume g a b c => some (rawS3 g 0x39 5 a b c)
  | .barset g bn a t => some ⟨g, 0x3A, 0, .ba, [bn.val, a.val, t.toNat, 0]⟩
  | .barv g bn t => some ⟨g, 0x3A, 1, .ba, [bn.val, 0, t.toNat, 0]⟩
  | .trap g code => some ⟨g, 0x3B, 0, .k16, [code.toNat]⟩
  | .rte g => some ⟨g, 0x3B, 1, .n, []⟩
  | .ctlrd g d c => some ⟨g, 0x3B, 2, .cr, [d.val, c.code, 0]⟩
  | .ctlwr g x c => some ⟨g, 0x3B, 3, .cr, [x.val, c.code, 0]⟩
  | .timenow g d => some (rawS3 g 0x3B 4 d 0 0)
  | .nop g => some ⟨g, 0x3B, 5, .n, []⟩
  | _ => none

/-- Head value of R29. -/
def Raw.head (r : Raw) : Nat := r.major * 1024 + r.fmt.tl * 256 + r.g.gp.val * 32 + r.g.gn.toNat * 16 + r.minor

/-- Tail value of R38. -/
def Raw.tail (r : Raw) : Nat := pack r.fmt.widths r.fields

/-- The head, tail length code and tail of a head instruction (R29, R38); none for an event, which has no encoding. -/
def encode (i : Instr) : Option (Nat × Nat × Nat) := i.raw.map fun r => (r.head, r.fmt.tl, r.tail)

/-- Bytes of a tail of length code tl (R30). -/
def tailBytes (tl : Nat) : Nat := if tl = 0 then 0 else 2 ^ tl

/-- Little-endian bytes of a number (R4). -/
def bytesOf (n x : Nat) : List Byte := (List.range n).map fun i => BitVec.ofNat 8 (x / 2 ^ (8 * i))

/-- The number that little-endian bytes hold (R4). -/
def numOf : List Byte → Nat
  | [] => 0
  | b :: bs => b.toNat + 256 * numOf bs

/-- A code line (R28 to R31) read into its heads and tails, in head order. -/
structure CodeLine where
  count : Nat
  heads : List (Nat × Nat)
  deriving DecidableEq, Repr

/-- Why a line is malformed (R31). -/
inductive LineError where
  | kind | zeroCount | reserved | overlap | padding
  deriving DecidableEq, Repr

/-- Heads and tails from byte pos of the line upward, tails from top downward (R30). -/
def lineHeads (bs : List Byte) : Nat → Nat → Nat → List (Nat × Nat) × Nat
  | 0, _, top => ([], top)
  | k + 1, pos, top =>
    let head := numOf ((bs.drop pos).take 2)
    let size := tailBytes (head / 256 % 4)
    let base := top - size
    let rest := lineHeads bs k (pos + 2) base
    ((head, numOf ((bs.drop base).take size)) :: rest.1, rest.2)

/-- Sum of the tail sizes of the heads from byte pos upward (R31: T). -/
def lineTails (bs : List Byte) : Nat → Nat → Nat
  | 0, _ => 0
  | k + 1, pos => tailBytes (numOf ((bs.drop pos).take 2) / 256 % 4) + lineTails bs k (pos + 2)

/-- Reads the 64 bytes of a line; a malformed line is named by the first test of R31 that it fails. -/
def decodeLine (bs : List Byte) : Except LineError CodeLine :=
  let header := numOf (bs.take 2)
  let count := header % 32
  if header / 32 % 8 ≠ 0 then .error .kind
  else if count = 0 then .error .zeroCount
  else if header / 256 ≠ 0 then .error .reserved
  else if 2 * count + lineTails bs count 2 > 62 then .error .overlap
  else
    let (heads, top) := lineHeads bs count 2 64
    if ((bs.drop (2 + 2 * count)).take (top - (2 + 2 * count))).any (fun b => b ≠ 0) then .error .padding
    else .ok ⟨count, heads⟩

/-- A line that holds the given heads and tails, packed by R30, with zero padding. -/
def encodeLine (hs : List (Nat × Nat × Nat)) : List Byte :=
  let heads := hs.flatMap fun h => bytesOf 2 h.1
  let tails := (hs.map fun h => bytesOf (tailBytes h.2.1) h.2.2).reverse.flatten
  bytesOf 2 hs.length ++ heads ++ List.replicate (62 - heads.length - tails.length) 0 ++ tails

/-- The one-head line of a number as spec/opcode_table.json numbers it: the head in the top 16 of nbits bits, the tail
below it; tail bits the number does not reach are zero. -/
def tableLine (nbits w : Nat) : List Byte :=
  let below := nbits - 16
  let head := w / 2 ^ below % 65536
  encodeLine [(head, head / 256 % 4, w % 2 ^ below)]

/-- The instruction that the decoder reads from such a number: the line is laid out, read and its head decoded. -/
def decodeTableWord (nbits w : Nat) : Option Instr :=
  match decodeLine (tableLine nbits w) with
  | .error _ => none
  | .ok l =>
    match l.heads with
    | (head, tail) :: _ => (decodeHead head tail).toOption
    | [] => none

end Sys2Proof
end

