-- ==== Sys2Proof/Config.lean ====
section
/-! DEFINITION. What an implementation fixes, and the values the spec leaves to what lies outside the device. An opaque
constant has no body: no proof sees its value. -/

namespace Sys2Proof.Config

/-- Threads of a core (R14). -/
def threads : Nat := 8
/-- Columns and rows of the grid (R9). -/
def gridSide : Nat := 48
/-- Scratchpad bytes (R14). -/
def spadBytes : Nat := 0x20000
/-- Run-queue entries (R269). -/
def runQueue : Nat := 64
/-- Task-inbox depth (R19). -/
def taskInbox : Nat := 16
/-- Copy-engine inbox depth (R19). -/
def copyInbox : Nat := 64
/-- Bulk-prefetch inbox depth (R19). -/
def prefInbox : Nat := 16
/-- Collective-engine inbox depth (R19). -/
def collInbox : Nat := 32
/-- Copy-engine operations a core may have in flight (R19, R221). -/
def copyFlight : Nat := 128
/-- Aggregation buffers of a core, and elements of a buffer (R14, R109). -/
def aggBuffers : Nat := 16
def aggElems : Nat := 4
/-- Fault-log elements of a core (R114). -/
def faultLog : Nat := 64
/-- Watches a core may hold (R215). -/
def watches : Nat := 16
/-- Matrix instructions the unit holds (R189). -/
def matrixHeld : Nat := 4
/-- Lines of a budget queue (R247). -/
def budgetQueue : Nat := 32
/-- First-level TLB entries (R313). -/
def tlbEntries : Nat := 512
/-- TRAPQ entries (R343) and POISONLOG entries (R354). -/
def trapq : Nat := 4096
def poisonLog : Nat := 256
/-- Replay-buffer flits, and replays of one flit before retraining (R323). -/
def replayFlits : Nat := 1024
def replayLimit : Nat := 16
/-- How long a chosen pair waits, in ns (R289). -/
def swapWait : Nat := 5000

/-- What the device's own engines, walker and distributor read at a word of another device's memory: that device answers, outside
this model. The first argument is the count of things in flight so far, so that no two moments need agree (log 6, DESIGN CHOICE).
-/
opaque remoteWord : Nat → Nat → Word

/-- The epoch that a wake carries when a task of the group writes the watched word: the spec states none (R125, log 8, DESIGN
CHOICE). -/
opaque wakeEpoch : BitVec 32 → BitVec 32

/-- Width field of a fault-log element whose operation has no width code (R344, log 9, DESIGN CHOICE). -/
opaque logWidth : Nat → BitVec 2

/-- Whether a load of a stable page uses a copy that the device holds, at a moment and a line (R123, R314, log 10, DESIGN CHOICE). -/
opaque stableHit : Nat → Nat → Bool

/-- Whether a host or link-peer read sees a queued line early through a home-slice copy (R117, log 11, DESIGN CHOICE). -/
opaque earlyView : Nat → Nat → Bool

/-- Whether a granule past the failing step of a copy was written by a step in flight (R225, log 12, DESIGN CHOICE). -/
opaque copyRace : Nat → Nat → Bool

/-- Which of the versions that R43 allows of a code line stored to in its own kernel a fetch executes (log 5, DESIGN CHOICE): by
the cycle and the line's address. -/
opaque codeVersion : Nat → Nat → Nat

/-- Whether a read that is answered at once, of another device's memory or of the host's, is refused or completed with an error,
at a moment and an address (R330, R337; log 6, DESIGN CHOICE). -/
opaque readFails : Nat → Nat → Bool

/-- Whether the compare-and-swap of a walker on a leaf of another device fails, because that leaf has been written since it was
read, at a moment and an address (R312; log 6, DESIGN CHOICE). -/
opaque swapFails : Nat → Nat → Bool

/-- The packets beyond the first that a port may have unacknowledged on a channel (R323; log 42, DESIGN CHOICE). -/
opaque linkCredits : Nat → Nat → Nat

/-- The hash that chooses a port of a set by a line or a destination core (R328; log 42, DESIGN CHOICE). -/
opaque portHash : Nat → Nat

/-- SHA-256 (R356, R360), left uninterpreted (log 7, DESIGN CHOICE). -/
opaque sha256 : List Byte → BitVec 256

/-- Whether an SLH-DSA-SHA2-192s signature verifies: public key, signed bytes, signature (R356); uninterpreted (log 7, DESIGN
CHOICE). -/
opaque sigValid : BitVec 384 → List Byte → List Byte → Bool

/-- The device's SLH-DSA-SHA2-192s signature over the bytes of a report (R360); uninterpreted (log 7, DESIGN CHOICE). -/
opaque sign : List Byte → List Byte

/-- The identity public key derived from the fused seed (R360); uninterpreted (log 7, DESIGN CHOICE). -/
opaque identityKey : BitVec 384

end Sys2Proof.Config
end

