-- ==== Sys2Proof/Machine/State.lean ====
section
/-! DEFINITION. The state of the NY4 as plain data: threads, cores, contexts, the units between them, the management
registers, and the model's own bookkeeping (04_state R58 to R74 and the object chapters). State.reset is the machine at
power-on. Where the spec gives no reset value, log entry 1 names it; the model's own fields are of log entry 2. -/

namespace Sys2Proof.Machine

/-- A TLB entry (R313): context, virtual base and size of the page, its leaf's fields and the window check. -/
structure TlbEnt where
  ctx : CtxId
  vbase : Nat
  size : Nat
  pbase : Nat
  rd : Bool
  wrt : Bool
  exe : Bool
  win : Bool
  stable : Bool
  chk : Bool
  wlc : Nat
  plc : Nat
  parg : Nat
  deriving DecidableEq, Repr

/-- Where a checked access goes: an offset of the own local window, one of a virtual core's scratchpad, or a global physical
address with the page that gave it (R99, R148). -/
inductive Tgt where
  | loc (off : Nat)
  | peer (vx vy off : Nat)
  | mem (gpa : Nat) (e : TlbEnt)
  deriving DecidableEq, Repr

/-- States of a landing slot (R62). -/
inductive SlotSt where
  | free | armed | landed | faulted
  deriving DecidableEq, Repr

/-- A landing slot (R61). addr is the effective address that the LDT formed; its bits 63:57 are checked when the load is
performed (R157). id orders its load among the accesses of its thread (R158; log 2, DESIGN CHOICE); at' is the cycle in which it
left ARMED (R61). -/
structure Slot where
  id : Nat
  st : SlotSt
  addr : Word
  ty : LdTy
  val : Word
  cause : Option Cause
  at' : Nat
  deriving DecidableEq, Repr

def Slot.empty : Slot := ⟨0, .free, 0, .s8, 0, none, 0⟩

/-- A landing set and its arrival order (R61). -/
structure Landing where
  slots : Vector Slot 32
  order : List Tag
  deriving DecidableEq, Repr

def Landing.empty : Landing := ⟨Vector.replicate 32 Slot.empty, []⟩

/-- Thread control registers (R70). TASKREC and XFERID are set at the firing. -/
structure Ctrl where
  trapcause : BitVec 8
  trapaddr : Word
  trappc : Pc
  taketag : BitVec 5
  xferid : BitVec 32
  wovf : Bool
  wbud : Bool
  fmta : BitVec 5
  fmtb : BitVec 5
  scla : BitVec 57
  sclb : BitVec 57
  fade : BitVec 32
  taskrec : BitVec 57
  deriving DecidableEq, Repr

/-- The reset values of R70. -/
def Ctrl.reset : Ctrl := ⟨0, 0, 0, 0, 0, false, false, 2, 2, 0, 0, 0x3F800000, 0⟩

/-- What a fault-log entry does when it is sent again (R114, R115). -/
inductive Redo where
  | element (id : Nat)
  | decrement (recAddr : Nat) (n : Nat) (epoch : BitVec 32)
  | status (addr : Nat) (line : Line)
  | write (gpa : Nat) (bytes : List Byte)
  deriving DecidableEq, Repr

/-- Operation of an aggregated element (R109): an XST with target, offset, bytes and stamp, or a posted atomic. -/
inductive ElOp where
  | xst (vx vy off n : Nat) (val : Word) (stamp : Nat)
  | amo (op : AOp) (wd : Wd) (b : Word) (use : AUse)
  deriving DecidableEq, Repr

/-- Destination of an aggregation buffer (R109): a core, a home slice, or another device and endpoint. -/
inductive Dest where
  | core (vx vy : Nat)
  | slice (cluster : Nat)
  | device (dev endpoint : Nat)
  deriving DecidableEq, Repr

/-- Where an element stands: in a buffer, on its way, held at the target's router port (R120), or applied and not yet
acknowledged (R112). -/
inductive ElSt where
  | buffered | flight | held | applied
  deriving DecidableEq, Repr

/-- One issuer of accesses: context, virtual core, thread, firing, its record, kernel and epoch, and whether its record is
resident (R115, R125, R126, R284). -/
structure Who where
  ctx : CtxId
  vx : Nat
  vy : Nat
  th : ThreadId
  fid : Nat
  recAddr : Nat
  kid : Option (BitVec 32)
  epoch : BitVec 32
  res : Bool
  deriving DecidableEq, Repr

/-- An aggregated element (R109). gpa is the translated address of an atomic to translated memory; chk says that its home
slice keeps a record for the page (R126), wlc is the page's write-lane class (R315), and merges that the path carried
combining at issue (R107, R326). more is empty, or lists every constituent of a merged request with its issuer and
operand, the element's own first (R107). -/
structure Elem where
  id : Nat
  who : Who
  ea : Word
  gpa : Nat
  chk : Bool
  op : ElOp
  dest : Dest
  st : ElSt
  wlc : Nat
  merges : Bool
  more : List (Nat × Who × Word)
  deriving DecidableEq, Repr

/-- An aggregation buffer: destination, its elements oldest first, the cycle of its first element (R109, R110). -/
structure AggBuf where
  dest : Dest
  elems : List Elem
  born : Nat
  deriving DecidableEq, Repr

/-- An entry of the per-core fault log (R114, R344). -/
structure LogEntry where
  who : Who
  addr : Word
  cause : Cause
  major : Nat
  minor : Nat
  width : BitVec 2
  operand : Word
  redo : Redo
  elem : Option Elem
  deriving DecidableEq, Repr

/-- Kinds of firing (R270, R276, R115). -/
inductive FKind where
  | counter | handler | message | report | landing
  deriving DecidableEq, Repr

/-- A firing bound to a thread (R271). Allowances are per descriptor (R218); op names the copy of a landing handler (R276);
entry is what a report firing delivers (R115). -/
structure Firing where
  kind : FKind
  fid : Nat
  recAddr : Nat
  kid : Option (BitVec 32)
  epoch : BitVec 32
  role : Nat
  resident : Bool
  bound : Bool
  allowC : AMap Nat
  allowP : AMap Nat
  op : Option Nat
  entry : Option LogEntry
  deriving DecidableEq, Repr

/-- Destination register of an outstanding delivery (R152, R182). -/
inductive Dst where
  | s (r : SReg)
  | v (r : VReg)
  deriving DecidableEq, Repr

/-- What an outstanding delivery does when it is performed (R152, R162, R182). -/
inductive POp where
  | load (ty : LdTy)
  | vload
  | amor (op : AOp) (wd : Wd) (b : Word)
  | cas (wd : Wd) (b c : Word)
  deriving DecidableEq, Repr

/-- How an outstanding delivery stands: its answer is awaited; it was refused and the trap is still to be taken; it is sent
again at the next RTE (R330); or it is to be sent again as soon as the elements that it overlaps are applied (R113). -/
inductive PSt where
  | waiting
  | refused (c : Cause)
  | retry
  | resend
  deriving DecidableEq, Repr

/-- An outstanding delivery: LD, VLD or AMOR whose value has not been written (R152). tgt is where the checks at its issue
led (R148). remote: the line is another
device's, so REMOTE_ANSWER delivers it. held: the thread waits at the instruction itself (R163). overwritten: the answer was refused
and a later head has written the destination since, so that no value is written over it (R152, log 20, DESIGN CHOICE). -/
structure Pend where
  id : Nat
  dst : Dst
  ea : Word
  tgt : Tgt
  op : POp
  scope : Scope
  order : Order
  use : AUse
  remote : Bool
  held : Bool
  st : PSt
  overwritten : Bool
  deriving DecidableEq, Repr

/-- Thread states (R341); trapping: between the trap and its entry (R339, steps 2 to 4); aborting: parked, and ABORT waits for
its matrix instructions (R343). -/
inductive TState where
  | free | running | routine | parked | stopped | trapping | aborting
  deriving DecidableEq, Repr

/-- A hardware thread (R58, R59). npc is the next PC of the head being executed (log 2, DESIGN CHOICE). savedLs is the landing set
of a trapped firing, in the save area (R339, R365), savedPend its refusals not yet taken. rfid is the firing identity of the trap
routine, ran those of every routine that has run for the firing (R103, R112). elem is the element that REMOTE_FAULT delivered
(R114), take the slot and the PC of the TAKE whose trap is handled (R62, R235). wdrain lists the write-queue entries that a WDRAIN
under way waits for, and says whether every line of its thread's own has entered its queue (R168). code is the line whose heads
the thread executes, as it was read (R43). -/
structure Thread where
  s : Vector Word 32
  p : BitVec 8
  v : Vector Line 16
  pc : Pc
  npc : Pc
  ls : Landing
  savedLs : Landing
  ctl : Ctrl
  st : TState
  firing : Option Firing
  rfid : Nat
  ran : List Nat
  pend : List Pend
  savedPend : List Pend
  elem : Option LogEntry
  take : Option (Tag × Pc)
  wdrain : Option (Bool × List Nat)
  code : Option (Nat × Line)
  age : Nat
  deriving DecidableEq, Repr

/-- A free thread (log 1, DESIGN CHOICE): registers zero, p0 one (R59). -/
def Thread.reset : Thread :=
  ⟨Vector.replicate 32 0, 1, Vector.replicate 16 0, 0, 0, Landing.empty, Landing.empty, Ctrl.reset, .free, none, 0, [], [],
    [], none, none, none, none, 0⟩

/-- A circular-buffer descriptor (R63). -/
structure CbDesc where
  cseq : Nat
  pseq : Nat
  depth : Nat
  esz : Nat
  base : Nat
  en : Bool
  deriving DecidableEq, Repr

def CbDesc.zero : CbDesc := ⟨0, 0, 0, 0, 0, false⟩

/-- A barrier register or tree membership: descriptor (R231), sweep flags (R302), the largest epoch that has arrived
(R125), and whether its arrival was counted at the crown, its descriptor having matched (R300, R301). -/
structure BarReg where
  desc : Word
  arr : Bool
  rin : Bool
  cin : Bool
  fwd : Bool
  epoch : BitVec 32
  counted : Bool
  deriving DecidableEq, Repr

def BarReg.zero : BarReg := ⟨0, false, false, false, false, 0, false⟩

/-- What waits in a ready set beside messages (R270): a counter firing with the epoch it carries, the standing firings of a
bound record, a handler firing with its status line and returned message, or a report firing (R115, R344). -/
inductive RKind where
  | counter (epoch : BitVec 32)
  | bound
  | handler (status returned : Line) (xid : BitVec 32) (epoch : BitVec 32)
  | report (cause : BitVec 8) (addr : Word) (tag : BitVec 5) (entry : Option LogEntry)
  deriving DecidableEq, Repr

/-- An entry of the run queue: the cycle at which it became ready, and its record's address (R269, R270). -/
structure Ready where
  seq : Nat
  recAddr : Nat
  kind : RKind
  deriving DecidableEq, Repr

/-- An accepted message in the task inbox (R224, R270). -/
structure Inbox where
  seq : Nat
  recAddr : Nat
  blk : Line
  epoch : BitVec 32
  deriving DecidableEq, Repr

/-- A record in the run-queue chain of R269 with its chained firings: when each became ready, and its epoch. -/
structure Chained where
  recAddr : Nat
  epochs : List (Nat × BitVec 32)
  deriving DecidableEq, Repr

/-- Power states of a core (R283). -/
inductive Power where
  | awake | gated | waking
  deriving DecidableEq, Repr

/-- A panel that MMAG passes between cores (R199, R200): its owner's format register, K, the rows' bytes at their pitch, the
pitch, and the scale bytes. -/
structure Panel where
  fmt : BitVec 5
  pitch : Nat
  bytes : List Byte
  scales : List Byte
  deriving DecidableEq, Repr

/-- A matrix instruction held by the unit (R189): the head, the register values and control registers sampled at issue
(R71), the code-table bank (R66), the convolution record's words (R201), the panels of an MMAG, the scratchpad extents
(offset, length) it has still to read or to write (R198), the global physical addresses found at issue for a memory extent,
with the class of their pages (R208), and whether it has executed. -/
structure MEntry where
  id : Nat
  who : Who
  instr : Instr
  a : Word
  b : Word
  k : Word
  x : Word
  fmta : BitVec 5
  fmtb : BitVec 5
  scla : BitVec 57
  sclb : BitVec 57
  fade : BitVec 32
  bank : Bool
  shape : List Word
  panelA : Option Panel
  panelB : Option Panel
  rd : List (Nat × Nat)
  wr : List (Nat × Nat)
  lines : List (Nat × Nat)
  done : Bool
  deriving DecidableEq, Repr

/-- An MMAG export standing at a core (R200): the square (origin, columns, rows), whether it is A, what readers compare,
the panel, its scratchpad extents, the virtual core numbers that have still to read it, and the firing that exported it, with
whether its record is resident (R284). -/
structure Export where
  vx0 : Nat
  vy0 : Nat
  gw : Nat
  gh : Nat
  isA : Bool
  ops : MMOps
  k : Word
  d : Word
  panel : Panel
  ext : List (Nat × Nat)
  readers : List Nat
  fid : Nat
  res : Bool
  deriving DecidableEq, Repr

/-- An MMAG that has exported the panels it owns and waits for its square's (R199, R200): its guard, its PC and the next one. -/
structure MWait where
  th : ThreadId
  fid : Nat
  g : Guard
  pc : Pc
  npc : Pc
  ops : MMOps
  deriving DecidableEq, Repr

/-- The occupant of a core: a virtual core of a lease (R278). -/
structure Occ where
  ctx : CtxId
  vx : Nat
  vy : Nat
  deriving DecidableEq, Repr

/-- A head that the scheduler has tried in a cycle: its thread, the firing identity, its PC, the role (R277). -/
structure Tried where
  th : ThreadId
  fid : Nat
  pc : Pc
  role : Nat
  deriving DecidableEq, Repr

/-- The scheduler's memory (R277): the thread chosen in the last cycle, the last chosen of each role, and the heads tried in the
cycle at', the latest first: those that stalled leave their threads not eligible in it (R56). -/
structure Sched where
  last : Option ThreadId
  lastRole : Vector (Fin 8) 3
  tried : List Tried
  at' : Nat
  deriving DecidableEq, Repr

/-- A core (R14, R58). Arrays list what is not zero. late: report and handler firings that wait for a run-queue entry (R270, R344);
idle: ns since it last had work (R283). -/
structure Core where
  occ : Option Occ
  threads : Vector Thread 8
  spad : Memory
  zflags : BitVec 128
  xb0 : Memory
  xb1 : Memory
  bank : Bool
  xphase : Nat
  acc : AMap Word
  wbuf : Memory
  ct0 : AMap (BitVec 16)
  ct1 : AMap (BitVec 16)
  ctActive : Bool
  cbs : Vector CbDesc 16
  bars : Vector BarReg 8
  trees : Vector BarReg 8
  agemax : BitVec 13
  landctl : Bool
  aggage : BitVec 16
  runq : List Ready
  late : List Ready
  chain : List Chained
  inbox : List Inbox
  agg : AMap AggBuf
  flog : List LogEntry
  mq : List MEntry
  mwait : List MWait
  exports : List Export
  power : Power
  idle : Nat
  held : List Instr
  traffic : List (Nat × Nat)
  tlb : List TlbEnt
  swaps : List (Nat × Nat)
  sched : Sched
  deriving DecidableEq, Repr

/-- A core after power-on (R70, R302 and log 1, DESIGN CHOICE). -/
def Core.reset : Core :=
  ⟨none, Vector.replicate 8 Thread.reset, [], BitVec.allOnes 128, [], [], false, 0, [], [], [], [], false,
    Vector.replicate 16 CbDesc.zero, Vector.replicate 8 BarReg.zero, Vector.replicate 8 BarReg.zero, 64, false, 512, [], [], [],
    [], [], [], [], [], [], .awake, 0, [], [], [], [], ⟨none, Vector.replicate 3 7, [], 0⟩⟩

/-- States of a context (R242). -/
inductive CtxSt where
  | free | waiting | active | suspending | suspended | destroying
  deriving DecidableEq, Repr

/-- A memory window (R240). -/
structure Window where
  kind : Nat
  wr : Bool
  base : Nat
  limit : Nat
  deriving DecidableEq, Repr

/-- States of a lease (R293). -/
inductive LeaseSt where
  | none | requested | granted | ending
  deriving DecidableEq, Repr

/-- States of a queue (R259). -/
inductive QSt where
  | off | empty | waiting | dispatching | faulted
  deriving DecidableEq, Repr

/-- A queue as the distributor keeps it (R253, R259, R261). owed: a write of its descriptor's word 3 failed and is still to be
made. tail lists the launch-ready records of the launch started last
that have not been selected, in dispatch order; unbound counts its launch-ready tasks not yet bound (R258). -/
structure Queue where
  st : QSt
  pidx : BitVec 32
  cidx : BitVec 32
  tickets : Nat
  ring : Nat
  log2sz : Nat
  lidx : BitVec 32
  fcode : Nat
  pass : BitVec 64
  tail : List Nat
  unbound : Nat
  kid : BitVec 32
  watch0 : Option Nat
  watch1 : Option Nat
  owed : Bool
  deriving DecidableEq, Repr

def Queue.reset : Queue := ⟨.off, 0, 0, 0, 0, 0, 0, 0, 0, [], 0, 0, none, none, false⟩

/-- Steps of the pre-emption sequence (R346). -/
inductive PreStep where
  | retire | engines | buffers | loads | barriers | save
  deriving DecidableEq, Repr

/-- A conflict record (R126): writing firing, its epoch, and whether the kind is C. -/
structure ConfRec where
  fid : Nat
  epoch : BitVec 32
  comm : Bool
  deriving DecidableEq, Repr

/-- An active message (R219, R221): its form's minor, its block, its transfer identifier, its issuer, a RESUME's position,
the cluster whose inbox it is bound for, the cycle at which it is injected, and whether it has been. -/
structure Msg where
  id : Nat
  form : Nat
  blk : Line
  xid : BitVec 32
  who : Who
  pos : Nat
  inbox : Nat
  due : Nat
  gone : Bool
  deriving DecidableEq, Repr

/-- An engine operation accepted by its inbox (R225 to R229). pos is the progress, sub the parts of a gathered element that are
written already, buf its bytes once they are read; started: taken from the inbox; handler: the landing handler of the granule at
pos runs; granDone: it has retired; hands: the firings of its landing handlers, whose writes belong to the copy (R118). bad: the
lowest position whose write was refused or lost, with its cause and address (R225, R226). -/
structure EngOp where
  msg : Msg
  started : Bool
  pos : Nat
  sub : Nat
  buf : Option (List Byte)
  handler : Bool
  granDone : Bool
  hands : List Nat
  bad : Option (Nat × Cause × Word)
  deriving DecidableEq, Repr

/-- Where a copy of a stable line is kept (R13, R123, R314): a core's L1, the gateway cache of a crossing router, or a link
port's cache. -/
inductive Cache where
  | l1 (c : CoreId)
  | gateway (router : Nat)
  | port (p : PortId)
  deriving DecidableEq, Repr

/-- A copy of a stable line: where, its virtual and its physical line, its data (R123, R314). -/
structure Copy where
  place : Cache
  vline : Nat
  line : Nat
  data : Line
  deriving DecidableEq, Repr

/-- A line that its home slice holds newer than HBM4E (R116, R152, R247): the task whose context its writeback is charged to
(none: the device, the host or a link peer wrote it), the class and the placement of its page (R312, R315), the line as
HBM4E holds it, and the home slice that it was brought into (R317; none until its page is known). -/
structure Dirty where
  who : Option Who
  wlc : Nat
  plc : Nat
  parg : Nat
  hbm : Line
  home : Option Nat
  deriving DecidableEq, Repr

/-- A line of host memory or of this device's as it stood before a store to it (R43, log 5, DESIGN CHOICE). -/
structure OldLine where
  host : Bool
  line : Nat
  data : Line
  deriving DecidableEq, Repr

/-- A context: the fields of its record (R240), its state (R242), its lease (R278, R280, R293), its budgets (R246), its queues,
whether the window under way limits it at each stack (R242, R246), its conflict records and stable copies, and what a pre-emption
saved: its cores by virtual core number, and the engine operations that it cancelled (R346). stopping: the retire allowance has
passed, and the group issues nothing. since: how many old lines there were at its last kernel boundary (R43). retiring: ns of the
retire allowance that have passed (R346). gone: the virtual cores of the lease that fencing has taken out (R27, R294). -/
structure Ctx where
  st : CtxSt
  ptroot : Nat
  det : Bool
  priv : Bool
  nq : Nat
  qtab : Nat
  lh : Nat
  lw : Nat
  vec : Vector (BitVec 16) 4
  wbudget : Vector Nat 8
  windows : Vector Window 8
  savearea : Nat
  traprec : Nat
  saved : Bool
  lease : LeaseSt
  px0 : Nat
  py0 : Nat
  map : AMap Nat
  nofit : Bool
  lost : Bool
  lostvx : Nat
  lostvy : Nat
  pre : Option PreStep
  stopping : Bool
  cores : AMap Core
  cancelled : List EngOp
  allow : Vector Nat 8
  debt : Vector Nat 8
  nolimit : Vector Bool 8
  queues : AMap Queue
  conf : AMap ConfRec
  stable : List Copy
  since : Nat
  retiring : Nat
  gone : List Nat
  deriving DecidableEq, Repr

/-- A FREE context (R242; log 1, DESIGN CHOICE). -/
def Ctx.reset : Ctx :=
  ⟨.free, 0, false, false, 0, 0, 0, 0, Vector.replicate 4 0, Vector.replicate 8 0, Vector.replicate 8 ⟨0, false, 0, 0⟩, 0, 0,
    false, .none, 0, 0, [], false, false, 0, 0, none, false, [], [], Vector.replicate 8 0, Vector.replicate 8 0,
    Vector.replicate 8 false, [], [], [], 0, 0, []⟩

/-- A binding of a live record (R264, R268). -/
structure Binding where
  cb : Fin 16
  crate : Nat
  prate : Nat
  deriving DecidableEq, Repr

/-- A live record (R265, R266). Its words are in memory; here are its kernel, bindings, running firings and the epoch of its
previous firing. vx, vy: the virtual core that holds its descriptors; dead: DONE or REJECTED; waiting: its standing firings that
are in no queue, each with the cycle at which it became ready and its epoch: those of a bound record (R268), and those
of any record while the group has no lease (R216, R243). back: when the firing of a bound record that a context switch returned
became ready (R271). linked: while the group is suspended the record stands in the chain that its core left in memory (R271). -/
structure LiveRec where
  ctx : CtxId
  recAddr : Nat
  kid : BitVec 32
  vx : Nat
  vy : Nat
  binds : List Binding
  running : Nat
  queued : Bool
  dead : Bool
  prev : Option (BitVec 32)
  waiting : List (Nat × BitVec 32)
  back : Option Nat
  linked : Bool
  deriving DecidableEq, Repr

/-- States of a kernel (R275). -/
inductive KSt where
  | starting | running | completing
  deriving DecidableEq, Repr

/-- A kernel (R254, R275). -/
structure Kernel where
  kid : BitVec 32
  ctx : CtxId
  q : QueueId
  launch : BitVec 32
  cword : Nat
  cval : Word
  intr : Bool
  st : KSt
  deriving DecidableEq, Repr

/-- A watch of R215: the word's global physical address and the record to wake; owner is the virtual core. -/
structure Watch where
  word : Nat
  ctx : CtxId
  vcore : Nat
  recAddr : Nat
  deriving DecidableEq, Repr

/-- Where a line on the write lane stands: in the matrix unit (R208), in the budget queue (R247), or in the write queue. -/
inductive WPlace where
  | unit | budget | queue
  deriving DecidableEq, Repr

/-- A line on the write lane (R116, R247, R315). ea: the virtual address that it was written at; mid: the matrix instruction that
spilled it; stale: a newer line has been written before it; seen: a device access has snooped it (R117); high: promoted by R315.
-/
structure WEntry where
  id : Nat
  who : Who
  stack : StackId
  line : Nat
  ea : Nat
  data : Line
  wlc : Nat
  place : WPlace
  mid : Option Nat
  stale : Bool
  seen : Bool
  high : Bool
  deriving DecidableEq, Repr

/-- Where a decrement comes from (R214, R267). -/
inductive DecSrc where
  | tdec (w : Who)
  | chime (w : Who) (minor : Nat)
  | barrier (ctx : CtxId) (vx vy : Nat)
  | wake
  deriving DecidableEq, Repr

/-- A decrement in flight (R214). -/
structure Dec where
  id : Nat
  ctx : CtxId
  recAddr : Nat
  n : Nat
  epoch : BitVec 32
  src : DecSrc
  deriving DecidableEq, Repr

/-- A write to a watched word that has still to be acted on (R215). -/
structure Wake where
  id : Nat
  ctx : CtxId
  recAddr : Nat
  epoch : BitVec 32
  deriving DecidableEq, Repr

/-- Completion codes (R220). -/
inductive Code where
  | done | fault | refused | overlap | badmsg | noHandler
  deriving DecidableEq, Repr

/-- A chime (R220, R223). first: line 0 of its status area is written; wrote: the whole area is. -/
structure Chime where
  id : Nat
  msg : Msg
  code : Code
  cause : Option Cause
  pos : Nat
  addr : Word
  first : Bool
  wrote : Bool
  deriving DecidableEq, Repr

/-- Kinds of barrier message (R296); tree: a tree release that waits at a member by R298. -/
inductive BKind where
  | row | col | release | tree
  deriving DecidableEq, Repr

/-- A barrier message in flight (R296, R297). -/
structure BarMsg where
  id : Nat
  kind : BKind
  ctx : CtxId
  bn : Fin 8
  vx : Nat
  vy : Nat
  desc : Word
  epoch : BitVec 32
  deriving DecidableEq, Repr

/-- A posted write to another device or to host memory that has not been acknowledged or sent (R154, R330), with the cell of the
instruction that made it, the engine operation and the position of its step, or the queue whose distributor made it, with the
FCODE of its refusal as major and the launch number as minor (R259). expect: the value that the word must still hold for a
compare-and-swap (R312). -/
structure RWrite where
  id : Nat
  who : Who
  ea : Word
  gpa : Nat
  bytes : List Byte
  major : Nat
  minor : Nat
  posted : Option (AOp × Wd × Word)
  op : Option (Nat × Nat)
  queue : Option (CtxId × QueueId)
  expect : Option Word
  deriving DecidableEq, Repr

/-- An accepted contribution of this device or of another to a collective (R332). off: the bytes of the result that are written
already; wrote: all are, as far as this device writes them; bad: the lowest position of a refused or lost write (R228). -/
structure Contrib where
  ctx : CtxId
  xid : BitVec 32
  op : COp
  ty : CTy
  count : Nat
  slot0 : Nat
  slots : List (List (BitVec 32))
  own : Option Msg
  off : Nat
  wrote : Bool
  bad : Option (Nat × Cause × Word)
  deriving DecidableEq, Repr

/-- A selected task on its way to its thread (R261, R262). -/
structure Sel where
  id : Nat
  ctx : CtxId
  q : QueueId
  kid : BitVec 32
  recAddr : Nat
  deriving DecidableEq, Repr

/-- A chosen pair: waiting to begin, or exchanging (R289, R290). waited: ns since its choice. -/
structure SwapPair where
  lo : CoreId
  hi : CoreId
  k : Nat
  begun : Bool
  waited : Nat
  deriving DecidableEq, Repr

/-- The range under invalidation and TLBINVRSP (R317). -/
structure TlbInv where
  busy : Bool
  lost : Bool
  ctx : CtxId
  done : Bool
  lo : Nat
  hi : Nat
  stbl : Bool
  deriving DecidableEq, Repr

/-- CTXRSP (R241). STATE is read from the context, and BUSY while a context is SUSPENDING or DESTROYING (R242). -/
structure CtxRsp where
  tag : BitVec 16
  ctx : CtxId
  lost : Bool
  result : Nat
  deriving DecidableEq, Repr

/-- What this device answered a link peer, kept until it is acknowledged (R329). -/
structure Answer where
  dev : Nat
  num : Nat
  refused : Option Cause
  bytes : List Byte
  deriving DecidableEq, Repr

/-- A request that this device sends to another and that is not answered yet (R330): a load or atomic of a thread, the load of a
slot, a read of an engine, a matrix unit or a head at its issue, a posted write or atomic, a decrement, a SEND. -/
inductive LinkReq where
  | load (c : CoreId) (h : ThreadId) (id : Nat)
  | slot (c : CoreId) (h : ThreadId) (id : Nat)
  | read (id : Nat)
  | write (id : Nat)
  | dec (id : Nat)
  | send (id : Nat)
  deriving DecidableEq, Repr

/-- Who waits for a read of another device's memory: an engine operation, a held matrix instruction, or a head of a firing that
reads at its issue or is fetched (R43, R201, R208, R221, R225 to R228). -/
inductive Reader where
  | op (id : Nat)
  | unit (c : CoreId) (id : Nat)
  | head (c : CoreId) (h : ThreadId) (fid : Nat)
  deriving DecidableEq, Repr

/-- A read of at most a line of another device's memory on its way, or answered and not yet used (R328, R330). -/
structure FarRead where
  id : Nat
  by' : Reader
  ctx : CtxId
  gpa : Nat
  len : Nat
  ans : Option RemAns
  deriving DecidableEq, Repr

/-- A returning atomic of a trap routine that has parked: its effect is still to come, its value goes nowhere (R163, R342; log 13,
DESIGN CHOICE). -/
structure Loose where
  c : CoreId
  h : ThreadId
  who : Who
  p : Pend
  deriving DecidableEq, Repr

/-- The chime of another device's SEND as it was sent, kept until that device has it (R329, R331). -/
structure PeerChime where
  dev : Nat
  id : BitVec 32
  code : Code
  cause : Option Cause
  addr : Word
  deriving DecidableEq, Repr

/-- What a flit carries (R323): a request, the answer to a peer's request, the chime of a peer's SEND, the time, or the read of a
page-table entry on another device, which that device answers at once (log 6, DESIGN CHOICE). -/
inductive LinkPkt where
  | request (r : LinkReq)
  | walk (gpa : Nat)
  | answer (dev num : Nat)
  | chime (dev : Nat) (id : BitVec 32)
  | time
  deriving DecidableEq, Repr

/-- The sending side of a port's link layer (R323): the next sequence number, the flits kept for replay, and what waits for
credits or for room in the replay buffer. -/
structure PortTx where
  seq : Nat
  kept : List (Nat × LinkPkt)
  wait : List LinkPkt
  deriving DecidableEq, Repr

def PortTx.reset : PortTx := ⟨0, [], []⟩

/-- A request without an answer (R328, R330): its device, the line or destination core that chooses the port, and the port that
it is bound to, if one stands. -/
structure Sent where
  what : LinkReq
  dev : Nat
  key : Nat
  port : Option PortId
  deriving DecidableEq, Repr

/-- A message to the host or to management: an MSI-X vector (R245), an answer to a host read (none: a poisoned completion, R354),
the value that a read of a register returned, a management reply, a management alert (R354), a SEND to another device, or the
chime of one that another device sent (R331). -/
inductive Out where
  | msix (vector : Nat)
  | hostData (bytes : Option (List Byte))
  | reg (off : Nat) (value : Word)
  | mgmt (status : Nat) (data : List Byte)
  | alert (line : Nat)
  | link (dev : Nat) (m : Msg)
  | linkChime (dev : Nat) (id : BitVec 32) (code : Code) (cause : Option Cause) (addr : Word)
  deriving DecidableEq, Repr

/-- The fabric: cores, memory, contexts and everything in flight between them. mem: each line as its home slice holds it where
dirty lists it, as HBM4E does elsewhere; rot: the context served last at each stack (R315); winAt: the window open at each stack
(R246); links, sent: R323, R330; strand: answers and chimes that no port carries (R327); reads, loose, chimed: reads
of other devices, atomics of parked routines, kept chimes. swapK counts the swap instants (R285). urgent: events that
come before any other (R23, R291). past: each line before each store to it, oldest first (R43, log 5, DESIGN CHOICE). -/
structure Fab where
  cores : AMap Core
  ctlb : AMap (List TlbEnt)
  mem : Memory
  dirty : AMap Dirty
  host : Memory
  poison : List Nat
  ctxs : AMap Ctx
  live : AMap LiveRec
  kernels : List Kernel
  watches : List Watch
  wl : List WEntry
  rot : Vector Nat 8
  winAt : Vector Nat 8
  elems : List Elem
  decs : List Dec
  wakes : List Wake
  msgs : List Msg
  ops : List EngOp
  chimes : List Chime
  bars : List BarMsg
  rwrites : List RWrite
  links : AMap PortTx
  sent : List Sent
  strand : List LinkPkt
  reads : List FarRead
  loose : List Loose
  contribs : List Contrib
  reqs : List CtxId
  sels : List Sel
  eligible : List Nat
  pairs : List SwapPair
  swapK : Nat
  tlbinv : TlbInv
  ctxbase : BitVec 53
  ctxrsp : CtxRsp
  trapq : List Word
  answers : List Answer
  chimed : List PeerChime
  out : List Out
  ids : Nat
  cycle : Nat
  urgent : List Instr
  due : List Instr
  past : List OldLine
  deriving DecidableEq, Repr

/-- The fabric at power-on. -/
def Fab.reset : Fab where
  cores := []
  ctlb := []
  mem := []
  dirty := []
  host := []
  poison := []
  ctxs := []
  live := []
  kernels := []
  watches := []
  wl := []
  rot := Vector.replicate 8 0
  winAt := Vector.replicate 8 0
  elems := []
  decs := []
  wakes := []
  msgs := []
  ops := []
  chimes := []
  bars := []
  rwrites := []
  links := []
  sent := []
  strand := []
  reads := []
  loose := []
  contribs := []
  reqs := []
  sels := []
  eligible := []
  pairs := []
  swapK := 0
  tlbinv := ⟨false, false, 0, false, 0, 0, false⟩
  ctxbase := 0
  ctxrsp := ⟨0, 0, false, 0⟩
  trapq := []
  answers := []
  chimed := []
  out := []
  ids := 0
  cycle := 0
  urgent := []
  due := []
  past := []

/-- States of a port (R327). -/
inductive PortSt where
  | off | training | negotiating | up | retraining | failed
  deriving DecidableEq, Repr

/-- A port: PORTCTL, PORTSTAT (R324), and the receiving side of its link layer (R323, R327): next sequence number to receive,
replays of the oldest kept flit in a row, what its peer last told of time, and the round trip in ns (R334). -/
structure Port where
  en : Bool
  capoff : BitVec 4
  st : PortSt
  cause : Nat
  lanes : Nat
  cap : BitVec 4
  sw : Bool
  peer : BitVec 14
  replays : BitVec 16
  rxSeq : Nat
  consec : Nat
  peerHops : BitVec 8
  rtt : Nat
  deriving DecidableEq, Repr

def Port.reset : Port := ⟨false, 0, .off, 0, 0, 0, false, 0, 0, 0, 0, 0xFF, 0⟩

/-- An ingress window (R324). -/
structure IngWin where
  on : Bool
  wr : Bool
  base : BitVec 23
  dlo : BitVec 14
  dhi : BitVec 14
  limit : BitVec 23
  deriving DecidableEq, Repr

/-- An entry of DESTTAB (R324). -/
structure DestEnt where
  v : Bool
  cap : BitVec 4
  ports : BitVec 36
  deriving DecidableEq, Repr

/-- Device states (R359). -/
inductive DevSt where
  | off | selftest | running | recovery
  deriving DecidableEq, Repr

/-- A time flit as it was sent (R334): the counter, the hops, the round trip measured. -/
structure TimeFlit where
  counter : Word
  hops : BitVec 8
  rtt : Nat
  deriving DecidableEq, Repr

/-- The management side: slew is how many ns the counters have still to be moved, slewAcc the ns since the last one (R334);
swapNow is the SWAPPERIOD in force, and swapAt the time of the next swap instant (R280, R285); sole: the domain has one time
master, as its devices last told (R335; log 30, DESIGN CHOICE); retries: how often each router has retried its present flit (R353);
the registers of R280, R317, R324, R343 and R352, ports, time, flash and fuses. -/
structure Mgt where
  swen : Bool
  swapperiod : BitVec 16
  swapNow : BitVec 16
  swapAt : Nat
  gain : BitVec 3
  gten : Bool
  idlegate : BitVec 16
  runest : BitVec 16
  hashset : AMap (BitVec 144)
  preemptwait : BitVec 16
  tmaster : Bool
  domid : BitVec 16
  devnum : BitVec 14
  lock : Bool
  tsrc : BitVec 8
  hops : BitVec 8
  ptmofs : Word
  atomReq : Bool
  ports : Vector Port 36
  ingwin : Vector IngWin 16
  collslots : AMap (BitVec 15)
  desttab : AMap DestEnt
  time : Vector Word 4
  slew : Int
  slewAcc : Nat
  sole : Bool
  sent : AMap TimeFlit
  dev : DevSt
  powcap : BitVec 12
  paced : Bool
  fencedCores : List CoreId
  fencedRouters : List (Fin 576)
  replace : Bool
  thtrip : Bool
  poisons : BitVec 16
  poisonlog : List Nat
  sliceErrs : AMap Nat
  corrected : Nat
  retries : AMap Nat
  image : Option Image
  fuses : Nat
  keyDigest : BitVec 256
  serial : BitVec 64
  certificate : List Byte
  mgmtBusy : Bool
  hostUp : Bool
  hostRouter : Bool
  deriving DecidableEq, Repr

/-- Registers at power-on; the flash as it left the factory (log 1, DESIGN CHOICE). -/
def Mgt.reset : Mgt where
  swen := true
  swapperiod := 200
  swapNow := 200
  swapAt := 200000
  gain := 1
  gten := true
  idlegate := 20
  runest := 400
  hashset := []
  preemptwait := 100
  tmaster := false
  domid := 0
  devnum := 0x3FFF
  lock := false
  tsrc := 0xFF
  hops := 0xFF
  ptmofs := 0
  atomReq := false
  ports := Vector.replicate 36 Port.reset
  ingwin := Vector.replicate 16 ⟨false, false, 0, 0, 0, 0⟩
  collslots := []
  desttab := []
  time := Vector.replicate 4 0
  slew := 0
  slewAcc := 0
  sole := true
  sent := []
  dev := .off
  powcap := 2400
  paced := false
  fencedCores := []
  fencedRouters := []
  replace := false
  thtrip := false
  poisons := 0
  poisonlog := []
  sliceErrs := []
  corrected := 0
  retries := []
  image := none
  fuses := 0
  keyDigest := 0
  serial := 0
  certificate := []
  mgmtBusy := false
  hostUp := true
  hostRouter := true

/-- A move of the outside, or a choice among what may happen next (log 2, DESIGN CHOICE): an event, the issue of the next head of
a thread, the passing of time on the four dies, or the eviction of a dirty line from its home slice, which must where the slice
needs the room (R248). -/
inductive Move where
  | event (i : Instr)
  | issue (c : CoreId) (h : ThreadId)
  | tick (ns : Nat)
  | evict (line : Nat) (must : Bool)
  deriving DecidableEq, Repr

/-- The machine. core, th: whose head executes; agenda: the moves still to come (log 2, DESIGN CHOICE). -/
structure State where
  f : Fab
  m : Mgt
  core : CoreId
  th : ThreadId
  agenda : List Move
  deriving DecidableEq, Repr

/-- The machine at power-on. -/
def State.reset : State := ⟨Fab.reset, Mgt.reset, 0, 0, []⟩

/-- Why the machine stops. -/
inductive Fault where
  /-- A head instruction was asked of a thread that holds no running firing, so no unit would issue it (R56, R277). Raised by
  the shared head frame only; step never asks it. Safe. -/
  | noRunningThread
  deriving DecidableEq, Repr

/-- Why an instruction has no meaning here. -/
inductive Refusal where
  /-- The instruction of this mnemonic is not modelled yet. Raised by exec only. Safe. -/
  | notModelled (mnemonic : String)
  deriving DecidableEq, Repr

/-- The result of a step. -/
abbrev Res := Host.Outcome State Fault Refusal

end Sys2Proof.Machine
end

