-- ==== Sys2Proof/Machine/Map.lean ====
section
/-! DEFINITION. Finite maps with rising keys, and byte ranges over them (R4). mget and mput are used with one default per
map: mput leaves no entry equal to it, so equal maps are equal data. -/

namespace Sys2Proof.Machine

/-- The value at a key; d where the key is absent. -/
def mget {α : Type} (d : α) : AMap α → Nat → α
  | [], _ => d
  | (k, v) :: m, a => if a = k then v else mget d m a

/-- Sets a key. -/
def mset {α : Type} (a : Nat) (x : α) : AMap α → AMap α
  | [] => [(a, x)]
  | (k, v) :: m => if a < k then (a, x) :: (k, v) :: m else if a = k then (a, x) :: m else (k, v) :: mset a x m

/-- Removes a key. -/
def mdel {α : Type} (a : Nat) : AMap α → AMap α
  | [] => []
  | (k, v) :: m => if a = k then mdel a m else (k, v) :: mdel a m

/-- Sets a key, or removes it where the value is the default. -/
def mput {α : Type} [DecidableEq α] (d : α) (a : Nat) (x : α) (m : AMap α) : AMap α :=
  if x = d then mdel a m else mset a x m

/-- Keys rise strictly. -/
def keysRise {α : Type} : AMap α → Bool
  | [] => true
  | [_] => true
  | (a, _) :: (b, x) :: m => a < b && keysRise ((b, x) :: m)

/-- A memory lists no byte that reads as an unlisted address does: zero (log 3, DESIGN CHOICE, R68). -/
def noZero : Memory → Bool
  | [] => true
  | (_, b) :: m => b != 0 && noZero m

/-- The canonical form of a memory. -/
def Memory.wf (m : Memory) : Bool := keysRise m && noZero m

/-- One byte of a memory; what is not listed reads as zero (log 3, DESIGN CHOICE, for HBM4E and host memory; R68 for a core's
arrays). -/
def peek (m : Memory) (a : Nat) : Byte := mget 0 m a

/-- One byte written. -/
def poke (a : Nat) (b : Byte) (m : Memory) : Memory := mput 0 a b m

/-- n bytes from address a upward. -/
def peeks (m : Memory) (a n : Nat) : List Byte := (List.range n).map fun i => peek m (a + i)

/-- Bytes written from address a upward. -/
def pokes (m : Memory) (a : Nat) : List Byte → Memory
  | [] => m
  | b :: bs => pokes (poke a b m) (a + 1) bs

/-- The little-endian number of some bytes (R4), and its bytes. -/
def leNum : List Byte → Nat
  | [] => 0
  | b :: bs => b.toNat + 256 * leNum bs

def leBytes (n x : Nat) : List Byte := (List.range n).map fun i => BitVec.ofNat 8 (x / 2 ^ (8 * i))

/-- Bits hi:lo of a number (R4). -/
def bits (x hi lo : Nat) : Nat := x / 2 ^ lo % 2 ^ (hi + 1 - lo)

/-- Word i of a 64-byte line. -/
def wordOf (l : Line) (i : Nat) : Nat := l.toNat / 2 ^ (64 * i) % 2 ^ 64

/-- A line from its words, the first at the lowest address. -/
def lineOf (ws : List Nat) : Line := BitVec.ofNat 512 (ws.foldr (fun w acc => w % 2 ^ 64 + 2 ^ 64 * acc) 0)

def lineBytes (l : Line) : List Byte := leBytes 64 l.toNat
def bytesLine (bs : List Byte) : Line := BitVec.ofNat 512 (leNum bs)

/-- Whether two ranges (start, length) share an address. -/
def overlap (a n b k : Nat) : Bool := a < b + k && b < a + n && 0 < n && 0 < k

end Sys2Proof.Machine
end

