-- ==== Sys2Proof/Machine/Number.lean ====
section
/-! DEFINITION. Number formats and exact arithmetic with one rounding (05_numbers R75 to R98, R382). A number is kept exact
as sign, magnitude and a power of two until it is rounded. -/

namespace Sys2Proof.Machine

/-- A decoded value: NaN, an infinity, or (-1)^neg · mag · 2^exp; a zero keeps its sign (R77). -/
inductive Num where
  | nan
  | inf (neg : Bool)
  | fin (neg : Bool) (mag : Nat) (exp : Int)
  deriving DecidableEq, Repr

/-- An IEEE format: exponent and fraction widths (R76). -/
structure Fp where
  ew : Nat
  fw : Nat
  deriving DecidableEq, Repr

def f32 : Fp := ⟨8, 23⟩
def f16 : Fp := ⟨5, 10⟩
def b16 : Fp := ⟨8, 7⟩

def Fp.bias (F : Fp) : Nat := 2 ^ (F.ew - 1) - 1
def Fp.infBits (F : Fp) : Nat := (2 ^ F.ew - 1) * 2 ^ F.fw
/-- The default NaN (R76). -/
def Fp.nanBits (F : Fp) : Nat := F.infBits + 2 ^ (F.fw - 1)
def Fp.signBit (F : Fp) : Nat := 2 ^ (F.ew + F.fw)
def Fp.width (F : Fp) : Nat := 1 + F.ew + F.fw
def Fp.isNan (F : Fp) (x : Nat) : Bool := x % F.signBit > F.infBits
def Fp.neg (F : Fp) (x : Nat) : Bool := x / F.signBit % 2 = 1

/-- Decode of an IEEE pattern (R76). -/
def Fp.decode (F : Fp) (x : Nat) : Num :=
  let frac := x % 2 ^ F.fw
  let ex := x / 2 ^ F.fw % 2 ^ F.ew
  let q : Int := 1 - (F.bias : Int) - F.fw
  if ex = 2 ^ F.ew - 1 then (if frac = 0 then .inf (F.neg x) else .nan)
  else if ex = 0 then .fin (F.neg x) frac q
  else .fin (F.neg x) (2 ^ F.fw + frac) (q + (ex - 1 : Nat))

/-- Rounding directions: to nearest with ties to even, or toward zero (R77, R84). -/
inductive Dir where
  | near | zero
  deriving DecidableEq, Repr

/-- Drops sh low bits of a magnitude; sticky says that more than zero lies below them. -/
def dropBits (d : Dir) (mag sh : Nat) (sticky : Bool) : Nat :=
  let q := mag / 2 ^ sh
  let r := mag % 2 ^ sh
  match d with
  | .zero => q
  | .near =>
    if sh = 0 then q
    else if r > 2 ^ (sh - 1) || (r = 2 ^ (sh - 1) && (sticky || q % 2 = 1)) then q + 1 else q

/-- The pattern of a rounded magnitude (R77): precision, subnormal spacing, overflow. -/
def Fp.roundMag (F : Fp) (d : Dir) (neg : Bool) (mag : Nat) (exp : Int) (sticky : Bool) : Nat :=
  let sgn := if neg then F.signBit else 0
  if mag = 0 then sgn
  else
    let qmin : Int := 1 - (F.bias : Int) - F.fw
    let q := max (exp + mag.log2 - F.fw) qmin
    let m := if q ≤ exp then mag * 2 ^ (exp - q).toNat else dropBits d mag (q - exp).toNat sticky
    let b := m + (q - qmin).toNat * 2 ^ F.fw
    sgn + (if b < F.infBits then b else match d with | .near => F.infBits | .zero => F.infBits - 1)

/-- Round(x, F) (R77), or the pattern toward zero (R84). -/
def Fp.round (F : Fp) (d : Dir) : Num → Nat
  | .nan => F.nanBits
  | .inf neg => (if neg then F.signBit else 0) + F.infBits
  | .fin neg mag exp => F.roundMag d neg mag exp false

/-- A signed magnitude as an integer. -/
def signed (neg : Bool) (mag : Nat) : Int := if neg then -(mag : Int) else mag

/-- An exact value r · 2^e; where r is zero, the zero takes the given sign. -/
def Num.ofInt (zneg : Bool) (r : Int) (e : Int) : Num := .fin (if r = 0 then zneg else r < 0) r.natAbs e

def Num.isNan : Num → Bool
  | .nan => true
  | _ => false
def Num.isInf : Num → Bool
  | .inf _ => true
  | _ => false
def Num.isZero : Num → Bool
  | .fin _ m _ => m = 0
  | _ => false
def Num.negate : Num → Num
  | .nan => .nan
  | .inf s => .inf (!s)
  | .fin s m e => .fin (!s) m e
def Num.abs : Num → Num
  | .nan => .nan
  | .inf _ => .inf false
  | .fin _ m e => .fin false m e

/-- Exact sum (R77): invalid for infinities of opposite sign; zeros of one sign keep it, every other exact zero is +0. -/
def Num.add : Num → Num → Num
  | .nan, _ => .nan
  | _, .nan => .nan
  | .inf a, .inf b => if a = b then .inf a else .nan
  | .inf a, .fin .. => .inf a
  | .fin .., .inf b => .inf b
  | .fin a m e, .fin b n k =>
    let q := min e k
    let r := signed a m * 2 ^ (e - q).toNat + signed b n * 2 ^ (k - q).toNat
    .ofInt (a && b && m = 0 && n = 0) r q

/-- Exact product (R77): 0 × ∞ is invalid; signs by exclusive-or. -/
def Num.mul : Num → Num → Num
  | .nan, _ => .nan
  | _, .nan => .nan
  | .inf a, .inf b => .inf (a != b)
  | .inf a, .fin b n _ => if n = 0 then .nan else .inf (a != b)
  | .fin a m _, .inf b => if m = 0 then .nan else .inf (a != b)
  | .fin a m e, .fin b n k => .fin (a != b) (m * n) (e + k)

/-- Order of two values that are not NaN: whether x is less than y. Zeros of both signs are equal. -/
def Num.lt : Num → Num → Bool
  | .inf a, .inf b => a && !b
  | .inf a, .fin .. => a
  | .fin .., .inf b => !b
  | .fin a m e, .fin b n k =>
    let q := min e k
    signed a m * 2 ^ (e - q).toNat < signed b n * 2 ^ (k - q).toNat
  | _, _ => false
def Num.eq : Num → Num → Bool
  | .inf a, .inf b => a = b
  | .fin a m e, .fin b n k =>
    let q := min e k
    signed a m * 2 ^ (e - q).toNat = signed b n * 2 ^ (k - q).toNat
  | _, _ => false

/-- Quotient rounded once (R77, R78): 0/0 and ∞/∞ are invalid, x/0 is infinite. -/
def Fp.quot (F : Fp) : Num → Num → Nat
  | .nan, _ => F.nanBits
  | _, .nan => F.nanBits
  | .inf _, .inf _ => F.nanBits
  | .inf a, .fin b _ _ => F.round .near (.inf (a != b))
  | .fin a _ _, .inf b => F.roundMag .near (a != b) 0 0 false
  | .fin a m e, .fin b n k =>
    if n = 0 then (if m = 0 then F.nanBits else F.round .near (.inf (a != b)))
    else
      let sh := 64 + n.log2
      F.roundMag .near (a != b) (m * 2 ^ sh / n) (e - k - sh) (m * 2 ^ sh % n ≠ 0)

/-- Integer square root, found bit by bit from bit i downward. -/
def isqrtFrom (n : Nat) : Nat → Nat → Nat
  | 0, r => r
  | i + 1, r =>
    let t := r + 2 ^ i
    isqrtFrom n i (if t * t ≤ n then t else r)

/-- Square root rounded once (R78): below −0 it is invalid; of a zero it is that zero. -/
def Fp.sqrt (F : Fp) : Num → Nat
  | .nan => F.nanBits
  | .inf neg => if neg then F.nanBits else F.infBits
  | .fin neg m e =>
    if m = 0 then F.roundMag .near neg 0 0 false
    else if neg then F.nanBits
    else
      let odd := (e % 2).toNat
      let n := m * 2 ^ (128 + odd)
      let r := isqrtFrom n (n.log2 / 2 + 1) 0
      F.roundMag .near false r ((e - odd) / 2 - 64) (r * r ≠ n)

/-- The quiet form of a NaN pattern, converted to another IEEE format (R78). -/
def nanTo (S D : Fp) (x : Nat) : Nat :=
  let frac := x % 2 ^ S.fw
  let q := frac % 2 ^ (S.fw - 1) + 2 ^ (S.fw - 1)
  (if S.neg x then D.signBit else 0) + D.infBits + (if D.fw ≤ S.fw then q / 2 ^ (S.fw - D.fw) else q * 2 ^ (D.fw - S.fw))

/-- The first NaN operand of an operation, quiet (R78); none where no operand is NaN. -/
def firstNan (F : Fp) (xs : List Nat) : Option Nat := (xs.find? F.isNan).map (nanTo F F)

/-- An operation of one format on patterns: NaN operands by R78, otherwise the result. -/
def Fp.op (F : Fp) (xs : List Nat) (r : Nat) : Nat := (firstNan F xs).getD r

def Fp.addBits (F : Fp) (a b : Nat) : Nat := F.op [a, b] (F.round .near ((F.decode a).add (F.decode b)))

/-- Length of the run of bits equal to rb from bit i downward (R80). -/
def runLen (b : Nat) (rb : Bool) : Nat → Nat
  | 0 => 0
  | i + 1 => if b.testBit i = rb then 1 + runLen b rb i else 0

/-- Decode of a tapered pattern of n bits (R80). -/
def tapDecode (n b : Nat) : Num :=
  if b = 0 then .fin false 0 0
  else if b = 2 ^ (n - 1) then .nan
  else
    let sgn := b.testBit (n - 1)
    let b := if sgn then 2 ^ n - b else b
    let rb := b.testBit (n - 2)
    let m := runLen b rb (n - 1)
    let k : Int := if rb then (m : Int) - 1 else -(m : Int)
    let left := n - 2 - m
    let e := if left = 0 then 0 else if b.testBit (left - 1) then 1 else 0
    let w := left - 1
    .fin sgn (2 ^ w + b % 2 ^ w) (2 * k + e - w)

/-- The largest positive code of n bits, up to code c, whose value does not exceed |x|; 1 at least. -/
def tapBelow (n : Nat) (x : Num) : Nat → Nat
  | 0 => 1
  | c + 1 => if x.lt (tapDecode n (c + 1)) then tapBelow n x c else c + 1

/-- Round to a tapered format (R83), or toward zero (R84). -/
def tapRound (n : Nat) (d : Dir) (x : Num) : Nat :=
  match x with
  | .nan | .inf _ => 2 ^ (n - 1)
  | .fin neg mag exp =>
    if mag = 0 then 0
    else
      let a := Num.fin false mag exp
      let top := 2 ^ (n - 1) - 1
      let c := tapBelow n a top
      let up := c < top && !a.lt (tapDecode n c) &&
        (let mid := (tapDecode n c).add (tapDecode n (c + 1))
         let twice := Num.fin false mag (exp + 1)
         mid.lt twice || (mid.eq twice && c % 2 = 1))
      let r := match d with | .near => if up then c + 1 else c | .zero => c
      if neg then 2 ^ n - r else r

/-- Saturate to an integer type of N bits, as a pattern (R84). -/
def satBits (isS : Bool) (N : Nat) (v : Int) : Nat :=
  let lo : Int := if isS then -(2 : Int) ^ (N - 1) else 0
  let hi : Int := if isS then 2 ^ (N - 1) - 1 else 2 ^ N - 1
  ((max lo (min hi v)) % 2 ^ N).toNat

/-- The value of an integer pattern (R75). -/
def intVal (isS : Bool) (N : Nat) (x : Nat) : Int :=
  if isS && x.testBit (N - 1) then (x % 2 ^ N : Nat) - (2 : Int) ^ N else (x % 2 ^ N : Nat)

/-- A value rounded to an integer and saturated (R84). -/
def numToInt (d : Dir) (isS : Bool) (N : Nat) : Num → Nat
  | .nan => 0
  | .inf neg => if neg then (if isS then 2 ^ (N - 1) else 0) else (if isS then 2 ^ (N - 1) - 1 else 2 ^ N - 1)
  | .fin neg mag exp =>
    let m := if 0 ≤ exp then mag * 2 ^ exp.toNat else dropBits d mag (-exp).toNat false
    satBits isS N (signed neg m)

/-- The IEEE format of a type, where it has one. -/
def tyFp : Ty → Option Fp
  | .f32 => some f32
  | .f16 => some f16
  | .b16 => some b16
  | _ => none

/-- The value of an element pattern of a real type. -/
def elemVal (ty : Ty) (x : Nat) : Num :=
  match ty with
  | .f32 => f32.decode x
  | .f16 => f16.decode x
  | .b16 => b16.decode x
  | .t8 => tapDecode 8 (x % 256)
  | .t6 => tapDecode 6 (x % 64)
  | ty => .ofInt false (intVal ty.isSigned ty.width x) 0

/-- A value as an element pattern of a real type. -/
def valElem (d : Dir) (ty : Ty) (x : Num) : Nat :=
  match ty with
  | .f32 => f32.round d x
  | .f16 => f16.round d x
  | .b16 => b16.round d x
  | .t8 => tapRound 8 d x
  | .t6 => tapRound 6 d x
  | ty => numToInt d ty.isSigned ty.width x

/-- One conversion of a real type (R78, R84). -/
def convert (d : Dir) (dst src : Ty) (x : Nat) : Nat :=
  if dst = src then x
  else
    match tyFp src, tyFp dst with
    | some S, some D => if S.isNan x then nanTo S D x else valElem d dst (elemVal src x)
    | _, _ => valElem d dst (elemVal src x)

/-- One conversion of a complex type, by component (R84). -/
def convertC (d : Dir) (dst src : Ty) (x : Nat) : Nat :=
  match dst, src with
  | .c16, .c32 => convert d .f16 .f32 (x % 2 ^ 32) + 2 ^ 16 * convert d .f16 .f32 (x / 2 ^ 32)
  | .c32, .c16 => convert d .f32 .f16 (x % 2 ^ 16) + 2 ^ 32 * convert d .f32 .f16 (x / 2 ^ 16)
  | _, _ => x

/-! Compensated pairs (R87 to R89, R382). -/

/-- A pair as stored: s in bits 31:0, c in bits 63:32 (R65). -/
def pairBits (s c : Nat) : Word := BitVec.ofNat 64 (s + 2 ^ 32 * c)
def nan32 : Nat := 0x7FC00000

/-- The pair as it is taken for use as a value (R382). -/
def takePair (p : Word) : Nat × Nat :=
  let s := p.toNat % 2 ^ 32
  let c := p.toNat / 2 ^ 32
  let S := f32.decode s
  let C := f32.decode c
  if S.isNan || C.isNan then (nan32, 0)
  else if C.isInf then (if S.isInf && s ≠ c then (nan32, 0) else (c, 0))
  else if S.isInf then (s, 0)
  else (s, c)

/-- A pair after an update that would leave c infinite while s is finite (R382). -/
def canonPair (s c : Nat) : Word :=
  if (f32.decode c).isInf && !(f32.decode s).isInf then pairBits c 0 else pairBits s c

/-- TwoSum (R57): the rounded sum and its exact error. -/
def twoSum (a b : Num) : Nat × Num :=
  let x := a.add b
  let s := f32.round .near x
  (s, x.add (f32.decode s).negate)

/-- A block total added to a pair (R87). -/
def pairAdd (p : Word) (t : Nat) : Word :=
  let (s, c) := takePair p
  let S := f32.decode s
  let T := f32.decode t
  if S.isNan || T.isNan then pairBits nan32 0
  else if S.isInf || T.isInf then pairBits (f32.round .near (S.add T)) 0
  else
    let (s1, e) := twoSum S T
    if (f32.decode s1).isInf then pairBits s1 0
    else canonPair s1 (f32.round .near ((f32.decode c).add e))

/-- The fade of a pair by a factor (R88). -/
def pairFade (p : Word) (factor : Nat) : Word :=
  let (s, c) := takePair p
  let S := f32.decode s
  let C := f32.decode c
  let F := f32.decode factor
  if S.isNan || F.isNan then pairBits nan32 0
  else if S.isInf || C.isInf || F.isInf then pairBits (f32.round .near (S.mul F)) 0
  else
    let q := S.mul F
    let s1 := f32.round .near q
    if (f32.decode s1).isInf then pairBits s1 0
    else canonPair s1 (f32.round .near ((C.mul F).add (q.add (f32.decode s1).negate)))

/-- A pair as one exact value: NaN, an infinity, or s + c (R89, R206). -/
def pairVal (p : Word) : Num :=
  let (s, c) := takePair p
  let S := f32.decode s
  if S.isInf then S else S.add (f32.decode c)

/-- A number as a pair (R206, MWR with C = 0). -/
def pairOf (x : Num) : Word :=
  match x with
  | .nan => pairBits nan32 0
  | .inf _ => pairBits (f32.round .near x) 0
  | x =>
    let s := f32.round .near x
    pairBits s (f32.round .near (x.add (f32.decode s).negate))

/-! The long accumulator window (R90 to R92), as its 512-bit value. -/

def windowV (w : Nat) : Int := intVal true 448 (w % 2 ^ 448)
def windowOvf (w : Nat) : Bool := w.testBit 448
def windowInv (w : Nat) : Bool := w.testBit 449

/-- ADDW of an f32 pattern (R91). -/
def windowAdd (w x : Nat) : Nat :=
  match f32.decode x with
  | .fin neg mag exp =>
    let u := windowV w + signed neg mag * 2 ^ (exp + 256).toNat
    let ovf := windowOvf w || u < -(2 : Int) ^ 447 || u ≥ 2 ^ 447
    w / 2 ^ 449 * 2 ^ 449 + (if ovf then 2 ^ 448 else 0) + (u % 2 ^ 448).toNat
  | _ => if windowInv w then w else w + 2 ^ 449

/-- A window read as f32 (R92). -/
def windowF32 (w : Nat) : Nat :=
  match windowInv w, windowOvf w with
  | true, true => 0x7FC00003
  | true, false => 0x7FC00002
  | false, true => 0x7FC00001
  | false, false => f32.round .near (.ofInt false (windowV w) (-256))

/-! Butterflies (R94, R95). -/

/-- A pattern of a butterfly component: NaN gives the default NaN, an exact zero gives +0 (R94). -/
def bflyRound (F : Fp) (x : Num) : Nat := if x.isZero then 0 else F.round .near x

/-- A complex element as its two components. -/
def cparts (F : Fp) (x : Nat) : Num × Num := (F.decode (x % 2 ^ F.width), F.decode (x / 2 ^ F.width))
def cjoin (F : Fp) (r i : Nat) : Nat := r + 2 ^ F.width * i

/-- The product of a twiddle and an input, rounded once per component (R94). -/
def cmulRound (F : Fp) (w b : Num × Num) : Num × Num :=
  (F.decode (bflyRound F ((w.1.mul b.1).add (w.2.mul b.2).negate)), F.decode (bflyRound F ((w.1.mul b.2).add (w.2.mul b.1))))

/-- The default NaN in every component where an input component is NaN (R94). -/
def anyNan (xs : List (Num × Num)) : Bool := xs.any fun x => x.1.isNan || x.2.isNan

/-- BFLY2 on one element: y0 and y1 (R94). -/
def bfly2Elem (F : Fp) (a b w : Nat) : Nat × Nat :=
  let A := cparts F a
  let B := cparts F b
  let W := cparts F w
  if anyNan [A, B, W] then (cjoin F F.nanBits F.nanBits, cjoin F F.nanBits F.nanBits)
  else
    let t := cmulRound F W B
    (cjoin F (bflyRound F (A.1.add t.1)) (bflyRound F (A.2.add t.2)),
     cjoin F (bflyRound F (A.1.add t.1.negate)) (bflyRound F (A.2.add t.2.negate)))

/-- The rounded sum of four exact terms (R95). -/
def sum4 (F : Fp) (a b c d : Num) : Nat := bflyRound F (((a.add b).add c).add d)

/-- BFLY4 on one element: y0 to y3 (R95). -/
def bfly4Elem (F : Fp) (a0 a1 a2 a3 w1 w2 w3 : Nat) : List Nat :=
  let A := [a0, a1, a2, a3, w1, w2, w3].map (cparts F)
  let x := A.getD 0 (.nan, .nan)
  if anyNan A then List.replicate 4 (cjoin F F.nanBits F.nanBits)
  else
    let t1 := cmulRound F (cparts F w1) (cparts F a1)
    let t2 := cmulRound F (cparts F w2) (cparts F a2)
    let t3 := cmulRound F (cparts F w3) (cparts F a3)
    let n := Num.negate
    [cjoin F (sum4 F x.1 t1.1 t2.1 t3.1) (sum4 F x.2 t1.2 t2.2 t3.2),
     cjoin F (sum4 F x.1 t1.2 (n t2.1) (n t3.2)) (sum4 F x.2 (n t1.1) (n t2.2) t3.1),
     cjoin F (sum4 F x.1 (n t1.1) t2.1 (n t3.1)) (sum4 F x.2 (n t1.2) t2.2 (n t3.2)),
     cjoin F (sum4 F x.1 (n t1.2) (n t2.1) t3.2) (sum4 F x.2 t1.1 (n t2.2) (n t3.1))]

/-! Twiddles (R96), by fixed-point series in units of 2^-224. -/

def fixOne : Int := 2 ^ 224

/-- 2π in units of 2^-224, from arctan series of 1/5 and 1/239. -/
def atanInv (n : Int) : Nat → Nat → Int → Int
  | 0, _, _ => 0
  | fuel + 1, k, p => (if k % 2 = 0 then p / (2 * k + 1) else -(p / (2 * k + 1))) + atanInv n fuel (k + 1) (p / (n * n))

def twoPi : Int := 8 * (4 * atanInv 5 60 0 (fixOne / 5) - atanInv 239 20 0 (fixOne / 239))

/-- Series of cosine and sine for an angle of at most π/4: the sum of terms from term k on. -/
def trigSum (x2 : Int) : Nat → Nat → Int → Int
  | 0, _, _ => 0
  | fuel + 1, k, t => t + trigSum x2 fuel (k + 2) (-(t * x2 / fixOne) / ((k + 1) * (k + 2)))

def cosFix (x : Int) : Int := trigSum (x * x / fixOne) 30 0 fixOne
def sinFix (x : Int) : Int := trigSum (x * x / fixOne) 30 1 x

/-- (cos 2πk/N, sin 2πk/N) for 0 ≤ k < N, in units of 2^-224; the axes exactly. -/
def cosSin (N k : Nat) : Int × Int :=
  let oct := 8 * k / N
  let r := 8 * k % N
  let base : Int × Int :=
    if oct % 2 = 0 then
      (let x := twoPi * r / (8 * N)
       if r = 0 then (fixOne, 0) else (cosFix x, sinFix x))
    else
      (let x := twoPi * (N - r) / (8 * N)
       (sinFix x, cosFix x))
  match oct / 2 % 4 with
  | 0 => base
  | 1 => (-base.2, base.1)
  | 2 => (-base.1, -base.2)
  | _ => (base.2, -base.1)

def isPow2 (n : Nat) : Bool := n ≠ 0 && 2 ^ n.log2 = n

/-- TWID: the c32 value exp(−2πik/N) (R96). -/
def twidElem (N k : Nat) : Nat :=
  if isPow2 N && N ≤ 2 ^ 24 then
    let cs := cosSin N (k % N)
    let rnd := fun (v : Int) => if v = 0 then 0 else f32.round .near (.ofInt false v (-224))
    rnd cs.1 + 2 ^ 32 * rnd (-cs.2)
  else nan32 + 2 ^ 32 * nan32

/-! The counter-based generator (R97, R98). -/

def randStep (m : Word) (l : Nat) (x k : Word) : Word :=
  let y := (x + k) * m
  let z := y ^^^ (y >>> 29)
  (z <<< l) ||| (z >>> (64 - l))

def rand64 (seed stream index : Word) : Word :=
  let d : Word := 0x5C4E93A71B2FD683
  let x0 := index ^^^ ((stream <<< 32) ||| (stream >>> 32))
  let x1 := randStep 0x8F3A61C55D27B0E9 23 x0 seed
  let x2 := randStep 0xD1B54A329C6E07F3 31 x1 (seed + d)
  randStep 0xA57C3E19F2D84B61 41 x2 (seed + d + d)

def randElem (ty : Ty) (x : Word) : Nat :=
  match ty with
  | .f32 => f32.round .near (.fin false (x.toNat / 2 ^ 40) (-24))
  | .f16 => f16.round .near (.fin false (x.toNat / 2 ^ 53) (-11))
  | .b16 => b16.round .near (.fin false (x.toNat / 2 ^ 56) (-8))
  | ty => x.toNat / 2 ^ (64 - ty.width)

end Sys2Proof.Machine
end

