-- ==== Sys2Proof/Machine/Wire.lean ====
section
/-! DEFINITION. The sending side of the ports (18_link R323, R328, R330): which port carries a request, the flits kept for
replay, the virtual channels and their credits, and what happens to what a port carried when it leaves its routes or comes up.
Log 30 says how much of the link layer is kept. -/

namespace Sys2Proof.Machine

/-- Whether the host reaches the device, and the device the host (R21, R27, R357). -/
def Mgt.hostLink (m : Mgt) : Bool := m.hostUp && m.hostRouter

/-- Whether the host reaches the registers of BAR0: its port stands, and the device is not OFF or in RECOVERY, which management alone
reaches (R357, R359). -/
def Mgt.bar0 (m : Mgt) : Bool := m.hostLink && m.dev != .off && m.dev != .recovery

/-- The UP ports through which a device is reached (R328). -/
def Mgt.upPorts (m : Mgt) (dev : Nat) : List PortId :=
  let e := mget ⟨false, 0, 0⟩ m.desttab dev
  if e.v then (List.finRange 36).filter fun p => e.ports.getLsbD p.val && m.ports[p].st == .up else []

/-- Whether a request to another device has a route (R328): it is reachable and a port of its set is UP. -/
def Mgt.routed (m : Mgt) (dev : Nat) : Bool := !(m.upPorts dev).isEmpty

/-- The port of a request: chosen by a hash of its line or of its destination core, among the UP ports of the set (R328). -/
def Mgt.portFor (m : Mgt) (dev key : Nat) : Option PortId :=
  let ps := m.upPorts dev
  ps[Config.portHash key % ps.length]?

/-- The virtual channel of a packet (R323): request, response, posted, message, time. -/
def LinkPkt.channel : LinkPkt → Nat
  | .request (.load ..) | .request (.slot ..) | .request (.read _) | .walk _ => 0
  | .answer .. => 1
  | .request (.write _) | .request (.dec _) => 2
  | .request (.send _) | .chime .. => 3
  | .time => 4

/-- The least of some values under a key, the first on a tie. -/
def leastBy {α : Type} (key : α → Nat) : List α → Option α
  | [] => none
  | a :: as =>
    match leastBy key as with
    | none => some a
    | some b => if key b < key a then some b else some a

/-! The source of time (R334, R335). -/

/-- The UP port whose peer reports the least HOPS; a tie goes to the lower number (R334). With no master in the domain no peer
reports any; with two there is no source (R335; log 30, DESIGN CHOICE). -/
def Mgt.timeSource (m : Mgt) : Option PortId :=
  let ps := (List.finRange 36).filter fun p => m.ports[p].st == .up && m.ports[p].peerHops ≠ 0xFF
  if m.sole then leastBy (fun (p : PortId) => m.ports[p].peerHops.toNat) ps else none

/-- LOCK is 1 while the counter follows a source within 25 ns; HOPS is 0xFF where it is not (R324, R334). -/
def Mgt.relock (m : Mgt) : Mgt :=
  if m.tmaster || m.tsrc = 0xFF then m
  else
    let lock := decide (-25 ≤ m.slew && m.slew ≤ 25)
    { m with
      lock := lock
      hops := if lock then BitVec.ofNat 8 (min (m.ports[Fin.ofNat 36 m.tsrc.toNat].peerHops.toNat + 1) 0xFF) else 0xFF }

/-- The source is looked for again after ports have changed: one that is new has still to tell the time (R334). -/
def Mgt.resource (m : Mgt) : Mgt :=
  if m.tmaster then m
  else
    match m.timeSource with
    | none => { m with tsrc := 0xFF, lock := false, hops := 0xFF, slew := 0 }
    | some p => if m.tsrc.toNat = p.val then m else { m with tsrc := 0xFF, lock := false, hops := 0xFF, slew := 0 }

def Fab.tx (f : Fab) (p : PortId) : PortTx := mget PortTx.reset f.links p.val
def Fab.setTx (f : Fab) (p : PortId) (x : PortTx) : Fab := { f with links := mset p.val x f.links }

/-- Whether a flit of a channel may leave: the replay buffer has room, and the channel credits (R323). -/
def PortTx.opens (x : PortTx) (p : PortId) (k : LinkPkt) : Bool :=
  x.kept.length < Config.replayFlits &&
  (x.kept.filter fun (y : Nat × LinkPkt) => y.2.channel = k.channel).length ≤ Config.linkCredits p.val k.channel

/-- A packet leaves in the next flit and is kept, or waits behind those of its channel (R323). -/
def PortTx.add (x : PortTx) (p : PortId) (k : LinkPkt) : PortTx :=
  if x.opens p k && !x.wait.any (fun (y : LinkPkt) => y.channel = k.channel) then
    { x with seq := x.seq + 1, kept := x.kept ++ [(x.seq, k)] }
  else { x with wait := x.wait ++ [k] }

/-- What waits leaves as far as the credits and the replay buffer allow, each channel in its order (R323). -/
def PortTx.refill (x : PortTx) (p : PortId) : PortTx :=
  x.wait.foldl (fun y k => y.add p k) { x with wait := [] }

def Fab.carry (f : Fab) (p : PortId) (k : LinkPkt) : Fab := f.setTx p ((f.tx p).add p k)

/-- A request goes to another device through the port that its key chooses, or waits for a port (R328, R330). -/
def Fab.transmit (f : Fab) (m : Mgt) (what : LinkReq) (dev key : Nat) : Fab :=
  let g := { f with sent := f.sent ++ [⟨what, dev, key, m.portFor dev key⟩] }
  match m.portFor dev key with
  | some p => g.carry p (.request what)
  | none => g

/-- A request has its answer, or has failed. -/
def Fab.answered (f : Fab) (what : LinkReq) : Fab := { f with sent := f.sent.filter fun x => x.what ≠ what }

/-- Requests without an answer are bound anew: those of a port that has left, or those that no port carried (R330). -/
def Fab.rebind (f : Fab) (m : Mgt) (from' : Option PortId) : List Sent → Fab
  | [] => f
  | x :: xs =>
    (if x.port = from' then
      let g := { f with sent := f.sent.map fun y => if y.what = x.what then { y with port := m.portFor x.dev x.key } else y }
      match m.portFor x.dev x.key with
      | some p => g.carry p (.request x.what)
      | none => g
    else f).rebind m from' xs

/-- Answers and chimes that a port still kept leave through other ports to their device, or wait for a port (R327). -/
def Fab.forward (f : Fab) (m : Mgt) : List LinkPkt → Fab
  | [] => f
  | k :: ks =>
    let dev := match k with
      | .answer dev _ | .chime dev _ => some dev
      | _ => none
    (match dev, dev.bind fun d => m.portFor d d with
     | some _, some p => f.carry p k
     | some _, none => { f with strand := f.strand ++ [k] }
     | none, _ => f).forward m ks

/-- Answers and chimes that no port carried are tried again (R327). -/
def Fab.unstrand (f : Fab) (m : Mgt) : Fab := Fab.forward { f with strand := [] } m f.strand

/-- A port has left its routes (R327, R330): what it sent and has no answer goes through another port. Where it was switched
off (off), its unacknowledged answers and chimes do too; otherwise its replay buffer is kept. -/
def Fab.leave (f : Fab) (m : Mgt) (p : PortId) (off : Bool) : Fab :=
  let x := f.tx p
  let g := f.rebind m (some p) f.sent
  if off then ({ g with links := mdel p.val g.links }).forward m (x.kept.map (fun (y : Nat × LinkPkt) => y.2) ++ x.wait) else g

/-- Ports that have gone OFF leave their routes (R327, R330): m as it was before, m' as it is. -/
def Fab.portsOff (f : Fab) (m m' : Mgt) : List PortId → Fab
  | [] => f
  | p :: ps => (if m.ports[p].st ≠ .off && m'.ports[p].st == .off then f.leave m' p true else f).portsOff m m' ps

/-- What no port carried is bound anew after routes have changed (R327, R330). -/
def Fab.reroute (f : Fab) (m : Mgt) : Fab := (f.rebind m none f.sent).unstrand m

/-- A port has come UP (R327, R330): what no port carried is bound, and what waited leaves. -/
def Fab.comeUp (f : Fab) (m : Mgt) (p : PortId) : Fab :=
  let g := f.reroute m
  if (g.tx p).wait.isEmpty then g else g.setTx p ((g.tx p).refill p)

end Sys2Proof.Machine
end

