-- ==== Sys2Proof/Machine/Fabric.lean ====
section
/-! DEFINITION. Named reads and writes of the parts of the fabric: cores, threads, registers, contexts, and the memories
behind a global physical address with the write lane in front of them (R16, R17, R59, R116, R117, R265, R307). -/

namespace Sys2Proof.Machine

def Fab.core (f : Fab) (c : CoreId) : Core := mget Core.reset f.cores c.val
def Fab.setCore (f : Fab) (c : CoreId) (x : Core) : Fab := { f with cores := mset c.val x f.cores }
def Fab.modCore (f : Fab) (c : CoreId) (g : Core → Core) : Fab := f.setCore c (g (f.core c))
def Core.setThread (x : Core) (h : ThreadId) (t : Thread) : Core := { x with threads := x.threads.set h t }
def Fab.thread (f : Fab) (c : CoreId) (h : ThreadId) : Thread := (f.core c).threads[h]
def Fab.setThread (f : Fab) (c : CoreId) (h : ThreadId) (t : Thread) : Fab := f.setCore c ((f.core c).setThread h t)
def Fab.modThread (f : Fab) (c : CoreId) (h : ThreadId) (g : Thread → Thread) : Fab := f.setThread c h (g (f.thread c h))
def Fab.ctx (f : Fab) (n : CtxId) : Ctx := mget Ctx.reset f.ctxs n.val
def Fab.setCtx (f : Fab) (n : CtxId) (x : Ctx) : Fab := { f with ctxs := mset n.val x f.ctxs }
def Fab.modCtx (f : Fab) (n : CtxId) (g : Ctx → Ctx) : Fab := f.setCtx n (g (f.ctx n))
def Ctx.queue (x : Ctx) (q : QueueId) : Queue := mget Queue.reset x.queues q.val
def Ctx.setQueue (x : Ctx) (q : QueueId) (y : Queue) : Ctx := { x with queues := mset q.val y x.queues }

/-- Appends an event that a step causes (log 2, DESIGN CHOICE). -/
def Fab.push (f : Fab) (i : Instr) : Fab := { f with due := f.due ++ [i] }
/-- The next identifier of things in flight; it also orders what becomes ready (R270). -/
def Fab.tickId (f : Fab) : Fab := { f with ids := f.ids + 1 }
def Fab.emit (f : Fab) (o : Out) : Fab := { f with out := f.out ++ [o] }

/-- Scalar registers: s0 reads zero and ignores writes (R59). -/
def Thread.rd (t : Thread) (r : SReg) : Word := if r = 0 then 0 else t.s[r]
/-- A write to the destination of a refused answer: no value is written over it (R152; log 20, DESIGN CHOICE). -/
def Pend.written (d : Dst) (p : Pend) : Pend :=
  match p.st with
  | .refused _ => if p.dst = d then { p with overwritten := true } else p
  | _ => p
def Thread.wr (t : Thread) (r : SReg) (x : Word) : Thread :=
  if r = 0 then t else { t with s := t.s.set r x, pend := t.pend.map (Pend.written (.s r)) }
/-- Predicates: p0 reads one and ignores writes (R59). -/
def Thread.rdp (t : Thread) (p : PReg) : Bool := p = 0 || t.p.getLsbD p.val
def setBit (x : BitVec 8) (i : Nat) (b : Bool) : BitVec 8 :=
  if b then x ||| (1#8 <<< i) else x &&& ~~~(1#8 <<< i)
def Thread.wrp (t : Thread) (p : PReg) (b : Bool) : Thread := if p = 0 then t else { t with p := setBit t.p p.val b }
def Thread.rdv (t : Thread) (r : VReg) : Line := t.v[r]
def Thread.wrv (t : Thread) (r : VReg) (x : Line) : Thread :=
  { t with v := t.v.set r x, pend := t.pend.map (Pend.written (.v r)) }
/-- The head's effect is whole: the thread goes on at the next head. -/
def Thread.adv (t : Thread) : Thread := { t with pc := t.npc }
def Thread.wrDst (t : Thread) (d : Dst) (x : Line) : Thread :=
  match d with
  | .s r => t.wr r (x.truncate 64)
  | .v r => t.wrv r x

/-- Codes of the trap causes (R338). -/
def causeCode : Cause → BitVec 8
  | .illegalLine => 0x01 | .illegalOp => 0x02 | .pageFault => 0x03 | .misaligned => 0x04 | .writeStable => 0x05
  | .detTarget => 0x06 | .conflict => 0x07 | .atomicPath => 0x08 | .linkLost => 0x09 | .divZero => 0x0A
  | .writeBudget => 0x0B | .windowOverflow => 0x0C | .landingBusy => 0x0D | .noExchange => 0x0E | .privilege => 0x0F
  | .cbUnbound => 0x10 | .cbUnderrun => 0x11 | .cbOverrun => 0x12 | .taskRecord => 0x13 | .countUnderflow => 0x14
  | .watchBusy => 0x15 | .watchFull => 0x16 | .msgFormat => 0x17 | .barShape => 0x18 | .barBusy => 0x19 | .barUnset => 0x1A
  | .barMismatch => 0x1B | .matrixShape => 0x1C | .matrixFormat => 0x1D | .groupMismatch => 0x1E | .software => 0x1F

/-- Virtual core number (R278). -/
def Ctx.vnum (x : Ctx) (vx vy : Nat) : Nat := vy * x.lw + vx
/-- Whether a virtual core lies in the granted lease (R278, R281). -/
def Ctx.inLease (x : Ctx) (vx vy : Nat) : Bool := (x.lease == .granted || x.lease == .ending) && vx < x.lw && vy < x.lh
/-- The physical core that holds a virtual core (R281); none where fencing has taken it out (R27, R294). -/
def Ctx.where? (x : Ctx) (vx vy : Nat) : Option CoreId :=
  if x.inLease vx vy && !x.gone.contains (x.vnum vx vy) then some (Fin.ofNat 2304 (mget 0 x.map (x.vnum vx vy))) else none
def Fab.find (f : Fab) (n : CtxId) (vx vy : Nat) : Option CoreId := (f.ctx n).where? vx vy

/-- No issuer: the device itself, the host or a link peer. -/
def Who.none : Who := ⟨0, 0, 0, 0, 0, 0, .none, 0, false⟩

/-- The context of a core's occupant; context 0 where there is none. -/
def Core.ctxId (x : Core) : CtxId := (x.occ.map (·.ctx)).getD 0
/-- The issuer that a thread's accesses are made for: its firing, or the trap routine that runs for it (R212, R340). -/
def Core.who (x : Core) (h : ThreadId) : Who :=
  let o := x.occ.getD ⟨0, 0, 0⟩
  let t := x.threads[h]
  match t.firing with
  | some g =>
    if t.st = .routine then ⟨o.ctx, o.vx, o.vy, h, t.rfid, t.ctl.taskrec.toNat, g.kid, g.epoch, false⟩
    else ⟨o.ctx, o.vx, o.vy, h, g.fid, g.recAddr, g.kid, g.epoch, g.resident⟩
  | none => ⟨o.ctx, o.vx, o.vy, h, 0, 0, none, 0, false⟩
def Fab.who (f : Fab) (c : CoreId) (h : ThreadId) : Who := (f.core c).who h

/-- Cluster number of a core, and the die of a cluster (R9). -/
def clusterOf (c : Nat) : Nat := 24 * (c / 48 / 2) + c % 48 / 2
def dieOfCluster (k : Nat) : Nat := (if k % 24 ≥ 12 then 1 else 0) + (if k / 24 ≥ 12 then 2 else 0)
def dieOf (c : Nat) : Nat := dieOfCluster (clusterOf c)
/-- The global number of cluster k of a die (R9, R310). -/
def dieCluster (d k : Nat) : Nat := 24 * (k / 12 + 12 * (d / 2)) + k % 12 + 12 * (d % 2)
/-- The stack of a device-local address (R16). -/
def stackOf (la : Nat) : StackId := Fin.ofNat 8 (2 * (la / 2 ^ 37) + la / 2 ^ 12 % 2)

/-- Where a global physical address leads (R307). -/
inductive Place where
  | own (la : Nat)
  | host (pa : Nat)
  | other (dev la : Nat)
  | nowhere
  deriving DecidableEq, Repr

def Mgt.place (m : Mgt) (gpa : Nat) : Place :=
  let dev := gpa / 2 ^ 39
  let la := gpa % 2 ^ 39
  if dev = 0x3FFF then .host la else if dev = m.devnum.toNat then .own la else if dev ≤ 9215 then .other dev la else .nowhere

def Mgt.isOther (m : Mgt) (gpa : Nat) : Bool := match m.place gpa with | .other .. => true | _ => false

/-- The global physical address of a device-local one (R307). -/
def Mgt.gpa (m : Mgt) (la : Nat) : Nat := m.devnum.toNat * 2 ^ 39 + la

/-- What the home slice of line l holds that HBM4E does not, where it does (R116, R247). -/
def Fab.dirtyAt (f : Fab) (l : Nat) : Option Dirty := (f.dirty.find? (·.1 = l)).map (·.2)

/-- The data of the newest line on the write lane that a device read of line l snoops, where no home slice holds the line
newer (R17, R247). -/
def Fab.overlay (f : Fab) (l : Nat) : Option Line :=
  if (f.dirtyAt l).isSome then none
  else (f.wl.reverse.find? fun e => e.line == l && !e.stale && e.place != .unit).map (·.data)

/-- One byte of this device's memory as device observers read it (R105, R116). -/
def Fab.devByte (f : Fab) (la : Nat) : Byte :=
  match f.overlay (la / 64) with
  | some d => BitVec.ofNat 8 (d.toNat / 2 ^ (8 * (la % 64)))
  | none => peek f.mem la

/-- Whether a read that is answered at once fails: the host is out of reach, no route to
the device stands, it refuses, or PCIe completes the read with an error (R27, R328, R330, R337; log 6, DESIGN CHOICE). -/
def Fab.readBad (f : Fab) (m : Mgt) (gpa : Nat) : Bool :=
  match m.place gpa with
  | .own _ => false
  | .host _ => !m.hostLink || Config.readFails f.ids (gpa / 8)
  | .other dev _ => !m.routed dev || Config.readFails f.ids (gpa / 8)
  | .nowhere => true

/-- Bytes at a global physical address as device observers read them. Another device's memory answers from outside (log 6, DESIGN
CHOICE). -/
def Fab.bytesAt (f : Fab) (m : Mgt) (gpa n : Nat) : List Byte :=
  (List.range n).map fun i =>
    match m.place (gpa + i) with
    | .own la => f.devByte la
    | .host pa => if m.hostLink then peek f.host pa else 0
    | .other _ _ => BitVec.ofNat 8 ((Config.remoteWord f.ids ((gpa + i) / 8)).toNat / 2 ^ (8 * ((gpa + i) % 8)))
    | .nowhere => 0

/-- A line of this device's memory as device observers read it (R105, R116). -/
def Fab.lineRead (f : Fab) (l : Nat) : Line := (f.overlay l).getD (bytesLine (peeks f.mem (64 * l) 64))

/-- A line of host memory or of this device's, as device observers read it. -/
def Fab.lineNow (f : Fab) (host : Bool) (l : Nat) : Line :=
  if host then bytesLine (peeks f.host (64 * l) 64) else f.lineRead l

/-- The n lines from l upward are noted as they stand, before a store to them (R43, log 5, DESIGN CHOICE). -/
def Fab.note (f : Fab) (host : Bool) (l n : Nat) : Fab :=
  { f with past := f.past ++ (List.range n).map fun i => ⟨host, l + i, f.lineNow host (l + i)⟩ }

/-- The versions of a code line that a group may execute beside the present one: as it stood before each store to it since the
group's last kernel boundary (R43). -/
def Fab.versions (f : Fab) (m : Mgt) (n : CtxId) (gpa : Nat) : List Line :=
  let of := fun (host : Bool) (l : Nat) =>
    ((f.past.drop (f.ctx n).since).filter fun x => x.host == host && x.line == l).map (·.data)
  match m.place gpa with
  | .own la => of false (la / 64)
  | .host pa => of true (pa / 64)
  | _ => []

/-- The line that a fetch of a code line executes (R43): the line as it stands, or one of its versions (log 5, DESIGN CHOICE). -/
def Fab.codeLine (f : Fab) (m : Mgt) (n : CtxId) (gpa : Nat) : Line :=
  let now := bytesLine (f.bytesAt m gpa 64)
  match f.versions m n gpa with
  | [] => now
  | v :: vs => ((v :: vs)[Config.codeVersion f.cycle gpa % (vs.length + 2)]?).getD now

/-- A 64-bit word at a global physical address. -/
def Fab.word (f : Fab) (m : Mgt) (gpa : Nat) : Nat := leNum (f.bytesAt m gpa 8)

/-- Device reads of a line note that they snooped its queue entry (R117). -/
def Fab.snoop (f : Fab) (la : Nat) : Fab :=
  { f with wl := f.wl.map fun e => if e.line = la / 64 && e.place ≠ .unit then { e with seen := true } else e }

/-- Whether an access of n bytes reaches a poisoned line (R354). -/
def Fab.poisoned (f : Fab) (gpa n : Nat) : Bool := f.poison.any fun l => overlap gpa n (64 * l) 64

/-! The walk (R308 to R312). -/

/-- The first window of a kind that is on and holds every byte from lo to hi (R240, R311). -/
def Ctx.window (x : Ctx) (kind lo hi : Nat) : Option Window :=
  x.windows.toList.find? fun w => w.kind = kind && w.base ≤ lo && hi ≤ w.limit

/-- Levels of the tree: position and width of the index (R308). -/
def walkLevels : List (Nat × Nat) := [(48, 9), (39, 9), (30, 9), (21, 9), (16, 5)]

/-- The walk from a table: the leaf's address and value and the page's size, or none where a condition of R311 on the path
fails, or where an entry's line is poisoned (R354). -/
def Fab.walk (f : Fab) (m : Mgt) (x : Ctx) (va : Nat) : Nat → List (Nat × Nat) → Nat → Option (Nat × Nat × Nat)
  | _, [], _ => none
  | lvl, (sh, w) :: ls, table =>
    let size := 8 * 2 ^ w
    if table % size ≠ 0 || (x.window 1 table (table + size - 1)).isNone then none
    else
      let a := table + 8 * (va / 2 ^ sh % 2 ^ w)
      let e := f.word m a
      if f.readBad m a || e % 2 = 0 || f.poisoned a 8 then none
      else if e / 128 % 2 = 1 then (if lvl ≤ 2 then none else some (a, e, 2 ^ sh))
      else f.walk m x va (lvl + 1) ls (bits e 52 8 * 2 ^ 8)

/-- Whether a leaf's own fields are valid (R311). -/
def leafOk (e size : Nat) : Bool :=
  let pa := bits e 52 16 * 2 ^ 16
  pa % size == 0 && bits e 63 62 != 3 && bits e 59 58 != 3 && !(bits e 59 58 == 1 && bits e 15 8 > 143)
    && (pa / 2 ^ 39 ≤ 9215 || pa / 2 ^ 39 == 0x3FFF)

/-- The cluster of a die, numbered within it, that is nearest to a cluster (R312, R286): the projection onto the die. -/
def nearest (d k : Nat) : Nat :=
  let cx := k % 24
  let cy := k / 24
  let lo := fun (v i : Nat) => if v < 12 * i then 0 else if v ≥ 12 * i + 12 then 11 else v - 12 * i
  12 * lo cy (d / 2) + lo cx (d % 2)

/-- The TLB entry of a valid leaf and, for a first-touch page, the value written back to it (R312). -/
def leafEntry (m : Mgt) (n : CtxId) (x : Ctx) (cluster va addr e size : Nat) : Option (TlbEnt × Option Nat) :=
  let pa := bits e 52 16 * 2 ^ 16
  let kind := if pa / 2 ^ 39 = 0x3FFF then 2 else 1
  match x.window kind pa (pa + size - 1) with
  | none => none
  | some w =>
    if !leafOk e size then none
    else
      let first := bits e 59 58 = 2 && (match m.place pa with | .own _ => true | _ => false)
      let leafWr := ((x.window 1 addr (addr + 7)).map (·.wr)).getD false
      let k := nearest (pa % 2 ^ 39 / 2 ^ 37) cluster
      let touch := first && leafWr
      let plc := if bits e 59 58 = 2 then (if touch then 1 else 0) else bits e 59 58
      let parg := if bits e 59 58 = 2 then (if touch then k else 0) else if plc = 0 then bits e 11 8 else bits e 15 8
      let e' := e - bits e 59 58 * 2 ^ 58 - bits e 15 8 * 2 ^ 8 + 2 ^ 58 + k * 2 ^ 8
      some (⟨n, va / size * size, size, pa, bits e 1 1 = 1, bits e 2 2 = 1, bits e 3 3 = 1, w.wr, bits e 61 61 = 1,
        bits e 60 60 = 1, bits e 63 62, plc, parg⟩, if touch then some e' else none)

def TlbEnt.hit (e : TlbEnt) (n : CtxId) (va : Nat) : Bool := e.ctx == n && e.vbase ≤ va && va < e.vbase + e.size
def TlbEnt.gpa (e : TlbEnt) (va : Nat) : Nat := e.pbase + (va - e.vbase)

/-- Translation without a core, for the distributor (R253): walks and fills nothing. -/
def Fab.walkOnly (f : Fab) (m : Mgt) (n : CtxId) (va : Nat) : Option TlbEnt :=
  let x := f.ctx n
  match f.walk m x va 1 walkLevels x.ptroot with
  | none => none
  | some (addr, e, size) => (leafEntry m n x 0 va addr e size).map (·.1)

/-! Home slices (R27, R312, R317, R357). -/

def Mgt.clusterFenced (m : Mgt) (k : Nat) : Bool := m.fencedRouters.contains (Fin.ofNat 576 k)

/-- Hash set j of die d (R317): all ones until written. -/
def Mgt.hashMask (m : Mgt) (d j : Nat) : BitVec 144 := mget (BitVec.allOnes 144) m.hashset (16 * d + j)

/-- The home cluster of a line under hash set j (R312). With every cluster of the die fenced it is cluster 0 of the die (log 35,
DESIGN CHOICE). -/
def Mgt.hashed (m : Mgt) (d j la : Nat) : Nat :=
  let live := (List.range 144).filter fun k => !m.clusterFenced (dieCluster d k)
  let set := live.filter fun k => (m.hashMask d j).getLsbD k
  let pick := if set.isEmpty then live else set
  let a := bits la 38 6
  let h := Nat.xor (Nat.xor a (a / 2 ^ 11)) (a / 2 ^ 22)
  dieCluster d (pick.getD (h % pick.length) 0)

/-- The home slice of host-memory lines (R12, R357). With every cluster of die d0 fenced it is cluster 0 (log 35, DESIGN CHOICE). -/
def Mgt.hostHome (m : Mgt) : Nat :=
  if m.clusterFenced (24 * 6) then
    (((List.range 144).filter fun k => !m.clusterFenced (dieCluster 0 k)).map (dieCluster 0)).getD 0 0
  else 24 * 6

/-- The home slice of a line of this device or of host memory (R312). -/
def Mgt.homeSlice (m : Mgt) (plc parg gpa : Nat) : Nat :=
  match m.place gpa with
  | .own la =>
    let d := la / 2 ^ 37
    if plc = 1 && !m.clusterFenced (dieCluster d parg) then dieCluster d parg
    else m.hashed d (if plc = 1 then 0 else parg) la
  | _ => m.hostHome

/-! Regions of an address (R99). -/

def locBase : Nat := 0x01FFFFFFFFFC0000
def peerBase : Nat := 0x01FFFF0000000000

/-- The global physical address of a record, or of a queue descriptor, on a readable or writable page of a context. -/
def Fab.recAt (f : Fab) (m : Mgt) (n : CtxId) (va : Nat) : Option Nat :=
  match if va < peerBase then f.walkOnly m n va else none with
  | some e => if (e.wrt && e.win) || e.rd then some (e.gpa va) else none
  | none => none

/-! Stores. -/

/-- A device store to a line: its home slice holds it from here on, with the newest data that stood on the write lane, so that
the store stays the last in the line's coherence order (R105). Its writeback is charged to the context of the task that dirtied
it last (R152). A line that the host, a peer or the device itself writes is homed by hash set 0, no page being known (log 35, DESIGN
CHOICE). -/
def Fab.settle (f : Fab) (m : Mgt) (w : Option Who) (l : Nat) : Fab :=
  match f.dirtyAt l with
  | some d => { f with dirty := mset l { d with who := if w.isSome then w else d.who } f.dirty }
  | none =>
    let home := if w.isNone then some (m.homeSlice 0 0 (m.gpa (64 * l))) else none
    { f with
      dirty := mset l ⟨w, 0, 0, 0, bytesLine (peeks f.mem (64 * l) 64), home⟩ f.dirty
      mem := match f.overlay l with
        | some d => pokes f.mem (64 * l) (lineBytes d)
        | none => f.mem }

/-- The n lines from l upward, dirty in their home slices, belong to a page (R312, R315); a line that has just been brought in stays
in the slice that is its home now until it is evicted (R317). -/
def Fab.classed (f : Fab) (m : Mgt) (e : TlbEnt) (l : Nat) : Nat → Fab
  | 0 => f
  | k + 1 =>
    (match f.dirtyAt l with
     | some d =>
       let home := d.home.getD (m.homeSlice e.plc e.parg (m.gpa (64 * l)))
       { f with dirty := mset l { d with wlc := e.wlc, plc := e.plc, parg := e.parg, home := some home } f.dirty }
     | none => f).classed m e (l + 1) k

/-- Whether a byte is one of the words 1 and 4 to 6 of a live record, which its home slice owns (R265). -/
def Fab.owned (f : Fab) (gpa : Nat) : Bool :=
  f.live.any fun r => r.1 ≤ gpa && gpa < r.1 + 64 &&
    ((8 ≤ gpa - r.1 && gpa - r.1 < 16) || (32 ≤ gpa - r.1 && gpa - r.1 < 56))

/-- Bytes written to this device's memory; with mask, the bytes that a live record's home slice owns are discarded. -/
def Fab.pokeOwn (f : Fab) (m : Mgt) (mask : Bool) (la : Nat) : List Byte → Fab
  | [] => f
  | b :: bs =>
    (if mask && f.owned (m.gpa la) then f else { f with mem := poke la b f.mem }).pokeOwn m mask (la + 1) bs

/-- Host memory after bytes are written to it, save those that a live record's home slice owns. -/
def Fab.pokeHost (f : Fab) (gpa pa : Nat) : List Byte → Memory
  | [] => f.host
  | b :: bs =>
    let h := f.pokeHost (gpa + 1) (pa + 1) bs
    if f.owned gpa then h else poke pa b h

/-- The epoch that a wake carries (R125): 0 from outside the group; from inside, the spec states none (log 8, DESIGN CHOICE). -/
def wakeEpoch (w : Option Who) (n : CtxId) : BitVec 32 :=
  match w with
  | some w => if w.ctx = n then Config.wakeEpoch w.epoch else 0
  | none => 0

/-- Adds a wake for each watch in a list that a write of n bytes at gpa covers (R215). -/
def Fab.wakeAll (f : Fab) (w : Option Who) (gpa n : Nat) : List Watch → Fab
  | [] => f
  | x :: xs =>
    (if overlap gpa n x.word 8 then
      { f with
        ids := f.ids + 1
        wakes := f.wakes ++ [⟨f.ids, x.ctx, x.recAddr, wakeEpoch w x.ctx⟩]
        due := f.due ++ [.wakeWrite f.ids] }
    else f).wakeAll w gpa n xs

/-- Where the distributor watches word k of queue q's descriptor: as found at CREATE, or, where its page was absent then,
as it stands now (R255). -/
def Fab.watchOf (f : Fab) (m : Mgt) (n : CtxId) (q k : Nat) (found : Option Nat) : Option Nat :=
  if found.isSome then found else f.recAt m n ((f.ctx n).qtab + 64 * q + 8 * k)

/-- The notices that queue q of a context sends for a write (R255): doorbell, then tickets. -/
def Fab.queueNotices (f : Fab) (m : Mgt) (n : CtxId) (q : Nat) (x : Queue) (gpa k : Nat) : List Instr :=
  let hit := fun (a : Option Nat) => a.any fun a => overlap gpa k a 8
  (if hit (f.watchOf m n q 0 x.watch0) then [Instr.doorbellWrite n (Fin.ofNat 16 q)] else []) ++
  (if hit (f.watchOf m n q 1 x.watch1) then [Instr.ticketWrite n (Fin.ofNat 16 q)] else [])

/-- What the home slices do after a write: wakes and notices (R215, R255). -/
def Fab.notify (f : Fab) (m : Mgt) (w : Option Who) (gpa n : Nat) : Fab :=
  let g := f.wakeAll w gpa n f.watches
  { g with due := g.due ++ f.ctxs.flatMap fun x =>
      x.2.queues.flatMap fun q => f.queueNotices m (Fin.ofNat 64 x.1) q.1 q.2 gpa n }

/-- Lines from l upward brought into their home slices, before a store to them. -/
def Fab.settleAll (f : Fab) (m : Mgt) (w : Option Who) (l : Nat) : Nat → Fab
  | 0 => f
  | k + 1 => (f.settle m w l).settleAll m w (l + 1) k

/-- A posted write to another device leaves, under its number (R154, R330). -/
def Fab.post (f : Fab) (m : Mgt) (r : RWrite) : Fab :=
  let g := { f with rwrites := f.rwrites ++ [r] }
  match m.place r.gpa with
  | .other dev _ => g.transmit m (.write r.id) dev (r.gpa / 64)
  | _ => g

/-- A store at a global physical address, made for an issuer (none: the host, a link peer or the device itself). mask is
false for the device's own writes to the words of live records. A store that covers a whole poisoned line clears it (R354). -/
def Fab.store (f : Fab) (m : Mgt) (w : Option Who) (mask : Bool) (gpa : Nat) (bs : List Byte) : Fab :=
  match m.place gpa with
  | .own la =>
    let n := (la + bs.length + 63) / 64 - la / 64
    let g := ((f.note false (la / 64) n).settleAll m w (la / 64) n).pokeOwn m mask la bs
    let g := { g with poison := g.poison.filter fun l => !(gpa ≤ 64 * l && 64 * l + 64 ≤ gpa + bs.length) }
    g.notify m w gpa bs.length
  | .host pa =>
    if m.hostLink then
      let f := f.note true (pa / 64) ((pa + bs.length + 63) / 64 - pa / 64)
      { f with host := if mask then f.pokeHost gpa pa bs else pokes f.host pa bs }.notify m w gpa bs.length
    else f
  | .other _ _ => { f with ids := f.ids + 1 }.post m ⟨f.ids, w.getD Who.none, 0, gpa, bs, 0x39, 1, none, none, none, none⟩
  | .nowhere => f

/-- A word that the device stores. -/
def Fab.storeWord (f : Fab) (m : Mgt) (gpa x : Nat) : Fab := f.store m none false gpa (leBytes 8 x)

end Sys2Proof.Machine
end

