-- ==== Sys2Proof/Machine/Pages.lean ====
section
/-! DEFINITION. Pages: the TLBs (R313), first touch and line placement (R312), and what a path carries (R326). -/

namespace Sys2Proof.Machine

def Fab.fillCore (f : Fab) (c : CoreId) (e : TlbEnt) : Fab :=
  f.modCore c fun x => { x with tlb := (e :: x.tlb).take Config.tlbEntries }
def Fab.fillCluster (f : Fab) (k : Nat) (e : TlbEnt) : Fab :=
  { f with ctlb := mset k ((e :: mget [] f.ctlb k).take 8192) f.ctlb }

/-- The walker writes a leaf that it touches first back (R312): on another device, by a compare-and-swap with the value e that it
read. -/
def Fab.touchLeaf (f : Fab) (m : Mgt) (addr e : Nat) (wr : Option Nat) : Fab :=
  match wr with
  | none => f
  | some e' =>
    match m.place addr with
    | .other .. =>
      { f with ids := f.ids + 1 }.post m ⟨f.ids, Who.none, 0, addr, leBytes 8 e', 0, 0, none, none, none, some (BitVec.ofNat 64 e)⟩
    | _ => f.storeWord m addr e'

/-- The addresses of the entries that a walk reads, in their order (R308). -/
def Fab.walkReads (f : Fab) (m : Mgt) (x : Ctx) (va : Nat) : Nat → List (Nat × Nat) → Nat → List Nat
  | _, [], _ => []
  | lvl, (sh, w) :: ls, table =>
    let size := 8 * 2 ^ w
    if table % size ≠ 0 || (x.window 1 table (table + size - 1)).isNone then []
    else
      let a := table + 8 * (va / 2 ^ sh % 2 ^ w)
      let e := f.word m a
      a :: (if e % 2 = 0 || e / 128 % 2 = 1 then [] else f.walkReads m x va (lvl + 1) ls (bits e 52 8 * 2 ^ 8))

/-- The reads of a valid walk that go to other devices leave through their ports (R323, R328; log 6, DESIGN CHOICE). -/
def Fab.walkOut (f : Fab) (m : Mgt) : List Nat → Fab
  | [] => f
  | a :: as =>
    (match m.place a with
     | .other dev _ => (match m.portFor dev (a / 64) with | some p => f.carry p (.walk a) | none => f)
     | _ => f).walkOut m as

/-- What a walk finds at its leaf: the TLB entry, the value written back and the value that it replaces. A walker whose swap on
another device's leaf fails reads that leaf again and uses what it finds (R312). -/
def Fab.leafFound (f : Fab) (m : Mgt) (n : CtxId) (k va addr e size : Nat) : Option (TlbEnt × Option Nat × Nat × Fab) :=
  match leafEntry m n (f.ctx n) k va addr e size with
  | some (t, wr) =>
    if wr.isSome && m.isOther addr && Config.swapFails f.ids addr then
      (let g : Fab := { f with ids := f.ids + 1 }
       let e := g.word m addr
       if e % 2 = 1 && e / 128 % 2 = 1 then (leafEntry m n (f.ctx n) k va addr e size).map fun r => (r.1, r.2, e, g) else none)
    else some (t, wr, e, f)
  | none => none

/-- Translation at a core (R313): its TLB, the cluster's, then the walk, which fills both where it is valid, ok telling whether the
access is permitted (R311, R320). -/
def Fab.translate (f : Fab) (m : Mgt) (c : CoreId) (n : CtxId) (va : Nat) (ok : TlbEnt → Bool) : Option (TlbEnt × Fab) :=
  match (f.core c).tlb.find? (·.hit n va) with
  | some e => some (e, f)
  | none =>
    let k := clusterOf c.val
    match (mget [] f.ctlb k).find? (·.hit n va) with
    | some e => some (e, f.fillCore c e)
    | none =>
      let x := f.ctx n
      match f.walk m x va 1 walkLevels x.ptroot with
      | none => none
      | some (addr, e, size) =>
        match f.leafFound m n k va addr e size with
        | none => none
        | some (t, wr, e, g) =>
          if ok t then
            some (t, (((g.walkOut m (f.walkReads m x va 1 walkLevels x.ptroot)).touchLeaf m addr e wr).fillCore c t).fillCluster k t)
          else none

/-- The atomic classes that the path to an address carries (R326, R337). -/
def Mgt.pathCap (m : Mgt) (gpa : Nat) : BitVec 4 :=
  match m.place gpa with
  | .other dev _ =>
    let e := mget ⟨false, 0, 0⟩ m.desttab dev
    (List.finRange 36).foldl
      (fun acc p => if e.ports.getLsbD p.val && m.ports[p].st == .up then acc &&& m.ports[p].cap else acc) e.cap
  | .host _ => if m.atomReq then 1 else 0
  | _ => 15

end Sys2Proof.Machine
end

