-- ==== Sys2Proof/Machine/Access.lean ====
section
/-! DEFINITION. Where an address leads and what an access must pass: the regions (R99, R100), the checks of R148, a core's
local window (R15, R67, R149), conflict records (R126), stable copies (R123), and the arithmetic of atomics (R162). -/

namespace Sys2Proof.Machine

/-- Regions of the virtual address space (R99, R100). -/
inductive Region where
  | mem (va : Nat)
  | peer (vx vy off : Nat)
  | loc (off : Nat)
  | reserved
  deriving DecidableEq, Repr

def regionOf (ea : Nat) : Region :=
  if ea < peerBase then .mem ea
  else if ea < 0x01FFFF0400000000 then
    (let d := ea - peerBase
     .peer (d / 2 ^ 18 % 256) (d / 2 ^ 26) (d % 2 ^ 18))
  else if locBase ≤ ea && ea < 2 ^ 57 then .loc (ea - locBase)
  else .reserved

/-- What an access does (R148, check 3). -/
inductive Want where
  | load | store | atomic
  deriving DecidableEq, Repr

def TlbEnt.grants (e : TlbEnt) : Want → Bool
  | .load => e.rd
  | .store => e.wrt && e.win
  | .atomic => e.rd && e.wrt && e.win

/-- An access to be checked: address, alignment, kind, the regions open to it, whether it makes the record check at this
point (R148, check 6), whether it is a .comm atomic (R126), whether it is a .fadd that is not on a window (check 5), and the
bytes it covers. -/
structure Req where
  ea : Word
  align : Nat
  want : Want
  mem : Bool
  peer : Bool
  loc : Bool
  check6 : Bool
  comm : Bool
  narrowFadd : Bool
  len : Nat

/-- Whether R126 covers a page: checked, of this device, in a deterministic context (R319). -/
def recorded (m : Mgt) (x : Ctx) (e : TlbEnt) : Bool :=
  x.det && e.chk && (match m.place e.pbase with | .own _ => true | _ => false)

/-- Whether an access of a firing to a line conflicts with the line's record (R126). -/
def Ctx.conflicts (x : Ctx) (w : Who) (gpa : Nat) (comm : Bool) : Bool :=
  match x.conf.find? fun r => r.1 = gpa / 64 with
  | some (_, r) => r.fid ≠ w.fid && w.epoch ≤ r.epoch && !(r.comm && comm)
  | none => false

/-- The checks of R148 in their order. A poisoned line refuses what R354 names after them. -/
def Fab.check (f : Fab) (m : Mgt) (c : CoreId) (w : Who) (r : Req) : Except Cause (Tgt × Fab) :=
  let x := f.ctx w.ctx
  let aligned := r.ea.toNat % r.align = 0
  match regionOf r.ea.toNat with
  | .reserved => .error .pageFault
  | .loc off =>
    if !r.loc || off ≥ 0x24000 then .error .pageFault
    else if !aligned then .error .misaligned
    else if r.narrowFadd && x.det then .error .detTarget
    else .ok (.loc off, f)
  | .peer vx vy off =>
    if !r.peer then .error .pageFault
    else if !aligned then .error .misaligned
    else if off ≥ 0x20000 || !x.inLease vx vy then .error .pageFault
    else if r.narrowFadd && x.det then .error .detTarget
    else .ok (.peer vx vy off, f)
  | .mem va =>
    if !r.mem then .error .pageFault
    else if !aligned then .error .misaligned
    else
      match f.translate m c w.ctx va (·.grants r.want) with
      | none => .error .pageFault
      | some (e, g) =>
        let gpa := e.gpa va
        if !e.grants r.want || (match m.place gpa with | .other d _ => !m.routed d | .nowhere => true | _ => false) then
          .error .pageFault
        else if e.stable && r.want ≠ .load then .error .writeStable
        else if r.narrowFadd && x.det then .error .detTarget
        else if r.check6 && recorded m x e && x.conflicts w gpa r.comm then .error .conflict
        else if f.poisoned gpa r.len && !(r.want = .store && r.len % 64 = 0) then .error .pageFault
        else .ok (.mem gpa e, g)

/-- The fabric after the walk that an access makes: a valid walk fills the TLBs and places a first-touch page even where the
access then traps (R312, R320). -/
def Fab.walked (f : Fab) (m : Mgt) (c : CoreId) (w : Who) (r : Req) : Fab :=
  match regionOf r.ea.toNat with
  | .mem va => if r.mem && r.ea.toNat % r.align = 0 then ((f.translate m c w.ctx va (·.grants r.want)).map (·.2)).getD f else f
  | _ => f

/-- The visible and the shadow exchange bank (R67). -/
def Core.visible (x : Core) : Memory := if x.bank then x.xb1 else x.xb0
def Core.setVisible (x : Core) (m : Memory) : Core := if x.bank then { x with xb1 := m } else { x with xb0 := m }
def Core.setShadow (x : Core) (m : Memory) : Core := if x.bank then { x with xb0 := m } else { x with xb1 := m }
def Core.shadow (x : Core) : Memory := if x.bank then x.xb0 else x.xb1

/-- Bytes of the local window (R15). -/
def Core.locBytes (x : Core) (off n : Nat) : List Byte :=
  if off < 0x20000 then peeks x.spad off n else peeks x.visible (off - 0x20000) n

/-- The all-zero flags after a write: a granule whose bytes change loses its flag (R149). -/
def clearFlags (z : BitVec 128) (off : Nat) : List Byte → List Byte → BitVec 128
  | a :: as, b :: bs =>
    clearFlags (if a = b then z else z &&& ~~~(1#128 <<< (off / 1024))) (off + 1) as bs
  | _, _ => z

def Core.locWrite (x : Core) (off : Nat) (bs : List Byte) : Core :=
  if off < 0x20000 then
    { x with spad := pokes x.spad off bs, zflags := clearFlags x.zflags off (peeks x.spad off bs.length) bs }
  else x.setVisible (pokes x.visible (off - 0x20000) bs)

/-- Whether a scratchpad write must wait: a matrix instruction or a standing export still owns the bytes (R149, R198, R200). -/
def Core.locked (x : Core) (off n : Nat) : Bool :=
  x.mq.any (fun e => e.rd.any fun r => overlap off n r.1 r.2) ||
  x.exports.any (fun e => e.ext.any fun r => overlap off n r.1 r.2)

/-- One record set for k lines from line l upward. -/
def noteLines (r : ConfRec) (l : Nat) : Nat → AMap ConfRec → AMap ConfRec
  | 0, m => m
  | k + 1, m => noteLines r (l + 1) k (mset l r m)

/-- A write replaces the record of each line it covers on a recorded page (R126). -/
def Fab.noteWrite (f : Fab) (m : Mgt) (w : Who) (e : TlbEnt) (gpa n : Nat) (comm : Bool) : Fab :=
  if recorded m (f.ctx w.ctx) e then
    f.modCtx w.ctx fun x =>
      { x with conf := noteLines ⟨w.fid, w.epoch, comm⟩ (gpa / 64) ((gpa + n + 63) / 64 - gpa / 64) x.conf }
  else f

/-- The crossing router on a core's die that a request to a home cluster passes last, on the path that goes along x and then along
y (R10, R13). -/
def lastRouter (c : CoreId) (home : Nat) : Nat :=
  let k := clusterOf c.val
  let east := fun (v : Nat) => decide (v ≥ 12)
  if east (k % 24) != east (home % 24) then 24 * (k / 24) + (if east (k % 24) then 12 else 11)
  else 24 * (if east (k / 24) then 12 else 11) + home % 24

/-- Where the lines of a stable page are kept for a core, nearest first: its L1, then the gateway cache of R13 or the cache of the
port that carries its requests (R328, R329). A fenced crossing router has none (R357). -/
def copyPlaces (m : Mgt) (c : CoreId) (e : TlbEnt) (gpa : Nat) : List Cache :=
  .l1 c :: match m.place gpa with
    | .other dev _ => (m.portFor dev (gpa / 64)).toList.map Cache.port
    | _ =>
      let home := m.homeSlice e.plc e.parg gpa
      if dieOfCluster home = dieOf c.val || m.clusterFenced (lastRouter c home) then [] else [.gateway (lastRouter c home)]

/-- The copy of a line that a place holds for a context; an L1 holds one copy of a line, whichever context it came for (R314). -/
def Fab.copyAt (f : Fab) (n : CtxId) (line : Nat) (p : Cache) : Option Copy :=
  let all := match p with
    | .l1 _ => (f.ctx n).stable ++ f.ctxs.flatMap fun (x : Nat × Ctx) => x.2.stable
    | _ => (f.ctx n).stable
  all.find? fun r => r.place = p && r.line = line

/-- The copy of a stable line that a load uses, if it uses one, and the places that hold the line after it: whether a copy is
used is free at each (R13, R123; log 10, DESIGN CHOICE). -/
def Fab.copyHit (f : Fab) (n : CtxId) (line : Nat) : List Cache → Option Line × List Cache
  | [] => (none, [])
  | p :: ps =>
    match f.copyAt n line p with
    | some r =>
      if Config.stableHit f.ids (line + ps.length) then (some r.data, [p])
      else ((f.copyHit n line ps).1, p :: (f.copyHit n line ps).2)
    | none => ((f.copyHit n line ps).1, p :: (f.copyHit n line ps).2)

/-- Copies of a line at some places go. -/
def Ctx.dropAt (x : Ctx) (line : Nat) (at' : Cache → Bool) : Ctx :=
  { x with stable := x.stable.filter fun r => !(r.line = line && at' r.place) }

/-- Places hold a copy of a line under a virtual line of a context; an L1 that held it under another, for this context or for
another one, is re-tagged (R314). -/
def Fab.keepCopy (f : Fab) (n : CtxId) (ps : List Cache) (vline line : Nat) (d : Line) : Fab :=
  let l1 := fun (p : Cache) => ps.contains p && match p with | .l1 _ => true | _ => false
  let g : Fab := { f with ctxs := f.ctxs.map fun x => (x.1, x.2.dropAt line l1) }
  g.modCtx n fun x =>
    let x := x.dropAt line ps.contains
    { x with stable := x.stable ++ ps.map fun p => ⟨p, vline, line, d⟩ }

/-- Whether a load of a page may be served from copies: the page is stable, and is not one that R124 has its home slice serve. -/
def Fab.copies (f : Fab) (m : Mgt) (n : CtxId) (e : TlbEnt) : Bool := e.stable && !recorded m (f.ctx n) e

/-- A load of device or host memory by a core: the bytes, from a stable copy where the page has copies and the device uses one
that it holds (R123, R314; log 10, DESIGN CHOICE), and the fabric after it. -/
def Fab.load (f : Fab) (m : Mgt) (c : CoreId) (n : CtxId) (e : TlbEnt) (gpa k : Nat) : List Byte × Fab :=
  let line := gpa / 64
  let g := match m.place gpa with
    | .own la => f.snoop la
    | _ => f
  if f.copies m n e then
    let (hit, ps) := f.copyHit n line (copyPlaces m c e gpa)
    let d := hit.getD (bytesLine (f.bytesAt m (64 * line) 64))
    (((lineBytes d).drop (gpa % 64)).take k, g.keepCopy n ps ((e.vbase + (gpa - e.pbase)) / 64) line d)
  else (f.bytesAt m gpa k, g)

/-- Size of a load or store type in bytes (R151). -/
def ldSize : LdTy → Nat
  | .s8 | .z8 => 1
  | .s16 | .z16 => 2
  | .s32 | .z32 => 4
  | .s64 => 8
def stSize : StTy → Nat
  | .z8 => 1
  | .z16 => 2
  | .z32 => 4
  | .z64 => 8
def wdSize : Wd → Nat
  | .w32 => 4
  | .w64 => 8

/-- Whether a .fadd acts on a window: local or peer address that is a multiple of 64 (R108). -/
def onWindow (op : AOp) (ea : Word) : Bool :=
  op == .fadd && ea.toNat % 64 = 0 && (match regionOf ea.toNat with | .loc _ | .peer .. => true | _ => false)

/-- Bytes of an atomic's location; a window has 64 (R108, R163). -/
def atomSize (op : AOp) (wd : Wd) (ea : Word) : Nat := if onWindow op ea then 64 else wdSize wd

/-- Whether a delivery only reads: an LD or a VLD. -/
def POp.isLoad : POp → Bool
  | .load _ | .vload => true
  | _ => false

/-- Whether a value is still to come for a delivery: it is awaited, or is to be asked for again without an RTE. -/
def PSt.open : PSt → Bool
  | .waiting | .resend => true
  | .refused _ | .retry => false

/-- Bytes that an outstanding delivery reads. -/
def Pend.size (p : Pend) : Nat :=
  match p.op with
  | .load ty => ldSize ty
  | .vload => 64
  | .amor op wd _ => atomSize op wd p.ea
  | .cas wd _ _ => wdSize wd

/-- A scratchpad offset of an issuer's own core and the same byte through the peer window are one place (R99, R100). -/
def Tgt.norm (t : Tgt) (w : Who) : Tgt :=
  match t with
  | .loc off => if off < 0x20000 then .peer w.vx w.vy off else .loc off
  | t => t

/-- Whether two accesses of one core, of n and k bytes, share a byte, under whatever address (R105, R314). -/
def Tgt.meets (w : Who) (a : Tgt) (n : Nat) (b : Tgt) (k : Nat) : Bool :=
  match a.norm w, b.norm w with
  | .loc x, .loc y => overlap x n y k
  | .peer vx vy x, .peer vx' vy' y => vx = vx' && vy = vy' && overlap x n y k
  | .mem x _, .mem y _ => overlap x n y k
  | _, _ => false

/-- Where an address leads a core's thread, without a check. -/
def Fab.tgtOf (f : Fab) (m : Mgt) (c : CoreId) (n : CtxId) (ea : Word) : Option Tgt :=
  match regionOf ea.toNat with
  | .mem va => (f.translate m c n va fun _ => true).map fun r => .mem (r.1.gpa va) r.1
  | .peer vx vy off => some (.peer vx vy off)
  | .loc off => some (.loc off)
  | .reserved => none

/-- A loaded value extended by its type (R152). -/
def ldExtend (ty : LdTy) (x : Nat) : Word :=
  match ty with
  | .s8 | .s16 | .s32 | .s64 => BitVec.ofInt 64 (intVal true (8 * (ldSize ty)) x)
  | .z8 | .z16 | .z32 => BitVec.ofNat 64 (x % 2 ^ (8 * (ldSize ty)))

/-- The new value of a location of w bits under an atomic (R162). -/
def atomNew (op : AOp) (wd : Wd) (old b : Nat) : Nat :=
  let w := 8 * wdSize wd
  let b := b % 2 ^ w
  let less := fun (s : Bool) => intVal s w old < intVal s w b
  match op with
  | .add => (old + b) % 2 ^ w
  | .and => Nat.land old b
  | .or => Nat.lor old b
  | .xor => Nat.xor old b
  | .minS => if less true then old else b
  | .maxS => if less true then b else old
  | .minZ => if less false then old else b
  | .maxZ => if less false then b else old
  | .swap => b
  | .fadd => f32.addBits old b

/-- What an atomic leaves in the bytes it acts on, the old value it returns, and whether it set OVF of a window. -/
structure AtomRes where
  bytes : List Byte
  old : Word
  ovf : Bool

/-- An atomic on the bytes of its location (R162); on a window, the add of R91 with the old window read by R92 (R108). -/
def atomRun (op : AOp) (wd : Wd) (window : Bool) (bs : List Byte) (b : Word) : AtomRes :=
  let old := leNum bs
  if window then
    let new := windowAdd old (b.toNat % 2 ^ 32)
    ⟨leBytes 64 new, BitVec.ofNat 64 (windowF32 old), !windowOvf old && windowOvf new⟩
  else ⟨leBytes (wdSize wd) (atomNew op wd old b.toNat), BitVec.ofNat 64 old, false⟩

def casRun (wd : Wd) (bs : List Byte) (b c : Word) : AtomRes :=
  let old := leNum bs
  let w := 2 ^ (8 * wdSize wd)
  ⟨if old = c.toNat % w then leBytes (wdSize wd) (b.toNat % w) else bs, BitVec.ofNat 64 old, false⟩

/-- The atomic class of an operation (R326). -/
def classBit (op : AOp) (window : Bool) : Nat := if op == .fadd then (if window then 2 else 1) else 0

end Sys2Proof.Machine
end

