-- ==== Sys2Proof/Machine/Ops.lean ====
section
/-! DEFINITION. The shared operations: reading memory for the device, interrupts, taking a trap and returning from one
(R339 to R342), the aggregation buffers and the fault log (R109 to R115), flush triggers (R112), and the frame that every
head instruction runs in (R34, R56, R152, R330). -/

namespace Sys2Proof.Machine

/-! Memory of a context, read and written by the device and its engines at a core. -/

/-- A request of an engine or of the device: translated memory only. -/
def plainReq (va n : Nat) (want : Want) : Req := ⟨BitVec.ofNat 64 va, 1, want, true, false, false, true, false, false, n⟩

/-- Bytes within one line written at a virtual address, with the record of R126. -/
def Fab.writePart (f : Fab) (m : Mgt) (c : CoreId) (w : Who) (va : Nat) (bs : List Byte) : Except Cause Fab :=
  match f.check m c w (plainReq va bs.length .store) with
  | .error e => .error e
  | .ok (.mem gpa e, g) =>
    .ok (((g.noteWrite m w e gpa bs.length false).store m (some w) true gpa bs).classed m e (gpa % 2 ^ 39 / 64) 1)
  | .ok _ => .error .pageFault

/-- The words of the record of a trap routine (R340), or why it cannot be read, with the fabric after the walk. It makes no check of
R126, and a record on another device is answered at once (log 6, DESIGN CHOICE). -/
def Fab.lineWords (f : Fab) (m : Mgt) (c : CoreId) (w : Who) (va : Nat) : Except Fab (List Nat × Fab) :=
  let r := { plainReq va 64 .load with check6 := false }
  match f.check m c w r with
  | .error _ => .error (f.walked m c w r)
  | .ok (.mem gpa e, g) =>
    if g.readBad m gpa then .error g
    else .ok ((List.range 8).map (wordOf (bytesLine (g.load m c w.ctx e gpa 64).1)), (g.load m c w.ctx e gpa 64).2)
  | .ok (_, g) => .error g

/-! Interrupts and parking (R245, R343). -/

/-- Raises event class k of a context: a vector whose enable bit is set sends its message, where the host port stands (R21, R245,
R357). -/
def Fab.interrupt (f : Fab) (m : Mgt) (n : CtxId) (k : Fin 4) : Fab :=
  let v := (f.ctx n).vec[k]
  if v.getLsbD 15 && m.hostLink then f.emit (.msix (v.toNat % 2048)) else f

/-- Adds a TRAPQ entry unless the queue is full (R343). -/
def Fab.queueTrap (f : Fab) (n : CtxId) (vcore : Nat) (h : ThreadId) (code : BitVec 8) : Fab :=
  if f.trapq.length < Config.trapq then
    { f with trapq := f.trapq ++
        [BitVec.ofNat 64 (2 ^ 63 + n.val * 2 ^ 56 + vcore % 2 ^ 16 * 2 ^ 32 + h.val * 2 ^ 24 + code.toNat)] }
  else f

/-- Offset of a thread's frame in its core's save area (R341). -/
def frameOff (h : ThreadId) : Nat := 0x40400 + 0x600 * h.val
/-- Address of the save area of a core's occupant (R347). -/
def Fab.saveAt (f : Fab) (c : CoreId) : Nat :=
  let o := (f.core c).occ.getD ⟨0, 0, 0⟩
  let x := f.ctx o.ctx
  x.savearea + 0x4B000 * x.vnum o.vx o.vy
def Fab.frameAt (f : Fab) (c : CoreId) (h : ThreadId) : Nat := f.saveAt c + frameOff h

/-- Save-area offset of an offset of the local window (R347). -/
def saveLoc (bank : Bool) (off : Nat) : Nat := if off < 0x20000 then off else off + 0x4000 * bank.toNat

/-- The four words of a fault-log element (R344). -/
def LogEntry.words (e : LogEntry) : List Nat :=
  [e.addr.toNat, (causeCode e.cause).toNat + e.minor * 2 ^ 8 + e.major * 2 ^ 12 + e.width.toNat * 2 ^ 24, e.operand.toNat,
    e.who.recAddr]

def Ctrl.trapen (t : Ctrl) : Nat := t.wovf.toNat * 2 + t.wbud.toNat

/-- The words of a frame (R341), 0x000 to 0x5FF. pc: the PC at which the firing resumes. -/
def frameBytes (t : Thread) (st : Nat) : List Byte :=
  let k := t.ctl
  let head := (List.finRange 32).map (fun r => (t.rd r).toNat) ++ [t.pc.toNat, t.p.toNat, k.trapcause.toNat, k.trapaddr.toNat,
    k.trappc.toNat, k.taketag.toNat, k.xferid.toNat, k.trapen, k.fmta.toNat, k.fmtb.toNat, k.scla.toNat, k.sclb.toNat,
    k.fade.toNat, k.taskrec.toNat, st, 0] ++ ((t.elem.map LogEntry.words).getD [0, 0, 0, 0]) ++ List.replicate 12 0
  head.flatMap (leBytes 8) ++ t.v.toList.flatMap lineBytes

def Fab.writeFrame (f : Fab) (m : Mgt) (c : CoreId) (h : ThreadId) (st : Nat) : Fab :=
  f.store m none false (f.frameAt c h) (frameBytes (f.thread c h) st)
/-- Writes the thread state of a frame only (R341). -/
def Fab.frameState (f : Fab) (m : Mgt) (c : CoreId) (h : ThreadId) (st : Nat) : Fab :=
  f.storeWord m (f.frameAt c h + 0x170) st

/-- Offset of a thread's landing set in its core's save area (R347). -/
def landingOff (h : ThreadId) : Nat := 0x43400 + 576 * h.val

def ldCode : LdTy → Nat
  | .s8 => 0 | .s16 => 1 | .s32 => 2 | .s64 => 3 | .z8 => 4 | .z16 => 5 | .z32 => 6
def slotCode : SlotSt → Nat
  | .free => 0 | .armed => 1 | .landed => 2 | .faulted => 3

/-- A saved landing set (R347): 32 slots of two words, the arrival order, its length. The words of a slot are the model's: a
landed slot's value, or the address; then the state in bits 63:62, the type in bits 61:58, and a landed slot's address or a
faulted one's cause (log 14, DESIGN CHOICE). -/
def Landing.saved (l : Landing) : List Byte :=
  (List.finRange 32).flatMap (fun (k : Tag) =>
    let x := l.slots[k]
    leBytes 8 (if x.st == .landed then x.val else x.addr).toNat ++
    leBytes 8 (slotCode x.st * 2 ^ 62 + ldCode x.ty * 2 ^ 58 +
      (if x.st == .landed then x.addr.toNat % 2 ^ 57 else (x.cause.map fun e => (causeCode e).toNat).getD 0))) ++
  ((l.order.map fun (k : Tag) => BitVec.ofNat 8 k.val) ++ List.replicate 32 0).take 32 ++ leBytes 8 l.order.length ++
  List.replicate 24 0

/-- The cause of a code (R338). -/
def causeOf (b : BitVec 8) : Option Cause :=
  [Cause.illegalLine, .illegalOp, .pageFault, .misaligned, .writeStable, .detTarget, .conflict, .atomicPath, .linkLost, .divZero,
    .writeBudget, .windowOverflow, .landingBusy, .noExchange, .privilege, .cbUnbound, .cbUnderrun, .cbOverrun, .taskRecord,
    .countUnderflow, .watchBusy, .watchFull, .msgFormat, .barShape, .barBusy, .barUnset, .barMismatch, .matrixShape,
    .matrixFormat, .groupMismatch, .software].find? fun c => causeCode c = b

def ldOf (n : Nat) : LdTy := [LdTy.s8, .s16, .s32, .s64, .z8, .z16, .z32].getD n .s64

/-- A slot as its two words of the save area give it (log 14, DESIGN CHOICE). One that is ARMED there as it was saved is that load,
still in flight. -/
def Slot.restored (old : Slot) (w0 w1 : Nat) : Slot :=
  match w1 / 2 ^ 62 % 4 with
  | 0 => Slot.empty
  | 1 =>
    let x := { old with st := .armed, addr := BitVec.ofNat 64 w0, ty := ldOf (bits w1 61 58), val := 0, cause := none }
    if x = { old with val := 0, cause := none } then old else x
  | 2 =>
    { old with
      st := .landed, addr := BitVec.ofNat 64 (w1 % 2 ^ 57), ty := ldOf (bits w1 61 58), val := BitVec.ofNat 64 w0, cause := none }
  | _ =>
    { old with
      st := .faulted, addr := BitVec.ofNat 64 w0, ty := ldOf (bits w1 61 58), val := 0
      cause := some ((causeOf (BitVec.ofNat 8 w1)).getD .pageFault) }

/-- A landing set as its bytes in the save area give it (R342, R347). -/
def Landing.restored (l : Landing) (bs : List Byte) : Landing :=
  let w := fun (off : Nat) => leNum ((bs.drop off).take 8)
  let slots := Vector.ofFn fun (k : Fin 32) => l.slots[k].restored (w (16 * k.val)) (w (16 * k.val + 8))
  ⟨slots, (((bs.drop 512).take (min 32 (w 544))).map fun b => (Fin.ofNat 32 b.toNat : Tag)).filter fun k =>
    slots[k].st == .landed || slots[k].st == .faulted⟩

/-- The landing set of a trapped firing as it stands in the save area, with the routine's repairs (R342, R365). -/
def Fab.savedSet (f : Fab) (m : Mgt) (c : CoreId) (h : ThreadId) : Landing :=
  (f.thread c h).savedLs.restored (f.bytesAt m (f.saveAt c + landingOff h) 576)

/-- Writes the landing set that a trapped firing keeps in the save area (R339, R365). -/
def Fab.saveLanding (f : Fab) (m : Mgt) (c : CoreId) (h : ThreadId) : Fab :=
  f.store m none false (f.saveAt c + landingOff h) (f.thread c h).savedLs.saved

/-- The returning atomics of a thread whose answers are still to come: they take effect though the routine's state is discarded
(R163, R342; log 13, DESIGN CHOICE). -/
def Fab.looseOf (f : Fab) (c : CoreId) (h : ThreadId) : List Loose :=
  ((f.thread c h).pend.filter fun p => p.st.open && !p.op.isLoad).map fun p => ⟨c, h, f.who c h, p⟩

/-- The reads of other devices' memory that a thread's head waits for are of no more use (R330). -/
def Fab.dropReads (f : Fab) (c : CoreId) (h : ThreadId) : Fab :=
  { f with reads := f.reads.filter fun r => match r.by' with | .head c' h' _ => !(c' = c && h' = h) | _ => true }

/-- Parks a thread: it issues nothing and keeps its slot; TRAPQ and VEC0 tell the host (R342, R343). Its TRAPCAUSE field keeps the
cause for a later TRAPQ entry (R348). -/
def Fab.park (f : Fab) (m : Mgt) (c : CoreId) (h : ThreadId) (code : BitVec 8) : Fab :=
  let o := (f.core c).occ.getD ⟨0, 0, 0⟩
  let g := (({ f with loose := f.loose ++ f.looseOf c h }.dropReads c h).frameState m c h 3).modThread c h fun t =>
    { t with st := .parked, pend := [], wdrain := none, ls := Landing.empty, ctl := { t.ctl with trapcause := code } }
  (g.queueTrap o.ctx ((f.ctx o.ctx).vnum o.vx o.vy) h code).interrupt m o.ctx 0

/-- The state in which a firing starts (R60): registers zero, s1 the record, sp its stack, the control registers reset. -/
def freshThread (recAddr entry stack word3 : Nat) : Thread :=
  { Thread.reset with
    s := (Thread.reset.s.set 1 (BitVec.ofNat 64 recAddr)).set 31 (BitVec.ofNat 64 (stack % 2 ^ 57))
    pc := BitVec.ofNat 57 entry
    npc := BitVec.ofNat 57 entry
    ctl := { Ctrl.reset with wovf := bits word3 9 9 = 1, wbud := bits word3 8 8 = 1, taskrec := BitVec.ofNat 57 recAddr } }

/-- The trap routine of a thread starts with the given trap registers, or the thread parks (R340). -/
def Fab.startRoutine (f : Fab) (m : Mgt) (c : CoreId) (h : ThreadId) (k : Ctrl) : Fab :=
  let o := (f.core c).occ.getD ⟨0, 0, 0⟩
  let x := f.ctx o.ctx
  if x.traprec = 0 then f.park m c h k.trapcause
  else
    match f.lineWords m c (f.who c h) x.traprec with
    | .error g => g.park m c h (causeCode .pageFault)
    | .ok (ws, g) =>
      let r := freshThread x.traprec (ws.getD 0 0 % 2 ^ 57) (ws.getD 2 0) (ws.getD 3 0)
      { g with ids := g.ids + 1 }.modThread c h fun old =>
        { r with
          s := (r.s.set 2 (BitVec.ofNat 64 (frameOff h))).set 3 (BitVec.ofNat 64 (x.vnum o.vx o.vy))
          ctl := { r.ctl with
            trapcause := k.trapcause, trapaddr := k.trapaddr, trappc := k.trappc, taketag := k.taketag }
          st := .routine, firing := old.firing, rfid := g.ids, ran := old.ran ++ [g.ids], savedLs := old.savedLs, savedPend := old.savedPend
          elem := old.elem, take := old.take, age := old.age }

/-- Steps 4 and 5 of R339: the frame and the landing set are saved and the trap routine starts, or the thread parks (R340). -/
def Fab.enterTrap (f : Fab) (m : Mgt) (c : CoreId) (h : ThreadId) : Fab :=
  let k := (f.thread c h).ctl
  let g := (f.writeFrame m c h 2).modThread c h fun t => { t with savedLs := t.ls, savedPend := t.pend, pend := [] }
  (g.saveLanding m c h).startRoutine m c h k

/-- Whether an earlier head of the thread still has a value to deliver (R339, step 3). -/
def Thread.owes (t : Thread) : Bool := t.pend.any fun p => p.st.open

/-- Takes a trap at a thread (R339): a trap of a running firing sets the trap registers and enters the routine once every value
owed is written; one in the trap routine or in a report firing parks the thread (R342). tag: the kept TAKETAG; take: the TAKE that
traps. -/
def Fab.trapFull (f : Fab) (m : Mgt) (c : CoreId) (h : ThreadId) (code : BitVec 8) (addr : Word) (pc : Pc)
    (tag : Option (BitVec 5)) (elem : Option LogEntry) (take : Option (Tag × Pc)) : Fab :=
  let t := f.thread c h
  if t.st = .routine || (t.firing.map (·.kind)) = some .report then f.park m c h code
  else
    let g := (f.dropReads c h).modThread c h fun t =>
      { t with
        ctl := { t.ctl with trapcause := code, trapaddr := addr, trappc := pc, taketag := tag.getD t.ctl.taketag }
        st := .trapping, elem := elem, take := take, wdrain := none }
    if t.owes then g.push (.trapEntry c h) else g.enterTrap m c h

/-- A precise trap at the head that the thread executes (R56, R339). -/
def Fab.trap (f : Fab) (m : Mgt) (c : CoreId) (h : ThreadId) (cause : Cause) (addr : Word) : Fab :=
  f.trapFull m c h (causeCode cause) addr (f.thread c h).pc none none none

/-- A trap whose head has completed: TRAPPC holds the next PC (R165, R234). -/
def Fab.trapNext (f : Fab) (m : Mgt) (c : CoreId) (h : ThreadId) (cause : Cause) (addr : Word) : Fab :=
  f.trapFull m c h (causeCode cause) addr (f.thread c h).npc none none none

/-- The trap of a refused answer, at the head that meets it; the access is sent again after RTE (R330). -/
def Fab.refuse (f : Fab) (m : Mgt) (c : CoreId) (h : ThreadId) (p : Pend) (cause : Cause) : Fab :=
  (f.modThread c h fun t => { t with pend := t.pend.map fun q => if q.id = p.id then { q with st := .retry } else q }).trap
    m c h cause p.ea

/-- Reads a frame back into the firing's registers (R342, R348), with its landing set ls as it is read back; the refusals are those
that stood at the trap. -/
def loadFrame (bs : List Byte) (ls : Landing) (t : Thread) : Thread :=
  let w := fun (i : Nat) => BitVec.ofNat 64 (leNum ((bs.drop (8 * i)).take 8))
  let k := fun (off : Nat) => leNum ((bs.drop off).take 8)
  { t with
    s := (Vector.ofFn fun (i : Fin 32) => w i.val).set 0 0
    p := BitVec.ofNat 8 (k 0x108) ||| 1
    v := Vector.ofFn fun (i : Fin 16) => bytesLine ((bs.drop (0x200 + 64 * i.val)).take 64)
    ls := ls
    savedLs := Landing.empty
    pend := t.savedPend
    savedPend := []
    ctl := { t.ctl with
      xferid := BitVec.ofNat 32 (k 0x130), wovf := bits (k 0x138) 1 1 = 1, wbud := bits (k 0x138) 0 0 = 1
      fmta := BitVec.ofNat 5 (k 0x140), fmtb := BitVec.ofNat 5 (k 0x148), scla := BitVec.ofNat 57 (k 0x150)
      sclb := BitVec.ofNat 57 (k 0x158), fade := BitVec.ofNat 32 (k 0x160), taskrec := BitVec.ofNat 57 (k 0x168) } }

/-! Aggregation buffers (R109, R110). -/

/-- Adds units to the entry of a peer in a traffic table (R284). -/
def countIn (peer units : Nat) (tab : List (Nat × Nat)) : List (Nat × Nat) :=
  let top := 2 ^ 24 - 1
  if tab.any (·.1 = peer) then tab.map fun e => if e.1 = peer then (peer, min (e.2 + units) top) else e
  else if tab.length < 8 then tab ++ [(peer, min units top)]
  else
    let least := tab.foldl (fun a e => min a e.2) top
    match tab.findIdx? (·.2 = least) with
    | some i => tab.set i (peer, min (least + units) top)
    | none => tab

/-- Whether a firing still holds a thread of a core, as the firing or as its trap routine. -/
def Core.holds (x : Core) (fid : Nat) : Bool :=
  x.threads.toList.any fun t => (t.firing.any (·.fid = fid)) || (t.st == .routine && t.rfid = fid)

/-- Counts a packet that a firing of a resident record, still running, sent from a core (R284). -/
def Fab.count (f : Fab) (c : CoreId) (w : Who) (vx vy bytes : Nat) : Fab :=
  if w.res && (f.core c).holds w.fid then
    f.modCore c fun x => { x with traffic := countIn ((f.ctx w.ctx).vnum vx vy) ((bytes + 63) / 64) x.traffic }
  else f

/-- The event that applies an element at its destination. -/
def Elem.event (e : Elem) : Instr :=
  match e.op with
  | .xst .. => .xstLand e.id
  | .amo .. => .aggregationElementApply e.id false

/-- Buffer i of a core leaves (R110). -/
def Fab.sendBuf (f : Fab) (c : CoreId) (i : Nat) : Fab :=
  match (f.core c).agg.find? (·.1 = i) with
  | none => f
  | some (_, b) =>
    let g := f.modCore c fun x => { x with agg := mdel i x.agg }
    let g := { g with
      elems := g.elems ++ b.elems.map fun e => { e with st := .flight }
      due := g.due ++ b.elems.map Elem.event }
    match b.dest, b.elems.find? (·.who.res) with
    | .core vx vy, some e => g.count c e.who vx vy (16 * b.elems.length)
    | _, _ => g

/-- Buffers sent one after another. -/
def Fab.sendBufs (f : Fab) (c : CoreId) : List Nat → Fab
  | [] => f
  | i :: is => (f.sendBuf c i).sendBufs c is
def Fab.sendAll (f : Fab) (c : CoreId) : Fab := f.sendBufs c ((f.core c).agg.map (·.1))

/-- The buffer whose first element is oldest; a tie goes to the lower number. -/
def oldestBuf (m : AMap AggBuf) : Nat :=
  (m.foldl (fun (a : Nat × Nat) b => if b.2.born < a.2 then (b.1, b.2.born) else a)
    ((m.head?.map (·.1)).getD 0, (m.head?.map (·.2.born)).getD 0)).1

/-- A new element enters the buffers of its core (R109, R110). -/
def Fab.aggregate (f : Fab) (c : CoreId) (e : Elem) : Fab :=
  let tab := (f.core c).agg
  match tab.find? (·.2.dest = e.dest) with
  | some (i, b) =>
    let g := f.modCore c fun x => { x with agg := mset i { b with elems := b.elems ++ [e] } x.agg }
    if b.elems.length + 1 ≥ Config.aggElems then g.sendBuf c i else g
  | none =>
    let g := if tab.length ≥ Config.aggBuffers then f.sendBuf c (oldestBuf tab) else f
    let i := ((List.range Config.aggBuffers).find? fun i => !(g.core c).agg.any (·.1 = i)).getD 0
    g.modCore c fun x => { x with agg := mset i ⟨e.dest, [e], f.cycle⟩ x.agg }

/-- The constituents of an element: itself, or what was merged into one request (R107). -/
def Elem.parts (e : Elem) : List (Nat × Who × Word) :=
  if e.more.isEmpty then [(e.id, e.who, match e.op with | .amo _ _ b _ => b | .xst .. => 0)] else e.more
/-- Whether one of an element's issuers answers to a test. -/
def Elem.of (e : Elem) (p : Who → Bool) : Bool := e.parts.any fun x => p x.2.1

/-- Whether an aggregated atomic acts on one of some bytes; an XST's target is no location that a core can load (R113). -/
def Elem.covers (e : Elem) (w : Who) (t : Tgt) (n : Nat) : Bool :=
  match e.op with
  | .xst .. => false
  | .amo op wd _ _ =>
    match e.dest, t.norm w with
    | .core vx vy, .peer vx' vy' off =>
      e.who.ctx = w.ctx && vx = vx' && vy = vy' && overlap off n (e.ea.toNat % 2 ^ 18) (atomSize op wd e.ea)
    | .core .., _ => false
    | _, .mem gpa _ => overlap gpa n e.gpa (wdSize wd)
    | _, _ => false

/-- Makes the buffers that hold an element under an access leave; none where no such element waits or is on its way (R113). -/
def Fab.aggWait (f : Fab) (c : CoreId) (w : Who) (t : Tgt) (n : Nat) : Option Fab :=
  let hit := (f.core c).agg.filter fun b => b.2.elems.any (·.covers w t n)
  let fly := f.elems.any fun e =>
    (e.st == .flight || e.st == .held) && e.of (fun y => y.ctx = w.ctx && y.vx = w.vx && y.vy = w.vy) && e.covers w t n
  if hit.isEmpty && !fly then none else some (f.sendBufs c (hit.map (·.1)))

/-! The ready set and the fault log (R114, R115, R270). -/

/-- A thread of a core that may take a firing of the ready set (R270, R72). -/
def Core.freeThread (x : Core) : Option ThreadId :=
  (List.finRange 8).find? fun h => x.threads[h].st == .free && !(h = 7 && x.landctl)

/-- Asks for the binding of a ready firing where a thread is free (log 2, DESIGN CHOICE). -/
def Fab.kick (f : Fab) (c : CoreId) : Fab :=
  match (f.core c).freeThread with
  | some h => f.push (.firingBind c h)
  | none => f

/-- A packet to, or a placement on, a gated core starts its wake (R23, R283). -/
def Fab.wake (f : Fab) (c : CoreId) : Fab :=
  if (f.core c).power = .gated then (f.modCore c fun x => { x with power := .waking }).push (.coreWakeComplete c) else f

/-- An entry joins the run queue, or waits for an entry of it to free (R269, R270, R344). The core is idle no longer (R283). -/
def Core.addReady (x : Core) (r : Ready) : Core :=
  let x := { x with idle := 0 }
  if x.runq.length < Config.runQueue && x.late.isEmpty then { x with runq := x.runq ++ [r] } else { x with late := x.late ++ [r] }

/-- A firing becomes ready on a core, in the present cycle; a gated core starts its wake (R23, R270). -/
def Fab.enqueue (f : Fab) (c : CoreId) (recAddr : Nat) (k : RKind) : Fab :=
  ((f.wake c).modCore c fun x => x.addReady ⟨f.cycle, recAddr, k⟩).kick c

/-- The state that a pre-emption saved of a virtual core is changed, where there is one (R346, R347). -/
def Fab.modSaved (f : Fab) (n : CtxId) (vx vy : Nat) (g : Core → Core) : Fab :=
  let x := f.ctx n
  let v := x.vnum vx vy
  if x.cores.any (·.1 = v) then f.setCtx n { x with cores := mset v (g (mget Core.reset x.cores v)) x.cores } else f

/-- Bytes written to the local window of a virtual core that is in its save area (R346, R347). -/
def Fab.saveWrite (f : Fab) (m : Mgt) (n : CtxId) (vx vy off : Nat) : List Byte → Fab
  | [] => f
  | b :: bs =>
    let x := f.ctx n
    let v := x.vnum vx vy
    let bank := (mget Core.reset x.cores v).bank
    (if x.cores.any (·.1 = v) then
      (f.modSaved n vx vy fun y => y.locWrite off [b]).store m none false (x.savearea + 0x4B000 * v + saveLoc bank off) [b]
    else f).saveWrite m n vx vy (off + 1) bs

/-- A firing becomes ready on a virtual core: on its core, or in its save area (R346). -/
def Fab.enqueueAt (f : Fab) (n : CtxId) (vx vy recAddr : Nat) (k : RKind) : Fab :=
  match f.find n vx vy with
  | some c => f.enqueue c recAddr k
  | none => f.modSaved n vx vy fun x => x.addReady ⟨f.cycle, recAddr, k⟩

/-- Entries of a core's fault log whose firing has retired become report firings while the run queue has room (R115). -/
def Fab.report (f : Fab) (c : CoreId) : List LogEntry → Fab
  | [] => f
  | e :: es =>
    let x := f.core c
    (if x.holds e.who.fid || x.runq.length ≥ Config.runQueue then f
     else
      (f.modCore c fun x => { x with flog := x.flog.erase e }).enqueue c (f.ctx e.who.ctx).traprec
        (.report (0xC0 ||| causeCode e.cause) e.addr 0 (some e))).report c es
def Fab.reports (f : Fab) (c : CoreId) : Fab := f.report c (f.core c).flog

/-- An entry joins the fault log of the virtual core that issued it (R114). -/
def Fab.logFault (f : Fab) (e : LogEntry) : Fab :=
  match f.find e.who.ctx e.who.vx e.who.vy with
  | some c => (f.modCore c fun x => { x with flog := x.flog ++ [e] }).reports c
  | none => f.modSaved e.who.ctx e.who.vx e.who.vy fun x => { x with flog := x.flog ++ [e] }

/-! Flush triggers and releases (R103, R112, R114, R116, R330). -/

/-- Goes on, or holds the head: a stall, or a trap taken. -/
inductive Go where
  | done (f : Fab)
  | stop (f : Fab)

def scopeRank : Scope → Nat
  | .core => 0 | .clu => 1 | .die => 2 | .dev => 3 | .dom => 4 | .sys => 5

def Landing.count (l : Landing) (k : SlotSt) : Nat := l.slots.toList.countP fun x => x.st == k

/-- The firings whose accesses are a thread's own: its firing, and the trap routines that have run for it (R103, R112). -/
def Thread.fids (t : Thread) : List Nat := (t.firing.map (·.fid)).toList ++ t.ran

/-- Whether a held matrix instruction has loads still to make: an MFILL (R208). -/
def MEntry.fills (e : MEntry) : Bool := !e.done && match e.instr with | .mfill .. => true | _ => false

/-- What a release of a thread at a scope still waits for: its loads and returning atomics, its MRDs and MFILLs, at .clu and wider
its streaming lines, at .dom and wider its remote writes (R103, R116, R154, R206, R208, R330). -/
def Fab.releaseWaits (f : Fab) (c : CoreId) (h : ThreadId) (sc : Scope) : Bool :=
  let t := f.thread c h
  let mine := fun (w : Who) => t.fids.contains w.fid
  t.owes || t.ls.count .armed ≠ 0 || t.savedLs.count .armed ≠ 0 ||
  f.loose.any (fun x => mine x.who) ||
  (f.core c).mq.any (fun e => mine e.who && ((!e.done && !e.wr.isEmpty) || e.fills)) ||
  (scopeRank sc ≥ 1 && f.wl.any fun e => mine e.who && e.place ≠ .queue) ||
  (scopeRank sc ≥ 1 && (f.core c).mq.any fun e => mine e.who && !e.done && !e.lines.isEmpty) ||
  (scopeRank sc ≥ 4 && f.rwrites.any fun e => mine e.who)

/-- A flush trigger (agg) or a release at a scope (rel), or both. A refusal or a failed element of the firing traps first; of the two
the refusal, the rules giving no order (R114, R330, R344; log 20, DESIGN CHOICE). -/
def Fab.flush (f : Fab) (m : Mgt) (c : CoreId) (h : ThreadId) (agg rel : Bool) (sc : Scope) : Go :=
  let t := f.thread c h
  let fid := (f.who c h).fid
  let bad := if agg then t.pend.findSome? fun p => match p.st with | .refused e => some (p, e) | _ => none else none
  match bad with
  | some (p, e) => .stop (f.refuse m c h p e)
  | none =>
    match if agg then (f.core c).flog.find? (·.who.fid = fid) else none with
    | some e =>
      .stop ((f.modCore c fun x => { x with flog := x.flog.erase e }).trapFull m c h (0xC0 ||| causeCode e.cause) e.addr
        t.pc none (some e) none)
    | none =>
      let g := if agg then f.sendAll c else f
      if agg && g.elems.any (·.of fun y => t.fids.contains y.fid) then .stop g
      else if rel && g.releaseWaits c h sc then .stop g
      else .done g

/-- A release at a scope: a flush trigger from .clu on (R112). -/
def Fab.release (f : Fab) (m : Mgt) (c : CoreId) (h : ThreadId) (sc : Scope) : Go :=
  f.flush m c h (decide (scopeRank sc ≥ 1)) true sc

/-- Whether an earlier access of a thread, of a number below lim, has still to be performed before an access to n bytes: an
acquire not yet answered, a delivery or an ARMED slot that overlaps them, an MRD's bytes or a line of an MSPILL or MFILL
(R103, R113, R158, R206, R208). No target: an access to a location that only acquires order. -/
def Fab.inWay (f : Fab) (m : Mgt) (c : CoreId) (h : ThreadId) (w : Who) (lim : Nat) (tgt : Option Tgt) (n : Nat) : Bool :=
  let t := f.thread c h
  let on := fun (b : Tgt) (k : Nat) => tgt.any fun a => a.meets w n b k
  let armed := fun (l : Landing) => l.slots.toList.any fun x =>
    x.st == .armed && x.id < lim && tgt.isSome && (f.tgtOf m c w.ctx x.addr).any fun b => on b (ldSize x.ty)
  let lines := fun (ls : List Nat) => ls.any fun a => on (.mem a ⟨0, 0, 0, 0, false, false, false, false, false, false, 0, 0, 0⟩) 64
  t.pend.any (fun p => p.id < lim && p.st.open && (p.order == .acq || p.order == .ar || on p.tgt p.size)) ||
  f.loose.any (fun x => t.fids.contains x.who.fid && x.p.id < lim && on x.p.tgt x.p.size) ||
  armed t.ls || armed t.savedLs ||
  (f.core c).mq.any (fun e => e.id < lim && e.who.th = h && !e.done &&
    (e.wr.any (fun r => on (.loc r.1) r.2) || lines (e.lines.map (·.1)))) ||
  f.wl.any (fun e => e.place == .unit && t.fids.contains e.who.fid && lines [m.gpa (64 * e.line)])

/-! The frame of a head instruction. -/

/-- Whether a delivery is to one of some registers. -/
def Pend.into (p : Pend) (rs : List Dst) : Bool := rs.contains p.dst

/-- The refused answer that a head meets which reads some registers (R330, R344). -/
def Thread.refusedAt (t : Thread) (rs : List Dst) : Option (Pend × Cause) :=
  t.pend.findSome? fun p => match p.st with
    | .refused e => if p.into rs then some (p, e) else none
    | _ => none

/-- Whether one of some registers awaits a value (R152). -/
def Thread.awaits (t : Thread) (rs : List Dst) : Bool := t.pend.any fun p => p.into rs && p.st.open

/-- Runs a head on the current thread, which reads the registers rs and writes those of ws: a false guard makes it a NOP (R34); one
that it reads whose answer was refused traps (R330); one that it reads or writes and that awaits a value holds it (R152). Otherwise
its body acts. -/
def State.head (s : State) (g : Guard) (rs ws : List Dst) (body : Mgt → Fab → CoreId → ThreadId → Fab) : Res :=
  let t := s.f.thread s.core s.th
  if t.st ≠ .running && t.st ≠ .routine then .fault .noRunningThread
  else if t.rdp g.gp = g.gn then .next { s with f := s.f.modThread s.core s.th Thread.adv }
  else
    match t.refusedAt rs with
    | some (p, e) => .next { s with f := s.f.refuse s.m s.core s.th p e }
    | none =>
      if t.awaits rs || t.awaits ws then .next s else .next { s with f := body s.m s.f s.core s.th }

/-- A head that changes its thread only, and goes on at the next head. -/
def State.local (s : State) (g : Guard) (rs ws : List Dst) (body : Thread → Thread) : Res :=
  s.head g rs ws fun _ f c h => f.modThread c h fun t => (body t).adv

/-- An event: it changes the fabric and reads the registers of the management side. -/
def State.event (s : State) (body : Mgt → Fab → Fab) : Res := .next { s with f := body s.m s.f }

/-- An access of the host to BAR0 that changes the fabric: none where it does not reach the device (R357, R359). -/
def State.bar0 (s : State) (body : Mgt → Fab → Fab) : Res := s.event fun m f => if m.bar0 then body m f else f

end Sys2Proof.Machine
end

