-- ==== Sys2Proof/Machine/Tasks.lean ====
section
/-! DEFINITION. Task records, trigger counters, ready firings, placement, firing, retire and kernels (14_kernel R264 to R275,
15_group R282). -/

namespace Sys2Proof.Machine

/-! Memory that the distributor and the home slices reach for a context. -/

/-- Bytes the device reads at a virtual address of a context, or none where the page does not allow it (R253). -/
def Fab.devRead (f : Fab) (m : Mgt) (n : CtxId) (va k : Nat) : Option (List Byte) :=
  match if va < peerBase then f.walkOnly m n va else none with
  | some e => if e.rd && !f.poisoned (e.gpa va) k && !f.readBad m (e.gpa va) then some (f.bytesAt m (e.gpa va) k) else none
  | none => none

/-- Where the device can store n bytes at a virtual address of a context, with the page: the page allows it and a route stands (R253,
R259, R328). -/
def Fab.devPage (f : Fab) (m : Mgt) (n : CtxId) (va k : Nat) : Option (Nat × TlbEnt) :=
  match if va < peerBase then f.walkOnly m n va else none with
  | some e =>
    let gpa := e.gpa va
    let out := match m.place gpa with
      | .other dev _ => !m.routed dev
      | .host _ => !m.hostLink
      | _ => false
    if e.wrt && e.win && !e.stable && !f.poisoned gpa k && !out then some (gpa, e) else none
  | none => none
def Fab.devTgt (f : Fab) (m : Mgt) (n : CtxId) (va k : Nat) : Option Nat := (f.devPage m n va k).map (·.1)

/-- Bytes the device stores at a virtual address of a context. from': the queue whose distributor stores them, the FCODE that a
refusal by another device's owner gives it, and a launch number (R259). -/
def Fab.devWrite (f : Fab) (m : Mgt) (n : CtxId) (from' : Option (QueueId × Nat × Nat)) (kid : Option (BitVec 32)) (va : Nat)
    (bs : List Byte) : Option Fab :=
  (f.devTgt m n va bs.length).map fun gpa =>
    match m.place gpa with
    | .other .. =>
      { f with ids := f.ids + 1 }.post m
        ⟨f.ids, { Who.none with ctx := n, kid := kid }, BitVec.ofNat 64 va, gpa, bs, (from'.map fun (x : QueueId × Nat × Nat) => x.2.1).getD 0,
          (from'.map fun (x : QueueId × Nat × Nat) => x.2.2).getD 0, none, none, from'.map fun (x : QueueId × Nat × Nat) => (n, x.1), none⟩
    | _ => f.store m none true gpa bs

def Fab.liveAt (f : Fab) (gpa : Nat) : Option LiveRec := (f.live.find? (·.1 = gpa)).map (·.2)
def Fab.setLive (f : Fab) (gpa : Nat) (r : LiveRec) : Fab := { f with live := mset gpa r f.live }

/-- The live record of a context at a virtual address. -/
def Fab.liveRec (f : Fab) (m : Mgt) (n : CtxId) (va : Nat) : Option (Nat × LiveRec) :=
  match f.recAt m n va with
  | some gpa =>
    match f.liveAt gpa with
    | some r => if r.ctx = n then some (gpa, r) else none
    | none => none
  | none => none

/-! Fields of a record (R264), in its words. -/

def Fab.field (f : Fab) (m : Mgt) (gpa i hi lo : Nat) : Nat := bits (f.word m (gpa + 8 * i)) hi lo
def Fab.setField (f : Fab) (m : Mgt) (gpa i hi lo x : Nat) : Fab :=
  let w := f.word m (gpa + 8 * i)
  f.storeWord m (gpa + 8 * i) (w - bits w hi lo * 2 ^ lo + x % 2 ^ (hi + 1 - lo) * 2 ^ lo)

def Fab.recRes (f : Fab) (m : Mgt) (gpa : Nat) : Bool := f.field m gpa 3 14 14 = 1
def Fab.recPend (f : Fab) (m : Mgt) (gpa : Nat) : Nat := f.field m gpa 6 31 0

/-- The virtual core that word 3 of a record pins it to, as the word stands (R264, R265). -/
def Fab.pinOf (f : Fab) (m : Mgt) (gpa : Nat) : Option (Nat × Nat) :=
  if f.field m gpa 3 15 15 = 1 then some (f.field m gpa 3 55 48, f.field m gpa 3 63 56) else none

/-- Whether a handler or message firing of a record waits on a core of its context, or in the save area of one (R270, R273). -/
def Fab.queuedFor (f : Fab) (m : Mgt) (gpa : Nat) (r : LiveRec) : Bool :=
  let mine := fun (va : Nat) => va = r.recAddr || f.recAt m r.ctx va = some gpa
  let has := fun (x : Core) =>
    (x.runq ++ x.late).any (fun q => (match q.kind with | .handler .. => true | _ => false) && mine q.recAddr) ||
    x.inbox.any fun q => mine q.recAddr
  f.cores.any (fun c => c.2.occ.any (·.ctx = r.ctx) && has c.2) || (f.ctx r.ctx).cores.any fun c => has c.2

/-- STATE shows the first of RUNNING, READY and ARMED that applies (R273). -/
def Fab.showState (f : Fab) (m : Mgt) (gpa : Nat) : Fab :=
  match f.liveAt gpa with
  | some r =>
    if r.dead then f
    else f.setField m gpa 5 63 60 (if r.running > 0 then 3 else if f.recPend m gpa ≥ 1 || r.queued || f.queuedFor m gpa r then 2 else 1)
  | none => f

/-! Circular-buffer counts (R63). -/

def seqMod (d : CbDesc) : Nat := if d.depth = 0 then 0 else d.depth * (65536 / d.depth)
def filled (d : CbDesc) : Nat := (d.pseq + seqMod d - d.cseq) % seqMod d
def freeCount (d : CbDesc) : Nat := d.depth - filled d

/-- A descriptor image of a binding (R63, R264). -/
def descOf (w : Nat) : CbDesc := ⟨0, 0, bits w 59 48, bits w 39 32, bits w 16 6, true⟩
def descOk (d : CbDesc) : Bool := 1 ≤ d.depth && d.depth ≤ 2048 && 64 * (d.base + d.depth * (d.esz + 1)) ≤ 0x20000

/-- The bindings of a record that are present: binding, descriptor (R264). Its second line may lie on another page. -/
def Fab.bindings (f : Fab) (m : Mgt) (n : CtxId) (va : Nat) : List (Binding × CbDesc) :=
  let line := (f.recAt m n (va + 64)).getD 0
  (List.range 4).filterMap fun b =>
    let w := f.word m (line + 16 * b)
    if bits w 63 63 = 1 then
      some (⟨Fin.ofNat 16 (bits w 51 48), bits w 47 32, bits w 31 16⟩, descOf (f.word m (line + 8 + 16 * b)))
    else none

def distinctCbs : List (Binding × CbDesc) → Bool
  | [] => true
  | b :: bs => !bs.any (·.1.cb = b.1.cb) && distinctCbs bs

/-- The checks of R266, in order: 0 where all pass, otherwise the REASON. -/
def Fab.recChecks (f : Fab) (m : Mgt) (n : CtxId) (va gpa : Nat) : Nat :=
  let x := f.ctx n
  let bs := f.bindings m n va
  let vx := f.field m gpa 3 55 48
  let vy := f.field m gpa 3 63 56
  let pin := f.field m gpa 3 15 15 = 1
  let busy := match x.where? vx vy with
    | some c => bs.any fun b => (f.core c).cbs[b.1.cb].en
    | none => false
  if f.field m gpa 3 13 12 = 3 then 1
  else if pin && !(vx < x.lw && vy < x.lh) then 2
  else if bs.any (fun b => !descOk b.2) || !distinctCbs bs then 3
  else if !pin && !bs.isEmpty then 5
  else if pin && busy then 4
  else 0

def Core.loadCbs (x : Core) : List (Binding × CbDesc) → Core
  | [] => x
  | b :: bs => { x with cbs := x.cbs.set b.1.cb b.2 }.loadCbs bs
def Core.unloadCbs (x : Core) : List Binding → Core
  | [] => x
  | b :: bs => { x with cbs := x.cbs.set b.cb { x.cbs[b.cb] with en := false } }.unloadCbs bs

/-- The fields that a record gets when it becomes live or is rejected (R266): KID, EPOCH, LINK, PEND, STATE, REASON, COUNT. -/
def Fab.setFields (f : Fab) (m : Mgt) (gpa : Nat) (kid : BitVec 32) (count state reason : Nat) : Fab :=
  let g := f.setField m gpa 1 31 0 count
  let g := g.setField m gpa 4 63 32 kid.toNat
  let g := g.setField m gpa 4 31 0 0
  let g := g.setField m gpa 5 63 60 state
  let g := g.setField m gpa 5 56 6 0
  let g := g.setField m gpa 6 63 56 reason
  g.setField m gpa 6 31 0 0

/-- A record becomes live with a count (R266), its checks having passed; a count of 0 adds one standing firing, which carries
epoch e (R125). -/
def Fab.goLive (f : Fab) (m : Mgt) (n : CtxId) (kid : BitVec 32) (va gpa count : Nat) (e : BitVec 32) : Fab :=
  let bs := f.bindings m n va
  let vx := f.field m gpa 3 55 48
  let vy := f.field m gpa 3 63 56
  let g := f.setFields m gpa kid count 1 0
  let g := if count = 0 then g.setField m gpa 6 31 0 1 else g
  let g := g.setLive gpa
    ⟨n, va, kid, vx, vy, bs.map (·.1), 0, false, false, none, if count = 0 && !bs.isEmpty then [(f.cycle, e)] else [], none,
      false⟩
  let g := match f.find n vx vy with
    | some c => if bs.isEmpty then g else g.modCore c fun x => x.loadCbs bs
    | none => g
  g.showState m gpa

/-- A record of a launch fails a check: REJECTED with its REASON and COUNT 0 (R266). -/
def Fab.reject (f : Fab) (m : Mgt) (n : CtxId) (kid : BitVec 32) (va gpa reason : Nat) : Fab :=
  (f.setFields m gpa kid 0 5 reason).setLive gpa ⟨n, va, kid, 0, 0, [], 0, false, true, none, [], none, false⟩

/-! Placement (R282) and the run queue (R269). -/

def Core.freeThreads (x : Core) : Nat :=
  ((List.finRange 8).filter fun h => x.threads[h].st == .free && !(h = 7 && x.landctl)).length

/-- The virtual cores of a lease that is granted with their physical cores, in ascending virtual core number (R278); one that fencing
has taken out has none (R27, R294). -/
def Ctx.leaseCores (x : Ctx) : List (Nat × CoreId) :=
  if x.lease ≠ .granted && x.lease ≠ .ending then [] else
  ((List.range (x.lw * x.lh)).filter fun v => !x.gone.contains v).map fun v => (v, Fin.ofNat 2304 (mget 0 x.map v))

def chainLen (x : Core) : Nat := x.chain.foldl (fun a r => a + r.epochs.length) 0

/-- Estimated start on a core in ns, with awake cores first on a tie (R282, step 2). A waking core is taken as a gated one is: R282
names none (log 39, DESIGN CHOICE). -/
def startKey (m : Mgt) (chained : Bool) (x : Core) : Nat :=
  let q := x.runq.length + (if chained then chainLen x else 0)
  if x.power == .awake then 2 * (q * m.runest.toNat) else 2 * 1800 + 1

/-- The core on which the distributor places a firing of an unpinned record (R282). -/
def Fab.placeFor (f : Fab) (m : Mgt) (n : CtxId) : Option CoreId :=
  let all := (f.ctx n).leaseCores
  let room := all.filter fun p => (f.core p.2).runq.length < Config.runQueue
  let free := room.filter fun p => (f.core p.2).power == .awake && (f.core p.2).freeThreads > 0
  let pick :=
    if !free.isEmpty then leastBy (fun p => (f.core p.2).freeThreads) free
    else if !room.isEmpty then leastBy (fun p => startKey m false (f.core p.2)) room
    else leastBy (fun p => startKey m true (f.core p.2)) all
  pick.map (·.2)

/-! Packets and writes that wait for a core (R23, R198, R291; log 17, DESIGN CHOICE). -/

/-- Whether a core takes no packet: it is gated or waking (R23), or it is exchanging (R291). -/
def Fab.closed (f : Fab) (c : CoreId) : Bool :=
  (f.core c).power ≠ .awake || f.pairs.any fun p => p.begun && (p.lo = c || p.hi = c)

/-- An event waits for a core; a gated core starts its wake (R23, R283). -/
def Fab.holdAt (f : Fab) (c : CoreId) (i : Instr) : Fab :=
  (f.modCore c fun x => { x with held := x.held ++ [i] }).wake c

/-- The events that wait for a core happen again, in their order and before anything else (R23, R291). -/
def Fab.replay (f : Fab) (c : CoreId) : Fab :=
  let x := f.core c
  { f.setCore c { x with held := [] } with urgent := f.urgent ++ x.held }

/-- Writes LINK of a chained record (R269). -/
def Fab.setLink (f : Fab) (m : Mgt) (n : CtxId) (va next : Nat) : Fab :=
  match f.recAt m n va with
  | some gpa => f.setField m gpa 5 56 6 (next / 64)
  | none => f

/-- The core in whose chain a record stands (R269). -/
def Fab.chainOf (f : Fab) (n : CtxId) (va : Nat) : Option CoreId :=
  ((f.ctx n).leaseCores.map (·.2)).find? fun c => (f.core c).chain.any (·.recAddr = va)

/-- A record with a firing and no run-queue room is chained; one that stands in a chain, on whichever core, gains a firing there, its
LINK being one (R269). at': the cycle at which the firing became ready. -/
def Fab.chainUp (f : Fab) (m : Mgt) (c : CoreId) (n : CtxId) (va at' : Nat) (e : BitVec 32) : Fab :=
  match f.chainOf n va with
  | some d =>
    f.modCore d fun x =>
      { x with chain := x.chain.map fun r => if r.recAddr = va then { r with epochs := r.epochs ++ [(at', e)] } else r }
  | none =>
    let g := match (f.core c).chain.getLast? with
      | some r => f.setLink m n r.recAddr va
      | none => f
    (g.setLink m n va 0).modCore c fun x => { x with idle := 0, chain := x.chain ++ [⟨va, [(at', e)]⟩] }

/-- A counter firing that became ready at a cycle waits on a core: in the run queue, or in the chain where that is full (R269,
R270). -/
def Fab.readyAt (f : Fab) (m : Mgt) (c : CoreId) (n : CtxId) (va at' : Nat) (k : RKind) (e : BitVec 32) : Fab :=
  let g := f.wake c
  if (g.core c).runq.length < Config.runQueue && (g.core c).chain.isEmpty then
    (g.modCore c fun x => x.addReady ⟨at', va, k⟩).kick c
  else g.chainUp m c n va at' e
def Fab.readyOn (f : Fab) (m : Mgt) (c : CoreId) (n : CtxId) (va : Nat) (k : RKind) (e : BitVec 32) : Fab :=
  f.readyAt m c n va f.cycle k e

/-- Whether a record may have one more firing bound as its buffers stand: a bound record has none running, and its counts
suffice (R268). -/
def Core.buffersReady (x : Core) (r : LiveRec) : Bool :=
  r.binds.isEmpty || (r.running = 0 && r.binds.all fun b => filled x.cbs[b.cb] ≥ b.crate && freeCount x.cbs[b.cb] ≥ b.prate)

/-- The condition of a bound record (R268). -/
def Fab.boundReady (f : Fab) (m : Mgt) (gpa : Nat) (r : LiveRec) (x : Core) : Bool :=
  (f.recPend m gpa ≥ 1 || (f.field m gpa 1 31 0 = 0 && f.field m gpa 1 63 32 = 0 && f.recRes m gpa)) && x.buffersReady r

/-- The virtual core that a bound record is pinned to, word 3 being read afresh (R265). Where PIN is 0 by now, it is the one that
holds its descriptors (log 39, DESIGN CHOICE). -/
def Fab.boundAt (f : Fab) (m : Mgt) (gpa : Nat) (r : LiveRec) : Nat × Nat := (f.pinOf m gpa).getD (r.vx, r.vy)
def Fab.boundCore (f : Fab) (m : Mgt) (gpa : Nat) (r : LiveRec) : Option CoreId :=
  f.find r.ctx (f.boundAt m gpa r).1 (f.boundAt m gpa r).2

/-- Checks a bound record's condition and queues its firing (R268, R269). -/
def Fab.boundCheck (f : Fab) (m : Mgt) (gpa : Nat) : Fab :=
  match f.liveAt gpa with
  | some r =>
    match f.boundCore m gpa r with
    | some c =>
      if !r.binds.isEmpty && !r.queued && !r.dead && f.boundReady m gpa r (f.core c) then
        ((f.setLive gpa { r with queued := true, back := none }).readyAt m c r.ctx r.recAddr (r.back.getD f.cycle) .bound 0).showState
          m gpa
      else f
    | none => f
  | none => f

def Fab.boundChecks (f : Fab) (m : Mgt) : List Nat → Fab
  | [] => f
  | g :: gs => (f.boundCheck m g).boundChecks m gs
/-- Ready firings of a context's cores are looked at again: one of a bound record may have waited (R268). -/
def Fab.kickAll (f : Fab) (n : CtxId) : Fab :=
  (((f.ctx n).leaseCores.map (·.2)).filter fun c => !((f.core c).runq.isEmpty && (f.core c).inbox.isEmpty)).foldl Fab.kick f

/-- Every bound record pinned on a core (R64, R268). -/
def Fab.boundOn (f : Fab) (m : Mgt) (c : CoreId) : Fab :=
  match (f.core c).occ with
  | some o =>
    match (f.live.filter fun r => r.2.ctx = o.ctx && !r.2.binds.isEmpty && f.boundAt m r.1 r.2 = (o.vx, o.vy)).map (·.1) with
    | [] => f
    | gs => (f.boundChecks m gs).kickAll o.ctx
  | none => f

/-- A standing firing of a record that became ready at a cycle goes where it waits (R268, R269, R282), word 3 being read afresh
(R265). PEND counts it already. -/
def Fab.standingAt (f : Fab) (m : Mgt) (gpa at' : Nat) (e : BitVec 32) : Fab :=
  match f.liveAt gpa with
  | some r =>
    let keep := f.setLive gpa { r with waiting := r.waiting ++ [(at', e)] }
    if !r.binds.isEmpty then (keep.boundCheck m gpa).showState m gpa
    else
      match match f.pinOf m gpa with
        | some v => f.find r.ctx v.1 v.2
        | none => f.placeFor m r.ctx with
      | some c => (f.readyAt m c r.ctx r.recAddr at' (.counter e) e).showState m gpa
      | none => keep.showState m gpa
  | none => f
def Fab.standing (f : Fab) (m : Mgt) (gpa : Nat) (e : BitVec 32) : Fab := f.standingAt m gpa f.cycle e

/-- The standing firing of a record that became live with a count of 0 goes where it waits (R266). -/
def Fab.standFirst (f : Fab) (m : Mgt) (gpa : Nat) (e : BitVec 32) : Fab :=
  match f.liveAt gpa with
  | some r => if r.binds.isEmpty then f.standing m gpa e else (f.boundCheck m gpa).showState m gpa
  | none => f

/-- One more firing stands (R267). -/
def Fab.addPend (f : Fab) (m : Mgt) (gpa : Nat) : Fab := f.setField m gpa 6 31 0 (f.recPend m gpa + 1)

/-- The fate of a decrement that fails (R213, R214, R223, R267, R298). -/
def Fab.decFails (f : Fab) (d : Dec) (cause : Cause) : Fab :=
  match d.src with
  | .tdec w =>
    f.logFault ⟨w, BitVec.ofNat 64 d.recAddr, cause, 0x38, 1, Config.logWidth 1, BitVec.ofNat 64 d.n,
      .decrement d.recAddr d.n d.epoch, none⟩
  | .chime w minor =>
    f.logFault ⟨w, BitVec.ofNat 64 d.recAddr, cause, 0x39, minor, Config.logWidth 2, BitVec.ofNat 64 d.n,
      .decrement d.recAddr d.n d.epoch, none⟩
  | .barrier n vx vy =>
    f.enqueueAt n vx vy (f.ctx n).traprec (.report (causeCode cause) (BitVec.ofNat 64 d.recAddr) 0 none)
  | .wake => f

/-- The global physical address of a record that a context may write, through its pages and windows (R214, R250). -/
def Fab.recWr (f : Fab) (m : Mgt) (n : CtxId) (va : Nat) : Option Nat :=
  match if va < peerBase then f.walkOnly m n va else none with
  | some e => if e.wrt && e.win then some (e.gpa va) else none
  | none => none

/-- A decrement of n to a live record's counter, which holds c ≥ n (R214, R267). det: the context is deterministic, and the
counter keeps the largest epoch (R125). -/
def Fab.decrease (f : Fab) (m : Mgt) (gpa c n : Nat) (det : Bool) (epoch : BitVec 32) : Fab :=
  let e := max (f.field m gpa 4 31 0) (if det then epoch.toNat else 0)
  if n < c then (f.setField m gpa 1 31 0 (c - n)).setField m gpa 4 31 0 e
  else
    let next := if f.recRes m gpa then f.field m gpa 1 63 32 else 0
    (((f.setField m gpa 1 31 0 next).setField m gpa 4 31 0 0).addPend m gpa).standing m gpa (BitVec.ofNat 32 e)

/-- One decrement at the record's home slice (R214, R267); at a poisoned line it faults (R354). -/
def Fab.decrement (f : Fab) (m : Mgt) (d : Dec) : Fab :=
  match f.recWr m d.ctx d.recAddr with
  | none => f.decFails d .pageFault
  | some gpa =>
    if f.poisoned gpa 64 then f.decFails d .pageFault
    else
      match f.liveAt gpa with
      | none => f.decFails d .taskRecord
      | some _ =>
        let c := f.field m gpa 1 31 0
        if d.n > c then f.decFails d .countUnderflow else f.decrease m gpa c d.n (f.ctx d.ctx).det d.epoch

/-- Puts a decrement on its way (R213). -/
def Fab.sendDec (f : Fab) (n : CtxId) (va k : Nat) (e : BitVec 32) (src : DecSrc) : Fab :=
  { f with ids := f.ids + 1, decs := f.decs ++ [⟨f.ids, n, va, k, e, src⟩], due := f.due ++ [.decrementApply f.ids] }

/-- The epoch carried by an edge from a task (R125). -/
def Ctx.carry (x : Ctx) (e : BitVec 32) : BitVec 32 := if x.det then e + 1 else 0

/-- A fill of a buffer of a core carries an epoch to the records bound to it (R125). -/
def Fab.fillEpoch (f : Fab) (m : Mgt) (c : CoreId) (cb : Fin 16) (e : BitVec 32) : Fab :=
  match (f.core c).occ with
  | some o =>
    (f.live.filter fun r =>
      r.2.ctx = o.ctx && f.boundAt m r.1 r.2 = (o.vx, o.vy) && !r.2.dead && r.2.binds.any (·.cb = cb)).foldl
      (fun g r => g.setField m r.1 4 31 0 (max (g.field m r.1 4 31 0) e.toNat)) f
  | none => f

/-! Kernels (R274, R275). -/

/-- A kernel boundary of a context: stable copies, conflict records and fetched code lines go (R43, R274, R319). A thread that stands
inside a line goes on in it as it was read, so that no line is executed as a mixture of two (R43). -/
def Fab.boundary (f : Fab) (n : CtxId) : Fab :=
  let fresh := fun (x : Core) =>
    if x.occ.any (·.ctx = n) then
      { x with threads := x.threads.map fun t => if (t.pc &&& 63) = 0 then { t with code := none } else t }
    else x
  let g : Fab := { f with cores := f.cores.map fun c => (c.1, fresh c.2) }
  g.modCtx n fun x => { x with stable := [], conf := [], since := f.past.length }

/-- The core holds or queues a firing of a kernel. -/
def Fab.coreBusy (f : Fab) (m : Mgt) (kid : BitVec 32) (x : Core) : Bool :=
  x.threads.toList.any (fun t => t.firing.any (·.kid = some kid)) ||
  (match x.occ with
   | some o =>
     (x.runq ++ x.late).any (fun r => (match r.kind with | .report .. => false | _ => true) &&
       (f.liveRec m o.ctx r.recAddr).any (·.2.kid = kid)) ||
     x.inbox.any (fun r => (f.liveRec m o.ctx r.recAddr).any (·.2.kid = kid))
   | none => false)

/-- Whether a decrement in flight may be one of a kernel's: its tasks or their messages sent it, or a barrier or a write to a watched
word did. -/
def DecSrc.of (d : DecSrc) (kid : BitVec 32) : Bool :=
  match d with
  | .tdec w | .chime w _ => w.kid = some kid
  | .barrier .. | .wake => true

/-- Whether a RUNNING kernel is quiescent (R275). A decrement, a wake or a barrier message of its context that is on its way may yet
fire a task of it (log 39, DESIGN CHOICE). -/
def Fab.quiescent (f : Fab) (m : Mgt) (k : Kernel) : Bool :=
  k.st == .running &&
  !f.cores.any (fun c => f.coreBusy m k.kid c.2) &&
  !f.live.any (fun r => r.2.kid = k.kid && !r.2.dead && (f.recPend m r.1 ≥ 1 || f.recRes m r.1)) &&
  !f.msgs.any (·.who.kid = some k.kid) && !f.ops.any (·.msg.who.kid = some k.kid) &&
  !f.chimes.any (·.msg.who.kid = some k.kid) && !f.contribs.any (fun c => c.own.any (·.who.kid = some k.kid)) &&
  !f.sels.any (·.kid = k.kid) && !f.decs.any (fun d => d.ctx = k.ctx && d.src.of k.kid) && !f.wakes.any (·.ctx = k.ctx) &&
  !f.bars.any (·.ctx = k.ctx)

/-- Whether an access of a kernel's tasks has still to be performed: an element, a held matrix instruction, a line that has not
entered its write queue, an atomic of a parked routine, or a write that is not acknowledged (R112, R116, R208, R330). -/
def Fab.accessOut (f : Fab) (kid : BitVec 32) : Bool :=
  let mine := fun (w : Who) => w.kid = some kid
  f.cores.any (fun c => c.2.agg.any (fun b => b.2.elems.any (·.of mine)) || c.2.mq.any (mine ·.who)) ||
  f.elems.any (fun e => e.st ≠ .applied && e.of mine) || f.wl.any (fun e => mine e.who && e.place ≠ .queue) ||
  f.loose.any (mine ·.who) || f.rwrites.any (mine ·.who)

/-- Whether a kernel may complete: it is quiescent, and every access of its tasks has been performed, so that each precedes the write
of CWORD (R258). -/
def Fab.mayComplete (f : Fab) (m : Mgt) (k : Kernel) : Bool := f.quiescent m k && !f.accessOut k.kid

/-- Asks for the completion of kernels that may complete (log 2, DESIGN CHOICE). -/
def Fab.settleKernels (f : Fab) (m : Mgt) : Fab :=
  { f with due := f.due ++ (f.kernels.filter (f.mayComplete m)).map fun k => .kernelComplete k.kid }

/-- The records of a kernel return to IDLE: descriptors unloaded, STATE zero, no longer live (R273). -/
def Fab.idleRecs (f : Fab) (m : Mgt) : List (Nat × LiveRec) → Fab
  | [] => f
  | (gpa, r) :: rs =>
    let g := f.setField m gpa 5 63 60 0
    let g := match f.find r.ctx r.vx r.vy with
      | some c => if r.dead || r.binds.isEmpty then g else g.modCore c fun x => x.unloadCbs r.binds
      | none => g
    { g with live := mdel gpa g.live }.idleRecs m rs

/-- A kernel ends (R275): its records go to IDLE and its records' watches are removed (R216). -/
def Fab.endKernel (f : Fab) (m : Mgt) (k : Kernel) : Fab :=
  let mine := f.live.filter fun r => r.2.kid = k.kid
  let g := { f with
    watches := f.watches.filter fun w =>
      !(w.ctx = k.ctx && mine.any fun r => r.2.recAddr = w.recAddr || f.recAt m k.ctx w.recAddr = some r.1)
    kernels := f.kernels.filter fun j => j.kid ≠ k.kid }
  g.idleRecs m mine

/-! Firing and retiring (R271, R272). -/

/-- The firing at the head of the chain moves into the run queue; its record goes to the tail while it has another (R269). -/
def Fab.chainHead (f : Fab) (m : Mgt) (c : CoreId) (r : Chained) (rs : List Chained) (at' : Nat) : Fab :=
  let n := (f.core c).ctxId
  let e := (r.epochs.head?.map (·.2)).getD 0
  let k : RKind := match f.liveRec m n r.recAddr with
    | some (_, l) => if l.binds.isEmpty then .counter e else .bound
    | none => .counter e
  let g := (f.modCore c fun x => { x with chain := rs, runq := x.runq ++ [⟨at', r.recAddr, k⟩] }).setLink m n r.recAddr 0
  r.epochs.tail.foldl (fun g e => g.chainUp m c n r.recAddr e.1 e.2) (g.kick c)

/-- An entry of the run queue has freed: the firing that became ready first of those that wait for one takes it, a report or the
head of the chain (R269, R270, R344). -/
def Fab.unchain (f : Fab) (m : Mgt) (c : CoreId) : Fab :=
  let x := f.core c
  if x.runq.length ≥ Config.runQueue then f
  else
    match x.late, x.chain with
    | q :: qs, [] => (f.modCore c fun x => { x with late := qs, runq := x.runq ++ [q] }).kick c
    | ls, r :: rs =>
      let at' := (r.epochs.head?.map (·.1)).getD 0
      match ls with
      | q :: qs =>
        if q.seq ≤ at' then (f.modCore c fun x => { x with late := qs, runq := x.runq ++ [q] }).kick c
        else f.chainHead m c r rs at'
      | [] => f.chainHead m c r rs at'
    | [], [] => f

/-- A firing of a live record starts on a thread (R60, R271). -/
def Fab.start (f : Fab) (m : Mgt) (c : CoreId) (h : ThreadId) (gpa : Nat) (r : LiveRec) (kind : FKind) (carried : BitVec 32)
    (op : Option Nat) (v0 v1 : Line) (xid : BitVec 32) : Fab :=
  let x := f.ctx r.ctx
  let w3 := f.word m (gpa + 24)
  let e : BitVec 32 := if !x.det then 0 else if kind = FKind.landing then carried else match r.prev with
    | some p => if carried.toNat < p.toNat + 1 then p + 1 else carried
    | none => carried
  let allow := fun (rate : Binding → Nat) => r.binds.map fun b => (b.cb.val, rate b)
  let t := freshThread r.recAddr (f.word m gpa % 2 ^ 57) (f.word m (gpa + 16)) w3
  let g : Firing :=
    ⟨kind, f.ids, r.recAddr, some r.kid, e, if kind = FKind.landing then 0 else bits w3 13 12, bits w3 14 14 = 1, !r.binds.isEmpty,
      allow (·.crate), allow (·.prate), op, none⟩
  let f := (f.modCore c fun y => { y with idle := 0 }).setThread c h
    { t with st := .running, firing := some g, v := (t.v.set 0 v0).set 1 v1, ctl := { t.ctl with xferid := xid } }
  ({ f with ids := f.ids + 1 }.setLive gpa
    { r with running := r.running + 1, queued := if kind = FKind.counter then false else r.queued
             prev := if kind = FKind.landing then r.prev else some e }).showState m gpa

/-- A report firing starts on a free thread (R115, R344): TRAPREC's record, the trap registers, s2 and s3, and the frame's
words. One that cannot start parks (R340). -/
def Fab.startReport (f : Fab) (m : Mgt) (c : CoreId) (h : ThreadId) (code : BitVec 8) (addr : Word) (tag : BitVec 5)
    (entry : Option LogEntry) : Fab :=
  let o := (f.core c).occ.getD ⟨0, 0, 0⟩
  let x := f.ctx o.ctx
  let g : Firing := ⟨.report, f.ids, x.traprec, none, 0, 0, false, false, [], [], none, entry⟩
  let f := { f with ids := f.ids + 1 }.setThread c h { Thread.reset with st := .running, firing := some g, elem := entry }
  let f := f.frameState m c h 1
  let f := f.store m none false (f.frameAt c h + 0x180) (((entry.map LogEntry.words).getD [0, 0, 0, 0]).flatMap (leBytes 8))
  if x.traprec = 0 then f.park m c h code
  else
    match f.lineWords m c (f.who c h) x.traprec with
    | .error g => g.park m c h (causeCode .pageFault)
    | .ok (ws, f) =>
      let t := freshThread x.traprec (ws.getD 0 0 % 2 ^ 57) (ws.getD 2 0) (ws.getD 3 0)
      f.setThread c h
        { t with
          s := (t.s.set 2 (BitVec.ofNat 64 (frameOff h))).set 3 (BitVec.ofNat 64 (x.vnum o.vx o.vy))
          ctl := { t.ctl with trapcause := code, trapaddr := addr, trappc := 0, taketag := tag }
          st := .running, elem := entry, firing := some { g with role := bits (ws.getD 3 0) 13 12 } }

/-- Binds one entry of the run queue to a thread (R268, R270). -/
def Fab.bindReady (f : Fab) (m : Mgt) (c : CoreId) (h : ThreadId) (r : Ready) : Fab :=
  let n := (f.core c).ctxId
  let f := f.modCore c fun x => { x with runq := x.runq.erase r }
  match r.kind with
  | .report code addr tag entry => f.startReport m c h code addr tag entry
  | .handler status back xid e =>
    match f.liveRec m n r.recAddr with
    | some (gpa, l) => f.start m c h gpa l .handler e none status back xid
    | none => f
  | .counter e =>
    match f.liveRec m n r.recAddr with
    | some (gpa, l) =>
      (f.setField m gpa 6 31 0 (f.recPend m gpa - 1)).start m c h gpa l .counter e none 0 0 0
    | none => f
  | .bound =>
    match f.liveRec m n r.recAddr with
    | some (gpa, l) =>
      if f.boundReady m gpa l (f.core c) then
        let e := max ((l.waiting.head?.map (·.2.toNat)).getD 0) (f.field m gpa 4 31 0)
        ((f.setField m gpa 6 31 0 (f.recPend m gpa - 1)).setField m gpa 4 31 0 0).start m c h gpa
          { l with waiting := l.waiting.tail } .counter (BitVec.ofNat 32 e) none 0 0 0
      else (f.setLive gpa { l with queued := false }).showState m gpa
    | none => f

/-- A firing of a thread ends (R272): its record, its descriptors, its thread; then what waits for a thread, for a log entry
whose firing has retired, for the copy whose granule it handled, or for its kernel. -/
def Fab.retire (f : Fab) (m : Mgt) (c : CoreId) (h : ThreadId) : Fab :=
  let t := f.thread c h
  let n := (f.core c).ctxId
  let f := f.setThread c h { Thread.reset with age := t.age }
  let f : Fab := match t.firing with
    | none => f
    | some g =>
      let f := f.modCore c fun x => { x with mwait := x.mwait.filter fun w => w.fid ≠ g.fid }
      let f : Fab := match g.op with
        | some id =>
          { f with
            ops := f.ops.map fun o => if o.msg.id = id then { o with handler := false, granDone := true, hands := o.hands ++ t.fids } else o
            due := f.due ++ [.copyStep id] }
        | none => f
      if g.kid.isNone then f
      else
        match f.liveRec m n g.recAddr with
        | none => f
        | some (gpa, r) =>
          let r := { r with running := r.running - 1 }
          let f := f.setLive gpa r
          let standing := f.recPend m gpa ≥ 1 || f.queuedFor m gpa r
          if !f.recRes m gpa && r.running = 0 && !standing && !r.dead then
            let f := (f.setField m gpa 1 31 0 0).setField m gpa 5 63 60 4
            let f := f.setLive gpa { r with dead := true }
            match f.find n r.vx r.vy with
            | some d => if r.binds.isEmpty then f else f.modCore d fun x => x.unloadCbs r.binds
            | none => f
          else if r.binds.isEmpty then f.showState m gpa
          else ((f.showState m gpa).boundCheck m gpa).kickAll n
  (((f.reports c).kick c).replay c).settleKernels m

end Sys2Proof.Machine
end

