-- ==== Sys2Proof/Machine/Operands.lean ====
section
/-! DEFINITION. Operand forms: immediates (R130, R133), effective addresses (R148), branch targets (R33), and the shapes of
head that many instructions share. -/

namespace Sys2Proof.Machine

/-- An immediate read as a 64-bit pattern (R130). -/
def simm {n : Nat} (i : BitVec n) : Word := i.signExtend 64

/-- Effective address of a base and a signed displacement, modulo 2^64 (R148). -/
def Thread.ea {n : Nat} (t : Thread) (a : SReg) (i : BitVec n) : Word := t.rd a + simm i

/-- Target of a direct branch: line offset from the branch's own line, and head index (R33). -/
def branchTo {n : Nat} (pc : Pc) (off : BitVec n) (hx : BitVec 5) : Pc :=
  (((pc >>> 6) + off.signExtend 57) <<< 6) ||| hx.zeroExtend 57

/-- The next PC when head i of a line of count heads does not redirect (R32). -/
def nextPc (pc : Pc) (count : Nat) : Pc :=
  if (pc &&& 63).toNat + 1 < count then pc + 1 else ((pc >>> 6) + 1) <<< 6

/-- An address register used as a branch target: bits 56:0 (R142). -/
def pcOf (x : Word) : Pc := x.truncate 57

/-- s[d] := op(s[a], s[b]). -/
def binReg (g : Guard) (d a b : SReg) (op : Word → Word → Word) (s : State) : Res :=
  s.local g [.s a, .s b] [.s d] fun t => t.wr d (op (t.rd a) (t.rd b))
/-- s[d] := op(s[a], immediate). -/
def binImm (g : Guard) (d a : SReg) (i : BitVec 22) (op : Word → Word → Word) (s : State) : Res :=
  s.local g [.s a] [.s d] fun t => t.wr d (op (t.rd a) (simm i))
/-- s[d] := op(s[a]). -/
def unReg (g : Guard) (d a : SReg) (op : Word → Word) (s : State) : Res :=
  s.local g [.s a] [.s d] fun t => t.wr d (op (t.rd a))

/-- A divide (R132): a zero divisor traps DIV_ZERO with TRAPADDR 0, whatever the destination. -/
def divide (m : Mgt) (f : Fab) (c : CoreId) (h : ThreadId) (d : SReg) (x y : Word) (op : Word → Word → Word) : Fab :=
  if y = 0 then f.trap m c h .divZero 0 else f.modThread c h fun t => (t.wr d (op x y)).adv
def divReg (g : Guard) (d a b : SReg) (op : Word → Word → Word) (s : State) : Res :=
  s.head g [.s a, .s b] [.s d] fun m f c h => divide m f c h d ((f.thread c h).rd a) ((f.thread c h).rd b) op
def divImm (g : Guard) (d a : SReg) (i : BitVec 22) (op : Word → Word → Word) (s : State) : Res :=
  s.head g [.s a] [.s d] fun m f c h => divide m f c h d ((f.thread c h).rd a) (simm i) op

/-! Results of R131. -/

def mulHigh (a b : Word) : Word := BitVec.ofInt 64 (a.toInt * b.toInt / 2 ^ 64)
def mulHighU (a b : Word) : Word := BitVec.ofNat 64 (a.toNat * b.toNat / 2 ^ 64)
def divS (a b : Word) : Word := BitVec.ofInt 64 (a.toInt.tdiv b.toInt)
def remS (a b : Word) : Word := BitVec.ofInt 64 (a.toInt.tmod b.toInt)
/-- Shift counts are bits 5:0 (R131). -/
def shl (a b : Word) : Word := a <<< (b.toNat % 64)
def shrZ (a b : Word) : Word := a >>> (b.toNat % 64)
def shrS (a b : Word) : Word := a.sshiftRight (b.toNat % 64)

/-! Results of R139 to R141. -/

/-- Zero bits from bit k - 1 downward before the first one bit. -/
def leadZeros (a : Word) : Nat → Nat
  | 0 => 0
  | k + 1 => if a.getLsbD k then 0 else 1 + leadZeros a k
def ones (a : Word) : Nat → Nat
  | 0 => 0
  | k + 1 => (if a.getLsbD k then 1 else 0) + ones a k
def clz (a : Word) : Word := BitVec.ofNat 64 (leadZeros a 64)
def ctz (a : Word) : Word := BitVec.ofNat 64 (leadZeros a.reverse 64)
def popc (a : Word) : Word := BitVec.ofNat 64 (ones a 64)
/-- SEXT and ZEXT of n = k6 + 1 bits (R140). -/
def sextN (k : BitVec 6) (a : Word) : Word := BitVec.ofInt 64 (intVal true (k.toNat + 1) a.toNat)
def zextN (k : BitVec 6) (a : Word) : Word := BitVec.ofNat 64 (a.toNat % 2 ^ (k.toNat + 1))
def minOf (u : Bool) (a b : Word) : Word := if (if u then a.ult b else a.slt b) then a else b
def maxOf (u : Bool) (a b : Word) : Word := if (if u then a.ult b else a.slt b) then b else a

end Sys2Proof.Machine
end

