-- ==== Sys2Proof/Machine/Flags.lean ====
section
/-! DEFINITION. Predicates and status: compare conditions (R134), the predicate register as a value (R135), LSSTAT (R70). -/

namespace Sys2Proof.Machine

/-- The condition of a scalar compare (R134). -/
def condHolds (c : Cond) (a b : Word) : Bool :=
  match c with
  | .eq => a == b
  | .ne => a != b
  | .ltS => a.slt b
  | .geS => !a.slt b
  | .ltZ => a.ult b
  | .geZ => !a.ult b
  | .tst => a &&& b != 0
  | .ntst => a &&& b == 0

/-- p[pd] := c and p[pe] := not c (R134). -/
def Thread.setPair (t : Thread) (pd pe : PReg) (c : Bool) : Thread := (t.wrp pd c).wrp pe (!c)

/-- PRD: bit i is p[i]; bit 0 reads one (R135). -/
def Thread.preds (t : Thread) : Word := (t.p ||| 1).zeroExtend 64
/-- PWR: bits 7:1 of the source (R135). -/
def Thread.setPreds (t : Thread) (x : Word) : Thread := { t with p := x.truncate 8 ||| 1 }

/-- LSSTAT (R70): DET, and the counts of FAULTED, LANDED and ARMED slots. -/
def lsstat (t : Thread) (det : Bool) : Word :=
  BitVec.ofNat 64 (det.toNat * 2 ^ 24 + t.ls.count .faulted * 2 ^ 16 + t.ls.count .landed * 2 ^ 8 + t.ls.count .armed)

end Sys2Proof.Machine
end

