-- ==== Sys2Proof/Machine/Memory.lean ====
section
/-! DEFINITION. Memory, landing-set and atomic instructions (08_isa_memory R148 to R168). A head that must wait leaves its
thread at its PC (R56, R150). -/

namespace Sys2Proof.Machine

/-- A load or store of the translated region or the local window (R99, R148). -/
def memReq (ea : Word) (n : Nat) (want : Want) : Req := ⟨ea, n, want, true, false, true, true, false, false, n⟩

/-- What a delivery writes, from the bytes of its access (R152, R162, R182). -/
def POp.value (op : POp) (bs : List Byte) : Line :=
  match op with
  | .load ty => (ldExtend ty (leNum bs)).zeroExtend 512
  | .vload => bytesLine bs
  | .amor .. | .cas .. => BitVec.ofNat 512 (leNum bs)

/-! Deliveries (R152, R163, R164, R330). -/

/-- What a returning atomic leaves in the bytes of its location. -/
def POp.run (op : POp) (ea : Word) (bs : List Byte) : AtomRes :=
  match op with
  | .amor o wd b => atomRun o wd (onWindow o ea) bs b
  | .cas wd b c => casRun wd bs b c
  | .load _ | .vload => ⟨bs, 0, false⟩

/-- A trapped thread that is owed nothing any more enters its trap routine (R339, step 3). -/
def Fab.settleTrap (f : Fab) (c : CoreId) (h : ThreadId) : Fab :=
  let t := f.thread c h
  if t.st == .trapping && !t.owes then f.push (.trapEntry c h) else f

/-- A delivery is performed: its value is written, unless a later head has written the register since (R152). A thread that waits
at the instruction itself goes on, or takes WINDOW_OVERFLOW (R163, R164). Slots whose loads waited for it are asked again. -/
def Fab.deliver (f : Fab) (m : Mgt) (c : CoreId) (h : ThreadId) (p : Pend) (v : Line) (ovf : Bool) : Fab :=
  let t := f.thread c h
  let g := (f.modThread c h fun t =>
    let u : Thread := { t with pend := t.pend.filter fun q => q.id ≠ p.id }
    if p.overwritten then u else u.wrDst p.dst v).replay c
  if p.held && (t.st == .running || t.st == .routine) then
    if ovf && t.ctl.wovf then g.trapNext m c h .windowOverflow p.ea else g.modThread c h Thread.adv
  else g.settleTrap c h

/-- A delivery is refused: the trap is taken at a later head (R330). -/
def Fab.refuseLater (f : Fab) (c : CoreId) (h : ThreadId) (id : Nat) (cause : Cause) : Fab :=
  ((f.modThread c h fun t =>
    { t with pend := t.pend.map fun q => if q.id = id && q.st.open then { q with st := .refused cause } else q }).replay
      c).settleTrap c h

/-- What a store to a page of this device leaves behind: the record of R126, the bytes, the class of the lines (R315). -/
def Fab.storeOwn (f : Fab) (m : Mgt) (w : Who) (gpa : Nat) (e : TlbEnt) (bs : List Byte) (comm : Bool) : Fab :=
  ((f.noteWrite m w e gpa bs.length comm).store m (some w) true gpa bs).classed m e (gpa % 2 ^ 39 / 64)
    ((gpa + bs.length + 63) / 64 - gpa / 64)

/-- A load or returning atomic of a thread is performed at its place in memory, and its value delivered (R152, R163). -/
def Fab.answerMem (f : Fab) (m : Mgt) (c : CoreId) (h : ThreadId) (p : Pend) (gpa : Nat) (e : TlbEnt) : Fab :=
  let w := f.who c h
  if p.op.isLoad then
    let r := f.load m c w.ctx e gpa p.size
    r.2.deliver m c h p (p.op.value r.1) false
  else
    let res := p.op.run p.ea (f.bytesAt m gpa p.size)
    (f.storeOwn m w gpa e res.bytes (p.use == .comm)).deliver m c h p (res.old.zeroExtend 512) false

/-- The copy of a remote stable line that a load uses (R123, R329; log 10, DESIGN CHOICE). -/
def Fab.remoteCopy (f : Fab) (m : Mgt) (c : CoreId) (n : CtxId) (e : TlbEnt) (gpa : Nat) : Option Line :=
  if e.stable && m.isOther gpa then (f.copyHit n (gpa / 64) (copyPlaces m c e gpa)).1 else none

/-- A delivery is owed to a thread (R152). Where a record of R126 is kept the access is performed as it is checked, so that its
CONFLICT is precise. Elsewhere the home slice answers for this device and host memory and for peer cores, and another device
for its own memory, unless a copy of a stable line serves. A refused answer for the same register is written no more (R152). -/
def Fab.owe (f : Fab) (m : Mgt) (c : CoreId) (h : ThreadId) (p : Pend) : Fab :=
  let n := (f.who c h).ctx
  let g := { f with ids := f.ids + 1 }.modThread c h fun t => { t with pend := t.pend.map (Pend.written p.dst) ++ [p] }
  match p.tgt with
  | .mem gpa e =>
    if recorded m (f.ctx n) e then g.answerMem m c h p gpa e
    else
      match m.place gpa with
      | .other dev _ =>
        (match if p.op.isLoad then f.remoteCopy m c n e gpa else none with
         | some d => g.deliver m c h p (p.op.value (((lineBytes d).drop (gpa % 64)).take p.size)) false
         | none => g.transmit m (.load c h p.id) dev (gpa / 64))
      | _ => g.push (.homeSliceAnswer c h p.id)
  | _ => g.push (.homeSliceAnswer c h p.id)

/-- The loads of R152 and R182. -/
def loadHead (dst : Dst) (ea : Word) (n : Nat) (sc : Scope) (o : Order) (op : POp) (m : Mgt) (f : Fab) (c : CoreId)
    (h : ThreadId) : Fab :=
  let w := f.who c h
  let r := memReq ea n .load
  match f.check m c w r with
  | .error e => (f.walked m c w r).trap m c h e ea
  | .ok (tgt, g) =>
    match g.aggWait c w tgt n with
    | some g => g
    | none =>
      if g.inWay m c h w g.ids (some tgt) n then g
      else
        match tgt with
        | .loc off => g.modThread c h fun t => (t.wrDst dst (op.value ((g.core c).locBytes off n))).adv
        | .mem gpa _ =>
          (g.owe m c h ⟨g.ids, dst, ea, tgt, op, sc, o, .none, m.isOther gpa, false, .waiting, false⟩).modThread c h Thread.adv
        | .peer .. => g

/-- What a load that a head makes at its issue meets: the cause of a failing check, a wait, or its bytes. -/
inductive LoadRes where
  | fault (c : Cause) (f : Fab)
  | wait (f : Fab)
  | done (bs : List Byte) (f : Fab)

/-- What a read of another device's memory meets: it is on its way, it has its bytes, or it is refused or lost (R330). -/
inductive FarRes where
  | wait (f : Fab)
  | done (bs : List Byte)
  | bad (c : Cause)

/-- A read of at most a line of another device's memory for one who waits: it leaves through a port the first time, and answers once
that device has (R328, R330). -/
def Fab.farRead (f : Fab) (m : Mgt) (by' : Reader) (n : CtxId) (gpa len : Nat) : FarRes :=
  match f.reads.find? fun r => r.by' = by' && r.gpa = gpa && r.len = len with
  | some r =>
    match r.ans with
    | none => .wait f
    | some (.value v) => .done (leBytes len v.toNat)
    | some (.refused c) => .bad c
  | none =>
    let g := { f with ids := f.ids + 1, reads := f.reads ++ [⟨f.ids, by', n, gpa, len, none⟩] }
    match m.place gpa with
    | .other dev _ => .wait (g.transmit m (.read f.ids) dev (gpa / 64))
    | _ => .wait g

/-- Whether an address is host memory, and whether the host is out of reach (R27, R337). -/
def Mgt.atHost (m : Mgt) (gpa : Nat) : Bool := match m.place gpa with | .host _ => true | _ => false
def Mgt.hostLost (m : Mgt) (gpa : Nat) : Bool := m.atHost gpa && !m.hostLink

/-- Bytes of a page that a head of a thread reads at its issue. Another device's are asked for, and the head waits; the host may be
out of reach, or PCIe may fail the read (R330, R337). -/
def Fab.memNow (f : Fab) (m : Mgt) (c : CoreId) (h : ThreadId) (e : TlbEnt) (gpa n : Nat) : LoadRes :=
  let w := f.who c h
  if m.isOther gpa then
    match f.remoteCopy m c w.ctx e gpa with
    | some d => .done (((lineBytes d).drop (gpa % 64)).take n) f
    | none =>
      match f.farRead m (.head c h w.fid) w.ctx gpa n with
      | .wait g => .wait g
      | .done bs => .done bs f
      | .bad e => .fault e f
  else if m.atHost gpa && f.readBad m gpa then .fault .pageFault f
  else .done (f.load m c w.ctx e gpa n).1 (f.load m c w.ctx e gpa n).2

/-- A load performed at the issue of its head (R191, R201, R221), ordered as any load of the thread (R103, R113). -/
def Fab.loadNow (f : Fab) (m : Mgt) (c : CoreId) (h : ThreadId) (r : Req) : LoadRes :=
  let w := f.who c h
  match f.check m c w r with
  | .error e => .fault e (f.walked m c w r)
  | .ok (tgt, g) =>
    match g.aggWait c w tgt r.len with
    | some g => .wait g
    | none =>
      if g.inWay m c h w g.ids (some tgt) r.len then .wait g
      else
        match tgt with
        | .loc off => .done ((g.core c).locBytes off r.len) g
        | .mem gpa e => g.memNow m c h e gpa r.len
        | .peer .. => .fault .pageFault g

/-- A write that leaves the device: to another device as a posted write (R154); to host memory, where PCIe may still fail it
(R337). op: the engine operation and the position of its step. -/
def Fab.putOut (f : Fab) (m : Mgt) (w : Who) (ea : Word) (gpa : Nat) (bs : List Byte) (major minor : Nat)
    (op : Option (Nat × Nat)) : Fab :=
  let r : RWrite := ⟨f.ids, w, ea, gpa, bs, major, minor, none, op, none, none⟩
  match m.place gpa with
  | .host _ =>
    (Fab.store { f with ids := f.ids + 1, rwrites := f.rwrites ++ [r] } m (some w) true gpa bs).push
      (.remoteWriteAck f.ids (if m.hostLink then none else some .pageFault))
  | _ => { f with ids := f.ids + 1 }.post m r

/-- A write of a firing at a checked place in memory (R126, R152, R154, R337). -/
def Fab.put (f : Fab) (m : Mgt) (w : Who) (ea : Word) (gpa : Nat) (e : TlbEnt) (bs : List Byte) (major minor : Nat)
    (op : Option (Nat × Nat)) : Fab :=
  match m.place gpa with
  | .own _ => f.storeOwn m w gpa e bs false
  | _ => f.putOut m w ea gpa bs major minor op

/-- The stores of R152 and R182; a release of .clu or wider is a flush trigger (R102, R112). -/
def storeHead (ea : Word) (bs : List Byte) (sc : Scope) (o : Order) (major minor : Nat) (m : Mgt) (f : Fab) (c : CoreId)
    (h : ThreadId) : Fab :=
  let w := f.who c h
  let r := memReq ea bs.length .store
  match f.check m c w r with
  | .error e => (f.walked m c w r).trap m c h e ea
  | .ok (tgt, g) =>
    let local' := match tgt with | .loc _ => true | _ => false
    match if o == .rel then g.flush m c h (decide (scopeRank sc ≥ 1)) true (if local' then .core else sc) else .done g with
    | .stop g => g
    | .done g =>
      match g.aggWait c w tgt bs.length with
      | some g => g
      | none =>
        if g.inWay m c h w g.ids (some tgt) bs.length then g
        else
          match tgt with
          | .loc off =>
            if (g.core c).locked off bs.length then g
            else (g.modCore c fun x => x.locWrite off bs).modThread c h Thread.adv
          | .mem gpa e => (g.put m w ea gpa e bs major minor none).modThread c h Thread.adv
          | .peer .. => g

/-- LD (R151, R152). -/
def execLd (g : Guard) (ty : LdTy) (d a : SReg) (sc : Scope) (o : Order) (imm : BitVec 17) (s : State) : Res :=
  s.head g [.s a] [.s d] fun m f c h =>
    loadHead (.s d) ((f.thread c h).ea a imm) (ldSize ty) sc o (.load ty) m f c h

/-- ST (R151, R152). -/
def execSt (g : Guard) (ty : StTy) (d a : SReg) (sc : Scope) (o : Order) (imm : BitVec 17) (s : State) : Res :=
  s.head g [.s d, .s a] [] fun m f c h =>
    let t := f.thread c h
    storeHead (t.ea a imm) (leBytes (stSize ty) (t.rd d).toNat) sc o 0x11 ty.code m f c h

/-! The write lane (R116, R153, R154, R246 to R248). -/

/-- The line that a whole-line write leaves, with the words that a live record's home slice owns kept (R265). -/
def Fab.maskLine (f : Fab) (m : Mgt) (la : Nat) (v : Line) : Line :=
  if (List.range 64).any fun i => f.owned (m.gpa (la + i)) then
    bytesLine ((List.range 64).map fun i =>
      if f.owned (m.gpa (la + i)) then f.devByte (la + i) else BitVec.ofNat 8 (v.toNat / 2 ^ (8 * i)))
  else v

/-- Lines of a context in its budget queue at a stack. -/
def Fab.inBudget (f : Fab) (n : CtxId) (k : StackId) : Nat :=
  f.wl.countP fun e => e.who.ctx = n && e.stack = k && e.place == .budget

/-- A line written whole is dirty in no home slice any more: what HBM4E holds of it is in memory (R116). -/
def Fab.undirty (f : Fab) (l : Nat) : Fab :=
  match f.dirtyAt l with
  | some d => { f with dirty := mdel l f.dirty, mem := pokes f.mem (64 * l) (lineBytes d.hbm) }
  | none => f

/-- A line joins the write lane (R116); device observers see it from here on. Of it, n bytes from at' on were written: they
wake and notify. -/
def Fab.enterPart (f : Fab) (m : Mgt) (w : Who) (ea la : Nat) (v : Line) (wlc : Nat) (place : WPlace) (mid : Option Nat)
    (at' n : Nat) : Fab :=
  let v := f.maskLine m la v
  let f := (f.note false (la / 64) 1).undirty (la / 64)
  Fab.notify { f with
    ids := f.ids + 1
    wl := f.wl ++ [⟨f.ids, w, stackOf la, la / 64, ea, v, wlc, place, mid, false, false, false⟩]
    poison := f.poison.filter fun l => l ≠ m.gpa la / 64 } m (some w) (m.gpa (la + at')) n

/-- A line written whole joins the write lane. -/
def Fab.enterLane (f : Fab) (m : Mgt) (w : Who) (ea la : Nat) (v : Line) (wlc : Nat) (place : WPlace) (mid : Option Nat) : Fab :=
  f.enterPart m w ea la v wlc place mid 0 64

/-- Bytes within a line join the write lane as the whole line with them in it (R17). -/
def Fab.enterBytes (f : Fab) (m : Mgt) (w : Who) (ea la : Nat) (bs : List Byte) (wlc : Nat) : Fab :=
  let old := lineBytes (f.lineRead (la / 64))
  f.enterPart m w ea (la / 64 * 64) (bytesLine (old.take (la % 64) ++ bs ++ old.drop (la % 64 + bs.length))) wlc .queue none (la % 64)
    bs.length

/-- Whether a context may have a line enter a stack's write queue: its allowance lasts, or the window does not limit it (R246). -/
def Ctx.mayEnter (x : Ctx) (k : StackId) : Bool := x.nolimit[k] || x.allow[k] > 0

/-- A line of a context that enters a stack's write queue is charged: to the allowance, or as debt where that is spent (R246,
R248). A window whose budget is 93,750 or more never limits. -/
def Fab.spend (f : Fab) (n : CtxId) (k : StackId) : Fab :=
  f.modCtx n fun x =>
    if x.nolimit[k] then x
    else if x.allow[k] > 0 then { x with allow := x.allow.set k (x.allow[k] - 1) }
    else { x with debt := x.debt.set k (x.debt[k] + 1) }

/-- STW (R153): the budget is checked before the stall. -/
def execStw (g : Guard) (v : VReg) (a : SReg) (imm : BitVec 17) (s : State) : Res :=
  s.head g [.v v, .s a] [] fun m f c h =>
    let t := f.thread c h
    let ea := t.ea a imm
    let w := f.who c h
    let r := { memReq ea 64 .store with loc := false }
    match f.check m c w r with
    | .error e => (f.walked m c w r).trap m c h e ea
    | .ok (.mem gpa e, g) =>
      match g.aggWait c w (.mem gpa e) 64 with
      | some g => g
      | none =>
        if g.inWay m c h w g.ids (some (.mem gpa e)) 64 then g
        else
          match m.place gpa with
          | .own la =>
            let k := stackOf la
            if (f.ctx w.ctx).mayEnter k then
              (((g.noteWrite m w e gpa 64 false).spend w.ctx k).enterLane m w ea.toNat la (t.rdv v) e.wlc .queue none).modThread
                c h Thread.adv
            else if f.inBudget w.ctx k < Config.budgetQueue then
              ((g.noteWrite m w e gpa 64 false).enterLane m w ea.toNat la (t.rdv v) e.wlc .budget none).modThread c h Thread.adv
            else if t.ctl.wbud then g.trap m c h .writeBudget ea
            else g
          | _ => (g.put m w ea gpa e (lineBytes (t.rdv v)) 0x11 4 none).modThread c h Thread.adv
    | .ok _ => f

/-! Exchange stores (R120, R155). -/

def BarReg.on (r : BarReg) : Bool := r.desc.getLsbD 14
def BarReg.xch (r : BarReg) : Bool := r.desc.getLsbD 14 && r.desc.getLsbD 15

/-- The exchange barrier of a core: the register whose descriptor has XCH = 1 (R120). -/
def Core.exchange (x : Core) : Option BarReg := x.bars.toList.find? BarReg.xch

/-- An element that would enter a buffer waits while the fault log is full (R114). -/
def Core.logFull (x : Core) : Bool := x.flog.length ≥ Config.faultLog

/-- XST (R155): the checks in the order of its entry. -/
def execXst (g : Guard) (wd : Wd) (x cc o : SReg) (imm : BitVec 17) (s : State) : Res :=
  s.head g [.s x, .s cc, .s o] [] fun m f c h =>
    let t := f.thread c h
    let tgt := t.rd cc
    let off := t.ea o imm
    let n := wdSize wd
    let w := f.who c h
    let vx := tgt.toNat % 256
    let vy := tgt.toNat / 256 % 256
    let core := f.core c
    if tgt.toNat ≥ 2 ^ 16 || !(f.ctx w.ctx).inLease vx vy then f.trap m c h .pageFault tgt
    else if off.toNat < 0x20000 || off.toNat > 0x23FFF then f.trap m c h .pageFault off
    else if off.toNat % n ≠ 0 then f.trap m c h .misaligned off
    else
      match core.exchange with
      | none => f.trap m c h .noExchange off
      | some b =>
        if core.logFull || f.inWay m c h w f.ids none 0 then f
        else
          let e : Elem := ⟨f.ids, w, off, 0, false,
            .xst vx vy off.toNat n (BitVec.ofNat 64 ((t.rd x).toNat % 2 ^ (8 * n))) (core.xphase + b.arr.toNat), .core vx vy, .buffered,
            0, false, []⟩
          ({ f with ids := f.ids + 1 }.aggregate c e).modThread c h Thread.adv

/-! Tagged loads (R61, R62, R156 to R160). -/

def Thread.setSlot (t : Thread) (k : Tag) (x : Slot) : Thread := { t with ls := { t.ls with slots := t.ls.slots.set k x } }

/-- The load of a slot, which leaves for another device once the accesses that it comes after are performed (R103, R113), or is
performed by this device (log 6, DESIGN CHOICE). -/
def Fab.armed (f : Fab) (m : Mgt) (c : CoreId) (h : ThreadId) (k : Tag) (id : Nat) (ea : Word) : Fab :=
  let away := match f.tgtOf m c (f.who c h).ctx ea with
    | some (.mem gpa _) => m.isOther gpa
    | _ => false
  if away then f.push (.homeSliceAnswer c h id)
  else (f.push (.landingSlotArrival c h k ⟨id, 0⟩)).push (.landingSlotFault c h k ⟨id, none⟩)

/-- LDT (R156): the slot is armed at once; its load waits for the earlier accesses that R113 and R158 order it after. -/
def execLdt (g : Guard) (ty : LdTy) (k : Tag) (a : SReg) (imm : BitVec 22) (s : State) : Res :=
  s.head g [.s a] [] fun m f c h =>
    let t := f.thread c h
    let ea := t.ea a imm
    let old := t.ls.slots[k]
    if old.st ≠ .free then
      f.trapFull m c h (causeCode .landingBusy) old.addr t.pc (some (BitVec.ofNat 5 k.val)) none none
    else
      (({ f with ids := f.ids + 1 }.modThread c h fun t =>
        (t.setSlot k { Slot.empty with id := f.ids, st := .armed, addr := ea, ty := ty }).adv).armed m c h k f.ids ea)

/-- The slot that TAKE selects, where it does not stall (R62, R159). -/
def Landing.pick (l : Landing) (det : Bool) : Option Tag :=
  if det then
    match (List.finRange 32).find? fun k => l.slots[k].st ≠ .free with
    | some k => if l.slots[k].st == .armed then none else some k
    | none => none
  else l.order.head?

/-- TAKE (R159). With every slot FREE it writes pd only, and so waits for no register (R152, R363). -/
def execTake (g : Guard) (d k : SReg) (pd : PReg) (s : State) : Res :=
  s.head g [] [] fun m f c h =>
    let t := f.thread c h
    if t.ls.slots.toList.all fun x => x.st == .free then f.modThread c h fun t => (t.wrp pd false).adv
    else
      match t.ls.pick (f.ctx (f.who c h).ctx).det with
      | none => f
      | some i =>
        let x := t.ls.slots[i]
        if x.st == .faulted then
          f.trapFull m c h (causeCode (x.cause.getD .pageFault)) x.addr t.pc (some (BitVec.ofNat 5 i.val)) none
            (some (i, t.pc))
        else if t.awaits [.s d, .s k] then f
        else
          f.modThread c h fun t =>
            let t := { t with ls := ⟨t.ls.slots.set i Slot.empty, t.ls.order.erase i⟩ }
            (((t.wr d x.val).wr k (BitVec.ofNat 64 i.val)).wrp pd true).adv

/-! Atomics (R106 to R109, R161 to R164). -/

/-- The checks of an atomic (R148). A posted one meets the record check at its home slice (R345). -/
def atomReq (ea : Word) (op : AOp) (wd : Wd) (u : AUse) (posted : Bool) : Req :=
  let win := onWindow op ea
  let n := atomSize op wd ea
  ⟨ea, n, .atomic, true, true, true, !posted, u == .comm, op == .fadd && !win, n⟩

/-- A core's scratchpad or visible bank after an atomic at an offset; a window is 64 bytes (R108, R163). -/
def Core.atomLocal (x : Core) (op : AOp) (wd : Wd) (win : Bool) (off : Nat) (b : Word) : Core × AtomRes :=
  let r := atomRun op wd win (x.locBytes off (if win then 64 else wdSize wd)) b
  (x.locWrite off r.bytes, r)

/-- The destination of a posted atomic (R109). -/
def destOf (m : Mgt) (e : TlbEnt) (gpa : Nat) : Dest :=
  match m.place gpa with
  | .other dev la => .device dev (la / 64)
  | _ => .slice (m.homeSlice e.plc e.parg gpa)

/-- The checks of a delivery, as at its issue (R148). -/
def Pend.req (p : Pend) : Req :=
  match p.op with
  | .load ty => memReq p.ea (ldSize ty) .load
  | .vload => memReq p.ea 64 .load
  | .amor op wd _ => atomReq p.ea op wd p.use false
  | .cas wd _ _ => atomReq p.ea .swap wd p.use false

/-- The fault-log entries of a failed element: one for each constituent (R107, R114, R344). -/
def Elem.entries (e : Elem) (cause : Cause) : List LogEntry :=
  let one := fun (id : Nat) (who : Who) (b : Word) =>
    match e.op with
    | .xst vx vy off n val stamp =>
      (⟨who, e.ea, cause, 0x11, if n = 4 then 5 else 6, BitVec.ofNat 2 (if n = 4 then Wd.w32 else Wd.w64).code, val, .element id,
        some { e with id := id, who := who, op := .xst vx vy off n val stamp, more := [] }⟩ : LogEntry)
    | .amo op wd _ use =>
      ⟨who, e.ea, cause, 0x13, op.code, BitVec.ofNat 2 wd.code, b, .element id,
        some { e with id := id, who := who, op := .amo op wd b use, more := [] }⟩
  e.parts.map fun x => one x.1 x.2.1 x.2.2

/-- Whether the path to a location in memory carries an atomic's class (R326, R337): judged at issue. -/
def pathCarries (m : Mgt) (gpa : Nat) (cls : Nat) : Bool := (m.pathCap gpa).getLsbD cls

/-- AMO (R161 to R164): direct at the own local window, alone after its release for .rel, otherwise through the buffers. -/
def execAmo (g : Guard) (op : AOp) (a b : SReg) (sc : Scope) (o : Order) (u : AUse) (wd : Wd) (s : State) : Res :=
  s.head g [.s a, .s b] [] fun m f c h =>
    let t := f.thread c h
    let ea := t.rd a
    let w := f.who c h
    let r := atomReq ea op wd u true
    match f.check m c w r with
    | .error e => (f.walked m c w r).trap m c h e ea
    | .ok (tgt, g) =>
      let own := match tgt with | .loc _ => true | _ => false
      match if o == .rel then g.flush m c h (decide (scopeRank sc ≥ 1)) true (if own then .core else sc) else .done g with
      | .stop g => g
      | .done g =>
        match if (own || o == .rel) && u ≠ .unp then g.aggWait c w tgt r.len else none with
        | some g => g
        | none =>
          if g.inWay m c h w g.ids (if u == .unp then none else some tgt) r.len then g
          else
            let mk := fun (d : Dest) (gpa : Nat) (chk : Bool) (st : ElSt) (wlc : Nat) (merges : Bool) =>
              (⟨g.ids, w, ea, gpa, chk, .amo op wd (t.rd b) u, d, st, wlc, merges, []⟩ : Elem)
            let send := fun (d : Dest) (gpa : Nat) (chk : Bool) (wlc : Nat) (merges : Bool) =>
              if o == .rel then
                (let e := mk d gpa chk .flight wlc merges
                 ({ g with ids := g.ids + 1, elems := g.elems ++ [e] }.push e.event).modThread c h Thread.adv)
              else if (g.core c).logFull then g
              else ({ g with ids := g.ids + 1 }.aggregate c (mk d gpa chk .buffered wlc merges)).modThread c h Thread.adv
            match tgt with
            | .loc off =>
              if (g.core c).locked off r.len then g
              else (g.modCore c fun x => (x.atomLocal op wd (onWindow op ea) off (t.rd b)).1).modThread c h Thread.adv
            | .peer vx vy _ => send (.core vx vy) 0 false 0 true
            | .mem gpa e =>
              if pathCarries m gpa (classBit op false) then
                send (destOf m e gpa) gpa (recorded m (f.ctx w.ctx) e) e.wlc (pathCarries m gpa 3)
              else if (g.core c).logFull then g
              else
                (((mk (destOf m e gpa) gpa false .buffered 0 false).entries .atomicPath).foldl Fab.logFault
                  { g with ids := g.ids + 1 }).modThread c h Thread.adv

/-- The returning atomics (R161 to R164): op applied with b, and c for .cas. A path that lacks the atomic's class traps before the
release of .rel or .ar meets a failed element, the rules giving no order (log 20, DESIGN CHOICE). -/
def amorHead (d : SReg) (ea : Word) (r : Req) (op : POp) (cls : Nat) (win : Bool) (sc : Scope) (o : Order) (u : AUse)
    (run : List Byte → AtomRes) (m : Mgt) (f : Fab) (c : CoreId) (h : ThreadId) : Fab :=
  let w := f.who c h
  match f.check m c w r with
  | .error e => (f.walked m c w r).trap m c h e ea
  | .ok (tgt, g) =>
    let gpa? := match tgt with | .mem gpa _ => some gpa | _ => none
    if (gpa?.map fun gpa => !pathCarries m gpa cls).getD false then g.trap m c h .atomicPath ea
    else
      let own := match tgt with | .loc _ => true | _ => false
      match if o == .rel || o == .ar then g.flush m c h (decide (scopeRank sc ≥ 1)) true (if own then .core else sc)
        else .done g with
      | .stop g => g
      | .done g =>
        match g.aggWait c w tgt r.len with
        | some g => g
        | none =>
          let t := g.thread c h
          if g.inWay m c h w g.ids (if u == .unp then none else some tgt) r.len then g
          else
            match tgt with
            | .loc off =>
              if (g.core c).locked off r.len then g
              else
                let res := run ((g.core c).locBytes off r.len)
                let g := (g.modCore c fun x => x.locWrite off res.bytes).modThread c h fun t => t.wr d res.old
                if res.ovf && t.ctl.wovf then g.trapNext m c h .windowOverflow ea else g.modThread c h Thread.adv
            | _ =>
              let hold := win && t.ctl.wovf
              let g := g.owe m c h ⟨g.ids, .s d, ea, tgt, op, sc, o, u, (gpa?.map m.isOther).getD false, hold, .waiting, false⟩
              if hold then g else g.modThread c h Thread.adv

/-- AMOR (R161 to R164). -/
def execAmor (g : Guard) (op : AOp) (d a b : SReg) (sc : Scope) (o : Order) (u : AUse) (wd : Wd) (s : State) : Res :=
  s.head g [.s a, .s b] [.s d] fun m f c h =>
    let t := f.thread c h
    let ea := t.rd a
    let win := onWindow op ea
    amorHead d ea (atomReq ea op wd u false) (.amor op wd (t.rd b)) (classBit op win) win sc o u
      (fun bs => atomRun op wd win bs (t.rd b)) m f c h

/-- AMOR.cas (R161 to R164). -/
def execAmorCas (g : Guard) (d a b cc : SReg) (sc : Scope) (o : Order) (u : AUse) (wd : Wd) (s : State) : Res :=
  s.head g [.s a, .s b, .s cc] [.s d] fun m f c h =>
    let t := f.thread c h
    let ea := t.rd a
    amorHead d ea (atomReq ea .swap wd u false) (.cas wd (t.rd b) (t.rd cc)) 0 false sc o u
      (fun bs => casRun wd bs (t.rd b) (t.rd cc)) m f c h

/-- ADDW (R91, R165): the update is kept when the window overflows. It waits for matrix operands in the window's 64 bytes: which
granule R165 means is open (log 41, DESIGN CHOICE). -/
def execAddw (g : Guard) (a b : SReg) (s : State) : Res :=
  s.head g [.s a, .s b] [] fun m f c h =>
    let t := f.thread c h
    let ea := t.rd a
    let off := ea.toNat - locBase
    if !(locBase ≤ ea.toNat && off < 0x20000) then f.trap m c h .pageFault ea
    else if ea.toNat % 64 ≠ 0 then f.trap m c h .misaligned ea
    else
      match f.aggWait c (f.who c h) (.loc off) 64 with
      | some g => g
      | none =>
        if f.inWay m c h (f.who c h) f.ids (some (.loc off)) 64 || (f.core c).locked off 64 then f
        else
          let r := ((f.core c).atomLocal .fadd .w32 true off (t.rd b)).2
          let g := f.modCore c fun x => x.locWrite off r.bytes
          if r.ovf && t.ctl.wovf then g.trapNext m c h .windowOverflow ea else g.modThread c h Thread.adv

/-! Fences (R166 to R168). -/

/-- Whether a thread's posted atomics, other than those of .unp use, wait in buffers or are on their way; the buffers that hold
them leave (R103, R106, R166). -/
def Fab.ownAtoms (f : Fab) (c : CoreId) (h : ThreadId) : Option Fab :=
  let mine := fun (e : Elem) => (match e.op with | .amo _ _ _ u => u ≠ .unp | .xst .. => false) &&
    e.of fun w => (f.thread c h).fids.contains w.fid
  let hit := (f.core c).agg.filter fun b => b.2.elems.any mine
  if hit.isEmpty && !f.elems.any (fun e => e.st == .flight && mine e) then none else some (f.sendBufs c (hit.map (·.1)))

/-- Whether loads of a thread are still to be performed: its deliveries, atomics of a trap routine that has parked, and what its
MFILLs read (R103, R166, R208). -/
def Fab.loadsOut (f : Fab) (c : CoreId) (h : ThreadId) : Bool :=
  let mine := fun (w : Who) => (f.thread c h).fids.contains w.fid
  (f.thread c h).owes || f.loose.any (mine ·.who) || (f.core c).mq.any fun e => mine e.who && e.fills

/-- FENCE (R103, R166). -/
def execFence (g : Guard) (sc : Scope) (o : Order) (s : State) : Res :=
  s.head g [] [] fun m f c h =>
    match if o == .acq || o == .ar then f.ownAtoms c h else none with
    | some g => g
    | none =>
      if (o == .acq || o == .ar) && f.loadsOut c h then f
      else
        match if o == .rel || o == .ar then f.release m c h sc else .done f with
        | .stop g => g
        | .done g => g.modThread c h Thread.adv

/-- RFLUSH (R167). -/
def execRflush (g : Guard) (s : State) : Res :=
  s.head g [] [] fun m f c h =>
    match f.flush m c h true false .core with
    | .stop g => g
    | .done g => g.modThread c h Thread.adv

/-- A line that stands in a matrix unit leaves it, for its context's budget queue or the write queue (R208). -/
def Fab.fromUnit (f : Fab) (m : Mgt) (e : WEntry) (place : WPlace) : Fab :=
  Fab.enterLane { f with wl := f.wl.filter fun (x : WEntry) => x.id ≠ e.id } m e.who e.ea (64 * e.line) e.data e.wlc place e.mid

/-- A line goes from a budget queue or a matrix unit into its write queue; it is charged (R246 to R248). -/
def Fab.letIn (f : Fab) (m : Mgt) (e : WEntry) : Fab :=
  (if e.place == .unit then f.fromUnit m e .queue
   else { f with wl := f.wl.map fun (x : WEntry) => if x.id = e.id then { x with place := .queue } else x }).spend e.who.ctx e.stack

/-- The lines of a list that a test picks enter their write queues at once, whatever the allowance (R248). -/
def Fab.admitSome (f : Fab) (m : Mgt) (p : WEntry → Bool) : List WEntry → Fab
  | [] => f
  | e :: es => (if p e && e.place ≠ .queue then f.letIn m e else f).admitSome m p es

/-- The identifiers of what stands in a context's write queues. -/
def Fab.queuedLines (f : Fab) (n : CtxId) : List Nat :=
  (f.wl.filter fun e => e.who.ctx = n && e.place == .queue).map (·.id)

/-- Lines of a place move on while the allowance of their context lasts, in arrival order; a line in a matrix unit, while its budget
queue has room (R208, R247). -/
def Fab.admitLines (f : Fab) (m : Mgt) (k : StackId) (place : WPlace) : List WEntry → Fab
  | [] => f
  | e :: es =>
    (if e.stack = k && e.place == place then
      if (f.ctx e.who.ctx).mayEnter k then f.letIn m e
      else if place == .unit && f.inBudget e.who.ctx k < Config.budgetQueue then f.fromUnit m e .budget
      else f
    else f).admitLines m k place es

/-- Budget queues have room again: lines that waited for it in matrix units enter them (R208, R247). -/
def Fab.roomMade (f : Fab) (m : Mgt) : Fab :=
  (List.finRange 8).foldl (fun g k => g.admitLines m k .unit g.wl) f

/-- WDRAIN (R168, R248): at its issue every line in its context's budget queues and its own MSPILL lines enter their write
queues, and while it waits for its thread's MSPILL, that instruction's lines do. Then it notes the lines that stand in its context's
write queues, and completes when all are written. -/
def execWdrain (g : Guard) (s : State) : Res :=
  s.head g [] [] fun m f c h =>
    let w := f.who c h
    let t := f.thread c h
    let own := fun (e : WEntry) => e.mid.isSome && t.fids.contains e.who.fid
    let spills := fun (g : Fab) => (g.core c).mq.any fun e => t.fids.contains e.who.fid && !e.done && !e.lines.isEmpty
    let enter := fun (g : Fab) =>
      if spills g then g.modThread c h fun t => { t with wdrain := some (false, []) }
      else
        { g with due := g.due ++ (g.queuedLines w.ctx).map Instr.writeLaneDrain }.modThread c h fun t =>
          { t with wdrain := some (true, g.queuedLines w.ctx) }
    match t.wdrain with
    | none => (enter ((f.admitSome m (fun e => e.who.ctx = w.ctx && (e.place == .budget || own e)) f.wl).roomMade m)).push (.matrixComplete c)
    | some (false, _) => (enter (f.admitSome m own f.wl)).push (.matrixComplete c)
    | some (true, ids) =>
      if f.wl.any fun e => ids.contains e.id then f else f.modThread c h fun t => { t with wdrain := none }.adv

end Sys2Proof.Machine
end

