-- ==== Sys2Proof/Machine/MatrixUnit.lean ====
section
/-! DEFINITION. The matrix unit: operands in scratchpad, weight buffer and panels (R192 to R195, R202), products into
compensated pairs (R86 to R88, R196), and what each held instruction does when the unit executes it (R198 to R208). -/

namespace Sys2Proof.Machine

/-! Shapes. -/

/-- Rows, columns, and the place in the tile of an accumulator operand (R65, R196). -/
def accRows : AccSel → Nat
  | .quarter _ => 32
  | .tile => 64
def accCols : AccSel → Nat
  | .quarter _ => 64
  | .tile => 128
def accRowOff : AccSel → Nat
  | .quarter q => 32 * (q.val / 2)
  | .tile => 0
def accColOff : AccSel → Nat
  | .quarter q => 64 * (q.val % 2)
  | .tile => 0
/-- The key of pair (i, j) of an operand in the accumulator store. -/
def accKey (s : AccSel) (i j : Nat) : Nat := 128 * (accRowOff s + i) + accColOff s + j

def blkSize : Blk → Nat
  | .k16 => 16 | .k32 => 32 | .k64 => 64 | .k128 => 128

/-- The operand format that an FMTA or FMTB value selects (R192). -/
def fmtTy (fmt : BitVec 5) : Option Ty :=
  match fmt.toNat % 16 with
  | 1 => some .f16 | 2 => some .b16 | 5 => some .s8 | 9 => some .z8 | 13 => some .t8 | 14 => some .t6
  | _ => none
def scaledBit (fmt : BitVec 5) : Bool := fmt.getLsbD 4

/-- Bits of an element in the matrix layout (R192). -/
def matBits : Ty → Nat
  | .t6 => 6
  | ty => ty.width

def roundUp16 (n : Nat) : Nat := (n + 15) / 16 * 16
/-- Pitch of a field in 16-byte units; 0 is the row length rounded up (R193). -/
def pitchOf (ld len : Nat) : Nat := if ld = 0 then roundUp16 len else 16 * ld

/-- Element k of a row of elements of w bits: a little-endian bit string from byte start (R192). -/
def rowElem (byteAt : Nat → Byte) (start w k : Nat) : Nat :=
  let lo := w * k / 8
  (leNum ((List.range ((w + 14) / 8)).map fun i => byteAt (start + lo + i))) / 2 ^ (w * k % 8) % 2 ^ w

/-- An element with its scale applied exactly (R85): E = 255 is the NaN scale. -/
def scaledVal (v : Num) (e : Nat) : Num :=
  if e = 255 then .nan else v.mul (.fin false 1 ((e : Int) - 127))

/-! Operands as functions of row and k. -/

/-- Rows of values at a pitch, with their scales (R192, R195). -/
def plainVal (ty : Ty) (byteAt : Nat → Byte) (base pitch : Nat) (scaled : Bool) (scaleAt : Nat → Byte) (per blk : Nat)
    (i k : Nat) : Num :=
  let v := elemVal ty (rowElem byteAt (base + i * pitch) (matBits ty) k)
  if scaled then scaledVal v (scaleAt (i * per + k / blk)).toNat else v

/-- Rows of codes in the weight buffer, mapped by a code table (R194). -/
def codeVal (ty : Ty) (wbuf : Memory) (table : AMap (BitVec 16)) (nibble : Bool) (base pitch : Nat) (scaled : Bool)
    (scaleAt : Nat → Byte) (per blk : Nat) (i k : Nat) : Num :=
  let code := rowElem (peek wbuf) (base + i * pitch) (if nibble then 4 else 8) k
  let v := elemVal ty ((mget 0 table code).toNat % 2 ^ matBits ty)
  if scaled then scaledVal v (scaleAt (i * per + k / blk)).toNat else v

/-! The convolution record (R201, R202). -/

structure Conv where
  c : Nat
  pitch : Nat
  ih : Nat
  iw : Nat
  padl : Nat
  padt : Nat
  dlx : Nat
  dly : Nat
  stx : Nat
  sty : Nat
  s : Nat
  r : Nat
  ow : Nat
  wb : Bool
  cw : Bool
  ldb : Nat
  padv : Nat

def convOf (ws : List Word) : Conv :=
  let w := fun (i hi lo : Nat) => bits (ws.getD i 0).toNat hi lo
  ⟨w 0 63 48, w 0 47 32, w 0 31 16, w 0 15 0, w 1 63 56, w 1 55 48, w 1 47 44, w 1 43 40, w 1 39 36, w 1 35 32, w 1 31 24,
    w 1 23 16, w 1 15 0, w 2 63 63 = 1, w 2 62 62 = 1, w 2 31 16, w 2 15 0⟩

def Conv.k (v : Conv) : Nat := v.r * v.s * v.c

/-- The limits of the record's fields (R201). -/
def Conv.ok (v : Conv) (kb : Nat) : Bool :=
  v.c % 16 = 0 && v.c ≥ 16 && v.ih ≥ 1 && v.iw ≥ 1 && v.dlx ≥ 1 && v.dly ≥ 1 && v.stx ≥ 1 && v.sty ≥ 1 && 1 ≤ v.s && v.s ≤ 16 &&
    1 ≤ v.r && v.r ≤ 16 && v.ow ≥ 1 && v.k ≤ 16384 && v.c % kb = 0 && !(v.cw && !v.wb)

/-- A(m, k) of an implicit convolution (R202). With a pitch smaller than C elements the last pixel reaches past the extent IH * IW *
pitch that R201 gives: those bytes are read at execution, in no extent that R198 keeps, and as 0 past the scratchpad (log 37, DESIGN
CHOICE). -/
def convVal (v : Conv) (ty : Ty) (byteAt : Nat → Byte) (base m0 : Nat) (scaled : Bool) (scl ba : Nat) (m k : Nat) : Num :=
  let p := m0 + m
  let cc := k % v.c
  let iy : Int := (p / v.ow * v.sty + k / (v.c * v.s) * v.dly : Nat) - (v.padt : Int)
  let ix : Int := (p % v.ow * v.stx + k / v.c % v.s * v.dlx : Nat) - (v.padl : Int)
  let px := (iy * v.iw + ix).toNat
  if 0 ≤ iy && iy < v.ih && 0 ≤ ix && ix < v.iw then
    let e := elemVal ty (rowElem byteAt (base + px * pitchOf v.pitch (v.c * matBits ty / 8)) (matBits ty) cc)
    if scaled then scaledVal e (byteAt (scl + px * (v.c / ba) + cc / ba)).toNat else e
  else elemVal ty (v.padv % 2 ^ matBits ty)

/-! Products (R86, R87, R196). -/

/-- The total of a block's products (R86). The sign of a zero total follows from adding the products in pairs, so products that
are all -0 total -0; R77 names the sum of two zeros only (log 34, DESIGN CHOICE). -/
def blockTotal (ps : List Num) : Nat :=
  if ps.any Num.isNan then nan32
  else
    match ps with
    | [] => 0
    | p :: ps => f32.round .near (ps.foldl Num.add p)

/-- Block totals added to a pair in ascending order (R87). -/
def addBlocks (a b : Nat → Num) (kb kk : Nat) : Nat → Nat → Word → Word
  | 0, _, p => p
  | fuel + 1, k0, p =>
    let n := min kb (kk - k0)
    addBlocks a b kb kk fuel (k0 + kb) (pairAdd p (blockTotal ((List.range n).map fun i => (a (k0 + i)).mul (b (k0 + i)))))

/-- The mode applied to a pair (R87, R88). -/
def applyMode (mode : MMode) (fade : BitVec 32) (p : Word) : Word :=
  match mode with
  | .zero => 0
  | .accum => p
  | .fade => pairFade p fade.toNat

/-- R196 over every pair of the destination. -/
def product (acc : AMap Word) (dst : AccSel) (mode : MMode) (fade : BitVec 32) (kb kk : Nat) (va vb : Nat → Nat → Num) :
    AMap Word :=
  (List.range (accRows dst * accCols dst)).foldl (fun m n =>
    let i := n / accCols dst
    let j := n % accCols dst
    let key := accKey dst i j
    mput 0 key (addBlocks (va i) (vb j) kb kk ((kk + kb - 1) / kb) 0 (applyMode mode fade (mget 0 acc key))) m) acc

/-! Transfers of pairs (R206, R208). -/

/-- A pair as a transferred element of a type (R89, R206). -/
def pairElem (ty : Ty) (raw : Bool) (p : Word) : Nat := if raw then p.toNat else valElem .near ty (pairVal p)
/-- A transferred element as a pair. -/
def elemPair (ty : Ty) (raw : Bool) (x : Nat) : Word := if raw then BitVec.ofNat 64 x else pairOf (elemVal ty x)
/-- Bits of a transferred element. -/
def xferBits (ty : Ty) (raw : Bool) : Nat := if raw then 64 else matBits ty
/-- Bytes of a whole transfer: rows with no gap. -/
def xferLen (dst : AccSel) (ty : Ty) (raw : Bool) : Nat := accRows dst * (accCols dst * xferBits ty raw / 8)

/-- The bytes of an operand's pairs, row after row. -/
def pairBytes (acc : AMap Word) (src : AccSel) (ty : Ty) (raw : Bool) : List Byte :=
  let w := xferBits ty raw
  (List.range (accRows src)).flatMap fun i =>
    leBytes (accCols src * w / 8)
      ((List.range (accCols src)).foldr (fun j n => pairElem ty raw (mget 0 acc (accKey src i j)) % 2 ^ w + 2 ^ w * n) 0)

/-- Pairs read from bytes, row after row. -/
def bytesPairs (acc : AMap Word) (dst : AccSel) (ty : Ty) (raw : Bool) (byteAt : Nat → Byte) : AMap Word :=
  let w := xferBits ty raw
  (List.range (accRows dst * accCols dst)).foldl (fun m n =>
    let i := n / accCols dst
    let j := n % accCols dst
    mput 0 (accKey dst i j) (elemPair ty raw (rowElem byteAt (i * (accCols dst * w / 8)) w j)) m) acc

/-! What the unit does with a held instruction. -/

/-- The code table of a bank (R66). -/
def Core.table (x : Core) (bank : Bool) : AMap (BitVec 16) := if bank then x.ct1 else x.ct0

/-- The scratchpad by local-window address. -/
def Core.spadAt (x : Core) (a : Nat) : Byte := peek x.spad (a - locBase)

/-- Operand B of a product from scratchpad or weight buffer (R193 to R195). -/
def Core.operandB (x : Core) (e : MEntry) (wb cw : Bool) (ldb kk bb : Nat) : Nat → Nat → Num :=
  let ty := (fmtTy e.fmtb).getD .b16
  let per := (kk + bb - 1) / bb
  let scale := fun i => x.spadAt (e.sclb.toNat + i)
  if wb then
    codeVal ty x.wbuf (x.table e.bank) cw e.b.toNat (pitchOf ldb (if cw then kk / 2 else kk)) (scaledBit e.fmtb) scale per bb
  else
    plainVal ty x.spadAt e.b.toNat (pitchOf ldb (kk * matBits ty / 8)) (scaledBit e.fmtb) scale per bb

/-- A panel as an operand: its own format and scales (R199). -/
def Panel.val (p : Panel) (kk blk : Nat) : Nat → Nat → Num :=
  plainVal ((fmtTy p.fmt).getD .b16) (fun a => p.bytes.getD a 0) 0 p.pitch (scaledBit p.fmt) (fun i => p.scales.getD i 0)
    ((kk + blk - 1) / blk) blk

/-- MMA (R196). -/
def Core.runMma (x : Core) (e : MEntry) (o : MMOps) : Core :=
  let kk := e.k.toNat
  let d := e.x.toNat
  let ty := (fmtTy e.fmta).getD .b16
  let va := plainVal ty x.spadAt e.a.toNat (pitchOf (bits d 15 0) (kk * matBits ty / 8)) (scaledBit e.fmta)
    (fun i => x.spadAt (e.scla.toNat + i)) ((kk + blkSize o.bka - 1) / blkSize o.bka) (blkSize o.bka)
  let vb := x.operandB e (d.testBit 63) (d.testBit 62) (bits d 31 16) kk (blkSize o.bkb)
  { x with acc := product x.acc o.acc o.mode e.fade (max (blkSize o.bka) (blkSize o.bkb)) kk va vb }

/-- MMAG (R199): both operands are the panels read at issue. -/
def Core.runMmag (x : Core) (e : MEntry) (o : MMOps) : Core :=
  match e.panelA, e.panelB with
  | some pa, some pb =>
    { x with acc := product x.acc o.acc o.mode e.fade (max (blkSize o.bka) (blkSize o.bkb)) e.k.toNat (pa.val e.k.toNat (blkSize o.bka))
                      (pb.val e.k.toNat (blkSize o.bkb)) }
  | _, _ => x

/-- MCONV (R202). -/
def Core.runMconv (x : Core) (e : MEntry) (o : MMOps) : Core :=
  let v := convOf e.shape
  let ty := (fmtTy e.fmta).getD .b16
  let va := convVal v ty x.spadAt e.a.toNat e.k.toNat (scaledBit e.fmta) e.scla.toNat (blkSize o.bka)
  let vb := x.operandB e v.wb v.cw v.ldb v.k (blkSize o.bkb)
  { x with acc := product x.acc o.acc o.mode e.fade (max (blkSize o.bka) (blkSize o.bkb)) v.k va vb }

/-- CTLOAD (R205): n entries from e of the bank that was inactive at issue. -/
def loadTable (src : Nat → Byte) (e n : Nat) (t : AMap (BitVec 16)) : AMap (BitVec 16) :=
  (List.range n).foldl (fun t i => mput 0 (e + i) (BitVec.ofNat 16 ((src (2 * i)).toNat + 256 * (src (2 * i + 1)).toNat)) t) t

/-- The quarters of a mask. -/
def maskQuarters (b : Word) : List (Fin 4) := (List.finRange 4).filter fun q => b.getLsbD q.val

/-- Addresses of the lines of the masked quarters, modulo 2^64 (R208). -/
def quarterAddrs (base mask : Word) : List Nat :=
  (maskQuarters mask).flatMap fun q => (List.range 256).map fun i => (base.toNat + 16384 * q.val + 64 * i) % 2 ^ 64

/-- A line that MSPILL produces takes its place on the write lane, or leaves for another device or the host (R154, R208). Where a
WDRAIN of the thread waits for it, it enters its queue whatever the allowance (R248). -/
def Fab.spillLine (f : Fab) (m : Mgt) (c : CoreId) (e : MEntry) (va gpa wlc : Nat) (v : Line) : Fab :=
  match m.place gpa with
  | .own la =>
    let k := stackOf la
    let n := e.who.ctx
    let drains := (f.thread c e.who.th).wdrain.isSome && (f.thread c e.who.th).fids.contains e.who.fid
    if (f.ctx n).mayEnter k || drains then (f.spend n k).enterLane m e.who va la v wlc .queue (some e.id)
    else if f.inBudget n k < Config.budgetQueue then f.enterLane m e.who va la v wlc .budget (some e.id)
    else
      { f with
        ids := f.ids + 1
        wl := f.wl ++ [⟨f.ids, e.who, k, la / 64, va, v, wlc, .unit, some e.id, false, false, false⟩] }
  | _ => f.putOut m e.who (BitVec.ofNat 64 va) gpa (lineBytes v) 0x30 6 none

/-- The lines that MSPILL writes: virtual address, place, class and data. -/
def Fab.spillLines (f : Fab) (m : Mgt) (c : CoreId) (e : MEntry) : List (Nat × Nat × Nat × Line) → Fab
  | (va, gpa, wlc, v) :: ls => (f.spillLine m c e va gpa wlc v).spillLines m c e ls
  | [] => f

/-- The lines of other devices that an MFILL reads are asked for (R208, R328). -/
def Fab.askLines (f : Fab) (m : Mgt) (by' : Reader) (n : CtxId) : List Nat → Fab
  | [] => f
  | a :: as =>
    (match if m.isOther a then f.farRead m by' n a 64 else .done [] with
     | .wait g => g
     | _ => f).askLines m by' n as

/-- The answer to a reader's read of a line, where there is one. -/
def Fab.farLine (f : Fab) (by' : Reader) (gpa : Nat) : Option RemAns :=
  (f.reads.find? fun r => r.by' = by' && r.gpa = gpa && r.len = 64).bind (·.ans)

/-- The bytes of a line that MFILL reads; of one that was refused or lost nothing is known (log 6, DESIGN CHOICE). -/
def Fab.fillBytes (f : Fab) (m : Mgt) (by' : Reader) (gpa : Nat) : List Byte :=
  match f.farLine by' gpa with
  | some (.value v) => lineBytes v
  | _ => f.bytesAt m gpa 64

/-- Why a line of MFILL failed: another device refused it or is lost, or PCIe completed it with an error (R330, R337). -/
def Fab.fillCause (f : Fab) (m : Mgt) (by' : Reader) (gpa : Nat) : Option Cause :=
  match f.farLine by' gpa with
  | some (.refused c) => some c
  | some (.value _) => none
  | none => if m.atHost gpa && f.readBad m gpa then some .pageFault else none

/-- Lines of MFILL that failed: MFILL has no register that a later head could name, so that they enter the fault log (R330, R337;
log 6, DESIGN CHOICE). They are not read again. -/
def Fab.fillFaults (f : Fab) (m : Mgt) (by' : Reader) (e : MEntry) : List (Nat × Nat) → Fab
  | (va, gpa) :: ls =>
    (match f.fillCause m by' gpa with
     | some c => f.logFault ⟨e.who, BitVec.ofNat 64 va, c, 0x30, 7, Config.logWidth 64, 0, .write gpa [], none⟩
     | none => f).fillFaults m by' e ls
  | [] => f

/-- Bytes in 64-byte lines. -/
def linesOf (n : Nat) (bs : List Byte) : List Line := (List.range n).map fun i => bytesLine ((bs.drop (64 * i)).take 64)

/-- The unit executes a held instruction of core c. -/
def Fab.runEntry (f : Fab) (m : Mgt) (c : CoreId) (e : MEntry) : Fab :=
  let x := f.core c
  match e.instr with
  | .mma _ o => f.setCore c (x.runMma e o)
  | .mmag _ o => f.setCore c (x.runMmag e o)
  | .mconv _ o => f.setCore c (x.runMconv e o)
  | .mldw .. => f.setCore c { x with wbuf := pokes x.wbuf e.b.toNat (peeks x.spad (e.a.toNat - locBase) e.k.toNat) }
  | .mrd _ src _ ty raw => f.setCore c (x.locWrite (e.a.toNat - locBase) (pairBytes x.acc src ty raw))
  | .mwr _ dst _ ty raw => f.setCore c { x with acc := bytesPairs x.acc dst ty raw fun i => x.spadAt (e.a.toNat + i) }
  | .mspill .. =>
    let vs := (maskQuarters e.b).flatMap fun q => linesOf 256 (pairBytes x.acc (.quarter q) .f32 true)
    f.spillLines m c e ((quarterAddrs e.a e.b).zip (e.lines.zip vs) |>.map fun p => (p.1, p.2.1.1, p.2.1.2, p.2.2))
  | .mfill .. =>
    let me := Reader.unit c e.id
    let bs := e.lines.flatMap fun l => f.fillBytes m me l.1
    let acc := (maskQuarters e.b).zipIdx.foldl (fun a q =>
      bytesPairs a (.quarter q.1) .f32 true fun i => bs.getD (16384 * q.2 + i) 0) x.acc
    let g := (f.setCore c { x with acc := acc }).fillFaults m me e ((quarterAddrs e.a e.b).zip (e.lines.map (·.1)))
    { g with reads := g.reads.filter fun r => r.by' ≠ me }
  | .ctload .. =>
    let src := fun i => x.spadAt (e.a.toNat + i)
    f.setCore c (if e.bank then { x with ct0 := loadTable src e.b.toNat e.k.toNat x.ct0 }
      else { x with ct1 := loadTable src e.b.toNat e.k.toNat x.ct1 })
  | .mzero _ dst =>
    f.setCore c { x with
      acc := (List.range (accRows dst * accCols dst)).foldl (fun a n => mdel (accKey dst (n / accCols dst) (n % accCols dst)) a) x.acc }
  | _ => f

/-- Whether a held instruction's writes must wait for a panel that still stands (R198, R200). -/
def Core.entryWaits (x : Core) (e : MEntry) : Bool :=
  e.wr.any fun w => x.exports.any fun p => p.ext.any fun r => overlap w.1 w.2 r.1 r.2

/-- Whether the lines of other devices that an instruction reads are there (R208). -/
def Fab.linesHere (f : Fab) (m : Mgt) (c : CoreId) (e : MEntry) : Bool :=
  !e.fills || e.lines.all fun l => !m.isOther l.1 || (f.farLine (.unit c e.id) l.1).isSome

/-- MATRIX_EXECUTE: the unit executes the oldest instruction it holds (R189). An MFILL of lines of other devices asks for them, and
executes once they have answered. -/
def execMatrixExecute (c : CoreId) (s : State) : Res :=
  s.event fun m f =>
    let x := f.core c
    match x.mq with
    | e :: es =>
      if e.done || x.entryWaits e then f
      else
        let f := if e.fills then f.askLines m (.unit c e.id) e.who.ctx (e.lines.map (·.1)) else f
        if f.linesHere m c e then
          ((f.modCore c fun x => { x with mq := { e with done := true } :: es }).runEntry m c e).push (.matrixComplete c)
        else f
    | [] => f

/-- A thread whose ABORT waits for its matrix instructions is looked at again (R343). -/
def Fab.askAbort (f : Fab) (c : CoreId) (h : ThreadId) : Fab :=
  match (f.core c).occ with
  | some o =>
    if (f.thread c h).st == .aborting then f.push (.trapcmdAbort o.ctx (BitVec.ofNat 16 ((f.ctx o.ctx).vnum o.vx o.vy)) h) else f
  | none => f

/-- MATRIX_COMPLETE: an instruction whose last write is done leaves the unit (R190, R208); waiting writes go on. -/
def execMatrixComplete (c : CoreId) (s : State) : Res :=
  s.event fun _ f =>
    match (f.core c).mq with
    | e :: es =>
      if !e.done || f.wl.any (fun l => l.mid = some e.id && l.place == .unit) then f
      else
        let g := ((f.modCore c fun x => { x with mq := es }).replay c).askAbort c e.who.th
        if es.isEmpty then g else g.push (.matrixExecute c)
    | [] => f

end Sys2Proof.Machine
end

