-- ==== Sys2Proof/Machine/Barriers.lean ====
section
/-! DEFINITION. Barriers (16_barrier R296 to R304): the sweep, the release, the tree, and their events. -/

namespace Sys2Proof.Machine

/-! Descriptor fields (R231). -/

def barX0 (d : Word) : Nat := bits d.toNat 23 16
def barY0 (d : Word) : Nat := bits d.toNat 31 24
def barX1 (d : Word) : Nat := bits d.toNat 39 32
def barY1 (d : Word) : Nat := bits d.toNat 47 40
def barBlk (d : Word) : Nat := 16 * bits d.toNat 12 0
def barXch (d : Word) : Bool := d.getLsbD 15

/-- The fields that arrivals are compared by (R297). -/
def barSame (a b : Word) : Bool :=
  barX0 a = barX0 b && barY0 a = barY0 b && barX1 a = barX1 b && barY1 a = barY1 b && barXch a = barXch b

/-- The larger of two epochs (R125). -/
def laterEpoch (a b : BitVec 32) : BitVec 32 := if a.toNat < b.toNat then b else a

/-- A message of the sweep leaves (R296). -/
def Fab.barSend (f : Fab) (kind : BKind) (n : CtxId) (bn : Fin 8) (vx vy : Nat) (d : Word) (e : BitVec 32) : Fab :=
  let g : Fab := { f with ids := f.ids + 1, bars := f.bars ++ [⟨f.ids, kind, n, bn, vx, vy, d, e⟩] }
  g.push (match kind with | .release => .barrierRelease f.ids | _ => .barrierArrivalReceive f.ids)

/-- Register or membership bn of a core. -/
def Core.bar (x : Core) (tree : Bool) (bn : Fin 8) : BarReg := if tree then x.trees[bn] else x.bars[bn]
def Core.setBar (x : Core) (tree : Bool) (bn : Fin 8) (r : BarReg) : Core :=
  if tree then { x with trees := x.trees.set bn r } else { x with bars := x.bars.set bn r }

/-- The first two rows of R296 at a core: an arrival goes on, or the crown releases. Each is sent once per phase. -/
def Fab.sweep (f : Fab) (c : CoreId) (bn : Fin 8) : Fab :=
  let x := f.core c
  match x.occ with
  | none => f
  | some o =>
    let r := x.bars[bn]
    let d := r.desc
    if !r.arr || r.fwd || !(o.vx = barX0 d || r.rin) then f
    else
      let g := f.modCore c fun x => x.setBar false bn { r with fwd := true }
      if o.vx < barX1 d then g.barSend .row o.ctx bn (o.vx + 1) o.vy d r.epoch
      else if !(o.vy = barY0 d || r.cin) then f
      else if o.vy < barY1 d then g.barSend .col o.ctx bn (barX1 d) (o.vy + 1) d r.epoch
      else g.barSend .release o.ctx bn o.vx o.vy d r.epoch

/-- The report of a mismatched arrival at the receiving core (R300, R344). -/
def Fab.barMismatch (f : Fab) (c : CoreId) (n : CtxId) (bn : Fin 8) (d : Word) : Fab :=
  f.enqueue c (f.ctx n).traprec (.report (causeCode .barMismatch) d (BitVec.ofNat 5 bn.val) none)

/-- XST elements held at a core's router port land, or fail, now (R120). -/
def Fab.relandAt (f : Fab) (n : CtxId) (vx vy : Nat) : Fab :=
  let mine := f.elems.filter fun e => e.st == .held && e.who.ctx = n && e.dest = .core vx vy
  { f with due := f.due ++ mine.map Elem.event }

/-- Whether the PHASE add must wait for an operand that the matrix unit has not read (R298). -/
def Core.phaseWaits (x : Core) (d : Word) : Bool := x.locked (barBlk d) 8

/-- A core applies a release (R298): PHASE, the exchange banks, CONT, the sweep flags. -/
def Fab.applyRelease (f : Fab) (c : CoreId) (o : Occ) (tree : Bool) (bn : Fin 8) (e : BitVec 32) : Fab :=
  let r := (f.core c).bar tree bn
  let off := barBlk r.desc
  let f := f.modCore c fun x =>
    let x := x.locWrite off (leBytes 8 ((leNum (x.locBytes off 8) + 1) % 2 ^ 64))
    if barXch r.desc then { x with bank := !x.bank, xphase := x.xphase + 1 } else x
  let cont := leNum ((f.core c).locBytes (off + 8) 8)
  let f := if cont = 0 then f else f.sendDec o.ctx cont 1 ((f.ctx o.ctx).carry e) (.barrier o.ctx o.vx o.vy)
  let f := f.modCore c fun x => x.setBar tree bn ⟨r.desc, false, false, false, false, 0, false⟩
  if barXch r.desc then f.relandAt o.ctx o.vx o.vy else f

/-- BARRIER_ARRIVAL_RECEIVE: a row or column arrival at a core (R296, R297, R300). -/
def execBarrierArrivalReceive (id : Nat) (s : State) : Res :=
  s.event fun _ f =>
    match f.bars.find? (·.id = id) with
    | none => f
    | some b =>
      match f.find b.ctx b.vx b.vy with
      | none => { f with bars := f.bars.filter (·.id ≠ id) }
      | some c =>
        if f.closed c then f.holdAt c (.barrierArrivalReceive id)
        else
          let g := { f with bars := f.bars.filter (·.id ≠ id) }
          let r := (g.core c).bars[b.bn]
          if !r.on || !barSame r.desc b.desc then g.barMismatch c b.ctx b.bn b.desc
          else
            let r := { r with rin := r.rin || b.kind == .row, cin := r.cin || b.kind == .col, epoch := laterEpoch r.epoch b.epoch }
            (g.modCore c fun x => x.setBar false b.bn r).sweep c b.bn

/-- BARRIER_RELEASE: a core receives or makes a release, applies it and forwards it (R296, R298). A register without an arrival is
left as it is (R304); what its core forwards goes by the descriptor that the message carries (log 24, DEDUCED). -/
def execBarrierRelease (id : Nat) (s : State) : Res :=
  s.event fun _ f =>
    match f.bars.find? (·.id = id) with
    | none => f
    | some b =>
      match f.find b.ctx b.vx b.vy with
      | none => { f with bars := f.bars.filter (·.id ≠ id) }
      | some c =>
        let tree := b.kind == .tree
        let r := (f.core c).bar tree b.bn
        let stands := r.on && r.arr
        if f.closed c || (stands && (f.core c).phaseWaits r.desc) then f.holdAt c (.barrierRelease id)
        else
          let g := { f with bars := f.bars.filter (·.id ≠ id) }
          let g := if stands then g.applyRelease c ⟨b.ctx, b.vx, b.vy⟩ tree b.bn b.epoch else g
          if tree then g
          else
            let d := b.desc
            let g := if b.vx = barX1 d && b.vy > barY0 d then g.barSend .release b.ctx b.bn b.vx (b.vy - 1) d b.epoch else g
            if b.vx > barX0 d then g.barSend .release b.ctx b.bn (b.vx - 1) b.vy d b.epoch else g

/-! Tree barriers (R301). -/

/-- The virtual cores of a descriptor's rectangle, west to east in each row. -/
def barCores (d : Word) : List (Nat × Nat) :=
  (List.range (barY1 d + 1 - barY0 d)).flatMap fun j =>
    (List.range (barX1 d + 1 - barX0 d)).map fun i => (barX0 d + i, barY0 d + j)

/-- The members of a rectangle with their cores; none where one of them is not in the lease. -/
def Fab.members (f : Fab) (n : CtxId) : List (Nat × Nat) → Option (List (Occ × CoreId))
  | [] => some []
  | (x, y) :: ps =>
    match f.find n x y, f.members n ps with
    | some c, some r => some ((⟨n, x, y⟩, c) :: r)
    | _, _ => none

/-- Whether the arrival of every member of a tree rectangle has been counted at the crown (R300, R301). -/
def Fab.treeReady (f : Fab) (n : CtxId) (bn : Fin 8) (d : Word) : Bool :=
  match f.members n (barCores d) with
  | some ms => ms.all fun p => (let r := (f.core p.2).trees[bn]; r.on && r.arr && r.counted && barSame r.desc d)
  | none => false

/-- Whether the arrival of a core's membership is counted. -/
def Fab.setCounted (f : Fab) (c : CoreId) (bn : Fin 8) (b : Bool) : Fab :=
  f.modCore c fun x => { x with trees := x.trees.set bn { x.trees[bn] with counted := b } }

/-- The arrival of core c enters the wire tree (R301): mismatched with the crown's membership (R300), or counted; the last one
releases. -/
def Fab.treeArrive (f : Fab) (c : CoreId) (n : CtxId) (bn : Fin 8) : Fab :=
  let d := (f.core c).trees[bn].desc
  match f.find n (barX1 d) (barY1 d) with
  | none => f
  | some k =>
    let r := (f.core k).trees[bn]
    if !r.on || !barSame r.desc d then f.barMismatch k n bn d
    else
      let g := f.setCounted c bn true
      if g.treeReady n bn r.desc then g.push (.treeRelease k bn) else g

/-- A member applies a tree release, or waits by R298 and applies it when its wait ends. -/
def Fab.treeApply (f : Fab) (bn : Fin 8) (e : BitVec 32) : List (Occ × CoreId) → Fab
  | [] => f
  | (o, c) :: ms =>
    let d := (f.core c).trees[bn].desc
    (if (f.core c).phaseWaits d || f.closed c then
      (let g : Fab := { f with ids := f.ids + 1, bars := f.bars ++ [⟨f.ids, .tree, o.ctx, bn, o.vx, o.vy, d, e⟩] }
       (g.setCounted c bn false).holdAt c (.barrierRelease f.ids))
    else f.applyRelease c o true bn e).treeApply bn e ms

/-- TREE_RELEASE: the tree of tag bn releases the rectangle whose crown is on core c, every member in one step (R301). -/
def execTreeRelease (c : CoreId) (bn : Fin 8) (s : State) : Res :=
  s.event fun _ f =>
    let x := f.core c
    match x.occ with
    | none => f
    | some o =>
      let d := x.trees[bn].desc
      if o.vx = barX1 d && o.vy = barY1 d && f.treeReady o.ctx bn d then
        match f.members o.ctx (barCores d) with
        | some ms => f.treeApply bn ((ms.map fun p => ((f.core p.2).trees[bn]).epoch).foldl laterEpoch 0) ms
        | none => f
      else f

end Sys2Proof.Machine
end

