-- ==== Sys2Proof/Machine/Queues.lean ====
section
/-! DEFINITION. Queues, launches, dispatch and kernels (13_queue R253 to R262, 14_kernel R274, R275). -/

namespace Sys2Proof.Machine

/-! The descriptor (R253, R259). -/

def Ctx.descAt (x : Ctx) (q : QueueId) : Nat := x.qtab + 64 * q.val

/-- Number of posted launches not yet read (R254). -/
def Queue.posted (y : Queue) : Nat := (y.pidx - y.cidx).toNat
def Queue.size (y : Queue) : Nat := 2 ^ y.log2sz
def qstCode : QSt → Nat
  | .off => 0
  | .empty => 1
  | .waiting => 2
  | .dispatching => 3
  | .faulted => 4

/-- Word 4 as the device writes it over the word that stands: LIDX, FCODE and QSTATE, its reserved bits kept (R7, R253). -/
def Queue.word4 (y : Queue) (old : Nat) : Nat :=
  y.lidx.toNat * 2 ^ 32 + bits old 31 16 * 2 ^ 16 + y.fcode * 2 ^ 8 + bits old 7 4 * 2 ^ 4 + qstCode y.st

def Fab.queue (f : Fab) (n : CtxId) (q : QueueId) : Queue := (f.ctx n).queue q
def Fab.setQueue (f : Fab) (n : CtxId) (q : QueueId) (y : Queue) : Fab := f.modCtx n fun x => x.setQueue q y

/-- Stores word 4 of a descriptor after a change of state, and word 3, of four bytes, after a record read (cidx), at CREATE, or
where an earlier write of it failed (R253, R259); none where a write faults. -/
def Fab.queueWords (f : Fab) (m : Mgt) (n : CtxId) (q : QueueId) (y : Queue) (cidx : Bool) : Option Fab :=
  let a := (f.ctx n).descAt q
  let store := fun (g : Fab) (va : Nat) (bs : List Byte) => g.devWrite m n (some (q, 1, 0)) none va bs
  match if cidx || y.owed then store f (a + 24) (leBytes 4 y.cidx.toNat) else some f, f.devTgt m n (a + 32) 8 with
  | some g, some gpa => store g (a + 32) (leBytes 8 (y.word4 (g.word m gpa)))
  | _, _ => none

/-- A queue becomes FAULTED, with QUEUE raised (R259). -/
def Fab.queueFault (f : Fab) (m : Mgt) (n : CtxId) (q : QueueId) (y : Queue) (code : Nat) (lidx : BitVec 32) : Fab :=
  let z := { y with st := .faulted, fcode := code, lidx := lidx }
  (match (f.setQueue n q z).queueWords m n q z false with
   | some g => g.setQueue n q { z with owed := false }
   | none => f.setQueue n q { z with owed := true }).interrupt m n 1

/-- A queue changes; a write of word 3 or 4 that faults makes it FAULTED with DESC (R253, R259). cidx: a record was read. -/
def Fab.queueSet (f : Fab) (m : Mgt) (n : CtxId) (q : QueueId) (y : Queue) (cidx : Bool) : Fab :=
  match (f.setQueue n q y).queueWords m n q y cidx with
  | some g => g.setQueue n q { y with owed := false }
  | none => f.queueFault m n q { y with owed := true } 1 y.cidx

/-- The owner of another device's memory refuses a write of a queue's distributor, or it is lost (R259, R330): of word 3 or 4, or of
CWORD. -/
def Fab.queueRefused (f : Fab) (m : Mgt) (n : CtxId) (q : QueueId) (code : Nat) (launch : BitVec 32) : Fab :=
  let y := f.queue n q
  if code = 5 then (if y.st == .empty || y.st == .waiting || y.st == .dispatching then f.queueFault m n q y 5 launch else f)
  else if y.st == .faulted then f.setQueue n q { y with owed := true }
  else f.queueFault m n q { y with owed := true } 1 y.cidx

/-- Whether words 3 and 4 may be written (R259). -/
def Fab.descWrites (f : Fab) (m : Mgt) (n : CtxId) (a : Nat) : Bool :=
  match if a < peerBase then f.walkOnly m n a else none with
  | some e => e.wrt && e.win && !e.stable
  | none => false

/-- The words of a descriptor, where they can be read. -/
def Fab.descWords (f : Fab) (m : Mgt) (n : CtxId) (q : QueueId) : Option (List Nat) :=
  (f.devRead m n ((f.ctx n).descAt q) 64).map fun bs => (List.range 8).map (wordOf (bytesLine bs))

/-- The test of RING and LOG2SZ (R259). -/
def ringOk (ws : List Nat) : Bool :=
  let l := ws.getD 2 0 % 32
  1 ≤ l && l ≤ 16 && bits (ws.getD 2 0) 56 6 * 64 + 64 * 2 ^ l ≤ peerBase

/-- TICKETS, RING and LOG2SZ as read (R253). -/
def Queue.load (y : Queue) (ws : List Nat) : Queue :=
  { y with
    pidx := BitVec.ofNat 32 (ws.getD 0 0), tickets := min (ws.getD 1 0 % 2 ^ 11) 1024
    ring := bits (ws.getD 2 0) 56 6 * 64, log2sz := ws.getD 2 0 % 32 }

/-- The resume state (R259). -/
def Fab.queueResume (f : Fab) (m : Mgt) (n : CtxId) (q : QueueId) (y : Queue) : Fab :=
  let go := fun (st : QSt) => f.queueSet m n q { y with st := st, fcode := 0 } false
  if !y.tail.isEmpty then (go .dispatching).push .dispatchSelection
  else if y.posted = 0 then go .empty
  else if y.posted ≤ y.size then (go .waiting).push (.launchStart n q)
  else f.queueFault m n q y 3 y.cidx

/-- A queue at CREATE (R253, R255, R259). -/
def Fab.queueCreate (f : Fab) (m : Mgt) (n : CtxId) (q : QueueId) : Fab :=
  let a := (f.ctx n).descAt q
  let y := { Queue.reset with watch0 := f.recAt m n a, watch1 := f.recAt m n (a + 8) }
  match f.descWords m n q with
  | none => f.queueFault m n q { y with owed := true } 1 0
  | some ws =>
    let z := { y.load ws with owed := true }
    if !f.descWrites m n a then f.queueFault m n q { y with owed := true } 1 0
    else if !ringOk ws then f.queueFault m n q z 2 0
    else if z.tickets = 0 then f.queueSet m n q z true
    else f.queueResume m n q z

def Fab.queuesCreate (f : Fab) (m : Mgt) (n : CtxId) : List QueueId → Fab
  | [] => f
  | q :: qs => (f.queueCreate m n q).queuesCreate m n qs

/-- Whether a context has a queue. -/
def Ctx.hasQueue (x : Ctx) (q : QueueId) : Bool := x.st ≠ .free && x.st ≠ .destroying && q.val < x.nq

def QSt.live : QSt → Bool
  | .empty | .waiting | .dispatching => true
  | _ => false

/-- DOORBELL_WRITE: the distributor reads PIDX after a write to it (R255, R257, R259). Where the descriptor cannot be read any more
the notice has no effect: the spec is silent (log 39, DESIGN CHOICE). -/
def execDoorbellWrite (n : CtxId) (q : QueueId) (s : State) : Res :=
  s.event fun m f =>
    match if (f.ctx n).hasQueue q then f.devRead m n ((f.ctx n).descAt q) 8 else none with
    | none => f
    | some bs =>
      let y := f.queue n q
      let p := BitVec.ofNat 32 (leNum bs)
      let z := { y with pidx := p }
      if p = y.pidx then f
      else if z.st.live && z.posted > z.size then f.queueFault m n q z 3 z.cidx
      else if z.st == .empty && z.posted ≥ 1 then (f.queueSet m n q { z with st := .waiting } false).push (.launchStart n q)
      else (f.setQueue n q z).push (.launchStart n q)

/-- TICKET_WRITE: tickets and descriptor are read again after a write to word 1 (R259). Of a RING or LOG2SZ that has become
invalid while the queue is live, for which R259 gives no outcome, the old values are kept and TICKETS alone is taken (log 39,
DESIGN CHOICE). -/
def execTicketWrite (n : CtxId) (q : QueueId) (s : State) : Res :=
  s.event fun m f =>
    match if (f.ctx n).hasQueue q then f.descWords m n q else none with
    | none => f
    | some ws =>
      let y := f.queue n q
      let z := y.load ws
      if y.st.live then
        if z.tickets = 0 then f.queueSet m n q { y with st := .off, tickets := 0 } false
        else
          let g := f.setQueue n q (if ringOk ws then { z with pidx := y.pidx } else { y with tickets := z.tickets })
          if y.tail.isEmpty then g else g.push .dispatchSelection
      else if z.tickets > 0 && ringOk ws && f.descWrites m n ((f.ctx n).descAt q) then f.queueResume m n q z
      else f.setQueue n q { y with tickets := z.tickets }

/-! Launches (R254, R258, R260). -/

/-- Whether both lines of a task record lie on readable and writable pages (R254). -/
def Fab.recUsable (f : Fab) (m : Mgt) (n : CtxId) (va : Nat) : Bool :=
  let ok := fun (a : Nat) => match if a < peerBase then f.walkOnly m n a else none with
    | some e => e.rd && e.wrt && e.win
    | none => false
  ok va && ok (va + 64)

/-- Addresses of the records of a launch (R264). -/
def graphOf (ws : List Nat) : Nat := bits (ws.getD 0 0) 56 6 * 64
def nrecOf (ws : List Nat) : Nat := ws.getD 1 0 % 2 ^ 32
def cwordOf (ws : List Nat) : Nat := ws.getD 2 0 % 2 ^ 57
def recsOf (ws : List Nat) : List Nat := (List.range (nrecOf ws)).map fun i => graphOf ws + 128 * i

/-- Whether a launch record is valid (R254). -/
def Fab.launchOk (f : Fab) (m : Mgt) (n : CtxId) (ws : List Nat) : Bool :=
  1 ≤ nrecOf ws && nrecOf ws ≤ 2 ^ 20 && (cwordOf ws = 0 || (cwordOf ws % 8 = 0 && cwordOf ws < peerBase)) &&
    (recsOf ws).all fun va => f.recUsable m n va

/-- The records of a launch become live in ascending address; one that is live in another kernel is left alone (R266). The
launch-ready ones are listed (R258). -/
def Fab.launchRecs (f : Fab) (m : Mgt) (n : CtxId) (kid : BitVec 32) : List Nat → Fab × List Nat
  | [] => (f, [])
  | va :: vs =>
    match f.recAt m n va with
    | none => f.launchRecs m n kid vs
    | some gpa =>
      if (f.liveAt gpa).isSome then f.launchRecs m n kid vs
      else
        let reason := f.recChecks m n va gpa
        if reason ≠ 0 then (f.reject m n kid va gpa reason).launchRecs m n kid vs
        else
          let count := f.field m gpa 1 31 0
          let (g, rs) := (f.goLive m n kid va gpa count 0).launchRecs m n kid vs
          (g, if count = 0 then va :: rs else rs)

/-- What a queue does when its last launch-ready task is bound (R258, R259). -/
def Fab.queueNext (f : Fab) (m : Mgt) (n : CtxId) (q : QueueId) : Fab :=
  let y := f.queue n q
  if y.st == .dispatching && y.tail.isEmpty && y.unbound = 0 then
    if y.posted = 0 then f.queueSet m n q { y with st := .empty } false
    else (f.queueSet m n q { y with st := .waiting } false).push (.launchStart n q)
  else if y.st == .waiting && y.unbound = 0 then f.push (.launchStart n q)
  else f

/-- Kernel identifier of launch number CIDX of a queue (R253, R264). -/
def kidOf (n : CtxId) (q : QueueId) (cidx : BitVec 32) : BitVec 32 :=
  BitVec.ofNat 32 ((16 * n.val + q.val) * 2 ^ 22 + cidx.toNat % 2 ^ 22)

/-- A launch starts (R258, R274, R275). -/
def Fab.launch (f : Fab) (m : Mgt) (n : CtxId) (q : QueueId) (y : Queue) (ws : List Nat) : Fab :=
  let kid := kidOf n q y.cidx
  let k : Kernel := ⟨kid, n, q, y.cidx, cwordOf ws, BitVec.ofNat 64 (ws.getD 3 0), bits (ws.getD 4 0) 1 1 = 1, .starting⟩
  let g := { f.boundary n with kernels := f.kernels ++ [k] }
  let (g, ready) := g.launchRecs m n kid (recsOf ws)
  let g : Fab := { g with kernels := g.kernels.map fun j => if j.kid = kid then { j with st := .running } else j }
  let g := g.queueSet m n q { y with st := .dispatching, cidx := y.cidx + 1, tail := ready, unbound := ready.length, kid := kid } true
  let g := if ready.isEmpty then g else g.push .dispatchSelection
  (g.queueNext m n q).settleKernels m

/-- LAUNCH_START: the head launch of a queue starts, or the queue faults (R258 to R260). -/
def execLaunchStart (n : CtxId) (q : QueueId) (s : State) : Res :=
  s.event fun m f =>
    let x := f.ctx n
    let y := f.queue n q
    if !(x.st == .active && x.pre.isNone && x.hasQueue q && y.st == .waiting && y.posted ≥ 1 && y.tail.isEmpty && y.unbound = 0) then f
    else
      match f.devRead m n (y.ring + 64 * (y.cidx.toNat % y.size)) 64 with
      | none => f.queueFault m n q y 2 y.cidx
      | some bs =>
        let ws := (List.range 8).map (wordOf (bytesLine bs))
        if bits (ws.getD 4 0) 0 0 = 1 && f.kernels.any (fun k => k.ctx = n && k.q = q) then f
        else if !f.launchOk m n ws then f.queueFault m n q y 4 y.cidx
        else f.launch m n q y ws

/-! Arbitration (R261, R262). -/

def globalQueue (n : CtxId) (q : QueueId) : Nat := 16 * n.val + q.val
def ctxOf (g : Nat) : CtxId := Fin.ofNat 64 (g / 16)
def queueOf (g : Nat) : QueueId := Fin.ofNat 16 g

/-- The global queue numbers of the eligible queues (R261), rising. A queue that has left DISPATCHING with a task that a pre-emption
returned to it (R262) is taken as one that dispatches it (log 39, DESIGN CHOICE). -/
def Fab.eligibleNow (f : Fab) : List Nat :=
  (List.range 1024).filter fun g =>
    let x := f.ctx (ctxOf g)
    let y := x.queue (queueOf g)
    x.st == .active && x.pre.isNone && y.st.live && !y.tail.isEmpty && y.tickets > 0 && x.lw * x.lh > 0

def Fab.pass (f : Fab) (g : Nat) : Nat := (f.queue (ctxOf g) (queueOf g)).pass.toNat
def Fab.setPass (f : Fab) (g p : Nat) : Fab :=
  f.setQueue (ctxOf g) (queueOf g) { f.queue (ctxOf g) (queueOf g) with pass := BitVec.ofNat 64 p }

/-- Queues that became eligible join at the least pass (R261). -/
def Fab.joinAll (f : Fab) (gvt : Nat) : List Nat → Fab
  | [] => f
  | g :: gs => (f.setPass g (max (f.pass g) gvt)).joinAll gvt gs

/-- DISPATCH_SELECTION: one selection by stride scheduling (R261). gvt is the least pass of the queues that were eligible before, so
that a queue that joins has saved no credit (log 40, DEDUCED). -/
def execDispatchSelection (s : State) : Res :=
  s.event fun _ f =>
    let now := f.eligibleNow
    match leastBy f.pass now with
    | none => { f with eligible := [] }
    | some g0 =>
      let old := now.filter fun g => f.eligible.contains g
      let f := f.joinAll (f.pass ((leastBy f.pass old).getD g0)) (now.filter fun g => !f.eligible.contains g)
      match leastBy f.pass now with
      | none => f
      | some g =>
        let n := ctxOf g
        let q := queueOf g
        let y := f.queue n q
        let f := f.setPass g (f.pass g + 1048576 / y.tickets)
        let f := f.setQueue n q { f.queue n q with tail := y.tail.tail }
        { f with
          ids := f.ids + 1
          eligible := f.eligibleNow
          sels := f.sels ++ [⟨f.ids, n, q, y.kid, y.tail.headD 0⟩]
          due := f.due ++ [.taskPlace f.ids, .dispatchSelection] }

/-- TASK_PLACE: a selected task is placed on a core (R258, R262, R269, R282). -/
def execTaskPlace (id : Nat) (s : State) : Res :=
  s.event fun m f =>
    match f.sels.find? (·.id = id) with
    | none => f
    | some t =>
      if !((f.ctx t.ctx).st == .active && (f.ctx t.ctx).pre.isNone) then f
      else
        let g : Fab := { f with sels := f.sels.filter fun x => x.id ≠ id }
        let g := match g.liveRec m t.ctx t.recAddr with
          | some (gpa, r) => if r.kid = t.kid then g.standFirst m gpa 0 else g
          | none => g
        let y := g.queue t.ctx t.q
        (g.setQueue t.ctx t.q { y with unbound := y.unbound - 1 }).queueNext m t.ctx t.q

/-! Completion (R258, R275). -/

/-- KERNEL_COMPLETE: a quiescent kernel ends, every write of its tasks being acknowledged (R258, R274, R275). -/
def execKernelComplete (kid : BitVec 32) (s : State) : Res :=
  s.event fun m f =>
    match f.kernels.find? fun k => k.kid = kid && f.mayComplete m k with
    | none => f
    | some k =>
      let x := f.ctx k.ctx
      if !(x.st == .active && x.pre.isNone) then f
      else
        let g := f.boundary k.ctx
        let y := g.queue k.ctx k.q
        let g := if k.cword = 0 then g else
          match g.devWrite m k.ctx (some (k.q, 5, k.launch.toNat)) none k.cword (leBytes 8 k.cval.toNat) with
          | some g => g
          | none => if y.st.live then g.queueFault m k.ctx k.q y 5 k.launch else g
        let g := if k.intr then g.interrupt m k.ctx 1 else g
        (g.endKernel m k).push (.launchStart k.ctx k.q)

end Sys2Proof.Machine
end

