-- ==== Sys2Proof/Machine/System.lean ====
section
/-! DEFINITION. Task, engine, barrier and system instructions (11_isa_tasks R210 to R238), the return from a trap (R235,
R342) among them. -/

namespace Sys2Proof.Machine

/-! Address operands (R211). -/

/-- Checks 1 to 3 of an address operand; with its global physical address where it lies in translated memory. A failure comes with
the fabric after the walk, if one was made (R312). -/
def Fab.operand (f : Fab) (m : Mgt) (c : CoreId) (n : CtxId) (ea : Word) (align : Nat) (rd wr loc : Bool) :
    Except (Cause × Fab) (Option Nat × Fab) :=
  let aligned := ea.toNat % align = 0
  let ok := fun (e : TlbEnt) => (!rd || e.rd) && (!wr || (e.wrt && e.win))
  match regionOf ea.toNat with
  | .mem va =>
    if !aligned then .error (.misaligned, f)
    else
      match f.translate m c n va ok with
      | none => .error (.pageFault, f)
      | some (e, g) =>
        let gpa := e.gpa va
        if !ok e || (match m.place gpa with | .other d _ => !m.routed d | .nowhere => true | _ => false) then .error (.pageFault, g)
        else .ok (some gpa, g)
  | .loc off =>
    if !loc || off ≥ 0x24000 then .error (.pageFault, f) else if !aligned then .error (.misaligned, f) else .ok (none, f)
  | _ => .error (.pageFault, f)

/-! Task instructions (R212 to R217). -/

/-- The first line of a record that is poisoned, by its address: the record's words cannot be read (R354). -/
def Fab.recPoison (f : Fab) (m : Mgt) (n : CtxId) (va gpa : Nat) : Option Nat :=
  if f.poisoned gpa 64 then some va
  else if (f.recAt m n (va + 64)).any fun a => f.poisoned a 64 then some (va + 64) else none

/-- The effect of TSPAWN once its release is done (R212, R266, R354): traps, or a live record. -/
def Fab.spawn (f : Fab) (m : Mgt) (c : CoreId) (h : ThreadId) (ea : Word) (gpa n : Nat) : Fab :=
  let w := f.who c h
  let e := (f.ctx w.ctx).carry w.epoch
  match f.recPoison m w.ctx ea.toNat gpa with
  | some a => f.trap m c h .pageFault (BitVec.ofNat 64 a)
  | none =>
  if (f.liveAt gpa).isSome || f.recChecks m w.ctx ea.toNat gpa ≠ 0 then f.trap m c h .taskRecord ea
  else
    let g := f.goLive m w.ctx (w.kid.getD 0) ea.toNat gpa n e
    let g := g.setField m gpa 4 31 0 (if n = 0 then 0 else e.toNat)
    (if n = 0 then g.standFirst m gpa e else g).modThread c h Thread.adv

/-- TSPAWN (R212). -/
def execTspawn (g : Guard) (a b : SReg) (s : State) : Res :=
  s.head g [.s a, .s b] [] fun m f c h =>
    let t := f.thread c h
    let ea := t.rd a
    let n := (t.rd b).toNat
    let w := f.who c h
    match f.operand m c w.ctx ea 64 true true false with
    | .error (e, g) => g.trap m c h e ea
    | .ok (gpa, g) =>
      if n ≥ 2 ^ 32 || w.kid.isNone then g.trap m c h .taskRecord ea
      else
        match g.release m c h .dom with
        | .stop g => g
        | .done g => g.spawn m c h ea (gpa.getD 0) n

/-- TDEC (R213): B = 0 decrements by one. -/
def execTdec (g : Guard) (a b : SReg) (s : State) : Res :=
  s.head g [.s a, .s b] [] fun m f c h =>
    let t := f.thread c h
    let ea := t.rd a
    let n := if b = 0 then 1 else (t.rd b).toNat
    let w := f.who c h
    match f.operand m c w.ctx ea 64 false true false with
    | .error (e, g) => g.trap m c h e ea
    | .ok (_, g) =>
      match g.release m c h .dom with
      | .stop g => g
      | .done g =>
        (if n = 0 then g else g.sendDec w.ctx ea.toNat n ((g.ctx w.ctx).carry w.epoch) (.tdec w)).modThread c h Thread.adv

/-- Whether a word is watched: for a record, or by the distributor (R215, R255). -/
def Fab.watched (f : Fab) (m : Mgt) (word : Nat) : Bool :=
  f.watches.any (·.word = word) || f.ctxs.any fun x => x.2.queues.any fun q =>
    f.watchOf m (Fin.ofNat 64 x.1) q.1 0 q.2.watch0 == some word || f.watchOf m (Fin.ofNat 64 x.1) q.1 1 q.2.watch1 == some word

/-- TWATCH (R215). -/
def execTwatch (g : Guard) (a b : SReg) (s : State) : Res :=
  s.head g [.s a, .s b] [] fun m f c h =>
    let t := f.thread c h
    let ea := t.rd a
    let rec' := t.rd b
    let w := f.who c h
    let me := (f.ctx w.ctx).vnum w.vx w.vy
    match f.operand m c w.ctx ea 8 true false false with
    | .error (e, g) => g.trap m c h e ea
    | .ok (gpa, g) =>
      match g.operand m c w.ctx rec' 64 false true false with
      | .error (e, g) => g.trap m c h e rec'
      | .ok (_, g) =>
        let word := gpa.getD 0
        if g.watched m word then g.trap m c h .watchBusy ea
        else if (g.watches.filter fun x => x.ctx = w.ctx && x.vcore = me).length ≥ Config.watches then g.trap m c h .watchFull ea
        else Fab.modThread { g with watches := g.watches ++ [⟨word, w.ctx, me, rec'.toNat⟩] } c h Thread.adv

/-- TUNWATCH (R216). -/
def execTunwatch (g : Guard) (a : SReg) (s : State) : Res :=
  s.head g [.s a] [] fun m f c h =>
    let ea := (f.thread c h).rd a
    let w := f.who c h
    let me := (f.ctx w.ctx).vnum w.vx w.vy
    match f.operand m c w.ctx ea 8 true false false with
    | .error (e, g) => g.trap m c h e ea
    | .ok (gpa, g) =>
      Fab.modThread { g with watches := g.watches.filter fun (x : Watch) =>
        !(x.word = gpa.getD 0 && x.ctx = w.ctx && x.vcore = me) } c h Thread.adv

/-- TEND (R217, R272). It waits for the matrix instructions and the slots of its firing; in a trap routine, for those of the
firing that ends with it too (R190, R339; log 20, DESIGN CHOICE). -/
def execTend (g : Guard) (s : State) : Res :=
  s.head g [] [] fun m f c h =>
    if (f.core c).mq.any (fun e => (f.thread c h).fids.contains e.who.fid) || (f.thread c h).ls.count .armed ≠ 0 then f
    else
      match f.release m c h .dev with
      | .stop g => g
      | .done g => g.retire m c h

/-! CBADV (R218). -/

/-- What remains of a firing's allowance for a buffer. -/
def Thread.allowance (t : Thread) (prod : Bool) (cb : Fin 16) : Nat :=
  match t.firing with
  | some g => if t.st == .routine then 0 else mget 0 (if prod then g.allowP else g.allowC) cb.val
  | none => 0

def Thread.spendAllowance (t : Thread) (prod : Bool) (cb : Fin 16) (n : Nat) : Thread :=
  { t with firing := t.firing.map fun g =>
      if prod then { g with allowP := mset cb.val (t.allowance prod cb - n) g.allowP }
      else { g with allowC := mset cb.val (t.allowance prod cb - n) g.allowC } }

/-- A descriptor advanced by n (R63, R218). -/
def cbAdvance (d : CbDesc) (prod : Bool) (n : Nat) : CbDesc :=
  if prod then { d with pseq := (d.pseq + n) % seqMod d } else { d with cseq := (d.cseq + n) % seqMod d }

/-- CBADV (R218): a release at .core scope. -/
def execCbadv (g : Guard) (cb : Fin 16) (a : SReg) (prod : Bool) (s : State) : Res :=
  s.head g [.s a] [] fun m f c h =>
    let t := f.thread c h
    let n := (t.rd a).toNat
    let d := (f.core c).cbs[cb]
    if !d.en then f.trap m c h .cbUnbound 0
    else if n > t.allowance prod cb then f.trap m c h (if prod then .cbOverrun else .cbUnderrun) (t.rd a)
    else
      match f.release m c h .core with
      | .stop g => g
      | .done g =>
        let g := g.modCore c fun x => { x with cbs := x.cbs.set cb (cbAdvance d prod n) }
        let g := g.modThread c h fun t => (t.spendAllowance prod cb n).adv
        (if n = 0 then g else (g.boundOn m c).replay c)

/-! Active messages (R219, R221, R227). -/

/-- Fields of word 0 of a message block (R219). -/
def blkDev (b : Line) : Nat := bits (wordOf b 0) 57 44
def blkRmt (b : Line) : Bool := bits (wordOf b 0) 43 43 = 1
def blkVy (b : Line) : Nat := bits (wordOf b 0) 39 32
def blkVx (b : Line) : Nat := bits (wordOf b 0) 31 24
def blkHold (b : Line) : Nat := bits (wordOf b 0) 23 16
def blkKind (b : Line) : Nat := bits (wordOf b 0) 5 4
def blkRk (b : Line) : Nat := bits (wordOf b 0) 1 0
/-- XCOPY's LH, CBF, CB and LHREC, in word 7. -/
def blkLh (b : Line) : Bool := bits (wordOf b 7) 5 5 = 1
def blkCbf (b : Line) : Bool := bits (wordOf b 7) 4 4 = 1
def blkCb (b : Line) : Fin 16 := Fin.ofNat 16 (wordOf b 7)
def blkLhrec (b : Line) : Nat := bits (wordOf b 7) 56 6 * 64

/-- Operations of a copy engine that a core has in flight (R221). -/
def Fab.copiesOf (f : Fab) (w : Who) : Nat :=
  let mine := fun (x : Msg) => x.who.ctx = w.ctx && x.who.vx = w.vx && x.who.vy = w.vy && (x.form = 1 || x.form = 2 || x.form = 5)
  f.msgs.countP mine + f.ops.countP fun o => mine o.msg

/-- The home slice whose prefetch engine takes an XPREF (R227); a START that does not translate goes to the own cluster. -/
def Fab.prefInbox (f : Fab) (m : Mgt) (c : CoreId) (n : CtxId) (start : Nat) : Nat :=
  match if start < peerBase then f.translate m c n start (fun _ => true) else none with
  | some (e, _) =>
    match m.place (e.gpa start) with
    | .own _ => m.homeSlice e.plc e.parg (e.gpa start)
    | .host _ => m.hostHome
    | _ => clusterOf c.val
  | none => clusterOf c.val

/-- SEND and the engine forms (R221). form is the minor; pos is RESUME's position. -/
def sendHead (form : Nat) (a b : SReg) (pos : Word) (m : Mgt) (f : Fab) (c : CoreId) (h : ThreadId) : Fab :=
  let t := f.thread c h
  let ea := t.rd a
  let w := f.who c h
  match f.loadNow m c h { memReq ea 64 .load with check6 := false } with
  | .fault e g => g.trap m c h e ea
  | .wait g => g
  | .done bs g =>
    let blk := bytesLine bs
    let x := f.ctx w.ctx
    let away := !x.inLease (blkVx blk) (blkVy blk)
    if blkRk blk = 3 || (form = 5 && blkKind blk = 3) || ((form = 0 && !blkRmt blk || form = 1 && blkCbf blk) && away) then
      g.trap m c h .msgFormat ea
    else if (form = 1 || form = 2 || form = 5) && f.copiesOf w ≥ Config.copyFlight then g
    else
      match g.release m c h .dom with
      | .stop g => g
      | .done g =>
        let inbox := if form = 3 then g.prefInbox m c w.ctx (wordOf blk 4) else clusterOf c.val
        let msg : Msg := ⟨g.ids, form, blk, (t.rd b).truncate 32, w, pos.toNat, inbox, g.cycle + 64 * blkHold blk, false⟩
        let g := Fab.dropReads { g with ids := g.ids + 1, msgs := g.msgs ++ [msg] } c h
        (if blkHold blk = 0 then g.push (.messageInject msg.id) else g).modThread c h Thread.adv

/-- SEND (R221, R224). -/
def execSend (g : Guard) (a b : SReg) (s : State) : Res := s.head g [.s a, .s b] [] (sendHead 0 a b 0)
/-- XCOPY (R221, R225). -/
def execXcopy (g : Guard) (a b : SReg) (s : State) : Res := s.head g [.s a, .s b] [] (sendHead 1 a b 0)
/-- XGATHER (R221, R226). -/
def execXgather (g : Guard) (a b : SReg) (s : State) : Res := s.head g [.s a, .s b] [] (sendHead 2 a b 0)
/-- XPREF (R221, R227). -/
def execXpref (g : Guard) (a b : SReg) (s : State) : Res := s.head g [.s a, .s b] [] (sendHead 3 a b 0)
/-- XCOLL (R221, R228). -/
def execXcoll (g : Guard) (a b : SReg) (s : State) : Res := s.head g [.s a, .s b] [] (sendHead 4 a b 0)
/-- RESUME (R221, R229). -/
def execResume (g : Guard) (a b c : SReg) (s : State) : Res :=
  s.head g [.s a, .s b, .s c] [] fun m f k h => sendHead 5 a b ((f.thread k h).rd c) m f k h

/-! Barrier instructions (R232, R233). -/

/-- Whether a core's register or membership has an arrival that keeps BARSET out (R302). -/
def BarReg.busy (r : BarReg) : Bool := r.arr || r.rin || r.cin

/-- Whether a descriptor is refused (R232). -/
def Core.barShapeBad (x : Core) (ctx : Ctx) (o : Occ) (tree : Bool) (bn : Fin 8) (d : Word) : Bool :=
  bits d.toNat 63 48 ≠ 0 || d.getLsbD 13 || barX0 d > barX1 d || barY0 d > barY1 d ||
  !(barX1 d < ctx.lw && barY1 d < ctx.lh) ||
  !(barX0 d ≤ o.vx && o.vx ≤ barX1 d && barY0 d ≤ o.vy && o.vy ≤ barY1 d) ||
  (barXch d && (tree || (List.finRange 8).any fun k => k ≠ bn && x.bars[k].xch))

/-- BARSET (R232). Held exchange elements fail when the exchange barrier goes (R120). -/
def execBarset (g : Guard) (bn : Fin 8) (a : SReg) (tree : Bool) (s : State) : Res :=
  s.head g [.s a] [] fun m f c h =>
    let d := (f.thread c h).rd a
    let o := (f.core c).occ.getD ⟨0, 0, 0⟩
    let x := f.ctx o.ctx
    let r := (f.core c).bar tree bn
    if tree && !x.priv then f.trap m c h .privilege 0
    else if (f.core c).barShapeBad x o tree bn d then f.trap m c h .barShape d
    else if r.busy then f.trap m c h .barBusy (BitVec.ofNat 64 bn.val)
    else
      let g := f.modCore c fun y => y.setBar tree bn ⟨(d &&& ~~~(1#64 <<< 14)) ||| (1#64 <<< 14), false, false, false, false, 0, false⟩
      (if r.xch && !tree && !barXch d then g.relandAt o.ctx o.vx o.vy else g).modThread c h Thread.adv

/-- Whether an exchange store of a core has still to land (R121). -/
def Fab.xstsOut (f : Fab) (o : Occ) : Bool :=
  f.elems.any fun e => (match e.op with | .xst .. => true | .amo .. => false) && e.st ≠ .applied &&
    e.who.ctx = o.ctx && e.who.vx = o.vx && e.who.vy = o.vy

/-- BARV (R121, R233, R296, R297, R301): every XST of its core has landed before the arrival leaves. -/
def execBarv (g : Guard) (bn : Fin 8) (tree : Bool) (s : State) : Res :=
  s.head g [] [] fun m f c h =>
    let o := (f.core c).occ.getD ⟨0, 0, 0⟩
    let r := (f.core c).bar tree bn
    if tree && !(f.ctx o.ctx).priv then f.trap m c h .privilege 0
    else if !r.on then f.trap m c h .barUnset (BitVec.ofNat 64 bn.val)
    else if r.arr then f.trap m c h .barBusy (BitVec.ofNat 64 bn.val)
    else
      match f.release m c h .dom with
      | .stop g => g
      | .done g =>
        if g.xstsOut o then g
        else
          let e := laterEpoch r.epoch (g.who c h).epoch
          let g := (g.modCore c fun x => x.setBar tree bn { r with arr := true, epoch := e, counted := false }).modThread c h Thread.adv
          if tree then g.treeArrive c o.ctx bn else g.sweep c bn

/-! System instructions (R234 to R238). -/

/-- TRAP (R234): it has completed, so TRAPPC is the next PC. -/
def execTrap (g : Guard) (code : BitVec 16) (s : State) : Res :=
  s.head g [] [] fun m f c h => f.trapNext m c h .software (code.zeroExtend 64)

/-- Whether the path to an element's memory carries its atomic class (R326). -/
def elemCarried (m : Mgt) (x : Elem) : Bool :=
  match x.op, x.dest with
  | .amo op _ _ _, .slice _ | .amo op _ _ _, .device _ _ => pathCarries m x.gpa (classBit op false)
  | _, _ => true

/-- A failed element is issued again from this core (R114, R115, R223); on a path that does not carry its class it fails
again (R326). -/
def Fab.redo (f : Fab) (m : Mgt) (c : CoreId) (e : LogEntry) : Fab :=
  match e.redo with
  | .element _ =>
    match e.elem with
    | some x =>
      let g := { f with ids := f.ids + 1 }
      let y := { x with id := f.ids, st := .buffered, more := [] }
      if elemCarried m x then g.aggregate c y else (y.entries .atomicPath).foldl Fab.logFault g
    | none => f
  | .decrement va n ep =>
    f.sendDec e.who.ctx va n ep (if e.major = 0x38 then .tdec e.who else .chime e.who e.minor)
  | .status va line =>
    match f.writePart m c e.who va (lineBytes line) with
    | .ok g => g
    | .error cause => f.logFault { e with cause := cause }
  | .write gpa bs => f.putOut m e.who e.addr gpa bs e.major e.minor none

/-- The element of a REMOTE_FAULT: discarded where TRAPCAUSE holds 0, issued again otherwise (R114, R235). -/
def Fab.settleElem (f : Fab) (m : Mgt) (c : CoreId) (e : Option LogEntry) (cause : BitVec 8) : Fab :=
  match e with
  | some e => if cause = 0 then f else f.redo m c e
  | none => f

/-- An access that a refusal's trap marked is sent again: its checks are made anew, and what fails one is refused (R318, R330). Where
an earlier access of its thread has still to be performed under it, it waits for that (R103, R113). -/
def Fab.resendOne (f : Fab) (m : Mgt) (c : CoreId) (h : ThreadId) (p : Pend) : Fab :=
  let w := f.who c h
  let put := fun (g : Fab) (q : Pend) => g.modThread c h fun t => { t with pend := t.pend.map fun x => if x.id = p.id then q else x }
  match f.check m c w p.req with
  | .error e => put (f.walked m c w p.req) { p with st := .refused e }
  | .ok (tgt, g) =>
    let later := fun (g : Fab) => (put g { p with st := .resend }).holdAt c (.homeSliceAnswer c h p.id)
    match g.aggWait c w tgt p.size with
    | some g => later g
    | none =>
      if g.inWay m c h w p.id (if p.use == .unp then none else some tgt) p.size then later g
      else
        let q := { p with
          tgt := tgt, st := .waiting
          remote := match tgt with | .mem gpa _ => m.isOther gpa | _ => false
          held := match tgt with | .mem .. => false | _ => p.held }
        let g := put g q
        match tgt with
        | .mem gpa e =>
          if recorded m (g.ctx w.ctx) e then g.answerMem m c h q gpa e
          else
            match m.place gpa with
            | .other dev _ => g.transmit m (.load c h p.id) dev (gpa / 64)
            | _ => g.push (.homeSliceAnswer c h p.id)
        | _ => g.push (.homeSliceAnswer c h p.id)

/-- Accesses that a refusal's trap marked are sent again (R330). -/
def Fab.resend (f : Fab) (m : Mgt) (c : CoreId) (h : ThreadId) : Fab :=
  ((f.thread c h).pend.filter fun p => p.st == .retry).foldl (fun g p => g.resendOne m c h p) f

/-- A slot of a thread is armed, and leaves the arrival order (R62). -/
def Fab.rearmSlot (f : Fab) (m : Mgt) (c : CoreId) (h : ThreadId) (i : Tag) : Fab :=
  let x := (f.thread c h).ls.slots[i]
  ({ f with ids := f.ids + 1 }.modThread c h fun t =>
    { t with ls := ⟨t.ls.slots.set i { x with id := f.ids, st := .armed, cause := none }, t.ls.order.erase i⟩ }).armed
      m c h i f.ids x.addr

/-- The slot of a trapped TAKE is armed again where the return goes to that TAKE (R62, R235). -/
def Fab.rearm (f : Fab) (m : Mgt) (c : CoreId) (h : ThreadId) (k : Option (Tag × Pc)) (pc : Pc) : Fab :=
  match k with
  | some (i, p) => if p = pc && (f.thread c h).ls.slots[i].st == .faulted then f.rearmSlot m c h i else f
  | none => f

/-- Slots that the routine made ARMED in the save area start their loads: those whose words are not as they were saved (R342; log 14,
DESIGN CHOICE). -/
def Fab.rearmNew (f : Fab) (m : Mgt) (c : CoreId) (h : ThreadId) (old : Landing) : Fab :=
  ((List.finRange 32).filter fun k =>
    (f.thread c h).ls.slots[k].st == .armed && (f.thread c h).ls.slots[k] ≠ old.slots[k]).foldl (fun g k => g.rearmSlot m c h k) f

/-- The return from a trap (R235, R342): the task is read back from its frame, and its landing set from the save area; the trap
registers are the given ones. -/
def Fab.returnFrom (f : Fab) (m : Mgt) (c : CoreId) (h : ThreadId) (k : Ctrl) : Fab :=
  let t := f.thread c h
  let g := f.setThread c h { loadFrame (f.bytesAt m (f.frameAt c h) 0x600) (f.savedSet m c h) { t with ctl := k } with
    st := .running, pc := k.trappc, elem := none, take := none, wdrain := none, code := none }
  (((g.resend m c h).rearmNew m c h t.savedLs).rearm m c h t.take k.trappc).settleElem m c t.elem k.trapcause

/-- RTE (R115, R235). It waits for the values that the routine's own loads still owe. -/
def execRte (g : Guard) (s : State) : Res :=
  s.head g [] [] fun m f c h =>
    let t := f.thread c h
    if t.st == .routine then (if t.owes then f else f.returnFrom m c h t.ctl)
    else if (t.firing.map (·.kind)) = some .report then
      (if t.owes then f else (f.settleElem m c t.elem t.ctl.trapcause).retire m c h)
    else f.trap m c h .privilege 0

/-- The global time of the die of a core (R26). -/
def Mgt.now (m : Mgt) (c : CoreId) : Word := m.time[Fin.ofNat 4 (dieOf c.val)]

/-- The value of a control register (R70). -/
def ctlValue (m : Mgt) (f : Fab) (c : CoreId) (h : ThreadId) (r : Ctl) : Word :=
  let x := f.core c
  let t := f.thread c h
  let n := x.ctxId
  match r with
  | .timenow => m.now c
  | .vcoreid => BitVec.ofNat 64 ((x.occ.map fun o => o.vy % 256 * 256 + o.vx % 256).getD 0)
  | .thid => BitVec.ofNat 64 h.val
  | .ctxid => BitVec.ofNat 64 ((f.ctx n).priv.toNat * 512 + (f.ctx n).det.toNat * 256 + n.val)
  | .taskrec => t.ctl.taskrec.zeroExtend 64
  | .trapcause => t.ctl.trapcause.zeroExtend 64
  | .trapaddr => t.ctl.trapaddr
  | .trappc => t.ctl.trappc.zeroExtend 64
  | .taketag => t.ctl.taketag.zeroExtend 64
  | .xferid => t.ctl.xferid.zeroExtend 64
  | .trapen => BitVec.ofNat 64 t.ctl.trapen
  | .fmta => t.ctl.fmta.zeroExtend 64
  | .fmtb => t.ctl.fmtb.zeroExtend 64
  | .scla => t.ctl.scla.zeroExtend 64
  | .sclb => t.ctl.sclb.zeroExtend 64
  | .fade => t.ctl.fade.zeroExtend 64
  | .lsstat => lsstat t (f.ctx n).det
  | .agemax => x.agemax.zeroExtend 64
  | .landctl => BitVec.ofNat 64 x.landctl.toNat
  | .aggage => x.aggage.zeroExtend 64

/-- A thread-level control register written; reserved bits of the source are ignored (R70, R236). -/
def Ctrl.write (k : Ctrl) (r : Ctl) (x : Word) : Ctrl :=
  match r with
  | .trapcause => { k with trapcause := x.truncate 8 }
  | .trapaddr => { k with trapaddr := x }
  | .trappc => { k with trappc := x.truncate 57 }
  | .taketag => { k with taketag := x.truncate 5 }
  | .trapen => { k with wovf := x.getLsbD 1, wbud := x.getLsbD 0 }
  | .fmta => { k with fmta := x.truncate 5 }
  | .fmtb => { k with fmtb := x.truncate 5 }
  | .scla => { k with scla := x.truncate 57 }
  | .sclb => { k with sclb := x.truncate 57 }
  | .fade => { k with fade := x.truncate 32 }
  | _ => k

/-- A core-level control register written, with its clamp (R70). -/
def Core.writeCtl (y : Core) (r : Ctl) (x : Word) : Core :=
  match r with
  | .agemax => { y with agemax := BitVec.ofNat 13 (max 16 (min 4096 (x.toNat % 2 ^ 13))) }
  | .landctl => { y with landctl := x.getLsbD 0 }
  | .aggage => { y with aggage := BitVec.ofNat 16 (max 64 (x.toNat % 2 ^ 16)) }
  | _ => y

/-- A register that only a privileged context writes (R69, R70). -/
def ctlPriv : Ctl → Bool
  | .agemax | .landctl | .aggage => true
  | _ => false

/-- Number of a control register (R70). -/
def ctlNum (r : Ctl) : Word := BitVec.ofNat 64 r.code

/-- CTLRD (R236). -/
def execCtlrd (g : Guard) (d : SReg) (r : Ctl) (s : State) : Res :=
  s.head g [] [.s d] fun m f c h => f.modThread c h fun t => (t.wr d (ctlValue m f c h r)).adv

/-- CTLWR (R69, R72, R236): a write of a privileged register from another context traps PRIVILEGE with its number. -/
def execCtlwr (g : Guard) (x : SReg) (r : Ctl) (s : State) : Res :=
  s.head g [.s x] [] fun m f c h =>
    let v := (f.thread c h).rd x
    if ctlPriv r then
      if (f.ctx (f.core c).ctxId).priv then
        let g := (f.modCore c fun y => y.writeCtl r v).modThread c h Thread.adv
        if r == .landctl then (g.kick c).replay c else g
      else f.trap m c h .privilege (ctlNum r)
    else f.modThread c h fun t => { t with ctl := t.ctl.write r v }.adv

/-- TIMENOW (R237). -/
def execTimenow (g : Guard) (d : SReg) (s : State) : Res :=
  s.head g [] [.s d] fun m f c h => f.modThread c h fun t => (t.wr d (m.now c)).adv

/-- NOP (R238). -/
def execNop (g : Guard) (s : State) : Res := s.head g [] [] fun _ f c h => f.modThread c h Thread.adv

end Sys2Proof.Machine
end

