-- ==== Sys2Proof/Machine/MemEvents.lean ====
section
/-! DEFINITION. Events of memory: answers to loads and atomics, landing slots, aggregated elements, remote and ingress
requests, and the write lane (06_memory_model R107 to R120, 08_isa_memory R152 to R164, 12_context R246 to R248, 17_page
R315, 18_link R328 to R330, R337). An event whose condition does not hold changes nothing (log 2, DESIGN CHOICE). -/

namespace Sys2Proof.Machine

/-! Answers to loads and returning atomics (R152, R163, R164, R330). -/

/-- A delivery that a thread is owed, and that stands as it is asked. -/
def Thread.owed (t : Thread) (id : Nat) (remote : Bool) : Option Pend :=
  t.pend.find? fun p => p.id = id && p.st == .waiting && p.remote == remote

/-! Landing slots (R61, R62, R156 to R158, R365). -/

/-- The ARMED slot of a tag and a load: in the save area for a trapped firing (true), where the routine has not changed it, else in
the thread (R365). -/
def Fab.armedAt (f : Fab) (m : Mgt) (c : CoreId) (h : ThreadId) (k : Tag) (id : Nat) : Option (Bool × Slot) :=
  let t := f.thread c h
  let is := fun (x : Slot) => x.st == .armed && x.id = id
  if is t.savedLs.slots[k] then (if (f.savedSet m c h).slots[k] = t.savedLs.slots[k] then some (true, t.savedLs.slots[k]) else none)
  else if is t.ls.slots[k] then some (false, t.ls.slots[k])
  else none

/-- A slot leaves ARMED and joins the arrival order; those of one cycle stand in ascending tag order (R61, R62). -/
def Landing.land (l : Landing) (k : Tag) (x : Slot) : Landing :=
  let before := fun (i : Tag) => decide (l.slots[i].at' < x.at') || (l.slots[i].at' = x.at' && i < k)
  ⟨l.slots.set k x, l.order.takeWhile before ++ k :: l.order.dropWhile before⟩

/-- The issuer of a slot's load: the firing, whose slots the save area keeps while its trap routine runs. -/
def Fab.slotWho (f : Fab) (c : CoreId) (h : ThreadId) (saved : Bool) : Who :=
  let w := f.who c h
  match (f.thread c h).firing with
  | some g => if saved then { w with fid := g.fid, recAddr := g.recAddr, res := g.resident } else w
  | none => w

/-- What the load of a slot finds when it is performed (R157): the cause of the first failing check, a value, a place at another
device, or a wait for an earlier access of the thread (R113, R158, R206). -/
inductive SlotRes where
  | fault (c : Cause) (f : Fab)
  | value (v : Word) (f : Fab)
  | away (gpa : Nat) (f : Fab)
  | wait (f : Fab)

def Fab.slotLoad (f : Fab) (m : Mgt) (c : CoreId) (h : ThreadId) (saved : Bool) (x : Slot) : SlotRes :=
  let n := ldSize x.ty
  let w := f.slotWho c h saved
  let r := memReq x.addr n .load
  match f.check m c w r with
  | .error e => .fault e (f.walked m c w r)
  | .ok (tgt, g) =>
    match g.aggWait c w tgt n with
    | some g => .wait g
    | none =>
      if g.inWay m c h w x.id (some tgt) n then .wait g
      else
        match tgt with
        | .loc off => .value (ldExtend x.ty (leNum ((g.core c).locBytes off n))) g
        | .mem gpa e =>
          if m.isOther gpa then .away gpa g
          else if m.hostLost gpa then .fault .pageFault g
          else .value (ldExtend x.ty (leNum (g.load m c w.ctx e gpa n).1)) (g.load m c w.ctx e gpa n).2
        | .peer .. => .fault .pageFault g

/-- A slot leaves ARMED, at this cycle. A trapped firing's set in the save area is written again, with what the routine has changed in
it (R365); slots that waited for this one are asked again. -/
def Fab.landSlot (f : Fab) (m : Mgt) (c : CoreId) (h : ThreadId) (saved : Bool) (k : Tag) (x : Slot) : Fab :=
  let y := { x with at' := f.cycle }
  let set := (f.savedSet m c h).land k y
  let g := f.answered (.slot c h x.id)
  let g :=
    if saved then
      (g.modThread c h fun t => { t with savedLs := t.savedLs.land k y }).store m none false (f.saveAt c + landingOff h) set.saved
    else g.modThread c h fun t => { t with ls := t.ls.land k y }
  g.replay c

/-- Whether the load of a slot has left for another device and is not answered yet. -/
def Fab.slotSent (f : Fab) (c : CoreId) (h : ThreadId) (id : Nat) : Bool := f.sent.any (·.what = .slot c h id)

/-- The load of a slot leaves for another device (R328). -/
def Fab.sendSlot (f : Fab) (m : Mgt) (c : CoreId) (h : ThreadId) (id gpa : Nat) : Fab :=
  match m.place gpa with
  | .other dev _ => f.transmit m (.slot c h id) dev (gpa / 64)
  | _ => f

/-- The load of a slot that may leave for another device is tried: it leaves, waits, or ends here (R113, R157, R328). -/
def Fab.slotGoes (f : Fab) (m : Mgt) (c : CoreId) (h : ThreadId) (id : Nat) : Fab :=
  match (List.finRange 32).findSome? fun k => (f.armedAt m c h k id).map fun x => (k, x) with
  | none => f
  | some (k, saved, x) =>
    if f.slotSent c h id then f
    else
      match f.slotLoad m c h saved x with
      | .fault e g => g.landSlot m c h saved k { x with st := .faulted, cause := some e }
      | .value v g => g.landSlot m c h saved k { x with st := .landed, val := v }
      | .away gpa g => g.sendSlot m c h id gpa
      | .wait g => g.holdAt c (.homeSliceAnswer c h id)

/-- LANDING_SLOT_ARRIVAL: the load of an ARMED slot succeeds (R62, R157). Where it has left for another device, got holds that
device's answer (log 6, DESIGN CHOICE). -/
def execLandingSlotArrival (c : CoreId) (h : ThreadId) (t : Tag) (got : SlotValue) (s : State) : Res :=
  s.event fun m f =>
    match f.armedAt m c h t got.id with
    | none => f
    | some (saved, x) =>
      let land := fun (g : Fab) (v : Word) => g.landSlot m c h saved t { x with st := .landed, val := v }
      if f.slotSent c h got.id then land f (ldExtend x.ty got.ext.toNat)
      else
        match f.slotLoad m c h saved x with
        | .fault .. => f
        | .wait g => g.holdAt c (.landingSlotArrival c h t got)
        | .away gpa g => g.sendSlot m c h got.id gpa
        | .value v g => land g v

/-- Whether a slot's load goes to host memory. -/
def Fab.slotAtHost (f : Fab) (m : Mgt) (c : CoreId) (h : ThreadId) (x : Slot) : Bool :=
  match f.tgtOf m c (f.who c h).ctx x.addr with
  | some (.mem gpa _) => m.atHost gpa
  | _ => false

/-- Causes that an owner's refusal may carry (R160, R164, R329). -/
def ownerCause (c : Cause) : Bool := c == .pageFault || c == .conflict

/-- LANDING_SLOT_FAULT: the load fails a check when it is performed (R157), or fails outside: the owner refuses it (R160), or
PCIe completes it with an error (R337). -/
def execLandingSlotFault (c : CoreId) (h : ThreadId) (t : Tag) (got : SlotFault) (s : State) : Res :=
  s.event fun m f =>
    match f.armedAt m c h t got.id with
    | none => f
    | some (saved, x) =>
      let fail := fun (g : Fab) (e : Cause) => g.landSlot m c h saved t { x with st := .faulted, cause := some e }
      if f.slotSent c h got.id then
        match got.ext with
        | some e => if ownerCause e then fail f e else f
        | none => f
      else
        match f.slotLoad m c h saved x, got.ext with
        | .fault e g, _ => fail g e
        | .wait g, none => g.holdAt c (.landingSlotFault c h t ⟨got.id, none⟩)
        | .value _ _, some e => if e == .pageFault && f.slotAtHost m c h x then fail f e else f
        | _, _ => f

/-! Answers of this device. -/

/-- A returning atomic of a routine that has parked takes effect, or fails unseen (R163, R342; log 13, DESIGN CHOICE). -/
def Fab.looseAnswer (f : Fab) (m : Mgt) (x : Loose) : Fab :=
  let p := x.p
  let done := fun (g : Fab) => (Fab.replay { g with loose := g.loose.filter fun y => y.p.id ≠ p.id } x.c).settleKernels m
  match p.tgt with
  | .mem gpa e =>
    if f.poisoned gpa p.size || m.hostLost gpa then done f
    else done (f.storeOwn m x.who gpa e (p.op.run p.ea (f.bytesAt m gpa p.size)).bytes (p.use == .comm))
  | .peer vx vy off =>
    match f.find x.who.ctx vx vy with
    | none => done f
    | some d =>
      if f.closed d || (f.core d).locked off p.size then f.holdAt d (.homeSliceAnswer x.c x.h p.id)
      else done (f.modCore d fun y => y.locWrite off (p.op.run p.ea (y.locBytes off p.size)).bytes)
  | .loc _ => done f

/-- What a thread waits for under a number that is no delivery on its way: one to be sent again, an atomic of a parked routine, or the
load of a slot (R113, R157, R330). -/
def Fab.otherAnswer (f : Fab) (m : Mgt) (c : CoreId) (h : ThreadId) (id : Nat) : Fab :=
  match (f.thread c h).pend.find? fun p => p.id = id && p.st == .resend with
  | some p => f.resendOne m c h p
  | none =>
    match f.loose.find? fun x => x.p.id = id && !x.p.remote with
    | some x => f.looseAnswer m x
    | none => f.slotGoes m c h id

/-- HOME_SLICE_ANSWER: the home slice, or the target core, performs a load or returning atomic of a thread, at the place that its
checks at issue found (R152, R163, R318). -/
def execHomeSliceAnswer (c : CoreId) (h : ThreadId) (id : Nat) (s : State) : Res :=
  s.event fun m f =>
    match (f.thread c h).owed id false with
    | none => f.otherAnswer m c h id
    | some p =>
      match p.tgt with
      | .mem gpa e =>
        if f.poisoned gpa p.size || m.hostLost gpa then f.refuseLater c h id .pageFault else f.answerMem m c h p gpa e
      | .peer vx vy off =>
        match f.find (f.who c h).ctx vx vy with
        | none => f.refuseLater c h id .pageFault
        | some d =>
          if f.closed d || (f.core d).locked off p.size then f.holdAt d (.homeSliceAnswer c h id)
          else
            let res := p.op.run p.ea ((f.core d).locBytes off p.size)
            (f.modCore d fun x => x.locWrite off res.bytes).deliver m c h p (res.old.zeroExtend 512) res.ovf
      | .loc _ => f

/-- What a delivery writes from another device's answer (R152, R162, R182). -/
def POp.answer (op : POp) (v : Line) : Line :=
  match op with
  | .load ty => (ldExtend ty v.toNat).zeroExtend 512
  | .vload => v
  | .amor _ wd _ | .cas wd _ _ => BitVec.ofNat 512 (v.toNat % 2 ^ (8 * wdSize wd))

/-- Copies of a remote stable line are kept after a load of it: the bytes that the owner sent, and of a line that the load took
only a part of, the rest as that device answers (R123, R329; log 6, DESIGN CHOICE). -/
def Fab.keepRemote (f : Fab) (m : Mgt) (c : CoreId) (h : ThreadId) (p : Pend) (v : Line) : Fab :=
  match p.tgt with
  | .mem gpa e =>
    if e.stable && p.op.isLoad then
      let old := f.bytesAt m (gpa / 64 * 64) 64
      let line := old.take (gpa % 64) ++ leBytes p.size v.toNat ++ old.drop (gpa % 64 + p.size)
      f.keepCopy (f.who c h).ctx (copyPlaces m c e gpa) ((e.vbase + (gpa - e.pbase)) / 64) (gpa / 64) (bytesLine line)
    else f
  | _ => f

/-- The form that a message asks for; a RESUME's after its KIND (R220, R229). -/
def Msg.opc (x : Msg) : Nat := if x.form = 5 then bits (wordOf x.blk 0) 5 4 + 1 else x.form
/-- The event in which the engine of a message makes its next step. -/
def Msg.event (x : Msg) : Instr :=
  match x.opc with
  | 2 => .gatherElement x.id
  | 3 => .prefetchLine x.id
  | 4 => .xcollContribution (.own x.id)
  | _ => .copyStep x.id

/-- The lower of two failed positions of an operation (R225, R226, R228). -/
def lowerBad (a : Option (Nat × Cause × Word)) (b : Nat × Cause × Word) : Option (Nat × Cause × Word) :=
  match a with
  | some x => if b.1 < x.1 then some b else some x
  | none => some b

/-- A step of an engine's operation, or a collective's result, was refused or lost at a position (R225, R226, R228, R330). -/
def Fab.stepBad (f : Fab) (id : Nat) (bad : Nat × Cause × Word) : Fab :=
  { f with
    ops := f.ops.map fun o => if o.msg.id = id then { o with bad := lowerBad o.bad bad } else o
    contribs := f.contribs.map fun k => if k.own.any (·.id = id) then { k with bad := lowerBad k.bad bad } else k }

/-- The engine of an operation, or the collective, goes on. -/
def Fab.askOp (f : Fab) (id : Nat) : Fab :=
  { f with due := f.due ++ ((f.ops.filter fun o => o.msg.id = id).map fun o => o.msg.event) ++
      (f.contribs.filter fun k => k.own.any (·.id = id)).map fun k => .collectiveComplete k.ctx k.xid }

/-- Who waits for a read of another device's memory goes on. -/
def Fab.askReader (f : Fab) : Reader → Fab
  | .op id => f.askOp id
  | .unit c _ => f.push (.matrixExecute c)
  | .head .. => f

/-- A read of another device's memory has its answer, or is lost (R330). -/
def Fab.farAnswer (f : Fab) (r : FarRead) (ans : RemAns) : Fab :=
  Fab.askReader { f with reads := f.reads.map fun x => if x.id = r.id then { x with ans := some ans } else x } r.by'

/-- REMOTE_ANSWER: the owner's answer or refusal to a remote load or returning atomic of a thread, or to a read of an engine, a matrix
unit or a head (R330). -/
def execRemoteAnswer (c : CoreId) (h : ThreadId) (id : Nat) (ans : RemAns) (s : State) : Res :=
  s.event fun m f =>
    let ok := match ans with | .value _ => true | .refused e => ownerCause e
    match (f.thread c h).owed id true with
    | some p =>
      let g := f.answered (.load c h id)
      match ans with
      | .value v => (g.keepRemote m c h p v).deliver m c h p (p.op.answer v) false
      | .refused e => if ownerCause e then g.refuseLater c h id e else f
    | none =>
      if !ok then f
      else
        match f.reads.find? fun r => r.id = id && r.ans.isNone with
        | some r => (f.answered (.read id)).farAnswer r ans
        | none =>
          match f.loose.find? fun x => x.p.id = id && x.p.remote with
          | some x => (Fab.replay { f.answered (.load c h id) with loose := f.loose.filter fun y => y.p.id ≠ id } x.c).settleKernels m
          | none => (f.answered (.load c h id)).answered (.read id)

/-! Aggregated elements (R107, R110, R113, R114, R120). -/

/-- Elements of one issuer to one destination are applied in the order issued (R10, R110): those of a kind behind an element are
asked again once it is done with, and so are the accesses of its core that waited for it. -/
def Fab.afterElem (f : Fab) (e : Elem) : Fab :=
  let next := f.elems.filter fun x =>
    x.id ≠ e.id && x.st == .flight && x.dest = e.dest && x.who.ctx = e.who.ctx && x.who.vx = e.who.vx && x.who.vy = e.who.vy
  let g := { f with due := f.due ++ next.map Elem.event }
  match g.find e.who.ctx e.who.vx e.who.vy with
  | some c => g.replay c
  | none => g

/-- An element fails: one log entry for each constituent (R107, R114). -/
def Fab.failElem (f : Fab) (e : Elem) (cause : Cause) : Fab :=
  ((e.entries cause).foldl Fab.logFault { f with elems := f.elems.filter fun x => x.id ≠ e.id }).afterElem e

/-- An element is applied; its issuers are told (R112). -/
def Fab.appliedElem (f : Fab) (e : Elem) : Fab :=
  Fab.afterElem { f with
    elems := f.elems.map fun x => if x.id = e.id then { x with st := .applied } else x
    due := f.due ++ e.parts.filterMap fun p =>
      (f.find p.2.1.ctx p.2.1.vx p.2.1.vy).map fun c => .flushAcknowledge c p.2.1.th } e

/-- What is left of an applied element once some of its issuers have its acknowledgement. -/
def Elem.ack (e : Elem) (gone : Who → Bool) : Option Elem :=
  match e.parts.filter fun p => !gone p.2.1 with
  | [] => none
  | p :: ps => some { e with id := p.1, who := p.2.1, more := if ps.isEmpty then [] else p :: ps }

/-- FLUSH_ACKNOWLEDGE: the applied elements of a thread are acknowledged, so that its flush trigger may complete (R112). -/
def execFlushAcknowledge (c : CoreId) (h : ThreadId) (s : State) : Res :=
  s.event fun _ f =>
    let mine := fun (w : Who) => w.th = h && f.find w.ctx w.vx w.vy = some c
    { f with elems := f.elems.filterMap fun e => if e.st == .applied then e.ack mine else some e }

/-- AGGAGE_EXPIRY: a buffer whose age timer has run out leaves (R110, R111). -/
def execAggageExpiry (c : CoreId) (i : Fin 16) (s : State) : Res :=
  s.event fun _ f =>
    match (f.core c).agg.find? (·.1 = i.val) with
    | some (_, b) => if f.cycle ≥ b.born + (f.core c).aggage.toNat then f.sendBuf c i.val else f
    | none => f

/-- Whether an element has left for another device (R107, R330). -/
def Fab.posted (f : Fab) (e : Elem) : Bool := f.rwrites.any (·.id = e.id)

/-- Whether an earlier element of the same issuer to the same destination has still to be applied, or to leave for its device; one
that is held at the target's port too (R10, R110, R120). -/
def Fab.behind (f : Fab) (e : Elem) : Bool :=
  (f.elems.takeWhile fun x => x.id ≠ e.id).any fun x =>
    (x.st == .flight || x.st == .held) && x.dest = e.dest && !f.posted x &&
    x.of fun w => w.ctx = e.who.ctx && w.vx = e.who.vx && w.vy = e.who.vy

/-- Whether a router may merge two elements (R107, R124): the paths carried combining when they were issued (R326). -/
def mergeable (x : Ctx) (a b : Elem) : Bool :=
  match a.op, b.op with
  | .amo op wd _ .comm, .amo op' wd' _ .comm =>
    a.id ≠ b.id && a.who.ctx = b.who.ctx && a.ea = b.ea && op = op' && wd = wd' && a.dest = b.dest && a.gpa = b.gpa &&
    a.st == .flight && b.st == .flight && !onWindow op a.ea && !(op == .fadd && x.det) &&
    a.parts.length + b.parts.length ≤ 8 && a.merges && b.merges
  | _, _ => false

/-- The merged request (R107): the operation applied to the two operands. -/
def Elem.merge (a b : Elem) : Elem :=
  match a.op, b.op with
  | .amo op wd x u, .amo _ _ y _ =>
    let w := 8 * wdSize wd
    { a with op := .amo op wd (BitVec.ofNat 64 (atomNew op wd (x.toNat % 2 ^ w) y.toNat)) u, more := a.parts ++ b.parts }
  | _, _ => a

/-- A router merges an element with the first other one in flight that may join it, neither having left the device. -/
def Fab.routerMerge (f : Fab) (e : Elem) : Fab :=
  match if f.posted e then none else f.elems.find? fun b => mergeable (f.ctx e.who.ctx) e b && !f.posted b with
  | some b =>
    { f with elems := (f.elems.filter fun x => x.id ≠ b.id).map fun x => if x.id = e.id then e.merge b else x }
  | none => f

/-- The wakes that a merged request owes beyond the first (R215). -/
def Fab.wakeMore (f : Fab) (gpa n : Nat) : List (Nat × Who × Word) → Fab
  | [] => f
  | p :: ps => (f.wakeAll (some p.2.1) gpa n f.watches).wakeMore gpa n ps

/-- The number of a cluster within its die. -/
def inDie (k : Nat) : Nat := 12 * (k / 24 % 12) + k % 24 % 12

/-- A posted atomic at its home slice (R126, R163, R354). -/
def Fab.applyAtSlice (f : Fab) (m : Mgt) (e : Elem) (op : AOp) (wd : Wd) (b : Word) (u : AUse) : Fab :=
  let n := wdSize wd
  let x := f.ctx e.who.ctx
  if e.chk && e.parts.any (fun p => x.conflicts p.2.1 e.gpa (u == .comm)) then f.failElem e .conflict
  else if f.poisoned e.gpa n || m.hostLost e.gpa then f.failElem e .pageFault
  else
    let w := ((e.parts.getLast?).map (·.2.1)).getD e.who
    let f := if e.chk then
        f.modCtx e.who.ctx fun x => { x with conf := mset (e.gpa / 64) ⟨w.fid, w.epoch, u == .comm⟩ x.conf }
      else f
    let r := atomRun op wd false (f.bytesAt m e.gpa n) b
    let k := match e.dest with | .slice k => k | _ => 0
    let f := (f.store m (some e.who) true e.gpa r.bytes).wakeMore e.gpa n e.parts.tail
    (if m.atHost e.gpa then f
     else f.classed m ⟨0, 0, 0, 0, false, false, false, false, false, false, e.wlc, 1, inDie k⟩ (e.gpa % 2 ^ 39 / 64) 1).appliedElem e

/-- AGGREGATION_ELEMENT_APPLY: a posted atomic reaches its destination (R110, R114); merge: a router on its way merges it with
another one first (R107). -/
def execAggregationElementApply (id : Nat) (merge : Bool) (s : State) : Res :=
  s.event fun m f =>
    match f.elems.find? fun e => e.id = id && e.st == .flight with
    | none => f
    | some e =>
      if merge then f.routerMerge e
      else
        match e.op with
        | .xst .. => f
        | .amo op wd b u =>
          match e.dest with
          | .slice _ => if f.behind e then f else f.applyAtSlice m e op wd b u
          | .device _ _ =>
            if f.posted e || f.behind e then f
            else (f.post m ⟨id, e.who, e.ea, e.gpa, [], 0x13, op.code, some (op, wd, b), none, none, none⟩).afterElem e
          | .core vx vy =>
            let off := e.ea.toNat % 2 ^ 18
            let n := if onWindow op e.ea then 64 else wdSize wd
            match f.find e.who.ctx vx vy with
            | none => f.failElem e .pageFault
            | some c =>
              if f.closed c || (f.core c).locked off n || f.behind e then f.holdAt c (.aggregationElementApply id false)
              else ((f.modCore c fun x => (x.atomLocal op wd (onWindow op e.ea) off b).1).appliedElem e).replay c

/-- XST_LAND: an exchange element reaches its target: it lands in the shadow bank, is held, or fails (R120, R155). -/
def execXstLand (id : Nat) (s : State) : Res :=
  s.event fun _ f =>
    match f.elems.find? fun e => e.id = id && (e.st == .flight || e.st == .held) with
    | none => f
    | some e =>
      match e.op with
      | .amo .. => f
      | .xst vx vy off n val stamp =>
        match f.find e.who.ctx vx vy with
        | none => f.failElem e .noExchange
        | some c =>
          let x := f.core c
          if f.closed c || f.behind e then f.holdAt c (.xstLand id)
          else if x.exchange.isNone || stamp < x.xphase then f.failElem e .noExchange
          else if stamp > x.xphase then
            Fab.afterElem { f with elems := f.elems.map fun y => if y.id = id then { y with st := .held } else y } e |>.replay c
          else
            ((f.modCore c fun x => x.setShadow (pokes x.shadow (off - 0x20000) (leBytes n val.toNat))).appliedElem e).replay c

/-! Remote writes (R154, R330) and lost links. -/

/-- Chimes of an issuer whose status areas wait for their writes go on (R220, R223), and copies that wait for a write of their landing
handlers (R118). -/
def Fab.askChimes (f : Fab) (r : RWrite) : Fab :=
  { f with due := f.due ++ ((f.chimes.filter fun k => k.msg.who = r.who).map fun k => .chime k.id) ++
      (f.ops.filter fun o => o.hands.contains r.who.fid).map fun o => o.msg.event }

/-- A write that failed at its owner or in PCIe: an element and a thread's write enter the fault log (R330, R337), an engine's
fails its operation, a distributor's faults its queue (R259). -/
def Fab.failWrite (f : Fab) (m : Mgt) (r : RWrite) (cause : Cause) : Fab :=
  match f.elems.find? (·.id = r.id) with
  | some e => f.failElem e cause
  | none =>
    match r.op, r.queue with
    | some (id, pos), _ => (f.stepBad id (pos, cause, r.ea)).askOp id
    | none, some (n, q) => f.queueRefused m n q r.major (BitVec.ofNat 32 r.minor)
    | none, none =>
      if r.who.fid = 0 then f
      else (f.logFault ⟨r.who, r.ea, cause, r.major, r.minor, Config.logWidth r.bytes.length, BitVec.ofNat 64 (leNum r.bytes),
        .write r.gpa r.bytes, none⟩).askChimes r

/-- A write is acknowledged: its element is applied, its engine goes on. -/
def Fab.ackWrite (f : Fab) (r : RWrite) : Fab :=
  match f.elems.find? (·.id = r.id) with
  | some e => f.appliedElem e
  | none => match r.op with
    | some (id, _) => f.askOp id
    | none => f.askChimes r

/-- REMOTE_WRITE_ACK: a remote write or a decrement is acknowledged by its owner, or refused; a write to host memory is completed
by PCIe, or fails (R154, R214, R330, R337). -/
def execRemoteWriteAck (id : Nat) (refusal : Option Cause) (s : State) : Res :=
  s.event fun m f =>
    match f.rwrites.find? (·.id = id) with
    | some r =>
      let g := { f with rwrites := f.rwrites.filter fun x => x.id ≠ id }.answered (.write id)
      match refusal with
      | some cause => if cause == .pageFault || (ownerCause cause && !m.atHost r.gpa) then (g.failWrite m r cause).settleKernels m else f
      | none => (g.ackWrite r).settleKernels m
    | none =>
      match f.decs.find? (·.id = id) with
      | some d =>
        if ((f.recAt m d.ctx d.recAddr).map m.isOther).getD false then
          let g := { f with decs := f.decs.filter fun x => x.id ≠ id }.answered (.dec id)
          match refusal with
          | some cause => if ownerCause cause || cause == .taskRecord || cause == .countUnderflow then g.decFails d cause else f
          | none => g
        else f
      | none => f

/-- A slot of a thread whose load went to a lost device becomes FAULTED (R160, R330). -/
def Fab.lostSlot (f : Fab) (m : Mgt) (dev : Nat) (c : CoreId) (h : ThreadId) (k : Tag) (x : Slot) : Fab :=
  match if f.sent.any fun y => y.what = .slot c h x.id && y.dev = dev then f.armedAt m c h k x.id else none with
  | some (saved, x) => f.landSlot m c h saved k { x with st := .faulted, cause := some .linkLost }
  | none => f

/-- The slots of a thread, and those that the save area keeps for it, whose loads went to a lost device. -/
def Fab.lostSlots (f : Fab) (m : Mgt) (dev : Nat) (c : CoreId) (h : ThreadId) : List Tag → Fab
  | [] => f
  | k :: ks =>
    let t := f.thread c h
    ((f.lostSlot m dev c h k t.savedLs.slots[k]).lostSlot m dev c h k t.ls.slots[k]).lostSlots m dev c h ks

/-- Whether an access is to a device. -/
def Mgt.isAt (m : Mgt) (gpa dev : Nat) : Bool := match m.place gpa with | .other d _ => d = dev | _ => false
def Tgt.isAt (t : Tgt) (m : Mgt) (dev : Nat) : Bool := match t with | .mem gpa _ => m.isAt gpa dev | _ => false

/-- What a thread loses: its answers and its slots at the device. -/
def Fab.lostThread (f : Fab) (m : Mgt) (dev : Nat) (c : CoreId) (h : ThreadId) : Fab :=
  ((f.modThread c h fun t =>
    { t with
      pend := t.pend.map fun p => if p.st == .waiting && p.remote && p.tgt.isAt m dev then { p with st := .refused .linkLost } else p
    }).lostSlots m dev c h (List.finRange 32)).settleTrap c h

def Fab.lostThreads (f : Fab) (m : Mgt) (dev : Nat) : List (CoreId × ThreadId) → Fab
  | [] => f
  | (c, h) :: r => (f.lostThread m dev c h).lostThreads m dev r

/-- Every thread of the cores that are listed. -/
def Fab.allThreads (f : Fab) : List (CoreId × ThreadId) :=
  f.cores.flatMap fun c => (List.finRange 8).map fun h => (Fin.ofNat 2304 c.1, h)

def Fab.lostWrites (f : Fab) (m : Mgt) : List RWrite → Fab
  | [] => f
  | r :: rs => ({ f with rwrites := f.rwrites.filter fun x => x.id ≠ r.id }.failWrite m r .linkLost).lostWrites m rs

def Fab.lostDecs (f : Fab) : List Dec → Fab
  | [] => f
  | d :: ds => ({ f with decs := f.decs.filter fun x => x.id ≠ d.id }.decFails d .linkLost).lostDecs ds

def Fab.lostReads (f : Fab) : List FarRead → Fab
  | [] => f
  | r :: rs => (f.farAnswer r (.refused .linkLost)).lostReads rs

/-- A message that ended: it leaves the flight list, and its chime is on its way (R223). -/
def Fab.chimeFor (f : Fab) (x : Msg) (code : Code) (cause : Option Cause) (pos : Nat) (addr : Word) : Fab :=
  { f with
    ids := f.ids + 1
    msgs := f.msgs.filter fun y => y.id ≠ x.id
    sent := f.sent.filter fun y => y.what ≠ .send x.id
    ops := f.ops.filter fun o => o.msg.id ≠ x.id
    reads := f.reads.filter fun r => r.by' ≠ .op x.id
    chimes := f.chimes ++ [⟨f.ids, x, code, cause, pos, addr, false, false⟩]
    due := f.due ++ [.chime f.ids] }

/-- Whether a message of SEND is on its way to another device (R224). -/
def Msg.away (x : Msg) (dev : Nat) : Bool :=
  x.form = 0 && x.gone && bits (wordOf x.blk 0) 43 43 = 1 && bits (wordOf x.blk 0) 57 44 = dev

def Fab.lostSends (f : Fab) : List Msg → Fab
  | [] => f
  | x :: xs => (f.chimeFor x .fault (some .linkLost) 0 0).lostSends xs

/-- LINK_LOST_TIMEOUT: no route to a device has come up within 10 ms; what waits for it fails (R330). -/
def execLinkLostTimeout (dev : Nat) (s : State) : Res :=
  s.event fun m f =>
    if m.routed dev || dev = m.devnum.toNat then f
    else
      let f := f.lostThreads m dev f.allThreads
      let f := f.lostReads (f.reads.filter fun r => r.ans.isNone && m.isAt r.gpa dev)
      let f := f.lostWrites m (f.rwrites.filter fun r => m.isAt r.gpa dev)
      let f := f.lostDecs (f.decs.filter fun d => ((f.recAt m d.ctx d.recAddr).map fun a => m.isAt a dev).getD false)
      let f := f.lostSends (f.msgs.filter fun x => x.away dev)
      { f with
        sent := f.sent.filter fun x => x.dev ≠ dev
        loose := f.loose.filter fun x => !(x.p.remote && x.p.tgt.isAt m dev) }.settleKernels m

/-- PCIE_COMPLETION_TIMEOUT: a device read or write of host memory, or an atomic there, has no completion or an error (R337). -/
def execPcieCompletionTimeout (c : CoreId) (h : ThreadId) (id : Nat) (s : State) : Res :=
  s.event fun m f =>
    match (f.thread c h).owed id false with
    | some p =>
      match p.tgt with
      | .mem gpa _ => if m.atHost gpa then f.refuseLater c h id .pageFault else f
      | _ => f
    | none =>
      match f.elems.find? fun e => e.id = id && e.st == .flight && m.atHost e.gpa with
      | some e => f.failElem e .pageFault
      | none =>
        match f.rwrites.find? fun r => r.id = id && m.atHost r.gpa with
        | some r => ({ f with rwrites := f.rwrites.filter fun x => x.id ≠ id }.failWrite m r .pageFault).settleKernels m
        | none => f

/-! Requests of link peers (R117, R328, R329). -/

/-- One byte of this device's memory for an observer that does not snoop (R117): from the home slice where it holds the line newer,
or where a device access has snooped the queue (log 11, DESIGN CHOICE); from HBM4E otherwise. -/
def Fab.hostByte (f : Fab) (la : Nat) : Byte :=
  match if (f.dirtyAt (la / 64)).isSome then none
    else f.wl.reverse.find? fun e => e.line == la / 64 && e.place != .unit && !e.stale with
  | some e =>
    if e.seen && Config.earlyView f.ids (la / 64) then BitVec.ofNat 8 (e.data.toNat / 2 ^ (8 * (la % 64))) else peek f.mem la
  | none => peek f.mem la
def Fab.hostBytes (f : Fab) (la n : Nat) : List Byte := (List.range n).map fun i => f.hostByte (la + i)

/-- Whether an ingress window admits a request (R324, R329). -/
def IngWin.admits (w : IngWin) (dev a n : Nat) (write : Bool) : Bool :=
  w.on && w.base.toNat * 2 ^ 16 ≤ a && a + n - 1 ≤ w.limit.toNat * 2 ^ 16 + 0xFFFF && w.dlo.toNat ≤ dev && dev ≤ w.dhi.toNat &&
    (w.wr || !write)

/-- Bytes that a request covers, and whether it writes. -/
def ingSize : IngKind → Nat
  | .read n => n
  | .write bs => bs.length
  | .atomic _ wd _ | .cas wd _ _ => wdSize wd
  | .decrement .. => 64
  | .ack _ => 0
def ingWrites : IngKind → Bool
  | .read _ | .ack _ => false
  | _ => true

/-- The decrement of a record of this device that arrived over a link, at its home slice (R125, R213, R214): why it fails, or the
fabric after it. -/
def Fab.linkDecrement (f : Fab) (m : Mgt) (gpa n : Nat) (epoch : BitVec 32) : Except Cause Fab :=
  if f.poisoned gpa 64 then .error .pageFault
  else
    match f.liveAt gpa with
    | none => .error .taskRecord
    | some r =>
      let c := f.field m gpa 1 31 0
      if n > c then .error .countUnderflow else .ok (if n = 0 then f else f.decrease m gpa c n (f.ctx r.ctx).det epoch)

/-- Whether a write of n bytes reaches a poisoned line that it does not cover whole (R354). -/
def Fab.partPoison (f : Fab) (gpa n : Nat) : Bool :=
  f.poison.any fun l => overlap gpa n (64 * l) 64 && !(gpa ≤ 64 * l && 64 * l + 64 ≤ gpa + n)

/-- What the owner does for an admitted request: the refusal, or the answer and the fabric after it. -/
def Fab.serve (f : Fab) (m : Mgt) (la : Nat) (k : IngKind) : Except Cause (List Byte × Fab) :=
  let gpa := m.gpa la
  let atom := fun (n : Nat) (run : List Byte → AtomRes) =>
    if f.poisoned gpa n then .error Cause.pageFault
    else
      let r := run (f.bytesAt m gpa n)
      .ok (leBytes n r.old.toNat, f.store m none true gpa r.bytes)
  match k with
  | .read n => if f.poisoned gpa n then .error .pageFault else .ok (f.hostBytes la n, f)
  | .write bs =>
    if f.partPoison gpa bs.length then .error .pageFault else .ok ([], f.store m none true gpa bs)
  | .atomic op wd b => atom (wdSize wd) fun bs => atomRun op wd false bs b
  | .cas wd b c => atom (wdSize wd) fun bs => casRun wd bs b c
  | .decrement n e =>
    match f.linkDecrement m gpa n e with
    | .ok g => .ok ([], g)
    | .error e => .error e
  | .ack _ => .ok ([], f)

/-- The requester tells that it has an answer, or the chime of a SEND: what was kept for it goes (R329, R331). -/
def Fab.acked (f : Fab) (dev num : Nat) (chime : Bool) : Fab :=
  if chime then { f with chimed := f.chimed.filter fun x => !(x.dev = dev && x.id.toNat = num) }
  else { f with answers := f.answers.filter fun x => !(x.dev = dev && x.num = num) }

/-- Whether a request is the acknowledgement of an answer, and of which kind. -/
def ingAcks : IngKind → Option Bool
  | .ack b => some b
  | _ => none

/-- INGRESS_REQUEST: a link peer's request is performed or refused, and the answer leaves through the port; a request seen before
is answered from the kept answer and not performed again (R329, R330). -/
def execIngressRequest (p : PortId) (q : IngReq) (s : State) : Res :=
  s.event fun m f =>
    if m.ports[p].st ≠ .up then f
    else
      match ingAcks q.kind with
      | some chime => f.acked q.dev q.num chime
      | none =>
        if f.answers.any (fun a => a.dev = q.dev && a.num = q.num) then f.carry p (.answer q.dev q.num)
        else
          let keep := fun (g : Fab) (e : Option Cause) (bs : List Byte) =>
            Fab.carry { g with answers := g.answers ++ [⟨q.dev, q.num, e, bs⟩] } p (.answer q.dev q.num)
          if !m.ingwin.toList.any (fun w => w.admits q.dev q.addr (ingSize q.kind) (ingWrites q.kind)) then
            keep f (some .pageFault) []
          else
            match f.serve m q.addr q.kind with
            | .error e => keep f (some e) []
            | .ok (bs, g) => keep g none bs

/-! The write lane (R116, R246 to R248, R315). -/

/-- A line leaves its queue for HBM4E, and its poison goes (R354), or nothing where a newer one of the line has been written
before it; older entries of the line write nothing any more (R105). -/
def Fab.drainOne (f : Fab) (m : Mgt) (e : WEntry) : Fab :=
  let g := { f with wl := (f.wl.filter fun x => x.id ≠ e.id).map fun (x : WEntry) =>
    if x.line = e.line && x.id < e.id && x.place ≠ .unit then { x with stale := true } else x }
  if e.stale then g
  else
    let g := { g with poison := g.poison.filter fun l => l ≠ m.gpa (64 * e.line) / 64 }
    match g.dirtyAt e.line with
    | some d => { g with dirty := mset e.line { d with hbm := e.data } g.dirty }
    | none => { g with mem := pokes g.mem (64 * e.line) (lineBytes e.data) }

/-- Service class of a line (R315). -/
def WEntry.rank (e : WEntry) : Nat := if e.high || e.wlc = 2 then 2 else if e.wlc = 1 then 0 else 1

/-- The line that the scheduler of a stack serves next: of the highest class that waits, the contexts in rotation from the one
after that served last, its oldest line first (R315). -/
def Fab.nextLine (f : Fab) (k : StackId) : Option WEntry :=
  leastBy (fun (e : WEntry) => (2 - e.rank) * 64 + (e.who.ctx.val + 127 - f.rot[k] % 64) % 64)
    (f.wl.filter fun e => e.stack = k && e.place == .queue)

/-- A stack's scheduler serves lines until one of them has left; fuel bounds them. -/
def Fab.serveTo (f : Fab) (m : Mgt) (k : StackId) (id : Nat) : Nat → Fab
  | 0 => f
  | fuel + 1 =>
    if !f.wl.any fun e => e.id = id then f
    else
      match f.nextLine k with
      | some e => Fab.serveTo { f.drainOne m e with rot := f.rot.set k e.who.ctx.val } m k id fuel
      | none => f

/-- WRITE_LANE_DRAIN: a queued line is written, after those that its stack serves before it (R116, R315). -/
def execWriteLaneDrain (id : Nat) (s : State) : Res :=
  s.event fun m f =>
    match f.wl.find? fun e => e.id = id && e.place == .queue with
    | none => f
    | some e => f.serveTo m e.stack id f.wl.length

/-- WLC_BACKGROUND_PROMOTE: a background line that has waited 20 µs is served as high (R315). -/
def execWlcBackgroundPromote (id : Nat) (s : State) : Res :=
  s.event fun _ f =>
    { f with wl := f.wl.map fun e => if e.id = id && e.wlc = 1 && e.place == .queue then { e with high := true } else e }

/-! Home-slice writebacks (R116, R152, R247, R248). -/

/-- The home slice that holds a dirty line: the one that it was brought into (R312, R317). Where its router has been fenced since, the
spec is silent on the line; the home that it has now holds it, with its data, and writes it back (R27; log 31, DESIGN CHOICE). -/
def Dirty.slice (d : Dirty) (m : Mgt) (line : Nat) : Nat :=
  let now := m.homeSlice d.plc d.parg (m.gpa (64 * line))
  match d.home with
  | some k => if m.clusterFenced k then now else k
  | none => now

/-- A dirty line leaves its home slice for the write queue of its stack, charged to the context that dirtied it; one that a device
unit, the host or a peer wrote is charged to none and is taken as written at once (log 36, DESIGN CHOICE). -/
def Fab.writeback (f : Fab) (line : Nat) (d : Dirty) : Fab :=
  let data := bytesLine (peeks f.mem (64 * line) 64)
  let g := { f with dirty := mdel line f.dirty }
  match d.who with
  | none => { g with wl := g.wl.map fun e => if e.line = line && e.place ≠ .unit then { e with stale := true } else e }
  | some w =>
    Fab.spend { g with
      ids := g.ids + 1
      mem := pokes g.mem (64 * line) (lineBytes d.hbm)
      wl := g.wl ++ [⟨g.ids, w, stackOf (64 * line), line, 0, data, d.wlc, .queue, none, false, false, false⟩] } w.ctx (stackOf (64 * line))

/-- Whether the writeback of a line may enter its queue now (R246). -/
def Fab.backOk (f : Fab) (line : Nat) (d : Dirty) : Bool :=
  d.who.all fun w => (f.ctx w.ctx).mayEnter (stackOf (64 * line))

/-- A home slice evicts a dirty line. Without allowance its writeback waits at the slice; where the slice must have the room, it
evicts a line of another context instead, or admits this one as debt (R247, R248). -/
def Fab.evict (f : Fab) (m : Mgt) (line : Nat) (must : Bool) : Fab :=
  match f.dirtyAt line with
  | none => f
  | some d =>
    if f.backOk line d then f.writeback line d
    else if !must then f
    else
      match f.dirty.find? fun x =>
        x.2.slice m x.1 = d.slice m line && x.2.who.map (·.ctx) ≠ d.who.map (·.ctx) && f.backOk x.1 x.2 with
      | some x => f.writeback x.1 x.2
      | none => f.writeback line d

/-! Budget windows (R246). -/

/-- A window opens for a context at a stack: allowance, debt, and whether its budget limits it until the next one (R242, R246). -/
def Ctx.openWindow (x : Ctx) (k : StackId) : Ctx :=
  { x with
    allow := x.allow.set k (x.wbudget[k] - x.debt[k]), debt := x.debt.set k (x.debt[k] - x.wbudget[k])
    nolimit := x.nolimit.set k (decide (x.wbudget[k] ≥ 93750)) }

/-- The number of the 10 µs window in which a stack's die stands (R246). -/
def Mgt.windowNo (m : Mgt) (k : StackId) : Nat := (m.time[Fin.ofNat 4 (k.val / 2)]).toNat / 10000

/-- WRITE_BUDGET_WINDOW: a 10 µs window opens at a stack, once TIMENOW has reached it (R246, R247); lines that waited in a matrix
unit may end their instructions (R208), and engines that waited for the budget go on. -/
def execWriteBudgetWindow (k : StackId) (s : State) : Res :=
  s.event fun m f =>
    if m.windowNo k = f.winAt[k] then f
    else
      let g : Fab := { f with ctxs := f.ctxs.map fun p => (p.1, p.2.openWindow k), winAt := f.winAt.set k (m.windowNo k) }
      let g := g.admitLines m k .budget g.wl
      let g := g.admitLines m k .unit g.wl
      let waits := g.cores.filterMap fun c => (c.2.mq.head?).bind fun e => if e.done then some (.matrixComplete (Fin.ofNat 2304 c.1)) else none
      { g with due := g.due ++ waits ++ ((g.ops.filter (·.started)).map fun o => o.msg.event) ++
          (g.contribs.map fun k => .collectiveComplete k.ctx k.xid) ++ g.chimes.map fun k => .chime k.id }

end Sys2Proof.Machine
end

