-- ==== Sys2Proof/Machine/Vector.lean ====
section
/-! DEFINITION. Vector and transform instructions (09_isa_vector R170 to R186). -/

namespace Sys2Proof.Machine

/-! Lanes (R170). -/

/-- Lane i of width w. -/
def lane (w : Nat) (x : Line) (i : Nat) : Nat := x.toNat / 2 ^ (w * i) % 2 ^ w
/-- A register from its lanes, lane 0 first. -/
def ofLanes (w : Nat) (xs : List Nat) : Line := BitVec.ofNat 512 (xs.foldr (fun a acc => a % 2 ^ w + 2 ^ w * acc) 0)
/-- A register whose lane i is g i. -/
def lanesBy (w : Nat) (g : Nat → Nat) : Line := ofLanes w ((List.range (512 / w)).map g)

/-- The component format of a complex type. -/
def tyCp : Ty → Option Fp
  | .c32 => some f32
  | .c16 => some f16
  | _ => none

/-- The components of a complex pattern, real first. -/
def reOf (F : Fp) (x : Nat) : Nat := x % 2 ^ F.width
def imOf (F : Fp) (x : Nat) : Nat := x / 2 ^ F.width

/-! Lane operations (R174). -/

/-- a + b, or a − b, of one IEEE format. -/
def fAdd (F : Fp) (minus : Bool) (a b : Nat) : Nat :=
  F.op [a, b] (F.round .near ((F.decode a).add (if minus then (F.decode b).negate else F.decode b)))

/-- VADD and VSUB. -/
def vAddElem (ty : Ty) (minus : Bool) (a b : Nat) : Nat :=
  match tyFp ty, tyCp ty with
  | some F, _ => fAdd F minus a b
  | _, some F => cjoin F (fAdd F minus (reOf F a) (reOf F b)) (fAdd F minus (imOf F a) (imOf F b))
  | _, _ => if minus then (a + 2 ^ ty.width - b) % 2 ^ ty.width else (a + b) % 2 ^ ty.width

/-- VMUL; a complex product takes its NaN from all four components (R173). -/
def vMulElem (ty : Ty) (a b : Nat) : Nat :=
  match tyFp ty, tyCp ty with
  | some F, _ => F.op [a, b] (F.round .near ((F.decode a).mul (F.decode b)))
  | _, some F =>
    match firstNan F [reOf F a, imOf F a, reOf F b, imOf F b] with
    | some q => cjoin F q q
    | none =>
      let A := cparts F a
      let B := cparts F b
      cjoin F (F.round .near ((A.1.mul B.1).add (A.2.mul B.2).negate)) (F.round .near ((A.1.mul B.2).add (A.2.mul B.1)))
  | _, _ => a * b % 2 ^ ty.width

/-- Whether a is the smaller lane: −0 < +0, integers by their sign. -/
def laneLess (ty : Ty) (a b : Nat) : Bool :=
  match tyFp ty with
  | some F => (F.decode a).lt (F.decode b) || ((F.decode a).eq (F.decode b) && F.neg a && !F.neg b)
  | none => intVal ty.isSigned ty.width a < intVal ty.isSigned ty.width b

/-- VMIN and VMAX. -/
def vMinElem (ty : Ty) (big : Bool) (a b : Nat) : Nat :=
  let r := if laneLess ty a b != big then a else b
  match tyFp ty with
  | some F => F.op [a, b] r
  | none => r

def vAbsElem (ty : Ty) (a : Nat) : Nat :=
  match tyFp ty with
  | some F => a % F.signBit
  | none => (intVal ty.isSigned ty.width a).natAbs % 2 ^ ty.width

/-- A sign bit inverted. -/
def fNeg (F : Fp) (a : Nat) : Nat := if F.neg a then a % F.signBit else a % F.signBit + F.signBit

def vNegElem (ty : Ty) (a : Nat) : Nat :=
  match tyFp ty, tyCp ty with
  | some F, _ => fNeg F a
  | _, some F => cjoin F (fNeg F (reOf F a)) (fNeg F (imOf F a))
  | _, _ => (2 ^ ty.width - a) % 2 ^ ty.width

def vShlElem (ty : Ty) (a b : Nat) : Nat := if b ≥ ty.width then 0 else a * 2 ^ b % 2 ^ ty.width
def vShrElem (ty : Ty) (a b : Nat) : Nat :=
  (intVal ty.isSigned ty.width a / 2 ^ min b ty.width % 2 ^ ty.width).toNat

def vDivElem (ty : Ty) (a b : Nat) : Nat :=
  match tyFp ty with
  | some F => F.op [a, b] (F.quot (F.decode a) (F.decode b))
  | none => 0
def vSqrtElem (ty : Ty) (a : Nat) : Nat :=
  match tyFp ty with
  | some F => F.op [a] (F.sqrt (F.decode a))
  | none => 0

/-- VADDS and VSUBS. -/
def vSatElem (ty : Ty) (minus : Bool) (a b : Nat) : Nat :=
  let x := intVal ty.isSigned ty.width a
  let y := intVal ty.isSigned ty.width b
  satBits ty.isSigned ty.width (if minus then x - y else x + y)

/-- The fused multiply-adds (R175): one rounding; the NaN test comes first. -/
def vFmaElem (ty : Ty) (negProd negAdd : Bool) (a b c : Nat) : Nat :=
  match tyFp ty with
  | some F =>
    let p := (F.decode a).mul (F.decode b)
    let z := F.decode c
    F.op [a, b, c] (F.round .near ((if negProd then p.negate else p).add (if negAdd then z.negate else z)))
  | none => 0

/-- Numerical equality of two patterns of an IEEE format; false where either is NaN. -/
def fEq (F : Fp) (a b : Nat) : Bool := !F.isNan a && !F.isNan b && (F.decode a).eq (F.decode b)

/-- Equality of lanes (R176). -/
def laneEq (ty : Ty) (a b : Nat) : Bool :=
  match tyFp ty, tyCp ty with
  | some F, _ => fEq F a b
  | _, some F => fEq F (reOf F a) (reOf F b) && fEq F (imOf F a) (imOf F b)
  | _, _ => a = b

/-- a < b numerically; false where either is NaN. -/
def laneLt (ty : Ty) (a b : Nat) : Bool :=
  match tyFp ty with
  | some F => !F.isNan a && !F.isNan b && (F.decode a).lt (F.decode b)
  | none => intVal ty.isSigned ty.width a < intVal ty.isSigned ty.width b

def laneNan (ty : Ty) (a : Nat) : Bool :=
  match tyFp ty, tyCp ty with
  | some F, _ => F.isNan a
  | _, some F => F.isNan (reOf F a) || F.isNan (imOf F a)
  | _, _ => false

def vCmpHolds (ty : Ty) (c : VCond) (a b : Nat) : Bool :=
  match c with
  | .eq => laneEq ty a b
  | .ne => !laneEq ty a b
  | .lt => laneLt ty a b
  | .le => laneLt ty a b || laneEq ty a b
  | .uno => laneNan ty a || laneNan ty b

/-! Whole registers. -/

def vMap1 (ty : Ty) (op : Nat → Nat) (a : Line) : Line := lanesBy ty.width fun i => op (lane ty.width a i)
def vMap2 (ty : Ty) (op : Nat → Nat → Nat) (a b : Line) : Line :=
  lanesBy ty.width fun i => op (lane ty.width a i) (lane ty.width b i)
def vMap3 (ty : Ty) (op : Nat → Nat → Nat → Nat) (a b c : Line) : Line :=
  lanesBy ty.width fun i => op (lane ty.width a i) (lane ty.width b i) (lane ty.width c i)

/-- v[d] := op(v[a]). -/
def vecUn (g : Guard) (d a : VReg) (op : Line → Line) (s : State) : Res :=
  s.local g [.v a] [.v d] fun t => t.wrv d (op (t.rdv a))
/-- v[d] := op(v[a], v[b]). -/
def vecBin (g : Guard) (d a b : VReg) (op : Line → Line → Line) (s : State) : Res :=
  s.local g [.v a, .v b] [.v d] fun t => t.wrv d (op (t.rdv a) (t.rdv b))
/-- v[d] := op(v[a], v[b], v[c]). -/
def vecTri (g : Guard) (d a b c : VReg) (op : Line → Line → Line → Line) (s : State) : Res :=
  s.local g [.v a, .v b, .v c] [.v d] fun t => t.wrv d (op (t.rdv a) (t.rdv b) (t.rdv c))

/-- VADD to VSUBS (R174). -/
def execVadd (g : Guard) (d a b : VReg) (ty : Ty) (s : State) : Res := vecBin g d a b (vMap2 ty (vAddElem ty false)) s
def execVsub (g : Guard) (d a b : VReg) (ty : Ty) (s : State) : Res := vecBin g d a b (vMap2 ty (vAddElem ty true)) s
def execVmul (g : Guard) (d a b : VReg) (ty : Ty) (s : State) : Res := vecBin g d a b (vMap2 ty (vMulElem ty)) s
def execVmin (g : Guard) (d a b : VReg) (ty : Ty) (s : State) : Res := vecBin g d a b (vMap2 ty (vMinElem ty false)) s
def execVmax (g : Guard) (d a b : VReg) (ty : Ty) (s : State) : Res := vecBin g d a b (vMap2 ty (vMinElem ty true)) s
def execVabs (g : Guard) (d a : VReg) (ty : Ty) (s : State) : Res := vecUn g d a (vMap1 ty (vAbsElem ty)) s
def execVneg (g : Guard) (d a : VReg) (ty : Ty) (s : State) : Res := vecUn g d a (vMap1 ty (vNegElem ty)) s
/-- VAND, VOR and VXOR work on all 512 bits, whatever the type (R174). -/
def execVand (g : Guard) (d a b : VReg) (_ty : Ty) (s : State) : Res := vecBin g d a b (· &&& ·) s
def execVor (g : Guard) (d a b : VReg) (_ty : Ty) (s : State) : Res := vecBin g d a b (· ||| ·) s
def execVxor (g : Guard) (d a b : VReg) (_ty : Ty) (s : State) : Res := vecBin g d a b (· ^^^ ·) s
def execVshl (g : Guard) (d a b : VReg) (ty : Ty) (s : State) : Res := vecBin g d a b (vMap2 ty (vShlElem ty)) s
def execVshr (g : Guard) (d a b : VReg) (ty : Ty) (s : State) : Res := vecBin g d a b (vMap2 ty (vShrElem ty)) s
def execVdiv (g : Guard) (d a b : VReg) (ty : Ty) (s : State) : Res := vecBin g d a b (vMap2 ty (vDivElem ty)) s
def execVsqrt (g : Guard) (d a : VReg) (ty : Ty) (s : State) : Res := vecUn g d a (vMap1 ty (vSqrtElem ty)) s
def execVadds (g : Guard) (d a b : VReg) (ty : Ty) (s : State) : Res := vecBin g d a b (vMap2 ty (vSatElem ty false)) s
def execVsubs (g : Guard) (d a b : VReg) (ty : Ty) (s : State) : Res := vecBin g d a b (vMap2 ty (vSatElem ty true)) s
/-- VFMA, VFMS, VFNMA, VFNMS (R175). -/
def execVfma (g : Guard) (d a b c : VReg) (ty : Ty) (s : State) : Res :=
  vecTri g d a b c (vMap3 ty (vFmaElem ty false false)) s
def execVfms (g : Guard) (d a b c : VReg) (ty : Ty) (s : State) : Res :=
  vecTri g d a b c (vMap3 ty (vFmaElem ty false true)) s
def execVfnma (g : Guard) (d a b c : VReg) (ty : Ty) (s : State) : Res :=
  vecTri g d a b c (vMap3 ty (vFmaElem ty true false)) s
def execVfnms (g : Guard) (d a b c : VReg) (ty : Ty) (s : State) : Res :=
  vecTri g d a b c (vMap3 ty (vFmaElem ty true true)) s

/-- VCMP (R176): all ones where the condition holds. -/
def execVcmp (g : Guard) (c : VCond) (d a b : VReg) (ty : Ty) (s : State) : Res :=
  vecBin g d a b (vMap2 ty fun x y => if vCmpHolds ty c x y then 2 ^ ty.width - 1 else 0) s
/-- VSEL (R177): the top bit of the mask lane chooses. -/
def execVsel (g : Guard) (d a b c : VReg) (ty : Ty) (s : State) : Res :=
  vecTri g d a b c (vMap3 ty fun x y z => if z.testBit (ty.width - 1) then x else y) s

/-! Conversions (R178, R179). -/

/-- One lane converted. A type to itself copies the bits; of a t6 lane bits 7:6 are written zero (R170), "bits unchanged" (R84, R179)
being those of the value (log 34, DESIGN CHOICE). -/
def convertAny (dir : Dir) (dst src : Ty) (x : Nat) : Nat :=
  if dst = src then (if dst = .t6 then x % 64 else x) else if dst.isC then convertC dir dst src x else convert dir dst src x

/-- The register that a conversion writes, from the old destination and the source (R178). -/
def vConvert (dir : Dir) (hi : Bool) (dst src : Ty) (old x : Line) : Line :=
  let wd := dst.width
  let ws := src.width
  let n := 512 / max wd ws
  let off := if hi then n else 0
  lanesBy wd fun k =>
    if wd ≥ ws then convertAny dir dst src (lane ws x (k + off))
    else if off ≤ k && k < off + n then convertAny dir dst src (lane ws x (k - off))
    else if hi then lane wd old k else 0

/-- The registers that a HI form reads: one that narrows keeps lanes of its destination (R178). -/
def hiReads (dst src : Ty) (d a : VReg) : List Dst := if dst.width < src.width then [.v d, .v a] else [.v a]

/-- VCVT, VCVTZ, VCVTHI, VCVTZHI (R178). -/
def execVcvt (g : Guard) (d a : VReg) (tyd tys : Ty) (s : State) : Res :=
  s.local g [.v a] [.v d] fun t => t.wrv d (vConvert .near false tyd tys (t.rdv d) (t.rdv a))
def execVcvtz (g : Guard) (d a : VReg) (tyd tys : Ty) (s : State) : Res :=
  s.local g [.v a] [.v d] fun t => t.wrv d (vConvert .zero false tyd tys (t.rdv d) (t.rdv a))
def execVcvthi (g : Guard) (d a : VReg) (tyd tys : Ty) (s : State) : Res :=
  s.local g (hiReads tyd tys d a) [.v d] fun t => t.wrv d (vConvert .near true tyd tys (t.rdv d) (t.rdv a))
def execVcvtzhi (g : Guard) (d a : VReg) (tyd tys : Ty) (s : State) : Res :=
  s.local g (hiReads tyd tys d a) [.v d] fun t => t.wrv d (vConvert .zero true tyd tys (t.rdv d) (t.rdv a))

/-! Reductions (R180). -/

/-- One level of the tree: neighbours in pairs. -/
def pairUp (op : Nat → Nat → Nat) : List Nat → List Nat
  | a :: b :: xs => op a b :: pairUp op xs
  | xs => xs

/-- Levels of the tree; 64 lanes have six. -/
def treeUp (op : Nat → Nat → Nat) : Nat → List Nat → List Nat
  | 0, xs => xs
  | k + 1, xs => treeUp op k (pairUp op xs)

/-- A lane as a scalar: sign-extended for .s types, zero-extended otherwise (R180, R181). -/
def extendLane (ty : Ty) (x : Nat) : Word :=
  if ty.isSigned then BitVec.ofInt 64 (intVal true ty.width x) else BitVec.ofNat 64 x

def vReduce (ty : Ty) (op : Nat → Nat → Nat) (a : Line) : Word :=
  extendLane ty ((treeUp op 6 ((List.range ty.lanes).map (lane ty.width a))).headD 0)

/-- s[d] := the reduction of v[a]. -/
def vecRed (g : Guard) (d : SReg) (a : VReg) (ty : Ty) (op : Nat → Nat → Nat) (s : State) : Res :=
  s.local g [.v a] [.s d] fun t => t.wr d (vReduce ty op (t.rdv a))

def execVredadd (g : Guard) (d : SReg) (a : VReg) (ty : Ty) (s : State) : Res := vecRed g d a ty (vAddElem ty false) s
def execVredmin (g : Guard) (d : SReg) (a : VReg) (ty : Ty) (s : State) : Res := vecRed g d a ty (vMinElem ty false) s
def execVredmax (g : Guard) (d : SReg) (a : VReg) (ty : Ty) (s : State) : Res := vecRed g d a ty (vMinElem ty true) s
def execVredand (g : Guard) (d : SReg) (a : VReg) (ty : Ty) (s : State) : Res := vecRed g d a ty Nat.land s
def execVredor (g : Guard) (d : SReg) (a : VReg) (ty : Ty) (s : State) : Res := vecRed g d a ty Nat.lor s

/-! Permutes (R181). -/

/-- VPERM: the index lane is read unsigned, all its bits; so an index of 64 or more of a t6 lane gives 0, R181's words standing before
R170's on a t6 lane read as a number (log 34, DESIGN CHOICE). -/
def vPermute (ty : Ty) (a b : Line) : Line :=
  lanesBy ty.width fun i =>
    let x := lane ty.width b i
    if x < ty.lanes then lane ty.width a x else 0
def vZip (ty : Ty) (a b : Line) : Line :=
  lanesBy ty.width fun i => if i % 2 = 0 then lane ty.width a (i / 2) else lane ty.width b (i / 2)
def vUnzip (ty : Ty) (a b : Line) : Line :=
  let half := ty.lanes / 2
  lanesBy ty.width fun i => if i < half then lane ty.width a (2 * i) else lane ty.width b (2 * (i - half))
/-- Lane k replaced. -/
def vInsert (ty : Ty) (v : Line) (k x : Nat) : Line := lanesBy ty.width fun i => if i = k then x else lane ty.width v i

def execVperm (g : Guard) (d a b : VReg) (ty : Ty) (s : State) : Res := vecBin g d a b (vPermute ty) s
def execVzip (g : Guard) (d a b : VReg) (ty : Ty) (s : State) : Res := vecBin g d a b (vZip ty) s
def execVunzip (g : Guard) (d a b : VReg) (ty : Ty) (s : State) : Res := vecBin g d a b (vUnzip ty) s
def execVbcast (g : Guard) (d : VReg) (a : SReg) (ty : Ty) (s : State) : Res :=
  s.local g [.s a] [.v d] fun t => t.wrv d (lanesBy ty.width fun _ => (t.rd a).toNat)
def execVextr (g : Guard) (d : SReg) (v : VReg) (ty : Ty) (k : BitVec 6) (s : State) : Res :=
  s.local g [.v v] [.s d] fun t => t.wr d (extendLane ty (lane ty.width (t.rdv v) k.toNat))
def execVins (g : Guard) (x : SReg) (v : VReg) (ty : Ty) (k : BitVec 6) (s : State) : Res :=
  s.local g [.s x, .v v] [.v v] fun t => t.wrv v (vInsert ty (t.rdv v) k.toNat (t.rd x).toNat)

/-! Vector loads and stores (R182). -/

def execVld (g : Guard) (v : VReg) (a : SReg) (imm : BitVec 17) (s : State) : Res :=
  s.head g [.s a] [.v v] fun m f c h => loadHead (.v v) ((f.thread c h).ea a imm) 64 .core .rlx .vload m f c h
def execVst (g : Guard) (v : VReg) (a : SReg) (imm : BitVec 17) (s : State) : Res :=
  s.head g [.v v, .s a] [] fun m f c h =>
    let t := f.thread c h
    storeHead (t.ea a imm) (lineBytes (t.rdv v)) .core .rlx 0x26 1 m f c h

/-! Butterflies, twiddles, random numbers (R183 to R186). -/

def cFp (ty : Ty) : Fp := (tyCp ty).getD f32

/-- Register r + k, modulo the file. -/
def vnext (r : VReg) (k : Nat) : VReg := Fin.ofNat 16 (r.val + k)

/-- BFLY2 (R183): both outputs are formed before either is written. -/
def execBfly2 (g : Guard) (d a b c : VReg) (ty : Ty) (s : State) : Res :=
  s.local g [.v a, .v b, .v c] [.v d, .v (vnext d 1)] fun t =>
    let y := fun (i : Nat) => bfly2Elem (cFp ty) (lane ty.width (t.rdv a) i) (lane ty.width (t.rdv b) i)
      (lane ty.width (t.rdv c) i)
    (t.wrv d (lanesBy ty.width fun i => (y i).1)).wrv (vnext d 1) (lanesBy ty.width fun i => (y i).2)

/-- BFLY4 (R184). -/
def execBfly4 (g : Guard) (d a c : VReg) (ty : Ty) (s : State) : Res :=
  s.local g ((List.range 4).map (fun k => .v (vnext a k)) ++ (List.range 3).map (fun k => .v (vnext c k)))
      ((List.range 4).map fun k => .v (vnext d k)) fun t =>
    let x := fun (r : VReg) (k i : Nat) => lane ty.width (t.rdv (vnext r k)) i
    let y := fun (i : Nat) => bfly4Elem (cFp ty) (x a 0 i) (x a 1 i) (x a 2 i) (x a 3 i) (x c 0 i) (x c 1 i) (x c 2 i)
    let out := fun (k : Nat) => lanesBy ty.width fun i => (y i).getD k 0
    (((t.wrv d (out 0)).wrv (vnext d 1) (out 1)).wrv (vnext d 2) (out 2)).wrv (vnext d 3) (out 3)

/-- TWID (R185). -/
def execTwid (g : Guard) (d : VReg) (a b : SReg) (s : State) : Res :=
  s.local g [.s a, .s b] [.v d] fun t =>
    t.wrv d (lanesBy 64 fun i => twidElem (t.rd a).toNat (t.rd b + BitVec.ofNat 64 i).toNat)

/-- RAND (R186). -/
def execRand (g : Guard) (d : VReg) (a b c : SReg) (ty : Ty) (s : State) : Res :=
  s.local g [.s a, .s b, .s c] [.v d] fun t =>
    t.wrv d (lanesBy ty.width fun i => randElem ty (rand64 (t.rd a) (t.rd b) (t.rd c + BitVec.ofNat 64 i)))

end Sys2Proof.Machine
end

