-- ==== Sys2Proof/Machine/Engines.lean ====
section
/-! DEFINITION. Decrements, wakes and bindings, active messages and their engines (11_isa_tasks R214 to R230, 14_kernel R267 to
R276, 18_link R331 to R333). -/

namespace Sys2Proof.Machine

/-! Decrements, wakes, bindings. -/

/-- The core that sends a decrement itself: of a TDEC or a barrier release (R214). -/
def DecSrc.core : DecSrc → Option (CtxId × Nat × Nat)
  | .tdec w => some (w.ctx, w.vx, w.vy)
  | .barrier n vx vy => some (n, vx, vy)
  | _ => none

/-- Where a decrement goes: the home slice of its record, or another device (R214, R312). -/
def Fab.decGoal (f : Fab) (m : Mgt) (d : Dec) : Option (Nat × Bool) :=
  (if d.recAddr < peerBase then f.walkOnly m d.ctx d.recAddr else none).map fun e =>
    match m.place (e.gpa d.recAddr) with
    | .other dev _ => (dev, true)
    | _ => (m.homeSlice e.plc e.parg (e.gpa d.recAddr), false)

/-- Whether an earlier decrement of the same core to the same home slice or device is still on its way there (R10, R214). -/
def Fab.decBehind (f : Fab) (m : Mgt) (d : Dec) : Bool :=
  d.src.core.isSome && (f.decs.takeWhile fun x => x.id ≠ d.id).any fun x =>
    x.src.core = d.src.core && f.decGoal m x = f.decGoal m d && !f.sent.any fun q => q.what = .dec x.id

/-- DECREMENT_APPLY: a decrement reaches the home slice of its record, after those of its core that were sent there before it
(R10, R214, R267). One to a record of another device leaves through a port and waits for that device's answer (R330); without a
route it fails (R328). -/
def execDecrementApply (id : Nat) (s : State) : Res :=
  s.event fun m f =>
    match f.decs.find? (·.id = id) with
    | none => f
    | some d =>
      if f.decBehind m d then f.push (.decrementApply id)
      else
        let here := fun (f : Fab) (g : Fab → Fab) => (g { f with decs := f.decs.filter fun x => x.id ≠ id }).settleKernels m
        match (f.recAt m d.ctx d.recAddr).map m.place with
        | some (.other dev la) =>
          if f.sent.any (·.what = .dec id) then f
          else if (f.recWr m d.ctx d.recAddr).isSome && m.routed dev then f.transmit m (.dec id) dev (la / 64)
          else here f fun g => g.decFails d .pageFault
        | _ => here f fun g => g.decrement m d

/-- WAKE_WRITE: a write to a watched word sends a decrement of 1 (R215). -/
def execWakeWrite (id : Nat) (s : State) : Res :=
  s.event fun _ f =>
    match f.wakes.find? (·.id = id) with
    | none => f
    | some w => { f with wakes := f.wakes.filter fun x => x.id ≠ id }.sendDec w.ctx w.recAddr 1 w.epoch .wake

/-- Whether a core may bind a firing: it is awake, its context is ACTIVE and not being stopped, and no swap holds it (R271,
R283, R289, R346). -/
def Fab.binds (f : Fab) (c : CoreId) : Bool :=
  let x := f.core c
  match x.occ with
  | none => false
  | some o =>
    x.power == .awake && (f.ctx o.ctx).st == .active && (f.ctx o.ctx).pre.isNone && !f.pairs.any fun p => p.lo = c || p.hi = c

/-- Whether a thread of a core may take a firing of the ready set (R72, R270). -/
def Core.mayTake (x : Core) (h : ThreadId) : Bool := x.threads[h].st == .free && !(h = 7 && x.landctl)

/-- A message firing starts (R224): v0 holds the message. -/
def Fab.bindMessage (f : Fab) (m : Mgt) (c : CoreId) (h : ThreadId) (r : Inbox) : Fab :=
  let f := f.modCore c fun x => { x with inbox := x.inbox.erase r }
  match f.liveRec m (f.core c).ctxId r.recAddr with
  | some (gpa, l) => f.start m c h gpa l .message r.epoch none r.blk 0 0
  | none => f

/-- Whether a firing of a record may be bound as its buffers stand: two firings of a bound record never are at once (R268). -/
def Fab.mayBind (f : Fab) (m : Mgt) (n : CtxId) (recAddr : Nat) : Bool :=
  match f.liveRec m n recAddr with
  | some (gpa, l) => ((f.boundCore m gpa l).map fun d => (f.core d).buffersReady l).getD l.binds.isEmpty
  | none => true

/-- The oldest firing of the ready set that may be bound, if there is one; of firings that became ready in one cycle the run queue
goes first, and then the lower record (R268, R270). -/
def Fab.bindOldest (f : Fab) (m : Mgt) (c : CoreId) (h : ThreadId) : Option Fab :=
  let x := f.core c
  let runq := x.runq.filter fun r => match r.kind with
    | .handler .. => f.mayBind m x.ctxId r.recAddr
    | _ => true
  let inbox := x.inbox.filter fun r => f.mayBind m x.ctxId r.recAddr
  match leastBy (fun (r : Ready) => 2 ^ 64 * r.seq + r.recAddr) runq, leastBy (fun (r : Inbox) => 2 ^ 64 * r.seq + r.recAddr) inbox with
  | some r, some i => some (if r.seq ≤ i.seq then f.bindReady m c h r else f.bindMessage m c h i)
  | some r, none => some (f.bindReady m c h r)
  | none, some i => some (f.bindMessage m c h i)
  | none, none => none

/-- FIRING_BIND: a free thread takes the oldest ready firing of its core (R268, R270, R271). An entry that frees lets the chain,
the fault log and held chimes go on (R115, R269, R270). -/
def execFiringBind (c : CoreId) (h : ThreadId) (s : State) : Res :=
  s.event fun m f =>
    match if f.binds c && (f.core c).mayTake h then f.bindOldest m c h else none with
    | some g =>
      let g := ((g.unchain m c).reports c).replay c
      (if (g.core c).runq.isEmpty && (g.core c).inbox.isEmpty then g else g.kick c).settleKernels m
    | none => f

/-! Messages (R221 to R224). -/

/-- MESSAGE_INJECT: the HOLD delay of a message has passed; the messages of the device stand in the order of their injection from
here on (R221). A SEND counts as traffic to its core (R284). -/
def execMessageInject (id : Nat) (s : State) : Res :=
  s.event fun _ f =>
    match f.msgs.find? fun x => x.id = id && !x.gone && x.due ≤ f.cycle with
    | none => f
    | some x =>
      let g := Fab.push { f with msgs := (f.msgs.filter fun y => y.id ≠ id) ++ [{ x with gone := true }] } (.messageArrival (.own id))
      match f.find x.who.ctx x.who.vx x.who.vy with
      | some c => if x.form = 0 && !blkRmt x.blk then g.count c x.who (blkVx x.blk) (blkVy x.blk) 64 else g
      | none => g

/-- What becomes of a message at a task inbox. -/
inductive Accept where
  | ok (f : Fab)
  | hold (c : CoreId)
  | no (code : Code) (cause : Option Cause) (addr : Word)

/-- A message at a task inbox (R222, R224, R270, R346): the context must take messages, the core exist, the inbox have room and the
record be live. -/
def Fab.acceptSend (f : Fab) (m : Mgt) (n : CtxId) (vx vy : Nat) (blk : Line) (e : BitVec 32) : Accept :=
  let x := f.ctx n
  let takes := x.st == .active || (x.st == .suspending && (x.pre = some .retire || x.pre = some .engines))
  let rec' := wordOf blk 4
  match if takes then f.find n vx vy else none with
  | none => .no .fault (some .pageFault) 0
  | some c =>
    if f.closed c then .hold c
    else if (f.core c).inbox.length ≥ Config.taskInbox then .no .refused none 0
    else
      match f.recAt m n rec' with
      | none => .no .fault (some .pageFault) (BitVec.ofNat 64 rec')
      | some gpa =>
        match f.liveAt gpa with
        | some r =>
          if r.ctx = n then
            .ok (((f.modCore c fun y => { y with idle := 0, inbox := y.inbox ++ [⟨f.cycle, rec', blk, e⟩] }).showState m gpa).kick c)
          else .no .fault (some .taskRecord) (BitVec.ofNat 64 rec')
        | none => .no .fault (some .taskRecord) (BitVec.ofNat 64 rec')

/-- Messages that wait in an engine's inbox: copy engine, prefetch engine, collective engine (R19). -/
def Fab.waitingIn (f : Fab) (p : Msg → Bool) : Nat := f.ops.countP fun o => !o.started && p o.msg

/-- Whether the inbox of a message's engine is full (R222). -/
def Fab.inboxFull (f : Fab) (x : Msg) : Bool :=
  if x.form = 3 then f.waitingIn (fun y => y.form = 3 && y.inbox = x.inbox) ≥ Config.prefInbox
  else if x.form = 4 then f.waitingIn (fun y => y.form = 4 && dieOfCluster y.inbox = dieOfCluster x.inbox) ≥ Config.collInbox
  else f.waitingIn (fun y => y.form ≠ 3 && y.form ≠ 4 && y.inbox = x.inbox) ≥ Config.copyInbox

/-- An engine's inbox takes a message (R222). -/
def Fab.acceptEngine (f : Fab) (x : Msg) : Fab :=
  if f.inboxFull x then f.chimeFor x .refused none 0 0
  else
    Fab.push { f with
      msgs := f.msgs.filter fun y => y.id ≠ x.id
      ops := f.ops ++ [⟨x, false, if x.form = 5 then x.pos else 0, 0, none, false, false, [], none⟩] } x.event

/-- Whether two messages go to one inbox (R19, R221, R331). -/
def sameInbox (x y : Msg) : Bool :=
  if x.form = 0 || y.form = 0 then
    x.form = y.form && blkVx x.blk = blkVx y.blk && blkVy x.blk = blkVy y.blk && blkRmt x.blk = blkRmt y.blk &&
      (!blkRmt x.blk || blkDev x.blk = blkDev y.blk)
  else if x.form = 3 || y.form = 3 then x.form = y.form && x.inbox = y.inbox
  else if x.form = 4 || y.form = 4 then x.form = y.form && dieOfCluster x.inbox = dieOfCluster y.inbox
  else x.inbox = y.inbox

/-- Whether a message of the same core to the same inbox, injected before it, has still to arrive (R10, R221). -/
def Fab.msgBehind (f : Fab) (x : Msg) : Bool :=
  (f.msgs.takeWhile fun y => y.id ≠ x.id).any fun y =>
    y.gone && y.who.ctx = x.who.ctx && y.who.vx = x.who.vx && y.who.vy = x.who.vy && sameInbox x y &&
      !f.sent.any fun q => q.what = .send y.id

/-- A message of this device arrives (R221, R222, R224, R331). One to another device leaves through the port that its core chooses
(R328). -/
def Fab.arriveOwn (f : Fab) (m : Mgt) (x : Msg) : Fab :=
  let away := blkRmt x.blk && blkDev x.blk ≠ m.devnum.toNat
  if x.form ≠ 0 then f.acceptEngine x
  else if away && m.routed (blkDev x.blk) then
    (f.emit (.link (blkDev x.blk) x)).transmit m (.send x.id) (blkDev x.blk) (blkVy x.blk * 256 + blkVx x.blk)
  else if away then f.chimeFor x .fault (some .pageFault) 0 0
  else
    match f.acceptSend m x.who.ctx (blkVx x.blk) (blkVy x.blk) x.blk ((f.ctx x.who.ctx).carry x.who.epoch) with
    | .ok g => g.chimeFor x .done none 0 0
    | .hold c => f.holdAt c (.messageArrival (.own x.id))
    | .no code cause addr => f.chimeFor x code cause 0 addr

/-- A message waits for one that was injected before it: at its core where that takes no packet, else on its way. -/
def Fab.waitTurn (f : Fab) (x : Msg) : Fab :=
  match if x.form = 0 && !blkRmt x.blk then f.find x.who.ctx (blkVx x.blk) (blkVy x.blk) else none with
  | some c => if f.closed c then f.holdAt c (.messageArrival (.own x.id)) else f.push (.messageArrival (.own x.id))
  | none => f.push (.messageArrival (.own x.id))

/-- A chime of another device's SEND leaves for it through a port, or waits for one (R327, R331). -/
def Fab.chimeOut (f : Fab) (m : Mgt) (l : LinkMsg) : Fab :=
  match m.portFor l.dev l.dev with
  | some p => f.carry p (.chime l.dev l.id)
  | none => { f with strand := f.strand ++ [.chime l.dev l.id] }

/-- The chime of another device's SEND is kept until that device has it (R223, R329, R331). -/
def Fab.chimeBack (f : Fab) (m : Mgt) (l : LinkMsg) (code : Code) (cause : Option Cause) (addr : Word) : Fab :=
  let g := f.emit (.linkChime l.dev l.id code cause addr)
  Fab.chimeOut { g with chimed := g.chimed ++ [⟨l.dev, l.id, code, cause, addr⟩] } m l

/-- MESSAGE_ARRIVAL: a message reaches its inbox (R222, R224, R331). The chime of another device's message goes back to it; where that
device sends a message again, it is not accepted again, and the kept chime goes back again (R330). -/
def execMessageArrival (src : MsgSrc) (s : State) : Res :=
  s.event fun m f =>
    match src with
    | .own id =>
      match f.msgs.find? fun x => x.id = id && x.gone && !f.sent.any fun q => q.what = .send id with
      | some x => if f.msgBehind x then f.waitTurn x else f.arriveOwn m x
      | none => f
    | .link l =>
      let x := f.ctx l.ctx
      if f.chimed.any fun k => k.dev = l.dev && k.id = l.id then f.chimeOut m l
      else if x.st ≠ .active then f.chimeBack m l .fault (some .pageFault) 0
      else
        match f.acceptSend m l.ctx l.vx l.vy l.blk (x.carry l.epoch) with
        | .ok g => g.chimeBack m l .done none 0
        | .hold c => f.holdAt c (.messageArrival (.link l))
        | .no code cause addr => f.chimeBack m l code cause addr

/-! Memory accesses of engines (R99, R126, R225). -/

/-- An engine's access: translated memory, or the local window of the issuing core. -/
def engReq (ea n : Nat) (want : Want) : Req := ⟨BitVec.ofNat 64 ea, 1, want, true, false, true, true, false, false, n⟩

/-- Result of an engine's read: its bytes; a fault at an address; or a wait for another device (R330). -/
inductive EngR where
  | done (bs : List Byte) (f : Fab)
  | fault (c : Cause) (addr : Nat) (f : Fab)
  | wait (f : Fab)

/-- Bytes within one line, read for an operation. A local window is read at once, of a gated core too, its bytes being retained:
whether an engine's read is a packet that wakes the core the spec does not say (R23; log 43, DESIGN CHOICE). -/
def Fab.engPart (f : Fab) (m : Mgt) (c : CoreId) (w : Who) (id ea n : Nat) : EngR :=
  match f.check m c w (engReq ea n .load) with
  | .error e => .fault e ea (f.walked m c w (engReq ea n .load))
  | .ok (.loc off, g) => .done ((g.core c).locBytes off n) g
  | .ok (.mem gpa e, g) =>
    if m.isOther gpa then
      match g.farRead m (.op id) w.ctx gpa n with
      | .wait g => .wait g
      | .done bs => .done bs g
      | .bad e => .fault e ea g
    else if m.atHost gpa && g.readBad m gpa then .fault .pageFault ea g
    else .done (g.load m c w.ctx e gpa n).1 (g.load m c w.ctx e gpa n).2
  | .ok (.peer .., g) => .fault .pageFault ea g

/-- Bytes over several lines, with the address of the first that faults; fuel bounds the lines. -/
def Fab.engRead (f : Fab) (m : Mgt) (c : CoreId) (w : Who) (id : Nat) : Nat → Nat → Nat → EngR
  | 0, _, _ => .done [] f
  | fuel + 1, ea, n =>
    if n = 0 then .done [] f
    else
      let k := min n (64 - ea % 64)
      match f.engPart m c w id ea k with
      | .done bs g =>
        match g.engRead m c w id fuel (ea + k) (n - k) with
        | .done rest h => .done (bs ++ rest) h
        | r => r
      | r => r

/-- An operation has used what it read of other devices. -/
def Fab.usedReads (f : Fab) (id : Nat) : Fab := { f with reads := f.reads.filter fun r => r.by' ≠ .op id }

/-- Result of an engine's write: done; a fault; or a wait, for the matrix unit (R149) or for the write budget (R247). -/
inductive EngW where
  | done (f : Fab)
  | fault (c : Cause) (f : Fab)
  | wait (f : Fab)

/-- Bytes within one line, or, outside this device's memory, within one page. A line of this device's memory, written whole or in
part, enters the write lane and is charged (R17, R246, R247). op names the operation and its step, for an owner's refusal; ev
happens again when a wait ends. -/
def Fab.engWrite (f : Fab) (m : Mgt) (c : CoreId) (w : Who) (ea : Nat) (bs : List Byte) (minor : Nat) (op : Option (Nat × Nat))
    (ev : Instr) : EngW :=
  match f.check m c w (engReq ea bs.length .store) with
  | .error e => .fault e (f.walked m c w (engReq ea bs.length .store))
  | .ok (.loc off, g) =>
    if g.closed c || (g.core c).locked off bs.length then .wait (g.holdAt c ev) else .done (g.modCore c fun x => x.locWrite off bs)
  | .ok (.mem gpa e, g) =>
    (match m.place gpa with
     | .own la =>
       if (f.ctx w.ctx).mayEnter (stackOf la) then
         .done (((g.noteWrite m w e gpa bs.length false).spend w.ctx (stackOf la)).enterBytes m w ea la bs e.wlc)
       else .wait g
     | _ => .done (g.putOut m w (BitVec.ofNat 64 ea) gpa bs 0x39 minor op))
  | .ok (.peer .., g) => .fault .pageFault g

/-- Where an engine's loop over lines stands: done; waiting or faulting at an offset. -/
inductive Moved where
  | done (f : Fab)
  | wait (f : Fab) (off : Nat)
  | fault (f : Fab) (off : Nat) (c : Cause) (addr : Nat)

/-- The end of the page that an address lies on (R308); 64 KiB where none is mapped. -/
def Fab.pageEnd (f : Fab) (m : Mgt) (c : CoreId) (n : CtxId) (ea : Nat) : Nat :=
  match regionOf ea with
  | .mem va =>
    match f.translate m c n va (fun _ => true) with
    | some (e, _) => e.vbase + e.size
    | none => ea / 2 ^ 16 * 2 ^ 16 + 2 ^ 16
  | .loc _ => locBase + 2 ^ 18
  | _ => ea / 2 ^ 16 * 2 ^ 16 + 2 ^ 16

/-- The start of the page that an address lies on. -/
def Fab.pageStart (f : Fab) (m : Mgt) (c : CoreId) (n : CtxId) (ea : Nat) : Nat :=
  match regionOf ea with
  | .mem va =>
    match f.translate m c n va (fun _ => true) with
    | some (e, _) => e.vbase
    | none => ea / 2 ^ 16 * 2 ^ 16
  | .loc _ => locBase
  | _ => ea / 2 ^ 16 * 2 ^ 16

/-! XCOPY and RESUME of a copy (R225, R229). -/

def cpSrc (b : Line) : Nat := wordOf b 4
def cpDst (b : Line) : Nat := wordOf b 5
def cpSize (b : Line) : Nat := wordOf b 6 % 2 ^ 48
def elemBytes (d : CbDesc) : Nat := 64 * (d.esz + 1)

/-- The core that receives a copy's granules. -/
def Fab.recvCore (f : Fab) (x : Msg) : Option CoreId :=
  if blkCbf x.blk then f.find x.who.ctx (blkVx x.blk) (blkVy x.blk) else f.find x.who.ctx x.who.vx x.who.vy

/-- Whether thread 7 of a core is for landing handlers: a clear of LANDCTL takes effect after a handler that runs there retires
(R72). -/
def Core.landing (x : Core) : Bool :=
  x.landctl || x.threads[(7 : ThreadId)].firing.any fun g => g.kind == .landing

/-- The cases of a copy that do not depend on the position, in order (R225). -/
def Fab.copyBad (f : Fab) (x : Msg) : Option Code :=
  let b := x.blk
  let size := cpSize b
  match f.recvCore x with
  | none => some .badmsg
  | some d =>
    let cb := (f.core d).cbs[blkCb b]
    if !blkCbf b && overlap (cpSrc b) size (cpDst b) size then some .overlap
    else if blkCbf b && (cpDst b ≠ 0 || size % elemBytes cb ≠ 0 || !cb.en) then some .badmsg
    else if blkLh b && !(f.core d).landing then some .noHandler
    else none

/-- The outcome that an operation's first step finds, where there is one (R225, R226, R229). -/
def Msg.early (x : Msg) (total : Nat) (bad : Option Code) : Option Code :=
  if x.form ≠ 5 then (if total = 0 then some .done else bad)
  else
    match bad with
    | some c => some c
    | none => if x.pos > total then some .badmsg else if x.pos = total then some .done else none

/-- Whether writes of an operation, or of its landing handlers, to another device or to the host are not acknowledged yet (R118, R225,
R226, R228). -/
def Fab.awaits (f : Fab) (id : Nat) : Bool :=
  f.rwrites.any fun r => r.op.any (fun p => p.1 = id) || f.ops.any fun o => o.msg.id = id && o.hands.contains r.who.fid

/-- The positions of an operation's steps whose writes are not acknowledged yet. -/
def Fab.flying (f : Fab) (id : Nat) : List Nat :=
  (f.rwrites.filterMap fun r => r.op.bind fun p => if p.1 = id then some p.2 else none).eraseDups

/-- An operation ends with FAULT: the chime says where it stopped (R220). -/
def Fab.engFault (f : Fab) (x : Msg) (pos : Nat) (e : Cause) (addr : Nat) : Fab :=
  f.chimeFor x .fault (some e) pos (BitVec.ofNat 64 addr)

/-- An operation that a step stopped: once no write of it is on its way, its chime reports the lowest failing step. -/
def Fab.endBad (f : Fab) (x : Msg) (bad : Nat × Cause × Word) : Fab :=
  if f.awaits x.id then f else f.chimeFor x .fault (some bad.2.1) bad.1 bad.2.2

def Fab.modOp (f : Fab) (id : Nat) (g : EngOp → EngOp) : Fab :=
  { f with ops := f.ops.map fun o => if o.msg.id = id then g o else o }

/-- Where the step that holds an offset of a plain copy starts (R225). -/
def Fab.stepStart (f : Fab) (m : Mgt) (c : CoreId) (x : Msg) (pos : Nat) : Nat :=
  let back := fun (ea : Nat) => pos - (ea - f.pageStart m c x.who.ctx ea)
  max (if x.form = 5 then x.pos else 0) (max (back (cpSrc x.blk + pos)) (back (cpDst x.blk + pos)))

/-- Where it ends. -/
def Fab.stepEnd (f : Fab) (m : Mgt) (c : CoreId) (x : Msg) (pos : Nat) : Nat :=
  min (cpSize x.blk)
    (min (f.pageEnd m c x.who.ctx (cpSrc x.blk + pos) - cpSrc x.blk) (f.pageEnd m c x.who.ctx (cpDst x.blk + pos) - cpDst x.blk))

/-- n bytes of a plain copy from offset pos on, granule by granule. -/
def Fab.move (f : Fab) (m : Mgt) (c : CoreId) (x : Msg) (start : Nat) : Nat → Nat → Nat → Moved
  | 0, _, _ => .done f
  | fuel + 1, pos, n =>
    if n = 0 then .done f
    else
      let d := cpDst x.blk + pos
      let k := min n (64 - d % 64)
      match f.engRead m c x.who x.id 2 (cpSrc x.blk + pos) k with
      | .fault e a g => .fault g pos e a
      | .wait g => .wait g pos
      | .done bs g =>
        match g.engWrite m c x.who d bs x.form (some (x.id, start)) x.event with
        | .fault e g => .fault g pos e d
        | .wait g => .wait g pos
        | .done g => (g.usedReads x.id).move m c x start fuel (pos + k) (n - k)

/-- The bytes of a granule that a step in flight may have read already; what another device holds is open (R225, log 12, DESIGN
CHOICE). -/
def Fab.raceBytes (f : Fab) (m : Mgt) (c : CoreId) (x : Msg) (ea n : Nat) : Option (List Byte) :=
  match f.engRead m c x.who x.id 2 ea n with
  | .done bs _ => some bs
  | .wait _ =>
    match f.tgtOf m c x.who.ctx (BitVec.ofNat 64 ea) with
    | some (.mem gpa _) => some (f.bytesAt m gpa n)
    | _ => none
  | .fault .. => none

/-- Granules from a failing step on that steps in flight may have written: a free choice for each; an owner's answer to one belongs to
the copy (R225, log 12, DESIGN CHOICE). -/
def Fab.race (f : Fab) (m : Mgt) (c : CoreId) (x : Msg) (start : Nat) : Nat → Nat → Nat → Fab
  | 0, _, _ => f
  | fuel + 1, pos, n =>
    if n = 0 then f
    else
      let d := cpDst x.blk + pos
      let k := min n (64 - d % 64)
      (if Config.copyRace f.ids pos then
        match f.raceBytes m c x (cpSrc x.blk + pos) k with
        | some bs =>
          (match f.engWrite m c x.who d bs x.form (some (x.id, start)) .dispatchSelection with
           | .done g => g
           | _ => f)
        | none => f
      else f).race m c x start fuel (pos + k) (n - k)

/-- The end of the steps in flight with one that fails: four steps at most (R225). -/
def Fab.flightEnd (f : Fab) (m : Mgt) (c : CoreId) (x : Msg) : Nat → Nat → Nat
  | 0, pos => pos
  | k + 1, pos => if pos ≥ cpSize x.blk then pos else f.flightEnd m c x k (f.stepEnd m c x pos)

/-- A step of a plain copy (R225). At most four steps are in flight. One that fails ends the operation when those in flight have
their acknowledgements. -/
def Fab.moveStep (f : Fab) (m : Mgt) (c : CoreId) (x : Msg) (pos : Nat) : Fab :=
  let start := f.stepStart m c x pos
  let stop := f.stepEnd m c x pos
  let others := (f.flying x.id).filter fun p => p ≠ start
  if others.length ≥ 4 then f
  else
    match f.move m c x start ((stop - pos) / 32 + 2) pos (stop - pos) with
    | .done g => (g.modOp x.id fun o => { o with pos := stop }).push x.event
    | .wait g p => g.modOp x.id fun o => { o with pos := p }
    | .fault g p e a =>
      let first := others.foldl min start
      let last := g.flightEnd m c x 4 first
      ((g.race m c x start ((last - p) / 32 + 2) p (last - p)).stepBad x.id (start, e, BitVec.ofNat 64 a)).push x.event

/-- Scratchpad offset at which a copy writes position pos of a buffer's next element (R63, R225). -/
def slotOff (d : CbDesc) (pos : Nat) : Nat := 64 * d.base + d.pseq % d.depth * elemBytes d + pos % elemBytes d

/-- A whole element stands in a buffer: PSEQ advances, the fill carries the copy's epoch, and records bound to the buffer are looked
at (R64, R125, R225, R268). -/
def Fab.filledOne (f : Fab) (m : Mgt) (x : Msg) (d : CoreId) (cb : Fin 16) : Fab :=
  ((f.modCore d fun y => { y with cbs := y.cbs.set cb (cbAdvance y.cbs[cb] true 1) }).fillEpoch m d cb
    ((f.ctx x.who.ctx).carry x.who.epoch)).boundOn m d

/-- A step of a copy into a circular buffer: one element (R225); what is written counts at the issuing core (R284). -/
def Fab.fillStep (f : Fab) (m : Mgt) (c d : CoreId) (x : Msg) (pos : Nat) : Fab :=
  let cb := (f.core d).cbs[blkCb x.blk]
  let n := elemBytes cb - pos % elemBytes cb
  let src := cpSrc x.blk
  let fill := fun (g : Fab) (bs : List Byte) =>
    (g.modCore d fun y => y.locWrite (slotOff cb pos) bs).count c x.who (blkVx x.blk) (blkVy x.blk) bs.length
  if !cb.en then f.chimeFor x .badmsg none 0 0
  else if f.closed d || freeCount cb = 0 || (f.core d).locked (slotOff cb pos) n then f.holdAt d x.event
  else
    match f.engRead m c x.who x.id (n / 32 + 2) (src + pos) n with
    | .done bs g =>
      (((fill (g.usedReads x.id) bs).filledOne m x d (blkCb x.blk)).modOp x.id fun o => { o with pos := pos + n }).push x.event
    | .wait g => g
    | .fault e a g =>
      let p := max pos (f.pageStart m c x.who.ctx a - src)
      let g := match g.engRead m c x.who x.id (n / 32 + 2) (src + pos) (p - pos) with
        | .done bs g => if bs.isEmpty then g else fill g bs
        | _ => g
      g.engFault x p e a

/-- A granule of a copy with landing handlers: its firing starts on thread 7 of the receiving core (R225, R276). A granule that finds
LANDCTL.EN cleared since the copy began waits until it is set again: the spec gives such a copy no outcome (R72; log 43, DESIGN
CHOICE). No firing starts while the group is being stopped (R346). -/
def Fab.handStep (f : Fab) (m : Mgt) (c d : CoreId) (x : Msg) (pos : Nat) : Fab :=
  let b := x.blk
  let cb := (f.core d).cbs[blkCb b]
  let n := min (64 - pos % 64) (cpSize b - pos)
  if blkCbf b && !cb.en then f.chimeFor x .badmsg none 0 0
  else if (f.ctx x.who.ctx).pre.isSome then f
  else if f.closed d || !(f.core d).landctl || (f.core d).threads[7].st ≠ .free || (blkCbf b && freeCount cb = 0) then f.holdAt d x.event
  else
    match f.liveRec m x.who.ctx (blkLhrec b) with
    | none => f.chimeFor x .fault (some .taskRecord) pos (BitVec.ofNat 64 (blkLhrec b))
    | some (gpa, r) =>
      if !f.mayBind m x.who.ctx (blkLhrec b) then f.holdAt d x.event
      else
      match f.engRead m c x.who x.id 2 (cpSrc b + pos) n with
      | .fault e a g => g.engFault x pos e a
      | .wait g => g
      | .done bs g =>
        let dst := if blkCbf b then locBase + slotOff cb pos else cpDst b + pos
        ((g.usedReads x.id).start m d 7 gpa r .landing x.who.epoch (some x.id) (bytesLine bs) (lineOf [dst, n, x.xid.toNat]) 0).modOp x.id
          fun o => { o with handler := true }

/-- The handler of a granule has retired: the granule has landed (R276). -/
def Fab.landed (f : Fab) (m : Mgt) (d : CoreId) (x : Msg) (pos : Nat) : Fab :=
  let b := x.blk
  let cb := (f.core d).cbs[blkCb b]
  let next := min (pos + (64 - pos % 64)) (cpSize b)
  let g := if blkCbf b && cb.en && next % elemBytes cb = 0 then f.filledOne m x d (blkCb b) else f
  (g.modOp x.id fun o => { o with pos := next, granDone := false }).push x.event

/-- Whether a context's engines make no more steps: the sequence that stops it has come to them, and cancels their operations at the
step boundaries where they stand (R346). -/
def Fab.enginesOff (f : Fab) (n : CtxId) : Bool :=
  match (f.ctx n).pre with
  | none | some .retire => false
  | _ => true

/-- An operation between two of its steps (R346, step 3). -/
def Fab.betweenSteps (f : Fab) (m : Mgt) (o : EngOp) : Bool :=
  let x := o.msg
  o.bad.isNone && (!o.started || o.handler || o.granDone || x.opc = 3 || x.opc = 4 || (x.opc = 2 && o.sub = 0) ||
  (x.opc = 1 && (blkLh x.blk || blkCbf x.blk ||
    (match f.find x.who.ctx x.who.vx x.who.vy with | some c => f.stepStart m c x o.pos = o.pos | none => true))))

/-- COPY_STEP: a step of a copy (R225, R229, R276). The chime waits for the owners of remote destinations. A copy with CBF = 1, or its
RESUME, whose core (VX, VY) lies outside the lease chimes BADMSG: for RESUME the spec names no outcome (log 43, DESIGN CHOICE). -/
def execCopyStep (id : Nat) (s : State) : Res :=
  s.event fun m f =>
    match f.ops.find? fun o => o.msg.id = id && o.msg.opc = 1 with
    | none => f
    | some o =>
      let x := o.msg
      match f.find x.who.ctx x.who.vx x.who.vy, f.recvCore x with
      | some c, some d =>
        if f.enginesOff x.who.ctx && f.betweenSteps m o then f
        else if !o.started then
          match x.early (cpSize x.blk) (f.copyBad x) with
          | some code => f.chimeFor x code none 0 0
          | none => (f.modOp id fun o => { o with started := true }).push x.event
        else if o.handler then f
        else if o.granDone then f.landed m d x o.pos
        else if let some bad := o.bad then f.endBad x bad
        else if o.pos ≥ cpSize x.blk then (if f.awaits id then f else f.chimeFor x .done none 0 0)
        else if blkLh x.blk then f.handStep m c d x o.pos
        else if blkCbf x.blk then f.fillStep m c d x o.pos
        else f.moveStep m c x o.pos
      | some _, none => f.chimeFor x .badmsg none 0 0
      | none, _ => f

/-! XGATHER (R226). -/

def gaIdx (b : Line) : Nat := wordOf b 4
def gaDst (b : Line) : Nat := wordOf b 5
def gaCount (b : Line) : Nat := wordOf b 6 % 2 ^ 32
def gaSize (b : Line) : Nat := bits (wordOf b 6) 47 32
def gaBase (b : Line) : Nat := wordOf b 7

def gatherBad (b : Line) : Option Code :=
  if gaSize b = 0 || gaSize b > 4096 then some .badmsg
  else if overlap (gaDst b) (gaCount b * gaSize b) (gaIdx b) (4 * gaCount b) then some .overlap
  else none

/-- The first place of a range at which a store would fault. -/
def Fab.engBlocked (f : Fab) (m : Mgt) (c : CoreId) (w : Who) : Nat → Nat → Nat → Option (Cause × Nat)
  | 0, _, _ => none
  | fuel + 1, ea, n =>
    if n = 0 then none
    else
      let k := min n (64 - ea % 64)
      match f.check m c w (engReq ea k .store) with
      | .error e => some (e, ea)
      | .ok _ => f.engBlocked m c w fuel (ea + k) (n - k)

/-- Bytes written from an address on, line by line; op names the step of the line at an address. -/
def Fab.engWrites (f : Fab) (m : Mgt) (c : CoreId) (w : Who) (minor : Nat) (op : Nat → Option (Nat × Nat)) (ev : Instr) :
    Nat → Nat → Nat → List Byte → Moved
  | 0, _, _, _ => .done f
  | fuel + 1, off, ea, bs =>
    if bs.isEmpty then .done f
    else
      let k := min bs.length (64 - ea % 64)
      match f.engWrite m c w ea (bs.take k) minor (op ea) ev with
      | .fault e g => .fault g off e ea
      | .wait g => .wait g off
      | .done g => g.engWrites m c w minor op ev fuel (off + k) (ea + k) (bs.drop k)

/-- Whether an address leads out of the device. -/
def Fab.isOut (f : Fab) (m : Mgt) (c : CoreId) (w : Who) (ea : Nat) : Bool :=
  match f.tgtOf m c w.ctx (BitVec.ofNat 64 ea) with
  | some (.mem gpa _) => m.isOther gpa || m.atHost gpa
  | _ => false

/-- The parts in which an element is written: a line, or what lies on one page outside the device; each with its address. -/
def Fab.elemParts (f : Fab) (m : Mgt) (c : CoreId) (w : Who) : Nat → Nat → List Byte → List (Bool × Nat × List Byte)
  | 0, _, _ => []
  | fuel + 1, ea, bs =>
    if bs.isEmpty then []
    else
      let out := f.isOut m c w ea
      let k := min bs.length (if out then f.pageEnd m c w.ctx ea - ea else 64 - ea % 64)
      (out, ea, bs.take k) :: f.elemParts m c w fuel (ea + k) (bs.drop k)

/-- Parts written one after another; the first of the list has number i. -/
def Fab.engParts (f : Fab) (m : Mgt) (c : CoreId) (x : Msg) (op : Nat × Nat) : Nat → List (Bool × Nat × List Byte) → Moved
  | _, [] => .done f
  | i, (_, ea, bs) :: ps =>
    match f.engWrite m c x.who ea bs x.form (some op) x.event with
    | .fault e g => .fault g i e ea
    | .wait g => .wait g i
    | .done g => g.engParts m c x op (i + 1) ps

/-- An element of a gather whose bytes are read is written: first what lies outside the device, which must be acknowledged before
anything else of the element is written, then the rest; sub parts are written already (R226). -/
def Fab.gatherWrite (f : Fab) (m : Mgt) (c : CoreId) (x : Msg) (i sub : Nat) (bs : List Byte) : Fab :=
  let all := f.elemParts m c x.who (bs.length / 32 + 2) (gaDst x.blk + i * gaSize x.blk) bs
  let outs := all.filter (·.1)
  let rest := all.filter fun p => !p.1
  if sub < outs.length then
    match f.engParts m c x (x.id, i) sub (outs.drop sub) with
    | .done g =>
      if rest.isEmpty then (g.modOp x.id fun o => { o with pos := i + 1, sub := 0, buf := none }).push x.event
      else (g.modOp x.id fun o => { o with sub := outs.length }).push x.event
    | .wait g s => g.modOp x.id fun o => { o with sub := s }
    | .fault g _ e a => g.engFault x i e a
  else
    match f.engParts m c x (x.id, i) sub (rest.drop (sub - outs.length)) with
    | .done g => (g.modOp x.id fun o => { o with pos := i + 1, sub := 0, buf := none }).push x.event
    | .wait g s => g.modOp x.id fun o => { o with sub := s }
    | .fault g _ e a => g.engFault x i e a

/-- Element i of a gather: its bytes are read and every check is made, then they are written. -/
def Fab.gatherOne (f : Fab) (m : Mgt) (c : CoreId) (x : Msg) (i : Nat) : Fab :=
  let b := x.blk
  let n := gaSize b
  match f.engRead m c x.who x.id 2 (gaIdx b + 4 * i) 4 with
  | .fault e a g => g.engFault x i e a
  | .wait g => g
  | .done ib g =>
    match g.engRead m c x.who x.id (n / 32 + 2) (gaBase b + leNum ib * n) n with
    | .fault e a g => g.engFault x i e a
    | .wait g => g
    | .done bs g =>
      match g.engBlocked m c x.who (n / 32 + 2) (gaDst b + i * n) n with
      | some (e, a) => (g.walked m c x.who (engReq a 1 .store)).engFault x i e a
      | none => ((g.usedReads x.id).modOp x.id fun o => { o with buf := some bs }).gatherWrite m c x i 0 bs

/-- GATHER_ELEMENT: the copy engine completes one gathered element; an element at another device is acknowledged before the next one
is taken, so that none after a refused one is written (R226, R229). -/
def execGatherElement (id : Nat) (s : State) : Res :=
  s.event fun m f =>
    match f.ops.find? fun o => o.msg.id = id && o.msg.opc = 2 with
    | none => f
    | some o =>
      let x := o.msg
      match f.find x.who.ctx x.who.vx x.who.vy with
      | none => f
      | some c =>
        if f.enginesOff x.who.ctx && f.betweenSteps m o then f
        else if !o.started then
          match x.early (gaCount x.blk) (gatherBad x.blk) with
          | some code => f.chimeFor x code none 0 0
          | none => (f.modOp id fun o => { o with started := true }).push x.event
        else if f.awaits id then f
        else if let some bad := o.bad then f.endBad x bad
        else if o.pos ≥ gaCount x.blk then f.chimeFor x .done none 0 0
        else
          match o.buf with
          | some bs => f.gatherWrite m c x o.pos o.sub bs
          | none => f.gatherOne m c x o.pos

/-! XPREF (R227). -/

/-- Why a line cannot be brought in (R227, R354); none where it is brought in or passed over. -/
def Fab.prefFault (f : Fab) (m : Mgt) (c : CoreId) (n : CtxId) (ea : Nat) : Option Cause :=
  match regionOf ea with
  | .loc _ => none
  | .mem va =>
    match f.translate m c n va (fun _ => true) with
    | none => some .pageFault
    | some (e, _) =>
      if (!m.isOther (e.gpa va) && f.poisoned (e.gpa va) 1) || (m.atHost (e.gpa va) && f.readBad m (e.gpa va)) then some .pageFault
      else none
  | _ => some .pageFault

/-- PREFETCH_LINE: one line of a prefetch's range; it changes no value that a load returns (R227, R229). -/
def execPrefetchLine (id : Nat) (s : State) : Res :=
  s.event fun m f =>
    match f.ops.find? fun o => o.msg.id = id && o.msg.opc = 3 with
    | none => f
    | some o =>
      let x := o.msg
      match f.find x.who.ctx x.who.vx x.who.vy with
      | none => f
      | some c =>
        let ea := wordOf x.blk 4 + o.pos
        if f.enginesOff x.who.ctx && f.betweenSteps m o then f
        else if !o.started then
          match x.early (cpSize x.blk) none with
          | some code => f.chimeFor x code none 0 0
          | none => (f.modOp id fun o => { o with started := true }).push x.event
        else if o.pos ≥ cpSize x.blk then f.chimeFor x .done none 0 0
        else
          match f.prefFault m c x.who.ctx ea with
          | some e => (f.walked m c x.who (engReq ea 1 .load)).engFault x o.pos e ea
          | none =>
            ((f.walked m c x.who (engReq ea 1 .load)).modOp id fun o =>
              { o with pos := min (o.pos + (64 - ea % 64)) (cpSize x.blk) }).push x.event

/-! Collectives (R228, R332, R333). -/

def collOp (b : Line) : Option COp :=
  match bits (wordOf b 6) 39 36 with
  | 0 => some .sum
  | 1 => some .min
  | 2 => some .max
  | _ => none
def collTy (b : Line) : Option CTy :=
  match bits (wordOf b 6) 35 32 with
  | 0 => some .f32
  | 2 => some .b16
  | 7 => some .s32
  | 11 => some .z32
  | _ => none
def collSize : CTy → Nat
  | .b16 => 2
  | _ => 4
def collSlot0 (b : Line) : Nat := wordOf b 7 % 2 ^ 14
def collSlots (b : Line) : Nat := bits (wordOf b 7) 29 16

/-- T of a context's collectives (R324, R332). -/
def Mgt.ranks (m : Mgt) (n : CtxId) : Nat := min (mget 0 m.collslots n.val).toNat 16384

def Fab.contribsOf (f : Fab) (n : CtxId) (id : BitVec 32) : List Contrib := f.contribs.filter fun k => k.ctx = n && k.xid = id

/-- Whether a contribution is rejected (R332). -/
def Fab.collBad (f : Fab) (m : Mgt) (n : CtxId) (id : BitVec 32) (op : COp) (ty : CTy) (count slot0 slots : Nat) : Bool :=
  m.ranks n = 0 || slot0 + slots > m.ranks n ||
  (match (f.contribsOf n id).head? with
   | some k => k.op ≠ op || k.ty ≠ ty || k.count ≠ count
   | none => false) ||
  (f.contribsOf n id).any fun k => overlap slot0 slots k.slot0 k.slots.length

/-- The slots of some bytes: COUNT patterns each. -/
def slotsOf (size count slots : Nat) (bs : List Byte) : List (List (BitVec 32)) :=
  (List.range slots).map fun j => (List.range count).map fun i =>
    BitVec.ofNat 32 (leNum ((bs.drop ((j * count + i) * size)).take size))

/-- The slot numbers covered. -/
def Fab.covered (f : Fab) (m : Mgt) (n : CtxId) (id : BitVec 32) : Bool :=
  (List.range (m.ranks n)).all fun i => (f.contribsOf n id).any fun k => k.slot0 ≤ i && i < k.slot0 + k.slots.length

/-- A contribution is accepted; one that covers the last slot completes the collective (R332). -/
def Fab.contribute (f : Fab) (m : Mgt) (k : Contrib) : Fab :=
  let g := { f with contribs := f.contribs ++ [k] }
  if g.covered m k.ctx k.xid then g.push (.collectiveComplete k.ctx k.xid) else g

/-- XCOLL_CONTRIBUTION: a collective engine accepts or rejects rank slots (R228, R332). -/
def execXcollContribution (src : CollSrc) (s : State) : Res :=
  s.event fun m f =>
    match src with
    | .link k =>
      if f.collBad m k.ctx k.id k.op k.ty k.count k.slot0 k.slots.length || k.slots.any (fun l => l.length ≠ k.count) then f
      else f.contribute m ⟨k.ctx, k.id, k.op, k.ty, k.count, k.slot0, k.slots, none, 0, false, none⟩
    | .own id =>
      match f.ops.find? fun o => o.msg.id = id && o.msg.form = 4 && !o.started with
      | none => f
      | some o =>
        let x := o.msg
        let b := x.blk
        match if f.enginesOff x.who.ctx then none else f.find x.who.ctx x.who.vx x.who.vy, collOp b, collTy b with
        | some c, some op, some ty =>
          let count := gaCount b
          let n := collSlots b * count * collSize ty
          if f.collBad m x.who.ctx x.xid op ty count (collSlot0 b) (collSlots b) then f.chimeFor x .badmsg none 0 0
          else
            match f.engRead m c x.who x.id (n / 32 + 2) (cpSrc b) n with
            | .fault e a g => g.engFault x ((a - cpSrc b) / collSize ty) e a
            | .wait g => g
            | .done bs g =>
              let g := g.usedReads x.id
              { g with ops := g.ops.filter fun o => o.msg.id ≠ id }.contribute m
                ⟨x.who.ctx, x.xid, op, ty, count, collSlot0 b, slotsOf (collSize ty) count (collSlots b) bs, some x, 0, false, none⟩
        | none, _, _ => f
        | _, _, _ => f.chimeFor x .badmsg none 0 0

/-- A node of the tree (R333): f32 for f32 and b16. -/
def collNode (op : COp) (ty : CTy) (a b : Nat) : Nat :=
  let t : Ty := match ty with | .s32 => .s32 | .z32 => .z32 | _ => .f32
  match op with
  | .sum => vAddElem t false a b
  | .min => vMinElem t false a b
  | .max => vMinElem t true a b

/-- One level of the tree: an absent child leaves the other unchanged. -/
def collLevel (op : COp) (ty : CTy) : List Nat → List Nat
  | a :: b :: r => collNode op ty a b :: collLevel op ty r
  | l => l
def collRoot (op : COp) (ty : CTy) : Nat → List Nat → Nat
  | 0, l => l.headD 0
  | k + 1, l => collRoot op ty k (collLevel op ty l)

/-- The result of one element over the slots 0 to T − 1 (R333): b16 leaves are decoded exactly and the root is rounded once. -/
def collResult (op : COp) (ty : CTy) (leaves : List Nat) : Nat :=
  if ty = .b16 then convert .near .b16 .f32 (collRoot op ty 14 (leaves.map (convert .near .f32 .b16)))
  else collRoot op ty 14 leaves

/-- The bytes of the result. -/
def Fab.collBytes (f : Fab) (m : Mgt) (n : CtxId) (id : BitVec 32) : List Byte :=
  let ks := f.contribsOf n id
  match ks.head? with
  | none => []
  | some k =>
    let slot := fun (i : Nat) =>
      ((ks.find? fun k => k.slot0 ≤ i && i < k.slot0 + k.slots.length).map fun k => k.slots.getD (i - k.slot0) []).getD []
    let slots := (List.range (m.ranks n)).map slot
    (List.range k.count).flatMap fun e => leBytes (collSize k.ty) (collResult k.op k.ty (slots.map fun l => (l.getD e 0).toNat))

/-- Bytes written for a group without a lease, through its pages, line by line (R346). -/
def Fab.devLines (f : Fab) (m : Mgt) (w : Who) (minor : Nat) (op : Nat → Option (Nat × Nat)) : Nat → Nat → List Byte → Moved
  | 0, _, _ => .done f
  | fuel + 1, ea, bs =>
    if bs.isEmpty then .done f
    else
      let k := min bs.length (64 - ea % 64)
      match f.devPage m w.ctx ea k with
      | none => .fault f 0 .pageFault ea
      | some (gpa, e) =>
        (match m.place gpa with
         | .own la => (f.store m (some w) true gpa (bs.take k)).classed m e (la / 64) 1
         | _ => f.putOut m w (BitVec.ofNat 64 ea) gpa (bs.take k) 0x39 minor (op ea)).devLines m w minor op fuel (ea + k) (bs.drop k)

/-- Bytes written for an issuer, on its core, or, where its group has no lease, through its pages, its local window then being in
its save area (R346). off bytes are written already. They enter the write lane and are charged as a copy's are: R17 and R247 name
copies only (log 36, DESIGN CHOICE). -/
def Fab.issuerWrites (f : Fab) (m : Mgt) (w : Who) (minor : Nat) (op : Nat → Option (Nat × Nat)) (ev : Instr) (ea off : Nat)
    (bs : List Byte) : Moved :=
  match f.find w.ctx w.vx w.vy with
  | some c => f.engWrites m c w minor op ev (bs.length / 32 + 2) off (ea + off) (bs.drop off)
  | none =>
    if ea < locBase then f.devLines m w minor op (bs.length / 32 + 2) (ea + off) (bs.drop off)
    else if ea + bs.length ≤ locBase + 0x24000 then .done (f.saveWrite m w.ctx w.vx w.vy (ea - locBase) bs)
    else .fault f 0 .pageFault ea

/-- The result goes to one contributor's DST (R332). What it writes on another device or the host has still to be
acknowledged. True: the write waits. -/
def Fab.collWrite (f : Fab) (m : Mgt) (k : Contrib) (x : Msg) (bs : List Byte) : Fab × Bool :=
  let pos := fun (ea : Nat) => (ea - cpDst x.blk) / collSize k.ty
  let wrote := fun (g : Fab) =>
    ({ g with contribs := g.contribs.map fun (y : Contrib) => if y = k then { y with wrote := true } else y } : Fab)
  match f.issuerWrites m x.who x.form (fun ea => some (x.id, pos ea)) (.collectiveComplete k.ctx k.xid) (cpDst x.blk) k.off bs with
  | .done g => (wrote g, false)
  | .wait g off =>
    ({ g with contribs := g.contribs.map fun (y : Contrib) => if y = k then { y with off := off } else y }, true)
  | .fault g _ e a => ((wrote g).stepBad x.id (pos a, e, BitVec.ofNat 64 a), false)

/-- The result is written for each contributor of this device in turn. -/
def Fab.collFinish (f : Fab) (m : Mgt) (bs : List Byte) : List Contrib → Fab
  | [] => f
  | k :: ks =>
    match if k.wrote then none else k.own with
    | none => f.collFinish m bs ks
    | some x => if (f.collWrite m k x bs).2 then (f.collWrite m k x bs).1 else (f.collWrite m k x bs).1.collFinish m bs ks

/-- Contributors whose result is written and acknowledged get their chimes (R228, R332). -/
def Fab.collChimes (f : Fab) : List Contrib → Fab
  | [] => f
  | k :: ks =>
    match if k.wrote then k.own else none with
    | none => f.collChimes ks
    | some x =>
      if f.awaits x.id then f.collChimes ks
      else
        let g := match k.bad with
          | some b => f.chimeFor x .fault (some b.2.1) b.1 b.2.2
          | none => f.chimeFor x .done none 0 0
        Fab.collChimes { g with contribs := g.contribs.map fun (y : Contrib) => if y = k then { y with own := none } else y } ks

/-- COLLECTIVE_COMPLETE: every slot is covered; each accepted XCOLL of this device gets the result and its chime (R332, R333). -/
def execCollectiveComplete (n : CtxId) (id : BitVec 32) (s : State) : Res :=
  s.event fun m f =>
    let ks := f.contribsOf n id
    if ks.isEmpty || !f.covered m n id then f
    else
      let g := f.collFinish m (f.collBytes m n id) ks
      let g := g.collChimes (g.contribsOf n id)
      if (g.contribsOf n id).any (·.own.isSome) then g
      else { g with contribs := g.contribs.filter fun k => !(k.ctx = n && k.xid = id) }

/-! CHIME (R220, R223). -/

def Code.num : Code → Nat
  | .done => 0
  | .fault => 1
  | .refused => 2
  | .overlap => 3
  | .badmsg => 4
  | .noHandler => 5

/-- The status line (R220). -/
def Chime.status (k : Chime) : Line :=
  lineOf [k.msg.xid.toNat * 2 ^ 32 + ((k.cause.map fun c => (causeCode c).toNat).getD 0) * 2 ^ 24 + k.msg.opc * 2 ^ 8 + k.code.num,
    if k.code = .fault then k.pos else 0, if k.code = .fault then k.addr.toNat else 0]

/-- A line of the status area is written; one that faults enters the issuing core's fault log (R223). True: the write waits. -/
def Fab.statusLine (f : Fab) (m : Mgt) (id : Nat) (x : Msg) (ea : Nat) (v : Line) : Fab × Bool :=
  match f.issuerWrites m x.who x.form (fun _ => none) (.chime id) ea 0 (lineBytes v) with
  | .done g => (g, false)
  | .wait g _ => (g, true)
  | .fault g _ e _ =>
    let entry := ⟨x.who, BitVec.ofNat 64 ea, e, 0x39, x.form, Config.logWidth 64, BitVec.ofNat 64 (wordOf v 0), .status ea v, none⟩
    (g.logFault entry, false)

/-- The address of the status area of a message (R219). -/
def stAddr (x : Msg) : Nat := wordOf x.blk 3 % 2 ^ 57

/-- The status area of a chime: line 0, and the returned message of a refusal in line 1 (R220). -/
def Fab.statusArea (f : Fab) (m : Mgt) (k : Chime) : Fab × Bool :=
  let ea := stAddr k.msg
  if ea = 0 || k.wrote then (f, false)
  else
    let (g, waits) := if k.first then (f, false) else f.statusLine m k.id k.msg ea k.status
    if waits then (g, true)
    else
      let g : Fab := { g with chimes := g.chimes.map fun y => if y.id = k.id then { y with first := true } else y }
      if k.code = .refused then g.statusLine m k.id k.msg (ea + 64) k.msg.blk else (g, false)

/-- Whether a status area on another device or in host memory is not acknowledged yet (R220). -/
def Fab.statusFlies (f : Fab) (k : Chime) : Bool :=
  f.rwrites.any fun r => r.who = k.msg.who && r.op.isNone && (r.ea.toNat = stAddr k.msg || r.ea.toNat = stAddr k.msg + 64)

/-- What RK asks for (R223): a decrement of REPLY, or a firing of HREC on the issuing virtual core. None: a full run queue holds
the chime (R270). -/
def Fab.replyOf (f : Fab) (m : Mgt) (k : Chime) : Option Fab :=
  let b := k.msg.blk
  let w := k.msg.who
  let e := (f.ctx w.ctx).carry w.epoch
  let hrec := wordOf b 2 % 2 ^ 57
  match blkRk b with
  | 1 => some (f.sendDec w.ctx (wordOf b 1 % 2 ^ 57) 1 e (.chime w k.msg.form))
  | 2 =>
    match f.liveRec m w.ctx hrec with
    | none => some f
    | some (gpa, _) =>
      let go := (f.enqueueAt w.ctx w.vx w.vy hrec (.handler k.status (if k.code = .refused then b else 0) k.msg.xid e)).showState m gpa
      match f.find w.ctx w.vx w.vy with
      | some c => if f.closed c || (f.core c).runq.length ≥ Config.runQueue || !(f.core c).late.isEmpty then none else some go
      | none => some go
  | _ => some f

/-- The answer that another device gives to a SEND: accepted, refused or failed, a choice from outside (R224, R331; log 6, DESIGN
CHOICE). -/
def Fab.outsideChime (f : Fab) (x : Msg) : Fab :=
  match (Config.remoteWord f.ids x.id).toNat % 5 with
  | 0 => f.chimeFor x .done none 0 0
  | 1 => f.chimeFor x .refused none 0 0
  | 2 => f.chimeFor x .fault (some .pageFault) 0 0
  | 3 => f.chimeFor x .fault (some .pageFault) 0 (BitVec.ofNat 64 (wordOf x.blk 4))
  | _ => f.chimeFor x .fault (some .taskRecord) 0 (BitVec.ofNat 64 (wordOf x.blk 4))

/-- CHIME: the completion of a message writes its status area, then acts by RK (R220, R223). The identifier of a SEND that is at
another device brings that device's answer (R331). -/
def execChime (id : Nat) (s : State) : Res :=
  s.event fun m f =>
    match f.chimes.find? (·.id = id) with
    | none =>
      match f.msgs.find? fun x => x.id = id && f.sent.any fun q => q.what = .send id with
      | some x => f.outsideChime x
      | none => f
    | some k =>
      let (g, waits) := f.statusArea m k
      if waits then g
      else
        let g : Fab := { g with chimes := g.chimes.map fun y => if y.id = id then { y with wrote := true } else y }
        if g.statusFlies k then g
        else
          match g.replyOf m k with
          | some g => Fab.settleKernels { g with chimes := g.chimes.filter fun y => y.id ≠ id } m
          | none =>
            match g.find k.msg.who.ctx k.msg.who.vx k.msg.who.vy with
            | some c => g.holdAt c (.chime id)
            | none => g

end Sys2Proof.Machine
end

