-- ==== Sys2Proof/Machine/Traps.lean ====
section
/-! DEFINITION. Trap entry and the host's commands for parked threads (19_traps R339, R342, R343). -/

namespace Sys2Proof.Machine

/-- TRAP_ENTRY: steps 4 and 5 of R339, once every value owed to the trapped thread is written. -/
def execTrapEntry (c : CoreId) (h : ThreadId) (s : State) : Res :=
  s.event fun m f =>
    let t := f.thread c h
    if t.st == .trapping && !t.owes then f.enterTrap m c h else f

/-- BAR0 offsets of the trap registers (R343). -/
def trapqOff : Nat := 0x5000
def trapcmdOff : Nat := 0x5008
def preemptctlOff : Nat := 0x5010

/-- TRAPQ as read: its oldest entry, or zero (R343). -/
def Fab.trapqValue (f : Fab) : Word := f.trapq.headD 0
/-- Reading TRAPQ removes the entry (R343). -/
def Fab.readTrapq (f : Fab) : Fab := Fab.emit { f with trapq := f.trapq.tail } (.reg trapqOff f.trapqValue)

/-- TRAPQ_READ (R343). -/
def execTrapqRead (s : State) : Res := s.bar0 fun _ f => f.readTrapq

/-- The core of a virtual core number of a context (R278). -/
def Fab.coreNum (f : Fab) (n : CtxId) (v : Nat) : Option CoreId := f.find n (v % (f.ctx n).lw) (v / (f.ctx n).lw)

/-- The trap registers as a frame holds them (R341). -/
def frameTraps (bs : List Byte) (k : Ctrl) : Ctrl :=
  let w := fun (off : Nat) => leNum ((bs.drop off).take 8)
  { k with
    trapcause := BitVec.ofNat 8 (w 0x110), trapaddr := BitVec.ofNat 64 (w 0x118), trappc := BitVec.ofNat 57 (w 0x120)
    taketag := BitVec.ofNat 5 (w 0x128) }

/-- RESUME of a parked thread: RTE on its frame, with the trap registers of the frame (R343). A report firing ends. -/
def Fab.unpark (f : Fab) (m : Mgt) (c : CoreId) (h : ThreadId) : Fab :=
  let t := f.thread c h
  let k := frameTraps (f.bytesAt m (f.frameAt c h) 0x600) t.ctl
  if (t.firing.map (·.kind)) = some .report then (f.settleElem m c t.elem k.trapcause).retire m c h else f.returnFrom m c h k

/-- The end of an aborted firing, once the unit holds none of its matrix instructions: it retires with no release and no flush
(R343). -/
def Fab.aborted (f : Fab) (m : Mgt) (c : CoreId) (h : ThreadId) : Fab :=
  if (f.core c).mq.any fun e => (f.thread c h).fids.contains e.who.fid then f else f.retire m c h

/-- ABORT of a parked thread: its landing slots and fault-log elements go, its matrix instructions complete, and it retires (R343). -/
def Fab.abort (f : Fab) (m : Mgt) (c : CoreId) (h : ThreadId) : Fab :=
  let t := f.thread c h
  let g := f.modThread c h fun t => { t with st := .aborting, ls := Landing.empty, savedLs := Landing.empty, savedPend := [] }
  (g.modCore c fun x => { x with flog := x.flog.filter fun e => !t.fids.contains e.who.fid }).aborted m c h

/-- A command for a thread that is not parked is ignored (R343). -/
def Fab.trapcmd (f : Fab) (m : Mgt) (n : CtxId) (v : Nat) (h : ThreadId) (act : Fab → Mgt → CoreId → ThreadId → Fab) : Fab :=
  match f.coreNum n v with
  | some c => if (f.thread c h).st == .parked then act f m c h else f
  | none => f

/-- Whether ABORT has begun on a thread. -/
def Fab.aborts (f : Fab) (n : CtxId) (v : Nat) (h : ThreadId) : Option CoreId :=
  (f.coreNum n v).filter fun c => (f.thread c h).st == .aborting

/-- TRAPCMD_RESUME (R343). -/
def execTrapcmdResume (n : CtxId) (vcore : BitVec 16) (h : ThreadId) (s : State) : Res :=
  s.bar0 fun m f => f.trapcmd m n vcore.toNat h Fab.unpark
/-- TRAPCMD_ABORT (R343); of a thread on which it has begun, the end, where its matrix instructions are complete. -/
def execTrapcmdAbort (n : CtxId) (vcore : BitVec 16) (h : ThreadId) (s : State) : Res :=
  s.event fun m f =>
    match f.aborts n vcore.toNat h with
    | some c => f.aborted m c h
    | none => if m.bar0 then f.trapcmd m n vcore.toNat h Fab.abort else f

end Sys2Proof.Machine
end

