-- ==== Sys2Proof/Machine/Contexts.lean ====
section
/-! DEFINITION. Contexts and their commands (12_context R240 to R252), leases (15_group R278, R279, R293), pre-emption and restore
(19_traps R346 to R348), teardown (R249). -/

namespace Sys2Proof.Machine

/-! The context record (R240, R244). -/

/-- Fenced cores: alone, or with their router's cluster (R27). -/
def Mgt.coreFenced (m : Mgt) (c : CoreId) : Bool := m.fencedCores.contains c || m.clusterFenced (clusterOf c.val)
/-- Unfenced cores of the device. -/
def Mgt.coresLeft (m : Mgt) : Nat := (List.finRange 2304).countP fun c => !m.coreFenced c

/-- The 32 words of a context's record. -/
def Fab.ctxRecord (f : Fab) (m : Mgt) (n : CtxId) : List Nat :=
  (List.range 32).map fun i => f.word m (f.ctxbase.toNat + 256 * n.val + 8 * i)

/-- Whether the record can be read: its lines exist, are not poisoned and are in reach (R307, R354). At CREATE a record that cannot be
read answers BADREC: the spec names no outcome (log 38, DESIGN CHOICE). -/
def Fab.ctxReadable (f : Fab) (m : Mgt) (n : CtxId) : Bool :=
  let a := f.ctxbase.toNat + 256 * n.val
  !f.poisoned a 256 && !f.readBad m a

def recWindows (ws : List Nat) : Vector Window 8 :=
  Vector.ofFn fun (i : Fin 8) =>
    let a := ws.getD (8 + 2 * i.val) 0
    ⟨bits a 63 62, bits a 61 61 = 1, bits a 52 16 * 2 ^ 16, bits (ws.getD (9 + 2 * i.val) 0) 52 16 * 2 ^ 16 + 0xFFFF⟩

def recBudgets (ws : List Nat) : Vector Nat 8 :=
  Vector.ofFn fun (i : Fin 8) => bits (ws.getD (4 + i.val / 2) 0) (32 * (i.val % 2) + 19) (32 * (i.val % 2))

def recVectors (ws : List Nat) : Vector (BitVec 16) 4 :=
  Vector.ofFn fun (i : Fin 4) => BitVec.ofNat 16 (ws.getD 3 0 / 2 ^ (16 * i.val))

/-- The conditions of R244. -/
def recValid (m : Mgt) (ws : List Nat) : Bool :=
  let w := fun (i : Nat) => ws.getD i 0
  let nq := bits (w 1) 63 59
  let lh := bits (w 2) 15 8
  let lw := bits (w 2) 7 0
  let wins := (recWindows ws).toList
  let inside := fun (a n : Nat) => wins.any fun (x : Window) => x.kind = 1 && x.wr && x.base ≤ a && a + n ≤ x.limit + 1
  m.devnum ≠ 0x3FFF && 1 ≤ nq && nq ≤ 16 && 1 ≤ lh && lh ≤ 48 && 1 ≤ lw && lw ≤ 48 && lh * lw ≤ m.coresLeft &&
  wins.all (fun x => x.kind ≠ 3 && (x.kind = 0 || x.base ≤ x.limit)) &&
  inside (bits (w 0) 52 12 * 2 ^ 12) 1 && inside (bits (w 24) 52 12 * 2 ^ 12) (lh * lw * 0x4B000)

/-- A context as CREATE sets it up from its record (R242). The running window opens with its whole budget (R246, log 23, DEDUCED). -/
def ctxFrom (ws : List Nat) : Ctx :=
  let w := fun (i : Nat) => ws.getD i 0
  { Ctx.reset with
    st := .waiting
    ptroot := bits (w 0) 52 12 * 2 ^ 12
    det := bits (w 0) 1 1 = 1
    priv := bits (w 0) 0 0 = 1
    nq := bits (w 1) 63 59
    qtab := bits (w 1) 56 6 * 64
    lh := bits (w 2) 15 8
    lw := bits (w 2) 7 0
    vec := recVectors ws
    wbudget := recBudgets ws
    allow := recBudgets ws
    nolimit := (recBudgets ws).map fun b => decide (b ≥ 93750)
    windows := recWindows ws
    savearea := bits (w 24) 52 12 * 2 ^ 12
    traprec := bits (w 25) 56 6 * 64
    lease := .requested }

/-! The command interface (R241). -/

def ctxbaseOff : Nat := 0x1000
def ctxcmdOff : Nat := 0x1008
def ctxrspOff : Nat := 0x1010

def ctxStCode : CtxSt → Nat
  | .free => 0
  | .waiting => 1
  | .active => 2
  | .suspending => 3
  | .suspended => 4
  | .destroying => 5

/-- A context that is SUSPENDING or DESTROYING keeps the interface BUSY (R242). -/
def Fab.ctxBusy (f : Fab) : Bool := f.ctxs.any fun x => x.2.st == .suspending || x.2.st == .destroying

/-- RESULT codes (R241). -/
def resDone : Nat := 0
def resBusy : Nat := 1
def resBadState : Nat := 2
def resBadRec : Nat := 3
def resBadCmd : Nat := 4

/-- CTXRSP as read (R241). -/
def Fab.ctxrspValue (f : Fab) : Word :=
  let r := f.ctxrsp
  BitVec.ofNat 64 (r.tag.toNat * 2 ^ 32 + r.ctx.val * 2 ^ 16 + ctxStCode (f.ctx r.ctx).st * 2 ^ 12 + r.lost.toNat * 2 ^ 8 +
    (if f.ctxBusy then resBusy else r.result))

/-- Reading CTXRSP clears LOST (R241). -/
def Fab.readCtxrsp (f : Fab) : Fab :=
  Fab.emit { f with ctxrsp := { f.ctxrsp with lost := false } } (.reg ctxrspOff f.ctxrspValue)

/-- CTXRSP_READ (R241). -/
def execCtxrspRead (s : State) : Res := s.bar0 fun _ f => f.readCtxrsp

/-- A command is accepted, or discarded with LOST while the interface is BUSY (R241). Outside RUNNING a
command has no effect: R359 lets no context be created there and names no answer (log 38, DESIGN CHOICE). act answers the
fabric after the command and its RESULT. -/
def Fab.command (f : Fab) (m : Mgt) (tag : BitVec 16) (n : CtxId) (act : Fab → Fab × Nat) : Fab :=
  if m.dev ≠ .running then f
  else if f.ctxBusy then { f with ctxrsp := { f.ctxrsp with lost := true } }
  else
    let r := act f
    { r.1 with ctxrsp := ⟨tag, n, r.1.ctxrsp.lost, r.2⟩ }

/-- CREATE (R242, R244, R293). -/
def Fab.createCtx (f : Fab) (m : Mgt) (n : CtxId) : Fab × Nat :=
  if (f.ctx n).st ≠ .free then (f, resBadState)
  else
    let ws := f.ctxRecord m n
    if !(f.ctxReadable m n && recValid m ws) then (f, resBadRec)
    else
      let g := (f.setCtx n (ctxFrom ws)).queuesCreate m n ((List.finRange 16).filter fun q => q.val < (ctxFrom ws).nq)
      (Fab.push { g with reqs := g.reqs ++ [n] } .leaseGrant, resDone)

/-- A lease request is withdrawn (R293). -/
def Fab.withdraw (f : Fab) (n : CtxId) : Fab := { f with reqs := f.reqs.filter (· ≠ n) }

/-- The physical cores of a granted lease. -/
def Ctx.coreList (x : Ctx) : List CoreId := x.leaseCores.map (·.2)

/-- A selected task goes back to the front of its launch (R262). -/
def Fab.unselect (f : Fab) : List Sel → Fab
  | [] => f
  | t :: ts =>
    let g := f.unselect ts
    let y := g.queue t.ctx t.q
    g.setQueue t.ctx t.q { y with tail := t.recAddr :: y.tail }

/-- Pairs of a lease that still wait are abandoned (R289, R292). -/
def Fab.dropPairs (f : Fab) (n : CtxId) : Fab :=
  let cs := (f.ctx n).coreList
  { f with pairs := f.pairs.filter fun p => p.begun || !(cs.contains p.lo || cs.contains p.hi) }

/-- The pre-emption sequence starts: step 1 of R346. -/
def Fab.startPreempt (f : Fab) (n : CtxId) : Fab :=
  let mine := f.sels.filter fun t => t.ctx = n
  let g := ({ f with sels := f.sels.filter fun t => t.ctx ≠ n }.unselect mine).dropPairs n
  g.modCtx n fun x => { x with st := .suspending, lease := .ending, pre := some .retire, retiring := 0 }

/-- SUSPEND (R242). -/
def Fab.suspendCtx (f : Fab) (m : Mgt) (n : CtxId) : Fab × Nat :=
  match (f.ctx n).st with
  | .waiting =>
    ((((f.withdraw n).modCtx n fun x => { x with st := .suspended, lease := .none, nofit := false }).interrupt m n 2).push
      .leaseGrant, resDone)
  | .active => (f.startPreempt n, resDone)
  | _ => (f, resBadState)

/-- RESUME (R242). -/
def Fab.resumeCtx (f : Fab) (n : CtxId) : Fab × Nat :=
  match (f.ctx n).st with
  | .suspended =>
    let g := f.modCtx n fun x => { x with st := .waiting, lease := .requested }
    (Fab.push { g with reqs := g.reqs ++ [n] } .leaseGrant, resDone)
  | _ => (f, resBadState)

/-- DESTROY (R242, R249, R293): dispatch stops and the tasks stop; TEARDOWN_COMPLETE does the rest. -/
def Fab.destroyCtx (f : Fab) (n : CtxId) : Fab × Nat :=
  match (f.ctx n).st with
  | .waiting | .active | .suspended =>
    let g := (f.withdraw n).dropPairs n
    ((g.modCtx n fun x =>
      { x with
        st := .destroying, stopping := true, nofit := false, lease := if x.lease == .granted then .ending else .none }).push
        (.teardownComplete n), resDone)
  | _ => (f, resBadState)

/-- UPDATE (R242, R244): vectors and budgets are read again; the budgets apply from the next window. -/
def Fab.updateCtx (f : Fab) (m : Mgt) (n : CtxId) : Fab × Nat :=
  match (f.ctx n).st with
  | .waiting | .active | .suspended =>
    let ws := f.ctxRecord m n
    (f.modCtx n fun x => { x with vec := recVectors ws, wbudget := recBudgets ws }, resDone)
  | _ => (f, resBadState)

/-- A CTXCMD write (R241). -/
def Fab.ctxcmd (f : Fab) (m : Mgt) (tag : BitVec 16) (n : CtxId) (op : Nat) : Fab :=
  match op with
  | 1 => f.command m tag n fun g => g.createCtx m n
  | 2 => f.command m tag n fun g => g.suspendCtx m n
  | 3 => f.command m tag n fun g => g.resumeCtx n
  | 4 => f.command m tag n fun g => g.destroyCtx n
  | 5 => f.command m tag n fun g => g.updateCtx m n
  | _ => f.command m tag n fun g => (g, resBadCmd)

def execCreate (tag : BitVec 16) (n : CtxId) (s : State) : Res := s.bar0 fun m f => f.ctxcmd m tag n 1
def execSuspend (tag : BitVec 16) (n : CtxId) (s : State) : Res := s.bar0 fun m f => f.ctxcmd m tag n 2
def execCtxResume (tag : BitVec 16) (n : CtxId) (s : State) : Res := s.bar0 fun m f => f.ctxcmd m tag n 3
def execDestroy (tag : BitVec 16) (n : CtxId) (s : State) : Res := s.bar0 fun m f => f.ctxcmd m tag n 4
def execCtxUpdate (tag : BitVec 16) (n : CtxId) (s : State) : Res := s.bar0 fun m f => f.ctxcmd m tag n 5
/-- BADCMD (R241). -/
def execBadcmd (tag : BitVec 16) (n : CtxId) (s : State) : Res := s.bar0 fun m f => f.ctxcmd m tag n 0

/-! The save (R346, R347). -/

/-- Firings of records leave the run queue and the chain for their records (R73): what stays is handler and report firings. -/
def RKind.saved : RKind → Bool
  | .handler .. | .report .. => true
  | .counter _ | .bound => false

/-- Firings go back to their record, PEND counting them still: each with the cycle at which it became ready (R73, R267, R271). -/
def Fab.backToRecord (f : Fab) (m : Mgt) (n : CtxId) (va : Nat) (es : List (Nat × BitVec 32)) : Fab :=
  match f.liveRec m n va with
  | some (gpa, r) =>
    if r.binds.isEmpty then f.setLive gpa { r with waiting := r.waiting ++ es }
    else f.setLive gpa { r with queued := false, back := es.head?.map (·.1) }
  | none => f

def Fab.backAll (f : Fab) (m : Mgt) (n : CtxId) : List (Nat × List (Nat × BitVec 32)) → Fab
  | [] => f
  | r :: rs => (f.backToRecord m n r.1 r.2).backAll m n rs

/-- Records stand in a chain in memory, each LINK naming the next (R269, R271). -/
def Fab.linkUp (f : Fab) (m : Mgt) (n : CtxId) : List Nat → Fab
  | [] => f
  | va :: vas =>
    (match f.liveRec m n va with
     | some (gpa, r) => (f.setField m gpa 5 56 6 (vas.headD 0 / 64)).setLive gpa { r with linked := true }
     | none => f).linkUp m n vas

/-- The run queue and the chain of a core return to their records, PEND counting the firings, and the records to one chain in memory,
in their order (R73, R271). A record that stands in another core's chain already stays there. -/
def Fab.returnQueue (f : Fab) (m : Mgt) (c : CoreId) : Fab :=
  let x := f.core c
  let n := x.ctxId
  let queued := x.runq.filterMap fun (r : Ready) => match r.kind with
    | .counter e => some (r.recAddr, [(r.seq, e)])
    | .bound => some (r.recAddr, [(r.seq, 0)])
    | _ => none
  let g := f.backAll m n (queued ++ x.chain.map fun r => (r.recAddr, r.epochs))
  let recs := ((queued.map (·.1) ++ x.chain.map (·.recAddr)).eraseDups).filter fun va => !(g.liveRec m n va).any (·.2.linked)
  (g.linkUp m n recs).modCore c fun y => { y with runq := y.runq.filter fun r => r.kind.saved, chain := [] }

/-- Bytes of a code table (R66). -/
def tableBytes (t : AMap (BitVec 16)) : List Byte := (List.range 256).flatMap fun i => leBytes 2 (mget 0 t i).toNat
def bytesTable (bs : List Byte) : AMap (BitVec 16) :=
  (List.range 256).foldl (fun t i => mput 0 i (BitVec.ofNat 16 (leNum ((bs.drop (2 * i)).take 2))) t) []

/-- Descriptors, barrier registers and their status words, bank bits, all-zero flags, core control registers, the exchange phase count
and exports, in 128 words. Their order and fields are the model's (log 14, DESIGN CHOICE). -/
def Core.regWords (x : Core) : List Nat :=
  let bar := fun (r : BarReg) => [r.desc.toNat,
    r.epoch.toNat * 2 ^ 32 + r.arr.toNat + 2 * r.rin.toNat + 4 * r.cin.toNat + 8 * r.fwd.toNat]
  let regs := x.cbs.toList.flatMap (fun (d : CbDesc) =>
      [d.pseq * 2 ^ 16 + d.cseq, d.en.toNat * 2 ^ 63 + d.depth * 2 ^ 48 + d.esz * 2 ^ 32 + d.base * 64]) ++
    x.bars.toList.flatMap bar ++ x.trees.toList.flatMap bar ++
    [x.bank.toNat + 2 * x.ctActive.toNat, x.zflags.toNat % 2 ^ 64, x.zflags.toNat / 2 ^ 64,
      x.agemax.toNat + x.landctl.toNat * 2 ^ 16 + x.aggage.toNat * 2 ^ 32, x.xphase] ++
    x.exports.flatMap fun (e : Export) =>
      [e.isA.toNat + e.vx0 * 2 ^ 8 + e.vy0 * 2 ^ 16 + e.gw * 2 ^ 24 + e.gh * 2 ^ 32, e.k.toNat, e.d.toNat, e.readers.length]
  (regs ++ List.replicate 128 0).take 128

/-- A handler or report firing as it is saved: 160 bytes (R347). Of a report, the first line holds what it delivers (log 14, DESIGN
CHOICE). -/
def Ready.saved (r : Ready) : List Byte :=
  (match r.kind with
   | .handler st ret xid _ => lineBytes st ++ lineBytes ret ++ [r.recAddr, xid.toNat, r.seq, 0].flatMap (leBytes 8)
   | .report cause addr tag entry =>
     lineBytes (lineOf ([cause.toNat, addr.toNat, tag.toNat] ++ (entry.map LogEntry.words).getD [])) ++ lineBytes 0 ++
       [r.recAddr, 0, r.seq, 1].flatMap (leBytes 8)
   | .counter _ | .bound => [])

/-- A cancellation record: 96 bytes (R347). -/
def EngOp.saved (o : EngOp) : List Byte :=
  lineBytes o.msg.blk ++ [o.msg.xid.toNat, o.pos, 1, o.msg.form].flatMap (leBytes 8)

/-- Bytes padded with zeros to a length. -/
def padTo (n : Nat) (bs : List Byte) : List Byte := (bs ++ List.replicate n 0).take n

/-- The landing set of a thread as the save area holds it from here on: that of a trapped firing stands there already, with what its
routine has stored into it (R339, R342, R347). -/
def Fab.landingBytes (f : Fab) (m : Mgt) (n : CtxId) (v : Nat) (x : Core) (h : ThreadId) : List Byte :=
  let t := x.threads[h]
  if t.st == .routine || t.st == .parked then f.bytesAt m ((f.ctx n).savearea + 0x4B000 * v + landingOff h) 576 else t.ls.saved

/-- The parts of the save area of virtual core v, apart from the frames: offset and contents (R347). -/
def Fab.saveParts (f : Fab) (m : Mgt) (n : CtxId) (v : Nat) (x : Core) : List (Nat × List Byte) :=
  let z := f.ctx n
  [(0, peeks x.spad 0 0x20000), (0x20000, peeks x.xb0 0 0x4000), (0x24000, peeks x.xb1 0 0x4000),
    (0x28000, pairBytes x.acc .tile .f32 true), (0x38000, peeks x.wbuf 0 0x8000), (0x40000, tableBytes x.ct0),
    (0x40200, tableBytes x.ct1), (0x43400, (List.finRange 8).flatMap (f.landingBytes m n v x)),
    (0x44600, x.regWords.flatMap (leBytes 8)), (0x44A00, padTo 0x400 (x.inbox.flatMap fun i => lineBytes i.blk)),
    (0x44E00, padTo 0x3000
      ((z.cancelled.filter fun o => z.vnum o.msg.who.vx o.msg.who.vy = v).flatMap EngOp.saved)),
    (0x47E00, padTo 0x800 (x.flog.flatMap fun e => e.words.flatMap (leBytes 8))),
    (0x48600, padTo 0x100 ((f.watches.filter fun w => w.ctx = n && w.vcore = v).flatMap fun w =>
      leBytes 8 w.word ++ leBytes 8 w.recAddr)),
    (0x48800, padTo 0x2800 ((x.runq ++ x.late).flatMap Ready.saved))]

/-- Bytes of a save: line by line through the write lane, never charged (R17, R247). -/
def Fab.saveBytes (f : Fab) (m : Mgt) (n : CtxId) : Nat → Nat → List Byte → Fab
  | 0, _, _ => f
  | fuel + 1, a, bs =>
    if bs.isEmpty then f
    else
      let k := min bs.length (64 - a % 64)
      (match m.place a with
       | .own la => f.enterBytes m { Who.none with ctx := n } 0 la (bs.take k) 0
       | _ => f.store m none false a (bs.take k)).saveBytes m n fuel (a + k) (bs.drop k)

/-- The frame of a thread at the save (R341). -/
def Fab.saveFrame (f : Fab) (m : Mgt) (n : CtxId) (c : CoreId) (h : ThreadId) : Fab :=
  let t := f.thread c h
  let state := fun (k : Nat) => f.saveBytes m n 2 (f.frameAt c h + 0x170) (leBytes 8 k)
  match t.st with
  | .free => state 0
  | .routine => state 2
  | .parked | .aborting => state 3
  | .running | .stopped | .trapping => f.saveBytes m n 25 (f.frameAt c h) (frameBytes t 4)

def Fab.saveFrames (f : Fab) (m : Mgt) (n : CtxId) (c : CoreId) : List ThreadId → Fab
  | [] => f
  | h :: hs => (f.saveFrame m n c h).saveFrames m n c hs

def Fab.writeParts (f : Fab) (m : Mgt) (n : CtxId) (a : Nat) : List (Nat × List Byte) → Fab
  | [] => f
  | p :: ps => (f.saveBytes m n (p.2.length / 64 + 1) (a + p.1) p.2).writeParts m n a ps

/-- A thread as it is saved: what runs is stopped (R346). -/
def Thread.stop (t : Thread) : Thread := { t with st := if t.st == .running then .stopped else t.st, wdrain := none }

/-- A core after the end of a lease: its power state and the entries of its TLB stay. -/
def Core.cleared (x : Core) : Core := { Core.reset with power := x.power, tlb := x.tlb }

/-- One core of the lease writes its save area and is freed (R347); a lost core is not saved (R294). -/
def Fab.saveCore (f : Fab) (m : Mgt) (n : CtxId) (v : Nat) (c : CoreId) : Fab :=
  if (f.core c).occ.isNone then f.modCore c Core.cleared
  else
    let g := ((f.replay c).returnQueue m c).saveFrames m n c (List.finRange 8)
    let x := g.core c
    let g := g.writeParts m n (g.saveAt c) (g.saveParts m n v x)
    let y := { x with
      threads := x.threads.map Thread.stop, tlb := [], traffic := []
      trees := x.trees.map fun r => { r with counted := false } }
    (g.modCtx n fun z => { z with cores := mset v y z.cores }).setCore c x.cleared

def Fab.saveCores (f : Fab) (m : Mgt) (n : CtxId) : List (Nat × CoreId) → Fab
  | [] => f
  | p :: ps => (f.saveCore m n p.1 p.2).saveCores m n ps

/-! The pre-emption sequence (R346). -/

/-- PREEMPT_RETIRE_EXPIRY: the retire allowance has passed; what still runs stops at an instruction boundary (R346, step 2). -/
def execPreemptRetireExpiry (n : CtxId) (s : State) : Res :=
  s.event fun _ f => if (f.ctx n).pre = some .retire then f.modCtx n fun x => { x with stopping := true } else f

/-- Whether the step under way of a context's pre-emption has nothing left to wait for (R303, R346). -/
def Fab.preReady (f : Fab) (m : Mgt) (n : CtxId) : Bool :=
  let x := f.ctx n
  let cs := x.coreList
  let threads := cs.flatMap fun c => (f.core c).threads.toList
  match x.pre with
  | none => false
  | some .retire =>
    (x.stopping || threads.all fun t => t.st == .free || t.st == .parked) && threads.all (fun t => t.st != .aborting) &&
    cs.all (fun c => (f.core c).mq.isEmpty) &&
    !f.pairs.any fun p => p.begun && (cs.contains p.lo || cs.contains p.hi)
  | some .engines =>
    !f.msgs.any (fun y => y.who.ctx = n && y.form = 0 && y.gone && !blkRmt y.blk) &&
    (f.ops.filter fun o => o.msg.who.ctx = n).all fun o =>
      f.betweenSteps m o && !f.awaits o.msg.id
  | some .buffers => !f.elems.any fun e => (e.st == .flight || e.st == .applied) && e.of fun w => w.ctx = n
  | some .loads =>
    threads.all (fun t => !t.owes && t.ls.count .armed = 0 && t.savedLs.count .armed = 0 && t.st != .trapping) &&
    !f.loose.any (·.who.ctx = n)
  | some .barriers => !f.bars.any fun b => b.ctx = n
  | some .save => true

/-- The operation that a message not yet accepted stands for. -/
def opOf (x : Msg) : EngOp := ⟨{ x with gone := true }, false, if x.form = 5 then x.pos else 0, 0, none, false, false, [], none⟩

/-- Step 3 of R346: engine operations, and messages still on their way to an engine, are cancelled with their progress. -/
def Fab.cancelOps (f : Fab) (n : CtxId) : Fab :=
  let late := (f.msgs.filter fun x => x.who.ctx = n && x.form ≠ 0).map opOf
  let mine := f.ops.filter fun o => o.msg.who.ctx = n
  let g := f.modCtx n fun x => { x with cancelled := x.cancelled ++ (mine ++ late).map fun o => { o with buf := none } }
  { g with ops := g.ops.filter (fun o => o.msg.who.ctx ≠ n), msgs := g.msgs.filter fun x => !(x.who.ctx = n && x.form ≠ 0) }

def Fab.flushCores (f : Fab) : List CoreId → Fab
  | [] => f
  | c :: cs => (f.sendAll c).flushCores cs

/-- The next step of a pre-emption begins. -/
def Fab.toStep (f : Fab) (n : CtxId) (p : PreStep) : Fab := f.modCtx n fun x => { x with pre := some p }

/-- What a context's heads, units and engines read of other devices is of no more use. -/
def Fab.noReads (f : Fab) (n : CtxId) : Fab :=
  { f with
    reads := f.reads.filter fun r => r.ctx ≠ n
    sent := f.sent.filter fun x => match x.what with
      | .read id => !f.reads.any fun r => r.id = id && r.ctx = n
      | _ => true }

/-- The last step: every core is saved, the lease ends and the context is SUSPENDED (R242, R293, R347). -/
def Fab.suspended (f : Fab) (m : Mgt) (n : CtxId) : Fab :=
  let g := (f.noReads n).saveCores m n (f.ctx n).leaseCores
  let g := (g.modCtx n fun x =>
    { x with st := .suspended, lease := .none, map := [], pre := none, stopping := false, saved := true }).interrupt m n 2
  Fab.push { g with ctxrsp := { g.ctxrsp with result := resDone } } .leaseGrant

/-- PREEMPT_COMPLETE: the step under way ends and the next begins; the last one saves (R346, R347). -/
def execPreemptComplete (n : CtxId) (s : State) : Res :=
  s.event fun m f =>
    if !f.preReady m n then f
    else
      match (f.ctx n).pre with
      | some .retire => (f.modCtx n fun x => { x with stopping := true }).toStep n .engines
      | some .engines => ((f.cancelOps n).flushCores (f.ctx n).coreList).toStep n .buffers
      | some .buffers => f.toStep n .loads
      | some .loads => f.toStep n .barriers
      | some .barriers => f.toStep n .save
      | some .save => f.suspended m n
      | none => f

/-! Grant and restore (R278, R279, R293, R348). -/

/-- The cores of a rectangle with their virtual core numbers (R278). -/
def rectCores (px py lw lh : Nat) : List (Nat × CoreId) :=
  (List.range (lw * lh)).map fun v => (v, Fin.ofNat 2304 (48 * (py + v / lw) + (px + v % lw)))

/-- The first rectangle of a shape, by its origin's core number, whose cores all pass a test (R279). -/
def findRect (lw lh : Nat) (ok : CoreId → Bool) : Option (Nat × Nat) :=
  ((List.range 2304).find? fun o =>
    o % 48 + lw ≤ 48 && o / 48 + lh ≤ 48 && (rectCores (o % 48) (o / 48) lw lh).all fun p => ok p.2).map fun o => (o % 48, o / 48)

/-- Bytes of a save area, line by line. -/
def Fab.savedBytes (f : Fab) (m : Mgt) (a n : Nat) : List Byte :=
  (List.range (n / 64)).flatMap fun i =>
    match m.place (a + 64 * i) with
    | .own la => lineBytes (f.lineRead (la / 64))
    | _ => f.bytesAt m (a + 64 * i) 64

/-- A core's state as its save area holds it: the parts with a layout from memory, the rest as it was saved (R347, log 14, DESIGN
CHOICE). -/
def Fab.loadCore (f : Fab) (m : Mgt) (a : Nat) (x : Core) : Core :=
  let rd := fun (off n : Nat) => f.savedBytes m (a + off) n
  let acc := rd 0x28000 0x10000
  { x with
    spad := pokes [] 0 (rd 0 0x20000)
    xb0 := pokes [] 0 (rd 0x20000 0x4000)
    xb1 := pokes [] 0 (rd 0x24000 0x4000)
    acc := bytesPairs [] .tile .f32 true fun i => acc.getD i 0
    wbuf := pokes [] 0 (rd 0x38000 0x8000)
    ct0 := bytesTable (rd 0x40000 0x200)
    ct1 := bytesTable (rd 0x40200 0x200) }

/-- A core as the grant leaves it: zeroed by R68, or restored (R73); a lost core is zeroed (R294). -/
def Fab.grantCore (f : Fab) (m : Mgt) (n : CtxId) (v : Nat) (c : CoreId) : Fab :=
  let x := f.ctx n
  let old := f.core c
  let o : Occ := ⟨n, v % x.lw, v / x.lw⟩
  let y :=
    if x.saved && x.cores.any (·.1 = v) then f.loadCore m (x.savearea + 0x4B000 * v) (mget Core.reset x.cores v) else Core.reset
  f.setCore c { y with occ := some o, power := old.power, tlb := old.tlb }

def Fab.grantCores (f : Fab) (m : Mgt) (n : CtxId) : List (Nat × CoreId) → Fab
  | [] => f
  | p :: ps => (f.grantCore m n p.1 p.2).grantCores m n ps

/-- A thread after restore (R348): a stopped firing continues from its frame, a trap routine starts again, a parked thread is
reported again. -/
def Fab.restoreThread (f : Fab) (m : Mgt) (c : CoreId) (h : ThreadId) : Fab :=
  let t := f.thread c h
  let bs := f.bytesAt m (f.frameAt c h) 0x600
  match t.st with
  | .stopped =>
    let ls := t.ls.restored (f.bytesAt m (f.saveAt c + landingOff h) 576)
    f.setThread c h
      { loadFrame bs ls { t with savedPend := t.pend, ctl := frameTraps bs t.ctl } with
        st := .running, pc := BitVec.ofNat 57 (leNum ((bs.drop 0x100).take 8)) }
  | .routine => f.startRoutine m c h (frameTraps bs t.ctl)
  | .parked =>
    let o := (f.core c).occ.getD ⟨0, 0, 0⟩
    (f.queueTrap o.ctx ((f.ctx o.ctx).vnum o.vx o.vy) h t.ctl.trapcause).interrupt m o.ctx 0
  | .free | .running | .trapping | .aborting => f

def Fab.restoreThreads (f : Fab) (m : Mgt) : List (CoreId × ThreadId) → Fab
  | [] => f
  | (c, h) :: r => (f.restoreThread m c h).restoreThreads m r

/-- Cancelled operations are injected again (R348). -/
def Fab.reinject (f : Fab) (n : CtxId) : Fab :=
  let ops := (f.ctx n).cancelled
  let g := f.modCtx n fun x => { x with cancelled := [] }
  { g with
    ops := g.ops ++ ops
    due := g.due ++ ops.map fun (o : EngOp) => o.msg.event }

/-- A firing that a context switch returned, or that became ready while the group had no lease: when, its record, and the epoch it
carries (R271, R282). -/
structure Back where
  at' : Nat
  recAddr : Nat
  gpa : Nat
  bound : Bool
  epoch : BitVec 32

/-- Those of a record. -/
def LiveRec.backs (r : LiveRec) (gpa now : Nat) : List Back :=
  if r.binds.isEmpty then r.waiting.map fun e => ⟨e.1, r.recAddr, gpa, false, e.2⟩ else [⟨r.back.getD now, r.recAddr, gpa, true, 0⟩]

/-- A place in the order of readiness: the earlier first, then the lower record (R270). -/
def insertBack (b : Back) : List Back → List Back
  | [] => [b]
  | x :: xs => if b.at' < x.at' || (b.at' = x.at' && b.recAddr ≤ x.recAddr) then b :: x :: xs else x :: insertBack b xs

def Fab.standBacks (f : Fab) (m : Mgt) : List Back → Fab
  | [] => f
  | b :: bs => (if b.bound then f.boundCheck m b.gpa else f.standingAt m b.gpa b.at' b.epoch).standBacks m bs

/-- The chains that stood in memory while a group was suspended are taken up: no record stands in one any more (R269, R271). -/
def Fab.unlink (f : Fab) (m : Mgt) : List (Nat × LiveRec) → Fab
  | [] => f
  | (gpa, r) :: rs => (if r.linked then (f.setField m gpa 5 56 6 0).setLive gpa { r with linked := false } else f).unlink m rs

/-- The firings that stand in the records of a context go where they wait, in the order in which they became ready (R271, R282). -/
def Fab.standRecs (f : Fab) (m : Mgt) (rs : List (Nat × LiveRec)) : Fab :=
  let backs := (rs.flatMap fun r => r.2.backs r.1 f.cycle).foldr insertBack []
  let g := rs.foldl (fun g r => if r.2.binds.isEmpty then g.setLive r.1 { r.2 with waiting := [], linked := false } else g)
    (f.unlink m rs)
  g.standBacks m backs

/-- Barriers after a restore: forwards that were not sent, and arrivals at trees (R303). -/
def Fab.barRestore (f : Fab) (n : CtxId) (c : CoreId) : List (Fin 8) → Fab
  | [] => f
  | b :: bs =>
    let g := f.sweep c b
    let r := (g.core c).trees[b]
    (if r.on && r.arr then g.treeArrive c n b else g).barRestore n c bs

/-- What waits on a core begins again. -/
def Fab.wakeUp (f : Fab) (n : CtxId) : List CoreId → Fab
  | [] => f
  | c :: cs =>
    let g := f.barRestore n c (List.finRange 8)
    let g : Fab := { g with due := g.due ++ (g.core c).mwait.map fun (w : MWait) => Instr.mmagPanelAvailable c w.th }
    ((g.reports c).kick c).wakeUp n cs

/-- The queues of an ACTIVE context go on (R258, R261). -/
def Fab.queuesGo (f : Fab) (m : Mgt) (n : CtxId) : Fab :=
  let qs := (List.finRange 16).filter fun q => q.val < (f.ctx n).nq
  Fab.settleKernels { f with due := f.due ++ qs.map (Instr.launchStart n) ++ [.dispatchSelection] } m

/-- A lease is granted at an origin (R278, R293, R242). -/
def Fab.grant (f : Fab) (m : Mgt) (n : CtxId) (px py : Nat) : Fab :=
  let x := f.ctx n
  let cs := rectCores px py x.lw x.lh
  let g := (f.withdraw n).modCtx n fun x =>
    { x with
      lease := .granted, px0 := px, py0 := py, nofit := false, gone := []
      map := cs.foldl (fun t p => mset p.1 p.2.val t) [] }
  let g := (g.grantCores m n cs).modCtx n fun x => { x with st := .active, cores := [] }
  let g := g.restoreThreads m (cs.flatMap fun p => (List.finRange 8).map fun h => (p.2, h))
  let g := (g.reinject n).standRecs m (g.live.filter fun r => r.2.ctx = n && !r.2.dead)
  ((g.wakeUp n (cs.map (·.2))).queuesGo m n).interrupt m n 2

/-- The requests in their order: one that no unfenced rectangle fits is marked NOFIT and passed over; the first that must wait holds
the ones behind it, which are only looked at for NOFIT (R279, R293). -/
def Fab.grantAll (f : Fab) (m : Mgt) (blocked : Bool) : List CtxId → Fab
  | [] => f
  | n :: ns =>
    let x := f.ctx n
    match findRect x.lw x.lh fun c => !m.coreFenced c with
    | none => (f.modCtx n fun x => { x with nofit := true }).grantAll m blocked ns
    | some _ =>
      match if blocked then none else findRect x.lw x.lh fun c => !m.coreFenced c && (f.core c).occ.isNone with
      | some (px, py) => (f.grant m n px py).grantAll m false ns
      | none => (f.modCtx n fun x => { x with nofit := false }).grantAll m true ns

/-- LEASE_GRANT: the distributor serves the lease requests (R279). -/
def execLeaseGrant (s : State) : Res := s.event fun m f => f.grantAll m false f.reqs

/-! Teardown (R249). -/

/-- Steps 2 to 5 and 7 of R249: everything of a context in flight is discarded, with its watches, records and
translations. Lines that it dirtied are charged to none from here on. -/
def Fab.discard (f : Fab) (n : CtxId) : Fab :=
  let mine := fun (w : Who) => w.ctx = n
  { f with
    elems := f.elems.filter fun e => !e.of mine
    decs := f.decs.filter fun d => d.ctx ≠ n
    wakes := f.wakes.filter fun w => w.ctx ≠ n
    msgs := f.msgs.filter fun x => !mine x.who
    ops := f.ops.filter fun o => !mine o.msg.who
    chimes := f.chimes.filter fun k => !mine k.msg.who
    contribs := f.contribs.filter fun k => k.ctx ≠ n
    bars := f.bars.filter fun b => b.ctx ≠ n
    reads := f.reads.filter fun r => r.ctx ≠ n
    loose := f.loose.filter fun x => x.who.ctx ≠ n
    rwrites := f.rwrites.filter fun r => !(r.who.ctx = n && r.who.fid ≠ 0)
    sent := f.sent.filter fun x => match x.what with
      | .load c _ _ | .slot c _ _ => (f.core c).occ.isSome
      | .write id => !f.rwrites.any fun r => r.id = id && r.who.ctx = n && r.who.fid ≠ 0
      | .read id => !f.reads.any fun r => r.id = id && r.ctx = n
      | .dec id => !f.decs.any fun d => d.id = id && d.ctx = n
      | .send id => !f.msgs.any fun x => x.id = id && mine x.who
    dirty := f.dirty.map fun p => (p.1, if p.2.who.any mine then { p.2 with who := none } else p.2)
    sels := f.sels.filter fun t => t.ctx ≠ n
    watches := f.watches.filter fun w => w.ctx ≠ n
    live := f.live.filter fun r => r.2.ctx ≠ n
    kernels := f.kernels.filter fun k => k.ctx ≠ n
    ctlb := f.ctlb.map fun p => (p.1, p.2.filter fun (e : TlbEnt) => e.ctx ≠ n)
    cores := f.cores.map fun p => (p.1, { p.2 with tlb := p.2.tlb.filter fun e => e.ctx ≠ n }) }

/-- The cores of an ending lease are freed. -/
def Fab.freeCores (f : Fab) : List CoreId → Fab
  | [] => f
  | c :: cs => ((f.replay c).modCore c Core.cleared).freeCores cs

/-- TEARDOWN_COMPLETE: the steps of R249; an exchange under way completes first (R292). -/
def execTeardownComplete (n : CtxId) (s : State) : Res :=
  s.event fun m f =>
    let x := f.ctx n
    let cs := x.coreList
    if x.st ≠ .destroying || f.pairs.any (fun p => p.begun && (cs.contains p.lo || cs.contains p.hi)) then f
    else
      let g := (f.wl.filter fun (e : WEntry) => e.who.ctx = n && e.place ≠ .unit).foldl (fun g e => g.drainOne m e) f
      let g := ({ g with wl := g.wl.filter fun (e : WEntry) => e.who.ctx ≠ n }.freeCores cs).discard n
      let g := (g.interrupt m n 2).setCtx n Ctx.reset
      Fab.push { g with ctxrsp := { g.ctxrsp with result := resDone } } .leaseGrant

end Sys2Proof.Machine
end

