-- ==== Sys2Proof/Machine/Control.lean ====
section
/-! DEFINITION. Control flow (07_isa_scalar R142 to R144). A target is checked when its head is fetched. -/

namespace Sys2Proof.Machine

/-- lk is s30 (R59). -/
def lk : SReg := 30

def Thread.jump (t : Thread) (p : Pc) : Thread := { t with pc := p }
/-- lk := npc, then the jump (R142). -/
def Thread.call (t : Thread) (p : Pc) : Thread := (t.wr lk (t.npc.zeroExtend 64)).jump p

/-- A head that ends by setting the PC. -/
def State.flow (s : State) (g : Guard) (rs ws : List Dst) (body : Thread → Thread) : Res :=
  s.head g rs ws fun _ f c h => f.modThread c h body

/-- BR, direct (R142). -/
def execBrJ16 (g : Guard) (off : BitVec 11) (hx : BitVec 5) (s : State) : Res :=
  s.flow g [] [] fun t => t.jump (branchTo t.pc off hx)
def execBrJ32 (g : Guard) (off : BitVec 27) (hx : BitVec 5) (s : State) : Res :=
  s.flow g [] [] fun t => t.jump (branchTo t.pc off hx)
/-- CALL, direct (R142). -/
def execCallJ16 (g : Guard) (off : BitVec 11) (hx : BitVec 5) (s : State) : Res :=
  s.flow g [] [.s lk] fun t => t.call (branchTo t.pc off hx)
def execCallJ32 (g : Guard) (off : BitVec 27) (hx : BitVec 5) (s : State) : Res :=
  s.flow g [] [.s lk] fun t => t.call (branchTo t.pc off hx)
/-- BR to a register (R142). -/
def execBrReg (g : Guard) (b : SReg) (s : State) : Res := s.flow g [.s b] [] fun t => t.jump (pcOf (t.rd b))
/-- CALL to a register: the target is read before lk is written (R142). -/
def execCallReg (g : Guard) (b : SReg) (s : State) : Res := s.flow g [.s b] [.s lk] fun t => t.call (pcOf (t.rd b))
/-- RET (R142). -/
def execRet (g : Guard) (s : State) : Res := s.flow g [.s lk] [] fun t => t.jump (pcOf (t.rd lk))
/-- BRC: counts down and branches while the count is not zero (R143). -/
def execBrc (g : Guard) (c : SReg) (off : BitVec 22) (hx : BitVec 5) (s : State) : Res :=
  s.flow g [.s c] [.s c] fun t =>
    let n := t.rd c - 1
    let t' := t.wr c n
    if n = 0 then t'.adv else t'.jump (branchTo t.pc off hx)

end Sys2Proof.Machine
end

