-- ==== Sys2Proof/Machine/Placement.lean ====
section
/-! DEFINITION. Placement swaps (15_group R284 to R292), power gating (R283, R23), and fencing (20_module R357, R358; 15_group
R294). -/

namespace Sys2Proof.Machine

/-- A step that changes the fabric and the management side. -/
def State.both (s : State) (body : Mgt → Fab → Mgt × Fab) : Res :=
  let r := body s.m s.f
  .next { s with m := r.1, f := r.2 }

/-- An access of the host to BAR0 that changes both: none where it does not reach the device (R357, R359). -/
def State.bar0Both (s : State) (body : Mgt → Fab → Mgt × Fab) : Res := s.both fun m f => if m.bar0 then body m f else (m, f)

/-! Swap instants (R285 to R288). -/

def coreX (c : CoreId) : Nat := c.val % 48
def coreY (c : CoreId) : Nat := c.val / 48

/-- D(a, b) of R286. -/
def coreDist (a b : CoreId) : Nat :=
  let gap := fun (i j : Nat) => (i - j) + (j - i)
  let seam := fun (i j : Nat) => if decide (i < 24) = decide (j < 24) then 0 else 1
  gap (coreX a) (coreX b) + gap (coreY a) (coreY b) + 8 * (seam (coreX a) (coreX b) + seam (coreY a) (coreY b))

/-- The count of a peer in a traffic table (R284). -/
def countOf (tab : List (Nat × Nat)) (peer : Nat) : Nat := ((tab.find? (·.1 = peer)).map (·.2)).getD 0

/-- The weight between two virtual cores on cores a and b (R284). -/
def Fab.weight (f : Fab) (u v : Nat × CoreId) : Nat := countOf (f.core u.2).traffic v.1 + countOf (f.core v.2).traffic u.1

/-- The cost of the edges of u and v when they lie at a and b (R286, R288). -/
def Fab.pairCost (f : Fab) (all : List (Nat × CoreId)) (u v : Nat × CoreId) (a b : CoreId) : Nat :=
  f.weight u v * coreDist a b +
  ((all.filter fun p => p.1 ≠ u.1 && p.1 ≠ v.1).map fun p =>
    f.weight u p * coreDist a p.2 + f.weight v p * coreDist b p.2).sum

/-- Whether a live record pins a virtual core, word 3 being read as it stands (R265, R287). -/
def Fab.pinned (f : Fab) (m : Mgt) (n : CtxId) (v : Nat) : Bool :=
  f.live.any fun r => r.2.ctx = n && (f.pinOf m r.1).any fun p => (f.ctx n).vnum p.1 p.2 = v

/-- The damping of R287 at instant k, from the swaps that the occupants have taken part in. -/
def damped (k : Nat) (x y : Core) (v : Nat) : Bool :=
  let since := fun (i : Nat) (e : Nat × Nat) => decide (k ≤ e.1 + i) && decide (e.1 < k)
  x.swaps.any (since 4) || y.swaps.any (since 4) || x.swaps.any fun e => e.2 = v && since 8 e

/-- Whether two occupants of one lease are a candidate pair (R287). -/
def Fab.swappable (f : Fab) (m : Mgt) (n : CtxId) (k : Nat) (u v : Nat × CoreId) : Bool :=
  let busy := fun (c : CoreId) => f.pairs.any fun p => p.lo = c || p.hi = c
  u.2 < v.2 && (v.2.val = u.2.val + 48 || (v.2.val = u.2.val + 1 && coreY u.2 = coreY v.2)) &&
  (f.core u.2).power ≠ .gated && (f.core v.2).power ≠ .gated && !f.pinned m n u.1 && !f.pinned m n v.1 &&
  !damped k (f.core u.2) (f.core v.2) v.1 && !busy u.2 && !busy v.2

/-- A qualifying pair with its gain (R288). -/
structure Gain where
  lo : CoreId
  hi : CoreId
  g : Nat
  deriving DecidableEq, Repr

/-- The gain of a candidate where it qualifies (R288). -/
def Fab.gainOf (f : Fab) (m : Mgt) (all : List (Nat × CoreId)) (u v : Nat × CoreId) : Option Gain :=
  let b := f.pairCost all u v u.2 v.2
  let a := f.pairCost all u v v.2 u.2
  if a < b && 8 * (b - a) > m.gain.toNat * b then some ⟨u.2, v.2, b - a⟩ else none

/-- The qualifying pairs of a granted lease. -/
def Fab.qualifying (f : Fab) (m : Mgt) (k : Nat) (n : CtxId) : List Gain :=
  let x := f.ctx n
  if x.lease == .granted then
    let all := x.leaseCores
    all.flatMap fun u => all.filterMap fun v => if f.swappable m n k u v then f.gainOf m all u v else none
  else []

/-- The order in which pairs are taken (R288): by descending gain, then by their core numbers. -/
def Gain.before (a b : Gain) : Bool :=
  decide (a.g > b.g) || (a.g = b.g && (a.lo < b.lo || (a.lo = b.lo && a.hi ≤ b.hi)))

def insertGain (a : Gain) : List Gain → List Gain
  | [] => [a]
  | b :: bs => if a.before b then a :: b :: bs else b :: insertGain a bs

/-- Pairs taken in order, none sharing a core with one already taken (R288). -/
def takePairs (taken : List Gain) : List Gain → List Gain
  | [] => taken
  | p :: ps =>
    takePairs (if taken.any fun q => q.lo = p.lo || q.lo = p.hi || q.hi = p.lo || q.hi = p.hi then taken else taken ++ [p]) ps

/-- The choice at an instant, over the whole device (R285, R288). -/
def Fab.choice (f : Fab) (m : Mgt) (k : Nat) : List Gain :=
  if m.swen then takePairs [] (((List.finRange 64).flatMap (f.qualifying m k)).foldr insertGain []) else []

/-- The decay of R285. -/
def decay (tab : List (Nat × Nat)) : List (Nat × Nat) :=
  (tab.map fun e => (e.1, e.2 - e.2 / 4)).filter fun e => e.2 ≠ 0

/-- The swap instant after the counter's present value, of a period in µs, which is 50 or more (R280, R285). -/
def Mgt.nextInstant (m : Mgt) (period : Nat) : Nat :=
  let ns := 1000 * max 50 period
  (m.time[0].toNat / ns + 1) * ns

/-- The management side after an instant: what was written to SWAPPERIOD is in force from here on (R280, R285). -/
def Mgt.swapped (m : Mgt) : Mgt := { m with swapNow := m.swapperiod, swapAt := m.nextInstant m.swapperiod.toNat }

/-- The fabric after instant k: the pairs of its choice, and every count of a lease that takes part reduced (R285, R288). -/
def Fab.swapInstant (f : Fab) (m : Mgt) (k : Nat) : Fab :=
  { f with
    swapK := k
    pairs := f.pairs ++ (f.choice m k).map fun p => ⟨p.lo, p.hi, k, false, 0⟩
    cores := f.cores.map fun c =>
      (c.1, if c.2.occ.any (fun o => (f.ctx o.ctx).lease == .granted) then { c.2 with traffic := decay c.2.traffic } else c.2) }

/-- SWAP_INSTANT (R285 to R288), once TIMENOW, as the distributor's die reads it, has reached the instant. Instants are counted,
so that the damping of R287 counts them under every period; those that the counter steps over have none (log 27, DESIGN CHOICE).
-/
def execSwapInstant (s : State) : Res :=
  s.both fun m f => if m.time[0].toNat < m.swapAt then (m, f) else (m.swapped, f.swapInstant m (f.swapK + 1))

/-! The exchange (R289 to R292). -/

/-- A core between tasks (R289): no thread holds a firing, the matrix unit holds nothing, no export stands. -/
def Core.between (x : Core) : Bool := x.threads.toList.all (fun t => t.st == .free) && x.mq.isEmpty && x.exports.isEmpty

/-- SWAP_EXCHANGE_BEGIN: within the 5 µs (R289). -/
def execSwapExchangeBegin (a b : CoreId) (s : State) : Res :=
  s.event fun _ f =>
    if f.pairs.any (fun p => p.lo = a && p.hi = b && !p.begun && p.waited < Config.swapWait) && (f.core a).between &&
        (f.core b).between then
      Fab.push { f with pairs := f.pairs.map fun (p : SwapPair) => if p.lo = a && p.hi = b then { p with begun := true } else p }
        (.swapExchangeEnd a b)
    else f

/-- SWAP_ABANDON: the 5 µs have passed, and binding resumes (R289). -/
def execSwapAbandon (a b : CoreId) (s : State) : Res :=
  s.event fun _ f =>
    if f.pairs.any fun p => p.lo = a && p.hi = b && !p.begun && p.waited ≥ Config.swapWait then
      ((Fab.kick { f with pairs := f.pairs.filter fun p => !(p.lo = a && p.hi = b) } a).kick b)
    else f

/-- A core with the state of an occupant that moves in: its power state and TLB are the physical core's (R290). -/
def Core.moveIn (x : Core) (occupant : Core) : Core := { occupant with power := x.power, tlb := x.tlb, held := [], idle := 0 }

/-- The two cores trade their occupants, and the placement map follows (R281, R290). -/
def Fab.exchange (f : Fab) (a b : CoreId) (k : Nat) : Fab :=
  let x := f.core a
  let y := f.core b
  match x.occ, y.occ with
  | some u, some v =>
    let n := u.ctx
    let un := (f.ctx n).vnum u.vx u.vy
    let vn := (f.ctx n).vnum v.vx v.vy
    let g := f.setCore a (x.moveIn { y with swaps := (k, un) :: y.swaps })
    let g := g.setCore b (y.moveIn { x with swaps := (k, vn) :: x.swaps })
    g.modCtx n fun z => { z with map := mset un b.val (mset vn a.val z.map) }
  | _, _ => f

/-- Trees whose crown may stand on a core are looked at again (R301). -/
def Fab.askTrees (f : Fab) (c : CoreId) : List Instr :=
  ((List.finRange 8).filter fun bn => (f.core c).trees[bn].on).map (.treeRelease c)

/-- SWAP_EXCHANGE_END (R290, R291): the map changes, what the routers held is delivered before anything that came after it, binding
resumes. -/
def execSwapExchangeEnd (a b : CoreId) (s : State) : Res :=
  s.event fun _ f =>
    match f.pairs.find? fun p => p.lo = a && p.hi = b && p.begun with
    | none => f
    | some p =>
      let back := (f.core a).held ++ (f.core b).held
      let g := { f with pairs := f.pairs.filter fun q => q ≠ p }.exchange a b p.k
      (({ g with urgent := g.urgent ++ back, due := g.due ++ g.askTrees a ++ g.askTrees b }.kick a).kick b)

/-! Power gating (R283, R23). -/

/-- An idle core (R283): no thread holds a firing, its ready set is empty, no export stands and no exchange is under way; a pair that
still waits is none. -/
def Fab.idle (f : Fab) (c : CoreId) : Bool :=
  let x := f.core c
  x.between && x.runq.isEmpty && x.late.isEmpty && x.inbox.isEmpty && x.chain.isEmpty &&
  !f.pairs.any fun p => p.begun && (p.lo = c || p.hi = c)

/-- Whether a core is to be gated: it has been idle for IDLEGATE µs, and its router holds nothing for it (R280, R283). -/
def Fab.mayGate (f : Fab) (m : Mgt) (c : CoreId) : Bool :=
  let x := f.core c
  m.gten && f.idle c && x.power == .awake && x.held.isEmpty && x.idle ≥ 1000 * m.idlegate.toNat

/-- CORE_GATE: a core that has been idle for IDLEGATE is gated (R283). -/
def execCoreGate (c : CoreId) (s : State) : Res :=
  s.event fun m f =>
    if f.mayGate m c then
      f.modCore c fun x => { x with power := .gated }
    else f

/-- CORE_WAKE_COMPLETE: the core is awake, and what its router held is delivered (R23, R283). -/
def execCoreWakeComplete (c : CoreId) (s : State) : Res :=
  s.event fun _ f =>
    if (f.core c).power == .waking then ((f.modCore c fun x => { x with power := .awake }).replay c).kick c else f

/-! Fencing (R27, R294, R357, R358). -/

/-- The cores of a cluster (R9). -/
def clusterCores (k : Fin 576) : List CoreId :=
  (List.range 4).map fun i => Fin.ofNat 2304 (48 * (2 * (k.val / 24) + i / 2) + (2 * (k.val % 24) + i % 2))
/-- The cores that a fence takes out (R27). -/
def fenceCores : FenceUnit → List CoreId
  | .core c => [c]
  | .router k => clusterCores k

/-- The cluster that a port attaches to (R20). -/
def portCluster (p : PortId) : Nat :=
  let i := p.val % 9
  let d := p.val / 9
  let cx := [1, 3, 5, 7, 9, 0, 0, 0, 0].getD i 0
  let cy := [0, 0, 0, 0, 0, 3, 5, 7, 9].getD i 0
  24 * (if d / 2 = 1 then 23 - cy else cy) + (if d % 2 = 1 then 23 - cx else cx)
/-- The cluster of the host port (R21). -/
def hostCluster : Nat := 24 * 6

/-- A port that its fenced router takes out. -/
def Port.taken (p : Port) : Port := { p with en := false, st := .off, cause := 0, lanes := 0, cap := 0 }

/-- Adds what is not yet in a list. -/
def joinNew {α : Type} [DecidableEq α] (xs ys : List α) : List α := xs ++ ys.filter fun y => !xs.contains y

/-- The management side after a fence: FENCEMAP, REPLACE, and what the router's cluster carried (R27, R357, R358). -/
def Mgt.fence (m : Mgt) (u : FenceUnit) : Mgt :=
  let m := { m with fencedCores := joinNew m.fencedCores (fenceCores u), replace := true }
  match u with
  | .core _ => m
  | .router k =>
    { m with
      fencedRouters := joinNew m.fencedRouters [k]
      ports := Vector.ofFn fun (p : PortId) => if portCluster p = k.val then m.ports[p].taken else m.ports[p]
      hostRouter := m.hostRouter && k.val ≠ hostCluster }.resource

/-- The firings that run on a lost core end there: their records count them no longer (R294). -/
def Fab.loseRuns (f : Fab) (m : Mgt) (n : CtxId) : List Firing → Fab
  | [] => f
  | g :: gs =>
    (match f.liveRec m n g.recAddr with
     | some (gpa, r) => if g.kid.isNone then f else (f.setLive gpa { r with running := r.running - 1 }).showState m gpa
     | none => f).loseRuns m n gs

/-- A core of a lease is lost: HEALTH is raised, the virtual core is noted and is found no more, and an ACTIVE context is suspended
(R27, R294). -/
def Fab.loseCore (f : Fab) (m : Mgt) (c : CoreId) : Fab :=
  match (f.core c).occ with
  | none => f.setCore c Core.reset
  | some o =>
    let runs := (f.core c).threads.toList.filterMap fun t => t.firing
    let g := ((f.replay c).returnQueue m c).loseRuns m o.ctx runs
    let g := (g.setCore c Core.reset).interrupt m o.ctx 3
    let g := g.modCtx o.ctx fun x => { x with lost := true, lostvx := o.vx, lostvy := o.vy, gone := joinNew x.gone [x.vnum o.vx o.vy] }
    if (g.ctx o.ctx).st == .active && (g.ctx o.ctx).pre.isNone then g.startPreempt o.ctx else g

def Fab.loseCores (f : Fab) (m : Mgt) : List CoreId → Fab
  | [] => f
  | c :: cs => (f.loseCore m c).loseCores m cs

/-- The gateway cache of a fenced crossing router is out of use (R357). -/
def Fab.dropGateway (f : Fab) (u : FenceUnit) : Fab :=
  match u with
  | .core _ => f
  | .router k =>
    { f with ctxs := f.ctxs.map fun x => (x.1, { x.2 with stable := x.2.stable.filter fun r => r.place ≠ .gateway k.val }) }

/-- A unit is fenced at once (R357), but a core that is exchanging only when its exchange ends (R292). -/
def fenceUnit (m : Mgt) (f : Fab) (u : FenceUnit) : Mgt × Fab :=
  match (fenceCores u).find? fun c => f.pairs.any fun p => p.begun && (p.lo = c || p.hi = c) with
  | some c => (m, f.modCore c fun x => { x with held := x.held ++ [.coreFence u] })
  | none =>
    let cs := (fenceCores u).filter fun c => !m.fencedCores.contains c
    let m' := m.fence u
    (m', (((f.loseCores m' cs).portsOff m m' (List.finRange 36)).dropGateway u).push .leaseGrant)

/-- CORE_FENCE (R357). -/
def execCoreFence (u : FenceUnit) (s : State) : Res :=
  s.both fun m f => if m.dev == .running then fenceUnit m f u else (m, f)

/-- Several units fenced, one after another. -/
def fenceAll (m : Mgt) (f : Fab) : List FenceUnit → Mgt × Fab
  | [] => (m, f)
  | u :: us => let r := fenceUnit m f u; fenceAll r.1 r.2 us

end Sys2Proof.Machine
end

