-- ==== Sys2Proof/Machine/Links.lean ====
section
/-! DEFINITION. Invalidation of translations (17_page R317, R318), link ports and their link layer (18_link R322 to R327), time
(R334, R335), and the host port (R336, R337). -/

namespace Sys2Proof.Machine

/-! TLBINV (R317, R318). -/

def tlbinvOff : Nat := 0x2800
def tlbinvrspOff : Nat := 0x2808

/-- Page size of SZ; every page for SZ = 3. -/
def szBytes (sz : Nat) : Nat := if sz = 0 then 2 ^ 16 else if sz = 1 then 2 ^ 21 else 2 ^ 30
/-- First address and end of the range of a TLBINV write (R317). -/
def tlbRange (w : Word) : Nat × Nat :=
  let x := w.toNat
  let sz := bits x 15 14
  if sz = 3 then (0, 2 ^ 57)
  else
    let lo := bits x 63 23 * 2 ^ 16 / szBytes sz * szBytes sz
    (lo, lo + (bits x 11 0 + 1) * szBytes sz)

/-- Whether a TLB entry of a context overlaps a range. -/
def TlbEnt.within (e : TlbEnt) (n : CtxId) (lo hi : Nat) : Bool := e.ctx = n && overlap e.vbase e.size lo (hi - lo)

/-- Every TLB entry of a context within a range is removed (R318). -/
def Fab.tlbDrop (f : Fab) (n : CtxId) (lo hi : Nat) : Fab :=
  { f with
    ctlb := f.ctlb.map fun p => (p.1, p.2.filter fun (e : TlbEnt) => !e.within n lo hi)
    cores := f.cores.map fun p => (p.1, { p.2 with tlb := p.2.tlb.filter fun e => !e.within n lo hi }) }

/-- A TLBINV write: an invalidation starts, or the write is discarded (R317). -/
def Fab.tlbStart (f : Fab) (w : Word) : Fab :=
  if f.tlbinv.busy then { f with tlbinv := { f.tlbinv with lost := true } }
  else
    let n : CtxId := Fin.ofNat 64 (bits w.toNat 21 16)
    let r := tlbRange w
    { f with tlbinv := ⟨true, f.tlbinv.lost, n, false, r.1, r.2, w.getLsbD 13⟩ }.tlbDrop n r.1 r.2

/-- TLBINV (R317). -/
def execTlbinv (w : Word) (s : State) : Res := s.bar0 fun _ f => f.tlbStart w

/-- Whether an address of translated memory lies in a range. -/
def inRange (lo hi : Nat) (ea : Word) : Bool :=
  match regionOf ea.toNat with
  | .mem va => lo ≤ va + 63 && va < hi
  | _ => false

/-- Whether a thread has a load in flight within a range. -/
def Thread.loadsIn (t : Thread) (lo hi : Nat) : Bool :=
  let armed := fun (l : Landing) => l.slots.toList.any fun x => x.st == .armed && inRange lo hi x.addr
  t.pend.any (fun p => p.st.open && inRange lo hi p.ea) || armed t.ls || armed t.savedLs

/-- Whether an MSPILL or MFILL that the unit holds reaches into a range (R208). -/
def MEntry.linesIn (e : MEntry) (lo hi : Nat) : Bool :=
  !e.lines.isEmpty && (quarterAddrs e.a e.b).any fun va => lo ≤ va + 63 && va < hi

/-- Whether every access that a removed entry may have translated has finished (R318, condition 3). A read of another device's memory
is waited for, whatever its address was. -/
def Fab.tlbReady (f : Fab) (m : Mgt) : Bool :=
  let r := f.tlbinv
  let mine := fun (w : Who) => w.ctx = r.ctx && w.fid ≠ 0
  r.busy &&
  !(f.cores.any fun c => c.2.occ.any (fun o => o.ctx = r.ctx) &&
    (c.2.threads.toList.any (fun t => t.loadsIn r.lo r.hi) || c.2.mq.any (fun e => e.linesIn r.lo r.hi) ||
      c.2.agg.any fun b => b.2.elems.any fun e => inRange r.lo r.hi e.ea)) &&
  !(f.elems.any fun e => e.st == .flight && e.of mine && inRange r.lo r.hi e.ea) &&
  !(f.rwrites.any fun w => mine w.who && inRange r.lo r.hi w.ea) &&
  !(f.reads.any fun x => x.ctx = r.ctx && x.ans.isNone) &&
  !(f.loose.any fun x => x.who.ctx = r.ctx && inRange r.lo r.hi x.p.ea) &&
  !(f.wl.any fun e => e.who.ctx = r.ctx && e.place ≠ .queue && r.lo ≤ e.ea + 63 && e.ea < r.hi) &&
  f.ops.all fun o => !mine o.msg.who || f.betweenSteps m o

/-- A stable copy that an invalidation drops: of a line in the range, in an L1, and in the other caches where STBL asks for it
(R318, conditions 2 and 4). -/
def Copy.dropped (x : Copy) (r : TlbInv) : Bool :=
  r.lo ≤ 64 * x.vline + 63 && 64 * x.vline < r.hi && (r.stbl || match x.place with | .l1 _ => true | _ => false)

/-- TLBINV_DONE: the invalidation completes (R318). -/
def execTlbinvDone (s : State) : Res :=
  s.event fun m f =>
    let r := f.tlbinv
    if !f.tlbReady m then f
    else
      ({ f with tlbinv := { r with busy := false, done := true } }.tlbDrop r.ctx r.lo r.hi).modCtx r.ctx fun x =>
        { x with stable := x.stable.filter fun y => !y.dropped r }

/-- TLBINVRSP as read (R317). -/
def Fab.tlbinvrspValue (f : Fab) : Word :=
  let r := f.tlbinv
  BitVec.ofNat 64 (r.busy.toNat * 2 ^ 63 + r.lost.toNat * 2 ^ 62 + r.ctx.val * 2 ^ 16 + r.done.toNat)
def Fab.readTlbinvrsp (f : Fab) : Fab :=
  Fab.emit { f with tlbinv := { f.tlbinv with lost := false } } (.reg tlbinvrspOff f.tlbinvrspValue)

/-- TLBINVRSP_READ (R317). -/
def execTlbinvrspRead (s : State) : Res := s.bar0 fun _ f => f.readTlbinvrsp

/-! Ports (R324 to R327). -/

/-- A step that changes the management side alone. -/
def State.mgmtStep (s : State) (body : Mgt → Fab → Mgt) : Res := .next { s with m := body s.m s.f }

def Mgt.setPort (m : Mgt) (p : PortId) (x : Port) : Mgt := { m with ports := m.ports.set p x }

/-- EN := 1 (R327). -/
def Port.enable (x : Port) : Port := if x.st == .off then { x with en := true, st := .training } else { x with en := true }
/-- EN := 0: the port leaves every route; its unacknowledged flits go to other ports (R327, R330). -/
def Port.disable (x : Port) : Port := { Port.reset with capoff := x.capoff, replays := x.replays }

/-- PORT_ENABLE (R327). A port at a fenced router stays out (R27). -/
def Mgt.portEnable (m : Mgt) (p : PortId) : Mgt :=
  if m.clusterFenced (portCluster p) then m else m.setPort p m.ports[p].enable
def execPortEnable (p : PortId) (s : State) : Res := s.mgmtStep fun m _ => if m.bar0 then m.portEnable p else m
/-- A port is switched off. -/
def Mgt.portDisable (m : Mgt) (p : PortId) : Mgt := (m.setPort p m.ports[p].disable).resource
/-- PORT_DISABLE: what the port sent and was not acknowledged goes through other ports (R327, R330). -/
def execPortDisable (p : PortId) (s : State) : Res :=
  s.both fun m f => if m.bar0 then (m.portDisable p, f.portsOff m (m.portDisable p) [p]) else (m, f)

def Port.trains (x : Port) : Bool := x.st == .training || x.st == .retraining

/-- TRAINING_SUCCESS on four lanes, or on the two of one half (R322, R327). -/
def execTrainingSuccess (p : PortId) (four : Bool) (s : State) : Res :=
  s.mgmtStep fun m _ =>
    let x := m.ports[p]
    if x.trains then m.setPort p { x with st := .negotiating, lanes := if four then 4 else 2 } else m

/-- TRAINING_FAIL: three attempts have failed (R327). -/
def execTrainingFail (p : PortId) (s : State) : Res :=
  s.mgmtStep fun m _ =>
    let x := m.ports[p]
    if x.trains then m.setPort p { x with st := .failed, cause := 1, lanes := 0 } else m

/-- The checks of R325: the CAUSE, or 0 where they pass. -/
def Mgt.negotiate (m : Mgt) (peer : PeerInfo) : Nat :=
  if peer.domid ≠ m.domid then 2
  else if !peer.sw && peer.devnum = m.devnum then 3
  else if m.devnum.toNat > 9215 || (!peer.sw && peer.devnum.toNat > 9215) then 4
  else 0

/-- NEGOTIATION_COMPLETE: the port is UP or FAILED (R325 to R327). What a retrained port still keeps is sent again, and requests that
had no port leave (R330). -/
def execNegotiationComplete (p : PortId) (peer : PeerInfo) (s : State) : Res :=
  s.both fun m f =>
    let x := m.ports[p]
    if x.st ≠ .negotiating then (m, f)
    else if m.negotiate peer ≠ 0 then (m.setPort p { x with st := .failed, cause := m.negotiate peer, lanes := 0 }, f)
    else
      let m' := m.setPort p { x with
        st := .up, cap := ~~~x.capoff &&& peer.offer, sw := peer.sw, peer := if peer.sw then 0 else peer.devnum
        consec := 0, peerHops := 0xFF, replays := BitVec.ofNat 16 (min (x.replays.toNat + (f.tx p).kept.length) 65535) }
      (m', f.comeUp m' p)

/-! The link layer (R323). -/

/-- What becomes of a port on a received flit whose CRC is right: flits that the peer acknowledges (fresh: at least one) leave the
replay buffer; of those kept, all are sent again where the peer asks for a replay (R323, R324). -/
def Port.receive (x : Port) (fl : Flit) (fresh : Bool) (kept : Nat) : Port :=
  let again := fl.replay && kept ≠ 0
  { x with
    consec := (if fresh then 0 else x.consec) + again.toNat
    replays := if again then BitVec.ofNat 16 (min (x.replays.toNat + kept) 65535) else x.replays
    rxSeq := if fl.seq = x.rxSeq then x.rxSeq + 1 else x.rxSeq }

/-- Answers and chimes whose flits the requester itself has acknowledged are kept no longer (R329, R331). A switch's
acknowledgement is not the requester's, which then tells in a packet of its own (log 42, DESIGN CHOICE). -/
def Fab.answersGone (f : Fab) (x : Port) (gone : List (Nat × LinkPkt)) : Fab :=
  let mine := fun (dev : Nat) (k : LinkPkt) => !x.sw && x.peer.toNat = dev && gone.any fun p => p.2 = k
  { f with
    answers := f.answers.filter fun a => !mine a.dev (.answer a.dev a.num)
    chimed := f.chimed.filter fun k => !mine k.dev (.chime k.dev k.id) }

/-- FLIT_RECEIVE: a flit in sequence is delivered; one whose CRC fails is not acknowledged and acknowledges nothing (R323). What
packets bring is in the events of their kind (log 42, DESIGN CHOICE). -/
def execFlitReceive (p : PortId) (fl : Flit) (s : State) : Res :=
  s.both fun m f =>
    let x := m.ports[p]
    if x.st ≠ .up || !fl.crcOk then (m, f)
    else
      let t := f.tx p
      let gone := t.kept.filter fun k => k.1 < fl.ack
      let kept := t.kept.filter fun k => fl.ack ≤ k.1
      let y := x.receive fl (!gone.isEmpty) kept.length
      let g := (f.answersGone x gone).setTx p (PortTx.refill { t with kept := kept } p)
      (m.setPort p y, if y.consec ≥ Config.replayLimit then g.push (.flitReplayLimit p) else g)

/-- FLIT_REPLAY_LIMIT: 16 replays of one flit; the port leaves its routes (R323, R327, R330). -/
def execFlitReplayLimit (p : PortId) (s : State) : Res :=
  s.both fun m f =>
    let x := m.ports[p]
    if x.st == .up && x.consec ≥ Config.replayLimit then
      let m' := (m.setPort p { x with st := .retraining, consec := 0 }).resource
      (m', f.leave m' p false)
    else (m, f)

def portSt : PortSt → Nat
  | .off => 0
  | .training => 1
  | .negotiating => 2
  | .up => 3
  | .retraining => 4
  | .failed => 5

/-- PORTSTAT as read (R324). -/
def Port.stat (x : Port) : Word :=
  BitVec.ofNat 64 (portSt x.st * 2 ^ 60 + x.cause * 2 ^ 56 + x.lanes * 2 ^ 48 + x.cap.toNat * 2 ^ 40 + x.sw.toNat * 2 ^ 37 +
    x.peer.toNat * 2 ^ 23 + x.replays.toNat)
def portstatOff (p : PortId) : Nat := 0x4800 + 8 * p.val

/-- Reading PORTSTAT clears REPLAYS (R324). -/
def readPortstat (p : PortId) (m : Mgt) (f : Fab) : Mgt × Fab :=
  (m.setPort p { m.ports[p] with replays := 0 }, f.emit (.reg (portstatOff p) m.ports[p].stat))

/-- PORTSTAT_READ (R324). -/
def execPortstatRead (p : PortId) (s : State) : Res := s.bar0Both (readPortstat p)

/-! Time (R334, R335). -/

/-- TIME_FLIT_SEND: an UP port sends its counter, its HOPS and the round trip that it measured (R334). Without credits on the time
channel none leaves (R323). -/
def execTimeFlitSend (p : PortId) (s : State) : Res :=
  s.both fun m f =>
    if m.ports[p].st == .up && (f.tx p).opens p .time then
      ({ m with sent := mset p.val ⟨m.time[Fin.ofNat 4 (p.val / 9)], m.hops, m.ports[p].rtt⟩ m.sent }, f.carry p .time)
    else (m, f)

/-- The counter is stepped to a time; the next swap instant is the first after it (R285, R334; log 27, DESIGN CHOICE). -/
def Mgt.stepTo (m : Mgt) (target : Word) : Mgt :=
  let m := { m with time := Vector.replicate 4 target, slew := 0 }
  { m with swapAt := m.nextInstant m.swapNow.toNat }

/-- The counter follows a source that tells a time (R334): it steps where no context is ACTIVE, and slews otherwise. -/
def Mgt.follow (m : Mgt) (p : PortId) (target : Word) (steps : Bool) : Mgt :=
  let m := if steps then m.stepTo target else { m with slew := (target - m.time[0]).toInt }
  Mgt.relock { m with tsrc := BitVec.ofNat 8 p.val }

/-- TIME_FLIT_RECEIVE (R334, R335): half the round trip is added to the counter that the flit carries. path.sole: the domain has one
master,
as the device learns it from its peers (log 30, DESIGN CHOICE). -/
def execTimeFlitReceive (p : PortId) (counter : Word) (hops : BitVec 8) (path : TimePath) (s : State) : Res :=
  s.mgmtStep fun m f =>
    if m.ports[p].st ≠ .up then m
    else
      let m := { m.setPort p { m.ports[p] with peerHops := hops, rtt := path.rtt } with sole := path.sole }
      if m.tmaster then m
      else if m.timeSource = some p then
        m.follow p (counter + BitVec.ofNat 64 (path.rtt / 2)) (!f.ctxs.any fun x => x.2.st == .active)
      else m.resource

/-- PTM_EXCHANGE: PTMOFS is the host's time less the counter (R324, R336); the master slews its counter to the host's time (R335). -/
def execPtmExchange (hostTime : Word) (s : State) : Res :=
  s.mgmtStep fun m _ =>
    if m.bar0 then
      { m with ptmofs := hostTime - m.time[0], slew := if m.tmaster then (hostTime - m.time[0]).toInt else m.slew }
    else m

/-! The host port (R336, R337). -/

/-- BAR2 names local addresses and does not depend on DEVNUM (R307). -/
def Mgt.local (m : Mgt) : Mgt := if m.devnum = 0x3FFF then { m with devnum := 0 } else m

/-- A host write, line by line; a part of a line that is poisoned has no effect (R354). -/
def Fab.hostWrite (f : Fab) (m : Mgt) : Nat → Nat → List Byte → Fab
  | 0, _, _ => f
  | fuel + 1, la, bs =>
    if bs.isEmpty then f
    else
      let k := min bs.length (64 - la % 64)
      Fab.hostWrite (if k < 64 && f.poisoned (m.gpa la) k then f else f.store m none true (m.gpa la) (bs.take k))
        m fuel (la + k) (bs.drop k)

/-- A PCIe AtomicOp completed here: the old value, or nothing at a poisoned line (R336, R354). -/
def Fab.hostAtomic (f : Fab) (m : Mgt) (la n : Nat) (run : List Byte → AtomRes) : Fab :=
  if f.poisoned (m.gpa la) n then f.emit (.hostData none)
  else
    let r := run (f.bytesAt m (m.gpa la) n)
    (f.store m none true (m.gpa la) r.bytes).emit (.hostData (some (leBytes n r.old.toNat)))

/-- A host access through BAR2: a device observer for writes, a reader that does not snoop (R336, R117). -/
def Fab.bar2 (f : Fab) (m : Mgt) (a : Bar2) : Fab :=
  match a with
  | .read la n => f.emit (.hostData (if f.poisoned (m.gpa la) n then none else some (f.hostBytes la n)))
  | .write la bs => f.hostWrite m (bs.length / 32 + 2) la bs
  | .fetchAdd la wd b => f.hostAtomic m la (wdSize wd) fun bs => atomRun .add wd false bs b
  | .swap la wd b => f.hostAtomic m la (wdSize wd) fun bs => atomRun .swap wd false bs b
  | .cas la wd b c => f.hostAtomic m la (wdSize wd) fun bs => casRun wd bs b c

/-- The last local address that an access reaches. -/
def bar2Reach : Bar2 → Nat
  | .read la n => la + n
  | .write la bs => la + bs.length
  | .fetchAdd la wd _ | .swap la wd _ | .cas la wd _ _ => la + wdSize wd

/-- HOST_BAR2_ACCESS (R336). -/
def execHostBar2Access (a : Bar2) (s : State) : Res :=
  s.event fun m f => if m.hostLink && m.dev == .running && bar2Reach a ≤ 2 ^ 39 then f.bar2 m.local a else f

/-- ATOMICOP_REQUESTER_ENABLE_WRITE (R337). -/
def execAtomicopRequesterEnableWrite (en : Bool) (s : State) : Res :=
  s.mgmtStep fun m _ => if m.bar0 then { m with atomReq := en } else m

/-- HOST_PORT_DOWN (R21). -/
def execHostPortDown (down : Bool) (s : State) : Res := s.mgmtStep fun m _ => { m with hostUp := !down }

end Sys2Proof.Machine
end

