-- ==== Sys2Proof/Machine/Health.lean ====
section
/-! DEFINITION. The registers of BAR0 (R241, R280, R317, R324, R343, R352), the management path (R350), power and thermal limits
(R351), integrity checks and poison (R353 to R355), firmware, device states and attestation (R356 to R360). -/

namespace Sys2Proof.Machine

/-! Poison (R354). -/

/-- The global line of a local line, for a device with or without a number (R307). -/
def Mgt.gline (m : Mgt) (line : Nat) : Nat := m.local.gpa (64 * line) / 64

/-- The management side after a new poison (R352, R354, R358). -/
def Mgt.addPoison (m : Mgt) (g : Nat) : Mgt :=
  let n := BitVec.ofNat 16 (min (m.poisons.toNat + 1) 65535)
  { m with
    poisons := n
    poisonlog := if m.poisonlog.length < Config.poisonLog then m.poisonlog ++ [g] else m.poisonlog
    replace := m.replace || decide (n.toNat > 64) }

/-- A line of this device's memory is poisoned (R354): logged, with a management alert. -/
def poisonLine (m : Mgt) (f : Fab) (line : Nat) : Mgt × Fab :=
  let g := m.gline line
  if line ≥ 2 ^ 33 || f.poison.contains g then (m, f)
  else (m.addPoison g, Fab.emit { f with poison := f.poison ++ [g] } (.alert g))

/-- POISON (R353, R354). -/
def execPoison (line : Nat) (s : State) : Res :=
  s.both fun m f => if m.dev == .off then (m, f) else poisonLine m f line

/-- An uncorrectable error of a home slice; the eighth since power-on fences its router (R353). -/
def sliceError (m : Mgt) (f : Fab) (n : Fin 576) : Mgt × Fab :=
  let k := mget 0 m.sliceErrs n.val + 1
  let m := { m with sliceErrs := mset n.val k m.sliceErrs }
  if k ≥ 8 then fenceUnit m f (.router n) else (m, f)

/-- A gateway cache loses its copies of a line: the next load fetches it again (R353). -/
def Fab.dropCopies (f : Fab) (n : Fin 576) (line : Nat) : Fab :=
  { f with ctxs := f.ctxs.map fun x => (x.1, x.2.dropAt line fun p => p == .gateway n.val) }

/-- A router has sent its present flit again; after eight retries of it the router is fenced (R353). -/
def meshRetried (m : Mgt) (f : Fab) (n : Fin 576) : Mgt × Fab :=
  let k := mget 0 m.retries n.val + 1
  if k ≥ 8 then fenceUnit { m with retries := mput 0 n.val 0 m.retries } f (.router n)
  else ({ m with retries := mput 0 n.val k m.retries }, f)

/-- SCRUB: what the scrubber or a check finds (R353). A slice's line that is not dirty is fetched again, as is one of a gateway
cache. -/
def scrubbed (x : ScrubFind) (m : Mgt) (f : Fab) : Mgt × Fab :=
  match x with
  | .clean => (m, f)
  | .hbmCorrected _ | .sramCorrected _ | .sliceCorrected _ | .gatewayCorrected _ => ({ m with corrected := m.corrected + 1 }, f)
  | .hbmUncorrected line => poisonLine m f line
  | .sramUncorrected c => fenceUnit m f (.core c)
  | .sliceClean n => sliceError m f n
  | .sliceDirty n line =>
    let r := if (f.dirtyAt line).isSome then poisonLine m f line else (m, f)
    sliceError r.1 r.2 n
  | .gatewayError n line => (m, f.dropCopies n line)
  | .meshRetry n => meshRetried m f n
  | .meshPassed n => ({ m with retries := mput 0 n.val 0 m.retries }, f)

/-- SCRUB (R353). -/
def execScrub (x : ScrubFind) (s : State) : Res :=
  s.both fun m f => if m.dev == .running then scrubbed x m f else (m, f)

/-- IDLE_RETEST: cores outside every lease that fail their test are fenced (R355, R357). -/
def execIdleRetest (bad : List CoreId) (s : State) : Res :=
  s.both fun m f =>
    if m.dev == .running then fenceAll m f ((bad.filter fun c => (f.core c).occ.isNone).map .core) else (m, f)

/-! Power, temperature, device states (R351, R359). -/

/-- What power-off leaves: flash, fuses and what is outside the device. The registers are as at power-on. -/
def Mgt.cold (m : Mgt) : Mgt :=
  { Mgt.reset with
    fencedCores := m.fencedCores, fencedRouters := m.fencedRouters, replace := m.replace, thtrip := m.thtrip, image := m.image
    fuses := m.fuses, keyDigest := m.keyDigest, serial := m.serial, certificate := m.certificate, hostUp := m.hostUp
    hostRouter := !m.clusterFenced hostCluster }
/-- The fabric without power: host memory and what was sent stay. -/
def Fab.cold (f : Fab) : Fab := { Fab.reset with host := f.host, out := f.out, ids := f.ids, cycle := f.cycle }

/-- The device goes OFF; nothing is saved (R351, R356, R359). -/
def goOff (m : Mgt) (f : Fab) : Mgt × Fab := (m.cold, f.cold)

/-- POWER_ON: OFF goes to SELFTEST (R359). -/
def execPowerOn (s : State) : Res :=
  s.both fun m f => if m.dev == .off then ({ m.cold with dev := .selftest }, f.cold) else (m, f)

/-- POWER_LOSS; an interrupted flash write leaves an image that fails (R356). -/
def execPowerLoss (inFlashWrite : Bool) (s : State) : Res :=
  s.both fun m f => goOff (if inFlashWrite then { m with image := none } else m) f

/-- THERMAL_TRIP (R351, R359). -/
def execThermalTrip (s : State) : Res :=
  s.both fun m f => if m.dev == .off then (m, f) else goOff { m with thtrip := true } f

/-- POWER_WINDOW: the pacing of the next window; above 110 °C the device trips (R351). -/
def execPowerWindow (milliwatts celsius : Nat) (s : State) : Res :=
  s.both fun m f =>
    if m.dev == .off then (m, f)
    else
      ({ m with paced := decide (milliwatts > 1000 * m.powcap.toNat) || decide (celsius > 100) },
        if celsius > 110 then f.push .thermalTrip else f)

/-! Firmware (R356). -/

/-- Whether an image's parts agree with its header and body. -/
def imageWhole (x : Image) : Bool :=
  let w := fun (off n : Nat) => leNum ((x.header.drop off).take n)
  x.header.length = 128 && w 0 4 = x.magic.toNat && w 8 8 = x.svn && w 16 8 = x.bodyLen && w 0x20 32 = x.digest.toNat &&
  w 0x40 48 = x.key.toNat && x.signature.length = 16224 && x.body.length = x.bodyLen && x.bodyLen ≤ 2 ^ 26

/-- The rules of R356. -/
def Mgt.accepts (m : Mgt) (x : Image) : Bool :=
  imageWhole x && x.magic = 0x464B4D50 && Config.sha256 (leBytes 48 x.key.toNat) = m.keyDigest &&
  Config.sigValid x.key x.header x.signature && Config.sha256 x.body = x.digest && m.fuses ≤ x.svn

/-- The end of a self-test on an accepted image: failing units are fenced; fuses are blown where a core is left (R356, R359). -/
def testPassed (m : Mgt) (f : Fab) (bad : List FenceUnit) (x : Image) : Mgt × Fab :=
  let r := fenceAll m f bad
  if r.1.coresLeft = 0 then ({ r.1 with dev := .recovery, replace := true }, r.2)
  else ({ r.1 with dev := .running, fuses := max m.fuses x.svn }, r.2)

/-- SELFTEST_COMPLETE (R359). -/
def execSelftestComplete (bad : List FenceUnit) (s : State) : Res :=
  s.both fun m f =>
    if m.dev ≠ .selftest then (m, f)
    else
      match m.image with
      | some x => if m.accepts x then testPassed m f bad x else ({ m with dev := .recovery }, f)
      | none => ({ m with dev := .recovery }, f)

/-- Status codes of management answers (log 2, DESIGN CHOICE). -/
def mgmtOk : Nat := 0
def mgmtBusyCode : Nat := 1
def mgmtBadImage : Nat := 2
def mgmtBadState : Nat := 3

/-- FW_UPDATE: in RUNNING, a staged image that passes is written for the next power-on (R356). -/
def execFwUpdate (x : Image) (s : State) : Res :=
  s.both fun m f =>
    let m := { m with mgmtBusy := false }
    if m.dev ≠ .running then (m, if m.dev == .off then f else f.emit (.mgmt mgmtBadState []))
    else if m.accepts x then ({ m with image := some x }, f.emit (.mgmt mgmtOk []))
    else (m, f.emit (.mgmt mgmtBadImage []))

/-- RECOVER: in RECOVERY, an image that passes is written and the power is cycled (R356, R359). -/
def execRecover (x : Image) (s : State) : Res :=
  s.both fun m f =>
    let m := { m with mgmtBusy := false }
    if m.dev ≠ .recovery then (m, if m.dev == .off then f else f.emit (.mgmt mgmtBadState []))
    else if m.accepts x then goOff { m with image := some x } (f.emit (.mgmt mgmtOk []))
    else (m, f.emit (.mgmt mgmtBadImage []))

/-! Registers read (R241, R280, R317, R324, R343, R352). -/

def healthstatOff : Nat := 0x6000
def poisonlogOff : Nat := 0x6400

def devCode : DevSt → Nat
  | .off => 0
  | .selftest => 1
  | .running => 2
  | .recovery => 3

/-- HEALTHSTAT as read (R352). -/
def Mgt.healthstat (m : Mgt) : Word :=
  BitVec.ofNat 64 (m.replace.toNat * 2 ^ 63 + m.thtrip.toNat * 2 ^ 62 + devCode m.dev * 2 ^ 56 + m.coresLeft * 2 ^ 32 +
    (576 - m.fencedRouters.length) * 2 ^ 16 + m.poisons.toNat)
def readHealthstat (m : Mgt) (f : Fab) : Mgt × Fab := ({ m with thtrip := false }, f.emit (.reg healthstatOff m.healthstat))
/-- HEALTHSTAT_READ clears THTRIP (R352). -/
def execHealthstatRead (s : State) : Res := s.bar0Both readHealthstat

/-- POISONLOG as read: its oldest entry, or zero (R352). -/
def Mgt.poisonEntry (m : Mgt) : Word :=
  match m.poisonlog with
  | [] => 0
  | g :: _ => BitVec.ofNat 64 (2 ^ 63 + g % 2 ^ 47 * 2 ^ 6)
def readPoisonlog (m : Mgt) (f : Fab) : Mgt × Fab :=
  ({ m with poisonlog := m.poisonlog.tail }, f.emit (.reg poisonlogOff m.poisonEntry))
/-- POISONLOG_READ removes the entry (R352). -/
def execPoisonlogRead (s : State) : Res := s.bar0Both readPoisonlog

/-- LEASETAB of a context (R280). -/
def Ctx.leasetab (x : Ctx) : Word :=
  if x.st == .free then 0
  else
    let g := x.lease == .granted || x.lease == .ending
    BitVec.ofNat 64 (g.toNat * 2 ^ 63 + (x.lease == .requested).toNat * 2 ^ 62 + x.nofit.toNat * 2 ^ 61 + x.lost.toNat * 2 ^ 60 +
      (if g then x.py0 * 2 ^ 40 + x.px0 * 2 ^ 32 else 0) + x.lostvy * 2 ^ 24 + x.lostvx * 2 ^ 16 + x.lh * 2 ^ 8 + x.lw)

/-- FENCEMAP word k (R352). -/
def Mgt.fencemap (m : Mgt) (k : Nat) : Word :=
  BitVec.ofNat 64 (((List.range 64).map fun i => if m.coreFenced (Fin.ofNat 2304 (64 * k + i)) then 2 ^ i else 0).sum)

/-- Word i of an ingress window (R324). -/
def IngWin.word (w : IngWin) (i : Nat) : Word :=
  if i = 0 then BitVec.ofNat 64 (w.on.toNat * 2 ^ 63 + w.wr.toNat * 2 ^ 62 + w.base.toNat * 2 ^ 16)
  else BitVec.ofNat 64 (w.dlo.toNat * 2 ^ 48 + w.dhi.toNat * 2 ^ 32 + w.limit.toNat)

/-- Where an offset falls in a table of registers: its index. -/
def slotAt (base stride count off : Nat) : Option Nat :=
  if base ≤ off && (off - base) % stride = 0 && (off - base) / stride < count then some ((off - base) / stride) else none

/-- The value of a register whose reading has no effect; zero where none is read. -/
def regValue (m : Mgt) (f : Fab) (off : Nat) : Word :=
  let w := fun (n : Nat) => BitVec.ofNat 64 n
  if off = ctxbaseOff then f.ctxbase.zeroExtend 64
  else if off = 0x2000 then w (m.swen.toNat * 2 ^ 63 + m.swapperiod.toNat * 2 ^ 32 + m.gain.toNat)
  else if off = 0x2008 then w (m.gten.toNat * 2 ^ 63 + m.idlegate.toNat * 2 ^ 32 + m.runest.toNat)
  else if off = 0x4000 then w (m.tmaster.toNat * 2 ^ 63 + m.domid.toNat * 2 ^ 32 + m.devnum.toNat)
  else if off = 0x4008 then w (m.lock.toNat * 2 ^ 63 + m.tsrc.toNat * 2 ^ 40 + m.hops.toNat)
  else if off = 0x4010 then m.ptmofs
  else if off = 0x4018 then w m.atomReq.toNat
  else if off = preemptctlOff then m.preemptwait.zeroExtend 64
  else if off = 0x6008 then m.powcap.zeroExtend 64
  else match slotAt 0x2100 8 64 off with
    | some n => (f.ctx (Fin.ofNat 64 n)).leasetab
    | none => match slotAt 0x3000 8 256 off with
    | some i => w ((m.hashMask (i / 4 / 16) (i / 4 % 16)).toNat / 2 ^ (64 * (i % 4)) % 2 ^ 64)
    | none => match slotAt 0x4100 8 36 off with
    | some p => let x := m.ports[Fin.ofNat 36 p]; w (x.capoff.toNat * 2 ^ 4 + x.en.toNat)
    | none => match slotAt 0x4400 8 32 off with
    | some i => m.ingwin[Fin.ofNat 16 (i / 2)].word (i % 2)
    | none => match slotAt 0x4600 8 64 off with
    | some n => (mget 0 m.collslots n).zeroExtend 64
    | none => match slotAt 0x6100 8 36 off with
    | some k => m.fencemap k
    | none => match slotAt 0x20000 8 9216 off with
    | some d => let e := mget ⟨false, 0, 0⟩ m.desttab d; w (e.v.toNat * 2 ^ 63 + e.cap.toNat * 2 ^ 40 + e.ports.toNat)
    | none => 0

/-- A register is read, with the effect that its reading has. -/
def regRead (off : Nat) (m : Mgt) (f : Fab) : Mgt × Fab :=
  if off = ctxrspOff then (m, f.readCtxrsp)
  else if off = tlbinvrspOff then (m, f.readTlbinvrsp)
  else if off = trapqOff then (m, f.readTrapq)
  else if off = healthstatOff then readHealthstat m f
  else if off = poisonlogOff then readPoisonlog m f
  else match slotAt 0x4800 8 36 off with
    | some p => readPortstat (Fin.ofNat 36 p) m f
    | none => (m, f.emit (.reg off (regValue m f off)))

/-! Registers written. -/

/-- PLACECTL and GATECTL with their clamps (R280). SWAPPERIOD is in force from the next instant on. -/
def Mgt.setPlacectl (m : Mgt) (x : Nat) : Mgt :=
  { m with
    swen := bits x 63 63 = 1, swapperiod := BitVec.ofNat 16 (max 50 (bits x 47 32)), gain := BitVec.ofNat 3 (max 1 (bits x 2 0)) }
def Mgt.setGatectl (m : Mgt) (x : Nat) : Mgt :=
  { m with
    gten := bits x 63 63 = 1, idlegate := BitVec.ofNat 16 (max 1 (bits x 47 32)), runest := BitVec.ofNat 16 (bits x 15 0) }

/-- One of the four words of a HASHSET register; the fourth holds nothing (R317). -/
def Mgt.setHash (m : Mgt) (i x : Nat) : Mgt :=
  let old := (mget (BitVec.allOnes 144) m.hashset (i / 4)).toNat
  let lo := 64 * (i % 4)
  if i % 4 = 3 then m
  else
    let new := BitVec.ofNat 144 (old - bits old (lo + 63) lo * 2 ^ lo + x % 2 ^ 64 * 2 ^ lo)
    { m with hashset := mput (BitVec.allOnes 144) (i / 4) new m.hashset }

/-- DOMCFG: DEVNUM keeps its value while any port is not OFF (R324); a master is at 0 hops (R334). -/
def Mgt.setDomcfg (m : Mgt) (x : Nat) : Mgt :=
  let master := decide (bits x 63 63 = 1)
  let free := m.ports.toList.all fun (p : Port) => p.st == PortSt.off
  let m : Mgt := { m with
    tmaster := master, domid := BitVec.ofNat 16 (bits x 47 32), devnum := if free then BitVec.ofNat 14 x else m.devnum }
  if master then { m with hops := 0, tsrc := 0xFF, lock := false, slew := 0 } else { m with hops := if m.lock then m.hops else 0xFF }.resource

/-- The poisoned lines under a new device number (R307, R354). -/
def Fab.renumber (f : Fab) (m : Mgt) : Fab := { f with poison := f.poison.map fun l => m.gline (l % 2 ^ 33) }

def Mgt.setPortctl (m : Mgt) (p : PortId) (x : Nat) : Mgt :=
  let m := m.setPort p { m.ports[p] with capoff := BitVec.ofNat 4 (bits x 7 4) }
  if x % 2 = 1 then m.portEnable p else m.portDisable p

def IngWin.setWord (w : IngWin) (i x : Nat) : IngWin :=
  if i = 0 then { w with on := bits x 63 63 = 1, wr := bits x 62 62 = 1, base := BitVec.ofNat 23 (bits x 38 16) }
  else
    { w with
      dlo := BitVec.ofNat 14 (bits x 61 48), dhi := BitVec.ofNat 14 (bits x 45 32), limit := BitVec.ofNat 23 (bits x 22 0) }

/-- POWCAP with its clamps (R352). -/
def clampWatts (x : Nat) : BitVec 12 := BitVec.ofNat 12 (min 2400 (max 800 (x % 2 ^ 12)))

/-- A write to a register of the management side. -/
def Mgt.regWrite (m : Mgt) (off x : Nat) : Mgt :=
  if off = 0x2000 then m.setPlacectl x
  else if off = 0x2008 then m.setGatectl x
  else if off = 0x4000 then m.setDomcfg x
  else if off = preemptctlOff then { m with preemptwait := BitVec.ofNat 16 x }
  else if off = 0x6008 then { m with powcap := clampWatts x }
  else match slotAt 0x3000 8 256 off with
    | some i => m.setHash i x
    | none => match slotAt 0x4100 8 36 off with
    | some p => m.setPortctl (Fin.ofNat 36 p) x
    | none => match slotAt 0x4400 8 32 off with
    | some i =>
      let k : Fin 16 := Fin.ofNat 16 (i / 2)
      { m with ingwin := m.ingwin.set k (IngWin.setWord m.ingwin[k] (i % 2) x) }
    | none => match slotAt 0x4600 8 64 off with
    | some n => { m with collslots := mput 0 n (BitVec.ofNat 15 x) m.collslots }
    | none => match slotAt 0x20000 8 9216 off with
    | some d =>
      let e : DestEnt := ⟨bits x 63 63 = 1, BitVec.ofNat 4 (bits x 43 40), BitVec.ofNat 36 x⟩
      { m with desttab := mput ⟨false, 0, 0⟩ d e m.desttab }
    | none => m

/-- A write to a register that drives the fabric: commands, and CTXBASE, which is kept while a context is not FREE (R241). -/
def Fab.regWrite (f : Fab) (m : Mgt) (off x : Nat) : Fab :=
  if off = ctxbaseOff then
    (if f.ctxs.all fun c => c.2.st == .free then { f with ctxbase := BitVec.ofNat 53 (bits x 52 8 * 2 ^ 8) } else f)
  else if off = ctxcmdOff then f.ctxcmd m (BitVec.ofNat 16 (bits x 47 32)) (Fin.ofNat 64 (bits x 13 8)) (bits x 3 0)
  else if off = tlbinvOff then f.tlbStart (BitVec.ofNat 64 x)
  else if off = trapcmdOff then
    (let n : CtxId := Fin.ofNat 64 (bits x 61 56)
     let h : ThreadId := Fin.ofNat 8 (bits x 26 24)
     if bits x 1 0 = 1 then f.trapcmd m n (bits x 47 32) h Fab.unpark
     else if bits x 1 0 = 2 then f.trapcmd m n (bits x 47 32) h Fab.abort
     else f)
  else f

/-- A register is written. One that is read-only, or at no register's offset, keeps its value. -/
def regWrite (off : Nat) (val : Word) (m : Mgt) (f : Fab) : Mgt × Fab :=
  if m.dev == .off then (m, f)
  else
    let m' := m.regWrite off val.toNat
    let g := (f.regWrite m off val.toNat).portsOff m m' (List.finRange 36)
    let g := if m'.desttab = m.desttab then g else g.reroute m'
    (m', if m'.devnum = m.devnum then g else g.renumber m')

/-- REGISTER_WRITE (R7). -/
def execRegisterWrite (off : Nat) (val : Word) (s : State) : Res := s.bar0Both (regWrite off val)

/-! The management path (R350) and attestation (R360). -/

/-- The report that QUOTE signs (R360); in RECOVERY the image digest is zero. -/
def Mgt.report (m : Mgt) (nonce : BitVec 256) : List Byte :=
  let svn := (m.image.map (·.svn)).getD 0
  let digest := if m.dev == .recovery then 0 else (m.image.map fun x => Config.sha256 x.body).getD 0
  let fuses := leBytes 32 m.keyDigest.toNat ++ leBytes 8 m.fuses
  let map := (List.range 36).flatMap fun k => leBytes 8 (m.fencemap k).toNat
  leBytes 32 nonce.toNat ++ leBytes 8 m.serial.toNat ++ leBytes 8 svn ++ leBytes 32 digest.toNat ++
    leBytes 32 (Config.sha256 fuses).toNat ++ leBytes 32 (Config.sha256 map).toNat ++ leBytes 2 m.devnum.toNat ++
    leBytes 1 (devCode m.dev)

/-- The answer to QUOTE: the report, its signature, the identity key and its certificate (R360). -/
def Mgt.attest (m : Mgt) (nonce : BitVec 256) : List Byte :=
  m.report nonce ++ Config.sign (m.report nonce) ++ leBytes 48 Config.identityKey.toNat ++ m.certificate

/-- QUOTE (R360): answered in RUNNING and RECOVERY. -/
def execQuote (nonce : BitVec 256) (s : State) : Res :=
  s.both fun m f =>
    ({ m with mgmtBusy := false },
      if m.dev == .running || m.dev == .recovery then f.emit (.mgmt mgmtOk (m.attest nonce))
      else if m.dev == .off then f else f.emit (.mgmt mgmtBadState []))

/-- A command that runs for a time: the path is busy until its event ends it (R350). -/
def longCommand (i : Instr) (m : Mgt) (f : Fab) : Mgt × Fab := ({ m with mgmtBusy := true }, f.push i)

/-- The placement map of a lease: for each virtual core, in ascending number, its physical core in two bytes (R281; log 2, DESIGN
CHOICE). -/
def Ctx.mapBytes (x : Ctx) : List Byte := x.leaseCores.flatMap fun p => leBytes 2 p.2.val

/-- MGMT_COMMAND: a command runs, or is answered BUSY while another one does (R350). -/
def execMgmtCommand (c : Mgmt) (s : State) : Res :=
  s.both fun m f =>
    if m.dev == .off then (m, f)
    else if m.mgmtBusy then (m, f.emit (.mgmt mgmtBusyCode []))
    else
      match c with
      | .write off val => let r := regWrite off val m f; (r.1, r.2.emit (.mgmt mgmtOk []))
      | .read off => regRead off m f
      | .update x => longCommand (.fwUpdate x) m f
      | .recover x => longCommand (.recover x) m f
      | .quote nonce => longCommand (.quote nonce) m f
      | .placement n => (m, f.emit (.mgmt mgmtOk (f.ctx n).mapBytes))

end Sys2Proof.Machine
end

