-- ==== Sys2Proof/Machine/Matrix.lean ====
section
/-! DEFINITION. Matrix instructions at their issue: the checks of R191, the snapshot of R189, and the panels of MMAG
(10_isa_matrix R188 to R208). What the unit does with them stands in MatrixUnit. -/

namespace Sys2Proof.Machine

/-! Checks. -/

/-- The first condition that fails, with its trap and TRAPADDR (R191). -/
def firstFail : List (Bool × Cause × Word) → Option (Cause × Word)
  | [] => none
  | (bad, cause, addr) :: xs => if bad then some (cause, addr) else firstFail xs

/-- A check of an extent: its first byte outside a range of addresses, where there is one (R191, check 4). -/
def outside (lo hi : Nat) (base : Word) (len : Nat) : Bool × Cause × Word :=
  let b := base.toNat
  (len > 0 && !(lo ≤ b && b + len ≤ hi), .pageFault, if lo ≤ b && b < hi then BitVec.ofNat 64 hi else base)

/-- An extent named by a local-window address lies in scratchpad. -/
def spadOut (base : Word) (len : Nat) : Bool × Cause × Word := outside locBase (locBase + 0x20000) base len
/-- A weight-buffer extent. -/
def wbufOut (base : Word) (len : Nat) : Bool × Cause × Word := outside 0 0x8000 base len
def unaligned (n : Nat) (base : Word) : Bool × Cause × Word := (base.toNat % n ≠ 0, .misaligned, base)

/-- A scratchpad extent as (offset, length). -/
def extOf (base : Word) (len : Nat) : List (Nat × Nat) := if len = 0 then [] else [(base.toNat - locBase, len)]

/-! Issue. -/

/-- The snapshot of a matrix instruction (R71, R189). -/
def Fab.snapshot (f : Fab) (c : CoreId) (h : ThreadId) (i : Instr) (a b k x : Word) : MEntry :=
  let t := f.thread c h
  ⟨f.ids, f.who c h, i, a, b, k, x, t.ctl.fmta, t.ctl.fmtb, t.ctl.scla, t.ctl.sclb, t.ctl.fade, (f.core c).ctActive, [], none,
    none, [], [], [], false⟩

/-- Whether an extent that an instruction reads is still to be written by an MRD that issued earlier (R198). -/
def Core.mrdOwes (x : Core) (rd : List (Nat × Nat)) : Bool :=
  x.mq.any fun e => !e.done && e.wr.any fun w => rd.any fun r => overlap w.1 w.2 r.1 r.2

/-- Makes the buffers that hold an element over one of some targets leave; none where no element is in the way (R103, R113). -/
def Fab.aggAny (f : Fab) (c : CoreId) (w : Who) : List (Tgt × Nat) → Option Fab
  | [] => none
  | t :: ts =>
    match f.aggWait c w t.1 t.2 with
    | some g => some g
    | none => f.aggAny c w ts

/-- Whether an instruction that passed its checks must wait: for room in the unit (R189), for an MRD of the core that writes what
it reads (R198), for an acquire, or for an earlier access of its thread to what it reads or writes (R103, R113, R158). -/
def Fab.matWaits (f : Fab) (m : Mgt) (c : CoreId) (h : ThreadId) (rd : List (Nat × Nat)) (accs : List (Tgt × Nat)) : Option Fab :=
  let w := f.who c h
  match f.aggAny c w accs with
  | some g => some g
  | none =>
    if (f.core c).mq.length ≥ Config.matrixHeld || (f.core c).mrdOwes rd || f.inWay m c h w f.ids none 0 ||
      accs.any (fun t => f.inWay m c h w f.ids (some t.1) t.2) then some f
    else none

/-- Scratchpad extents as targets. -/
def spadTgts (r : List (Nat × Nat)) : List (Tgt × Nat) := r.map fun x => (.loc x.1, x.2)

/-- The unit takes the instruction, and the thread goes on (R189). -/
def Fab.hand (f : Fab) (c : CoreId) (h : ThreadId) (e : MEntry) : Fab :=
  ((({ f with ids := f.ids + 1 }.dropReads c h).modCore c fun x => { x with mq := x.mq ++ [e] }).modThread c h Thread.adv).push
    (.matrixExecute c)

/-- The common end of a matrix head: trap, wait or issue. -/
def Fab.matHead (f : Fab) (m : Mgt) (c : CoreId) (h : ThreadId) (bad : Option (Cause × Word)) (e : MEntry) : Fab :=
  match bad with
  | some (cause, addr) => f.trap m c h cause addr
  | none => (f.matWaits m c h e.rd (spadTgts (e.rd ++ e.wr))).getD (f.hand c h e)

/-! MMA (R193 to R198). -/

/-- Length of an extent of rows at a pitch: the bytes between rows, and the last row (R193). -/
def rowsLen (rows pitch len : Nat) : Nat := (rows - 1) * pitch + len

/-- The lengths of the parts of a product's operands: rows, scales and pitches of A and of B. -/
structure Spans where
  rowA : Nat
  lenA : Nat
  sclA : Nat
  rowB : Nat
  lenB : Nat
  sclB : Nat

/-- Spans of MMA and MMAG for K and a descriptor's pitches (R193 to R195). -/
def spansOf (t : Thread) (o : MMOps) (kk ldA ldB : Nat) (wb cw : Bool) : Spans :=
  let row := fun (fmt : BitVec 5) => kk * matBits ((fmtTy fmt).getD .b16) / 8
  let rowA := row t.ctl.fmta
  let rowB := if wb then (if cw then kk / 2 else kk) else row t.ctl.fmtb
  ⟨rowA, rowsLen (accRows o.acc) (pitchOf ldA rowA) rowA,
    if scaledBit t.ctl.fmta then accRows o.acc * ((kk + blkSize o.bka - 1) / blkSize o.bka) else 0,
    rowB, rowsLen (accCols o.acc) (pitchOf ldB rowB) rowB,
    if scaledBit t.ctl.fmtb then accCols o.acc * ((kk + blkSize o.bkb - 1) / blkSize o.bkb) else 0⟩

/-- K is a multiple of 16 from 16 to 16,384 (R193). -/
def kBad (k : Word) : Bool := k.toNat % 16 ≠ 0 || k.toNat < 16 || k.toNat > 16384
/-- A format that no matrix operand has (R192). -/
def fmtBad (t : Thread) : Bool := (fmtTy t.ctl.fmta).isNone || (fmtTy t.ctl.fmtb).isNone
/-- A non-zero pitch smaller than its row (R193). -/
def pitchBad (ld row : Nat) : Bool := ld ≠ 0 && 16 * ld < row

/-- MMA (R196): checks in the order of R191; within checks 4 and 5, A before B before the scales of A and of B (log 37, DESIGN
CHOICE). -/
def execMma (g : Guard) (o : MMOps) (s : State) : Res :=
  s.head g [.s o.sa, .s o.sb, .s o.sk, .s o.sx] [] fun m f c h =>
    let t := f.thread c h
    let a := t.rd o.sa
    let b := t.rd o.sb
    let k := t.rd o.sk
    let d := (t.rd o.sx).toNat
    let wb := d.testBit 63
    let cw := d.testBit 62
    let p := spansOf t o k.toNat (bits d 15 0) (bits d 31 16) wb cw
    let scla := t.ctl.scla.zeroExtend 64
    let sclb := t.ctl.sclb.zeroExtend 64
    f.matHead m c h (firstFail [
        (kBad k || bits d 61 32 ≠ 0 || (cw && !wb), .matrixShape, 0),
        (fmtBad t, .matrixFormat, 0),
        (pitchBad (bits d 15 0) p.rowA || pitchBad (bits d 31 16) p.rowB, .matrixShape, 0),
        spadOut a p.lenA, if wb then wbufOut b p.lenB else spadOut b p.lenB, spadOut scla p.sclA, spadOut sclb p.sclB,
        unaligned 16 a, unaligned 16 b])
      { f.snapshot c h (.mma g o) a b k (t.rd o.sx) with
        rd := extOf a p.lenA ++ (if wb then [] else extOf b p.lenB) ++ extOf scla p.sclA ++ extOf sclb p.sclB }

/-! MMAG (R199, R200). -/

/-- The square of a descriptor: origin, columns and rows. -/
structure Square where
  vx0 : Nat
  vy0 : Nat
  gw : Nat
  gh : Nat
  deriving DecidableEq

def squareOf (d : Nat) : Square := ⟨bits d 39 32, bits d 47 40, 2 ^ bits d 49 48, 2 ^ bits d 51 50⟩
def Export.square (e : Export) : Square := ⟨e.vx0, e.vy0, e.gw, e.gh⟩

/-- Virtual core numbers of a row or a column of a square. -/
def Square.row (q : Square) (x : Ctx) (vy : Nat) : List Nat := (List.range q.gw).map fun i => x.vnum (q.vx0 + i) vy
def Square.col (q : Square) (x : Ctx) (vx : Nat) : List Nat := (List.range q.gh).map fun i => x.vnum vx (q.vy0 + i)

/-- A panel as it stands in a core's scratchpad (R199, R200). -/
def Core.panel (x : Core) (fmt : BitVec 5) (base : Word) (pitch len : Nat) (scl : Word) (nscl : Nat) : Panel :=
  ⟨fmt, pitch, peeks x.spad (base.toNat - locBase) len, peeks x.spad (scl.toNat - locBase) nscl⟩

/-- The tail and register values that readers compare with an owner's (R200, step 3). -/
def Export.agrees (e : Export) (o : MMOps) (k d : Word) : Bool :=
  e.ops.sa = o.sa && e.ops.sb = o.sb && e.ops.bka = o.bka && e.ops.bkb = o.bkb && e.ops.acc.w = o.acc.w && e.k = k && e.d = d

/-- The oldest export of a square at an owner that a core has not yet read (R200, step 2). -/
def Core.exportFor (x : Core) (q : Square) (isA : Bool) (me : Nat) : Option Export :=
  x.exports.find? fun e => e.isA = isA && e.square = q && e.readers.contains me

/-- One reader less; an export that all have read stands no more. -/
def readExport (e : Export) (me : Nat) : List Export → List Export
  | [] => []
  | y :: ys => if y = e then (let z := { y with readers := y.readers.erase me }; if z.readers.isEmpty then ys else z :: ys)
    else y :: readExport e me ys

/-- Asks the waiting MMAGs of some cores to look again (R200). -/
def Fab.mmagWake (f : Fab) (n : CtxId) : Fab :=
  { f with due := f.due ++ (f.ctx n).leaseCores.flatMap fun p =>
      (f.core p.2).mwait.map fun w => .mmagPanelAvailable p.2 w.th }

/-- A panel that another core reads counts at its owner (R284). -/
def Fab.countPanel (f : Fab) (owner c : CoreId) (e : Export) (w : Who) (vx vy : Nat) : Fab :=
  if owner = c then f else f.count owner { w with res := e.res, fid := e.fid } vx vy (e.panel.bytes.length + e.panel.scales.length)

/-- An MMAG whose panels are there: it reads both, the owners' exports count it, and it issues (R200). -/
def Fab.mmagIssue (f : Fab) (m : Mgt) (c : CoreId) (h : ThreadId) (g : Guard) (o : MMOps) (q : Square) (vx vy : Nat)
    (own : List (Nat × Nat)) : Fab :=
  let w := f.who c h
  let x := f.ctx w.ctx
  let t := f.thread c h
  let k := t.rd o.sk
  let d := t.rd o.sx
  let me := x.vnum vx vy
  match f.find w.ctx q.vx0 vy, f.find w.ctx vx q.vy0 with
  | some ca, some cb =>
    match (f.core ca).exportFor q true me, (f.core cb).exportFor q false me with
    | some ea, some eb =>
      if !(ea.agrees o k d && eb.agrees o k d) then f.trap m c h .groupMismatch 0
      else if (f.core c).mq.length ≥ Config.matrixHeld then f
      else
        let f := f.modCore ca fun x => { x with exports := readExport ea me x.exports }
        let f := f.modCore cb fun x => { x with exports := readExport eb me x.exports }
        let f := f.modCore c fun x => { x with mwait := x.mwait.filter fun z => z.fid ≠ w.fid }
        let f := f.countPanel ca c ea w vx vy |>.countPanel cb c eb w vx vy
        let f := f.hand c h { f.snapshot c h (.mmag g o) (t.rd o.sa) (t.rd o.sb) k d with
          panelA := some ea.panel, panelB := some eb.panel, rd := own }
        ((f.replay ca).replay cb).push (.matrixExecute ca) |>.push (.matrixExecute cb)
    | _, _ => f
  | _, _ => f

/-- One attempt of an MMAG: checks, exports of the panels its core owns, then the panels of the square (R199, R200). Pitches and
bases are judged on every core, extents and scales of owned panels alone. One that finds four instructions held stalls before it
exports (log 37, DESIGN CHOICE). -/
def mmagTry (g : Guard) (o : MMOps) (m : Mgt) (f : Fab) (c : CoreId) (h : ThreadId) : Fab :=
  let t := f.thread c h
  let w := f.who c h
  let x := f.ctx w.ctx
  let a := t.rd o.sa
  let b := t.rd o.sb
  let k := t.rd o.sk
  let d := (t.rd o.sx).toNat
  let q := squareOf d
  let occ := (f.core c).occ.getD ⟨0, 0, 0⟩
  let ownA := occ.vx = q.vx0
  let ownB := occ.vy = q.vy0
  let p := spansOf t o k.toNat (bits d 15 0) (bits d 31 16) false false
  let scla := t.ctl.scla.zeroExtend 64
  let sclb := t.ctl.sclb.zeroExtend 64
  let inside := q.vx0 ≤ occ.vx && occ.vx < q.vx0 + q.gw && q.vy0 ≤ occ.vy && occ.vy < q.vy0 + q.gh
  let only := fun (own : Bool) (n : Nat) => if own then n else 0
  let bad := firstFail [
    (kBad k || bits d 63 52 ≠ 0 || bits d 51 50 = 3 || bits d 49 48 = 3 || q.vx0 + q.gw > x.lw || q.vy0 + q.gh > x.lh || !inside,
      .matrixShape, 0),
    (fmtBad t, .matrixFormat, 0),
    (pitchBad (bits d 15 0) p.rowA || pitchBad (bits d 31 16) p.rowB, .matrixShape, 0),
    spadOut a (only ownA p.lenA), spadOut b (only ownB p.lenB), spadOut scla (only ownA p.sclA), spadOut sclb (only ownB p.sclB),
    unaligned 16 a, unaligned 16 b]
  let extA := if ownA then extOf a p.lenA ++ extOf scla p.sclA else []
  let extB := if ownB then extOf b p.lenB ++ extOf sclb p.sclB else []
  let out := (f.core c).mwait.any fun z => z.th = h && z.fid = w.fid && z.pc = t.pc && z.ops = o
  match bad with
  | some (cause, addr) => f.trap m c h cause addr
  | none =>
    if out then f.mmagIssue m c h g o q occ.vx occ.vy (extA ++ extB)
    else if !(f.core c).exports.isEmpty then f
    else
      match f.matWaits m c h (extA ++ extB) (spadTgts (extA ++ extB)) with
      | some g => g
      | none =>
        let y := f.core c
        let ea : List Export := if ownA then [⟨q.vx0, q.vy0, q.gw, q.gh, true, o, k, t.rd o.sx,
            y.panel t.ctl.fmta a (pitchOf (bits d 15 0) p.rowA) p.lenA scla p.sclA, extA, q.row x occ.vy, w.fid, w.res⟩] else []
        let eb : List Export := if ownB then [⟨q.vx0, q.vy0, q.gw, q.gh, false, o, k, t.rd o.sx,
            y.panel t.ctl.fmtb b (pitchOf (bits d 31 16) p.rowB) p.lenB sclb p.sclB, extB, q.col x occ.vx, w.fid, w.res⟩] else []
        let f := f.modCore c fun y => { y with exports := ea ++ eb, mwait := y.mwait ++ [⟨h, w.fid, g, t.pc, t.npc, o⟩] }
        (f.mmagWake w.ctx).mmagIssue m c h g o q occ.vx occ.vy (extA ++ extB)

/-- MMAG (R199, R200). -/
def execMmag (g : Guard) (o : MMOps) (s : State) : Res :=
  s.head g [.s o.sa, .s o.sb, .s o.sk, .s o.sx] [] (mmagTry g o)

/-- MMAG_PANEL_AVAILABLE: a stalled MMAG looks for its panels again (R200). -/
def execMmagPanelAvailable (c : CoreId) (h : ThreadId) (s : State) : Res :=
  s.event fun m f =>
    let t := f.thread c h
    match (f.core c).mwait.find? fun z => z.th = h && z.fid = (f.who c h).fid && z.pc = t.pc with
    | some z =>
      if (t.st == .running || t.st == .routine) && t.rdp z.g.gp ≠ z.g.gn then
        mmagTry z.g z.ops m (f.modThread c h fun t => { t with npc := z.npc }) c h
      else f
    | none => f

/-! MCONV (R201, R202). -/

/-- The load of a shape record (R191 check 6, R201); one in the local window lies in scratchpad (R191). -/
def Fab.shape (f : Fab) (m : Mgt) (c : CoreId) (h : ThreadId) (ea : Word) : LoadRes :=
  match regionOf ea.toNat with
  | .loc off => if off < 0x20000 then f.loadNow m c h (memReq ea 32 .load) else .fault .pageFault f
  | _ => f.loadNow m c h (memReq ea 32 .load)

/-- The four words of a shape record. -/
def shapeWords (bs : List Byte) : List Word := (List.range 4).map fun i => BitVec.ofNat 64 (leNum ((bs.drop (8 * i)).take 8))

/-- MCONV (R201): of the checks before it, a record that cannot be loaded leaves those of the formats and of the bases (log 18,
DEDUCED). -/
def execMconv (g : Guard) (o : MMOps) (s : State) : Res :=
  s.head g [.s o.sa, .s o.sb, .s o.sk, .s o.sx] [] fun m f c h =>
    let t := f.thread c h
    let a := t.rd o.sa
    let b := t.rd o.sb
    let x := t.rd o.sx
    match f.shape m c h x with
    | .fault e g =>
      let bad := (firstFail [(fmtBad t, .matrixFormat, 0), unaligned 16 a, unaligned 16 b]).getD (e, x)
      g.trap m c h bad.1 bad.2
    | .wait g => g
    | .done bs g' =>
      let ws := shapeWords bs
      let v := convOf ws
      let row := fun (fmt : BitVec 5) (n : Nat) => n * matBits ((fmtTy fmt).getD .b16) / 8
      let px := row t.ctl.fmta v.c
      let lenA := v.ih * v.iw * pitchOf v.pitch px
      let rowB := if v.wb then (if v.cw then v.k / 2 else v.k) else row t.ctl.fmtb v.k
      let lenB := rowsLen (accCols o.acc) (pitchOf v.ldb rowB) rowB
      let nA := if scaledBit t.ctl.fmta then v.ih * v.iw * (v.c / blkSize o.bka) else 0
      let nB := if scaledBit t.ctl.fmtb then accCols o.acc * ((v.k + blkSize o.bkb - 1) / blkSize o.bkb) else 0
      let scla := t.ctl.scla.zeroExtend 64
      let sclb := t.ctl.sclb.zeroExtend 64
      let e := { g'.snapshot c h (.mconv g o) a b (t.rd o.sk) x with
        shape := ws
        rd := extOf a lenA ++ (if v.wb then [] else extOf b lenB) ++ extOf scla nA ++ extOf sclb nB }
      let bad := firstFail [
        (!v.ok (max (blkSize o.bka) (blkSize o.bkb)), .matrixShape, x),
        (fmtBad t, .matrixFormat, 0),
        (pitchBad v.ldb rowB, .matrixShape, x),
        spadOut a lenA, if v.wb then wbufOut b lenB else spadOut b lenB, spadOut scla nA, spadOut sclb nB,
        unaligned 16 a, unaligned 16 b]
      match bad with
      | some (cause, addr) => g'.trap m c h cause addr
      | none => g'.matHead m c h none e

/-! The other matrix instructions (R204 to R208). -/

/-- MLDW (R204). Within checks 4 and 5 the source comes before the weight buffer (log 37, DESIGN CHOICE). -/
def execMldw (g : Guard) (w a n : SReg) (s : State) : Res :=
  s.head g [.s w, .s a, .s n] [] fun m f c h =>
    let t := f.thread c h
    let dst := t.rd w
    let src := t.rd a
    let cnt := t.rd n
    f.matHead m c h (firstFail [
        (cnt.toNat % 16 ≠ 0 || cnt.toNat > 32768, .matrixShape, 0),
        spadOut src cnt.toNat,
        (dst.toNat + cnt.toNat > 32768, .pageFault, if dst.toNat < 32768 then 32768 else dst),
        unaligned 16 src, unaligned 16 dst])
      { f.snapshot c h (.mldw g w a n) src dst cnt 0 with rd := extOf src cnt.toNat }

/-- MRD (R206). -/
def execMrd (g : Guard) (acc : AccSel) (a : SReg) (ty : Ty) (raw : Bool) (s : State) : Res :=
  s.head g [.s a] [] fun m f c h =>
    let base := (f.thread c h).rd a
    let len := xferLen acc ty raw
    f.matHead m c h (firstFail [spadOut base len, unaligned 16 base])
      { f.snapshot c h (.mrd g acc a ty raw) base 0 0 0 with wr := extOf base len }

/-- MWR (R206). -/
def execMwr (g : Guard) (acc : AccSel) (a : SReg) (ty : Ty) (raw : Bool) (s : State) : Res :=
  s.head g [.s a] [] fun m f c h =>
    let base := (f.thread c h).rd a
    let len := xferLen acc ty raw
    f.matHead m c h (firstFail [spadOut base len, unaligned 16 base])
      { f.snapshot c h (.mwr g acc a ty raw) base 0 0 0 with rd := extOf base len }

/-- The lines of the masked quarters, checked one after another: all of them, or the first trap (R208). -/
def Fab.quarterLines (f : Fab) (m : Mgt) (c : CoreId) (w : Who) (want : Want) :
    List Nat → Except (Cause × Word × Fab) (List (Nat × TlbEnt) × Fab)
  | [] => .ok ([], f)
  | va :: vas =>
    let ea : Word := BitVec.ofNat 64 va
    let r := { memReq ea 64 want with loc := false }
    match f.check m c w r with
    | .error e => .error (e, ea, f.walked m c w r)
    | .ok (.mem gpa e, g) =>
      match g.quarterLines m c w want vas with
      | .error x => .error x
      | .ok (ls, g) => .ok ((gpa, e) :: ls, g)
    | .ok (_, g) => .error (.pageFault, ea, g)

/-- MSPILL and MFILL (R208): with an empty mask nothing is checked further; the records of R126 are replaced for all the lines or
for none. -/
def quarterHead (i : Instr) (want : Want) (a k : SReg) (m : Mgt) (f : Fab) (c : CoreId) (h : ThreadId) : Fab :=
  let t := f.thread c h
  let base := t.rd a
  let mask := t.rd k
  let w := f.who c h
  let vas := quarterAddrs base mask
  let far := (maskQuarters mask).map fun q => outside 0 peerBase (base + BitVec.ofNat 64 (16384 * q.val)) 16384
  match firstFail ([(decide (mask.toNat ≥ 16), .matrixShape, 0)] ++ far ++
      [(mask ≠ 0 && base.toNat % 64 ≠ 0, .misaligned, base)]) with
  | some (cause, addr) => f.trap m c h cause addr
  | none =>
    match f.quarterLines m c w want vas with
    | .error (cause, addr, g) => g.trap m c h cause addr
    | .ok (ls, g) =>
      match g.matWaits m c h [] (ls.map fun l => (.mem l.1 l.2, 64)) with
      | some g => g
      | none =>
        let g' := if want == .store then ls.foldl (fun g l => g.noteWrite m w l.2 l.1 64 false) g else g
        g'.hand c h { g'.snapshot c h i base mask 0 0 with lines := ls.map fun l => (l.1, l.2.wlc) }

/-- MSPILL (R208). -/
def execMspill (g : Guard) (a k : SReg) (s : State) : Res :=
  s.head g [.s a, .s k] [] (quarterHead (.mspill g a k) .store a k)
/-- MFILL (R208). -/
def execMfill (g : Guard) (a k : SReg) (s : State) : Res :=
  s.head g [.s a, .s k] [] (quarterHead (.mfill g a k) .load a k)

/-- CTLOAD (R205): into the bank that is inactive at issue. -/
def execCtload (g : Guard) (e a n : SReg) (s : State) : Res :=
  s.head g [.s e, .s a, .s n] [] fun m f c h =>
    let t := f.thread c h
    let first := t.rd e
    let src := t.rd a
    let cnt := t.rd n
    f.matHead m c h (firstFail [
        (first.toNat + cnt.toNat > 256, .matrixShape, 0),
        spadOut src (2 * cnt.toNat),
        unaligned 2 src])
      { f.snapshot c h (.ctload g e a n) src first cnt 0 with rd := extOf src (2 * cnt.toNat) }

/-- CTSWAP (R66, R205): the active bank changes for every instruction issued after it. -/
def execCtswap (g : Guard) (s : State) : Res :=
  s.head g [] [] fun m f c h =>
    (f.matWaits m c h [] []).getD
      ((f.hand c h (f.snapshot c h (.ctswap g) 0 0 0 0)).modCore c fun x => { x with ctActive := !x.ctActive })

/-- MZERO (R207). -/
def execMzero (g : Guard) (acc : AccSel) (s : State) : Res :=
  s.head g [] [] fun m f c h => f.matHead m c h none (f.snapshot c h (.mzero g acc) 0 0 0 0)

end Sys2Proof.Machine
end

