-- ==== Sys2Proof/Machine/Scalar.lean ====
section
/-! DEFINITION. Scalar, predicate and constant instructions (07_isa_scalar R130 to R141). -/

namespace Sys2Proof.Machine

/-- ADD, register form (R131). -/
def execAddReg (g : Guard) (d a b : SReg) (s : State) : Res := binReg g d a b (· + ·) s
/-- SUB, register form (R131). -/
def execSubReg (g : Guard) (d a b : SReg) (s : State) : Res := binReg g d a b (· - ·) s
/-- MUL, register form (R131). -/
def execMulReg (g : Guard) (d a b : SReg) (s : State) : Res := binReg g d a b (· * ·) s
/-- MULH, register form (R131). -/
def execMulhReg (g : Guard) (d a b : SReg) (s : State) : Res := binReg g d a b mulHigh s
/-- MULHZ, register form (R131). -/
def execMulhzReg (g : Guard) (d a b : SReg) (s : State) : Res := binReg g d a b mulHighU s
/-- DIVS, register form (R131). -/
def execDivsReg (g : Guard) (d a b : SReg) (s : State) : Res := divReg g d a b divS s
/-- DIVZ, register form (R131). -/
def execDivzReg (g : Guard) (d a b : SReg) (s : State) : Res := divReg g d a b BitVec.udiv s
/-- REMS, register form (R131). -/
def execRemsReg (g : Guard) (d a b : SReg) (s : State) : Res := divReg g d a b remS s
/-- REMZ, register form (R131). -/
def execRemzReg (g : Guard) (d a b : SReg) (s : State) : Res := divReg g d a b BitVec.umod s
/-- AND, register form (R131). -/
def execAndReg (g : Guard) (d a b : SReg) (s : State) : Res := binReg g d a b (· &&& ·) s
/-- OR, register form (R131). -/
def execOrReg (g : Guard) (d a b : SReg) (s : State) : Res := binReg g d a b (· ||| ·) s
/-- XOR, register form (R131). -/
def execXorReg (g : Guard) (d a b : SReg) (s : State) : Res := binReg g d a b (· ^^^ ·) s
/-- ANDN, register form (R131). -/
def execAndnReg (g : Guard) (d a b : SReg) (s : State) : Res := binReg g d a b (fun a b => a &&& ~~~b) s
/-- SHL, register form (R131). -/
def execShlReg (g : Guard) (d a b : SReg) (s : State) : Res := binReg g d a b shl s
/-- SHRZ, register form (R131). -/
def execShrzReg (g : Guard) (d a b : SReg) (s : State) : Res := binReg g d a b shrZ s
/-- SHRS, register form (R131). -/
def execShrsReg (g : Guard) (d a b : SReg) (s : State) : Res := binReg g d a b shrS s

/-- ADD, immediate form (R131). -/
def execAddImm (g : Guard) (d a : SReg) (imm : BitVec 22) (s : State) : Res := binImm g d a imm (· + ·) s
/-- SUB, immediate form (R131). -/
def execSubImm (g : Guard) (d a : SReg) (imm : BitVec 22) (s : State) : Res := binImm g d a imm (· - ·) s
/-- MUL, immediate form (R131). -/
def execMulImm (g : Guard) (d a : SReg) (imm : BitVec 22) (s : State) : Res := binImm g d a imm (· * ·) s
/-- MULH, immediate form (R131). -/
def execMulhImm (g : Guard) (d a : SReg) (imm : BitVec 22) (s : State) : Res := binImm g d a imm mulHigh s
/-- MULHZ, immediate form (R131). -/
def execMulhzImm (g : Guard) (d a : SReg) (imm : BitVec 22) (s : State) : Res := binImm g d a imm mulHighU s
/-- DIVS, immediate form (R131). -/
def execDivsImm (g : Guard) (d a : SReg) (imm : BitVec 22) (s : State) : Res := divImm g d a imm divS s
/-- DIVZ, immediate form (R131). -/
def execDivzImm (g : Guard) (d a : SReg) (imm : BitVec 22) (s : State) : Res := divImm g d a imm BitVec.udiv s
/-- REMS, immediate form (R131). -/
def execRemsImm (g : Guard) (d a : SReg) (imm : BitVec 22) (s : State) : Res := divImm g d a imm remS s
/-- REMZ, immediate form (R131). -/
def execRemzImm (g : Guard) (d a : SReg) (imm : BitVec 22) (s : State) : Res := divImm g d a imm BitVec.umod s
/-- AND, immediate form (R131). -/
def execAndImm (g : Guard) (d a : SReg) (imm : BitVec 22) (s : State) : Res := binImm g d a imm (· &&& ·) s
/-- OR, immediate form (R131). -/
def execOrImm (g : Guard) (d a : SReg) (imm : BitVec 22) (s : State) : Res := binImm g d a imm (· ||| ·) s
/-- XOR, immediate form (R131). -/
def execXorImm (g : Guard) (d a : SReg) (imm : BitVec 22) (s : State) : Res := binImm g d a imm (· ^^^ ·) s
/-- ANDN, immediate form (R131). -/
def execAndnImm (g : Guard) (d a : SReg) (imm : BitVec 22) (s : State) : Res := binImm g d a imm (fun a b => a &&& ~~~b) s
/-- SHL, immediate form (R131). -/
def execShlImm (g : Guard) (d a : SReg) (imm : BitVec 22) (s : State) : Res := binImm g d a imm shl s
/-- SHRZ, immediate form (R131). -/
def execShrzImm (g : Guard) (d a : SReg) (imm : BitVec 22) (s : State) : Res := binImm g d a imm shrZ s
/-- SHRS, immediate form (R131). -/
def execShrsImm (g : Guard) (d a : SReg) (imm : BitVec 22) (s : State) : Res := binImm g d a imm shrS s

/-- CMP, register form (R134). -/
def execCmpReg (g : Guard) (c : Cond) (pd pe : PReg) (a b : SReg) (s : State) : Res :=
  s.local g [.s a, .s b] [] fun t => t.setPair pd pe (condHolds c (t.rd a) (t.rd b))
/-- CMP, immediate form (R134). -/
def execCmpImm (g : Guard) (c : Cond) (pd pe : PReg) (a : SReg) (imm : BitVec 21) (s : State) : Res :=
  s.local g [.s a] [] fun t => t.setPair pd pe (condHolds c (t.rd a) (simm imm))

/-- PAND, POR, PXOR, PANDN, PNOT (R135): both sources are read first. -/
def execPand (g : Guard) (pd pa pb : PReg) (s : State) : Res :=
  s.local g [] [] fun t => t.wrp pd (t.rdp pa && t.rdp pb)
def execPor (g : Guard) (pd pa pb : PReg) (s : State) : Res :=
  s.local g [] [] fun t => t.wrp pd (t.rdp pa || t.rdp pb)
def execPxor (g : Guard) (pd pa pb : PReg) (s : State) : Res :=
  s.local g [] [] fun t => t.wrp pd (t.rdp pa != t.rdp pb)
def execPandn (g : Guard) (pd pa pb : PReg) (s : State) : Res :=
  s.local g [] [] fun t => t.wrp pd (t.rdp pa && !t.rdp pb)
def execPnot (g : Guard) (pd pa : PReg) (s : State) : Res :=
  s.local g [] [] fun t => t.wrp pd (!t.rdp pa)
/-- PRD (R135). -/
def execPrd (g : Guard) (d : SReg) (s : State) : Res := s.local g [] [.s d] fun t => t.wr d t.preds
/-- PWR (R135). -/
def execPwr (g : Guard) (a : SReg) (s : State) : Res := s.local g [.s a] [] fun t => t.setPreds (t.rd a)
/-- SEL (R136). -/
def execSel (g : Guard) (d : SReg) (pc : PReg) (a b : SReg) (s : State) : Res :=
  s.local g [.s a, .s b] [.s d] fun t => t.wr d (if t.rdp pc then t.rd a else t.rd b)

/-- LI, 27-bit form (R137). -/
def execLiL27 (g : Guard) (d : SReg) (imm : BitVec 27) (s : State) : Res := s.local g [] [.s d] fun t => t.wr d (simm imm)
/-- LI, 59-bit form (R137). -/
def execLiL59 (g : Guard) (d : SReg) (imm : BitVec 59) (s : State) : Res := s.local g [] [.s d] fun t => t.wr d (simm imm)
/-- LIH (R137): bits 63:58 from k6, bits 57:0 from s[a]. -/
def execLih (g : Guard) (d a : SReg) (k : BitVec 6) (s : State) : Res :=
  unReg g d a (fun x => k ++ x.truncate 58) s
/-- ADDPC (R138). -/
def execAddpc (g : Guard) (d : SReg) (imm : BitVec 27) (s : State) : Res :=
  s.local g [] [.s d] fun t => t.wr d (((t.pc >>> 6).zeroExtend 64 <<< 6) + simm imm)
/-- CLZ, CTZ, POPC (R139). -/
def execClz (g : Guard) (d a : SReg) (s : State) : Res := unReg g d a clz s
def execCtz (g : Guard) (d a : SReg) (s : State) : Res := unReg g d a ctz s
def execPopc (g : Guard) (d a : SReg) (s : State) : Res := unReg g d a popc s
/-- SEXT, ZEXT (R140). -/
def execSext (g : Guard) (d a : SReg) (k : BitVec 6) (s : State) : Res := unReg g d a (sextN k) s
def execZext (g : Guard) (d a : SReg) (k : BitVec 6) (s : State) : Res := unReg g d a (zextN k) s
/-- MIN, MAX, signed or unsigned (R141). -/
def execMin (g : Guard) (u : Bool) (d a b : SReg) (s : State) : Res := binReg g d a b (minOf u) s
def execMax (g : Guard) (u : Bool) (d a b : SReg) (s : State) : Res := binReg g d a b (maxOf u) s

end Sys2Proof.Machine
end

