-- ==== Sys2Proof/Machine/Dispatch.lean ====
section
/-! DEFINITION. The meaning of every step: one arm per constructor of Instr. -/

namespace Sys2Proof.Machine

/-- One instruction or event. A head acts on the current thread, an event on what it names. -/
def exec (i : Instr) (s : State) : Host.Outcome State Fault Refusal :=
  match i with
  | .addReg g d a b => Sys2Proof.Machine.execAddReg g d a b s
  | .subReg g d a b => Sys2Proof.Machine.execSubReg g d a b s
  | .mulReg g d a b => Sys2Proof.Machine.execMulReg g d a b s
  | .mulhReg g d a b => Sys2Proof.Machine.execMulhReg g d a b s
  | .mulhzReg g d a b => Sys2Proof.Machine.execMulhzReg g d a b s
  | .divsReg g d a b => Sys2Proof.Machine.execDivsReg g d a b s
  | .divzReg g d a b => Sys2Proof.Machine.execDivzReg g d a b s
  | .remsReg g d a b => Sys2Proof.Machine.execRemsReg g d a b s
  | .remzReg g d a b => Sys2Proof.Machine.execRemzReg g d a b s
  | .andReg g d a b => Sys2Proof.Machine.execAndReg g d a b s
  | .orReg g d a b => Sys2Proof.Machine.execOrReg g d a b s
  | .xorReg g d a b => Sys2Proof.Machine.execXorReg g d a b s
  | .andnReg g d a b => Sys2Proof.Machine.execAndnReg g d a b s
  | .shlReg g d a b => Sys2Proof.Machine.execShlReg g d a b s
  | .shrzReg g d a b => Sys2Proof.Machine.execShrzReg g d a b s
  | .shrsReg g d a b => Sys2Proof.Machine.execShrsReg g d a b s
  | .addImm g d a imm => Sys2Proof.Machine.execAddImm g d a imm s
  | .subImm g d a imm => Sys2Proof.Machine.execSubImm g d a imm s
  | .mulImm g d a imm => Sys2Proof.Machine.execMulImm g d a imm s
  | .mulhImm g d a imm => Sys2Proof.Machine.execMulhImm g d a imm s
  | .mulhzImm g d a imm => Sys2Proof.Machine.execMulhzImm g d a imm s
  | .divsImm g d a imm => Sys2Proof.Machine.execDivsImm g d a imm s
  | .divzImm g d a imm => Sys2Proof.Machine.execDivzImm g d a imm s
  | .remsImm g d a imm => Sys2Proof.Machine.execRemsImm g d a imm s
  | .remzImm g d a imm => Sys2Proof.Machine.execRemzImm g d a imm s
  | .andImm g d a imm => Sys2Proof.Machine.execAndImm g d a imm s
  | .orImm g d a imm => Sys2Proof.Machine.execOrImm g d a imm s
  | .xorImm g d a imm => Sys2Proof.Machine.execXorImm g d a imm s
  | .andnImm g d a imm => Sys2Proof.Machine.execAndnImm g d a imm s
  | .shlImm g d a imm => Sys2Proof.Machine.execShlImm g d a imm s
  | .shrzImm g d a imm => Sys2Proof.Machine.execShrzImm g d a imm s
  | .shrsImm g d a imm => Sys2Proof.Machine.execShrsImm g d a imm s
  | .cmpReg g c pd pe a b => Sys2Proof.Machine.execCmpReg g c pd pe a b s
  | .cmpImm g c pd pe a imm => Sys2Proof.Machine.execCmpImm g c pd pe a imm s
  | .pand g pd pa pb => Sys2Proof.Machine.execPand g pd pa pb s
  | .por g pd pa pb => Sys2Proof.Machine.execPor g pd pa pb s
  | .pxor g pd pa pb => Sys2Proof.Machine.execPxor g pd pa pb s
  | .pandn g pd pa pb => Sys2Proof.Machine.execPandn g pd pa pb s
  | .pnot g pd pa => Sys2Proof.Machine.execPnot g pd pa s
  | .prd g d => Sys2Proof.Machine.execPrd g d s
  | .pwr g a => Sys2Proof.Machine.execPwr g a s
  | .sel g d pc a b => Sys2Proof.Machine.execSel g d pc a b s
  | .liL27 g d imm => Sys2Proof.Machine.execLiL27 g d imm s
  | .liL59 g d imm => Sys2Proof.Machine.execLiL59 g d imm s
  | .lih g d a k => Sys2Proof.Machine.execLih g d a k s
  | .addpc g d imm => Sys2Proof.Machine.execAddpc g d imm s
  | .clz g d a => Sys2Proof.Machine.execClz g d a s
  | .ctz g d a => Sys2Proof.Machine.execCtz g d a s
  | .popc g d a => Sys2Proof.Machine.execPopc g d a s
  | .sext g d a k => Sys2Proof.Machine.execSext g d a k s
  | .zext g d a k => Sys2Proof.Machine.execZext g d a k s
  | .min g u d a b => Sys2Proof.Machine.execMin g u d a b s
  | .max g u d a b => Sys2Proof.Machine.execMax g u d a b s
  | .brJ16 g off hx => Sys2Proof.Machine.execBrJ16 g off hx s
  | .brJ32 g off hx => Sys2Proof.Machine.execBrJ32 g off hx s
  | .callJ16 g off hx => Sys2Proof.Machine.execCallJ16 g off hx s
  | .callJ32 g off hx => Sys2Proof.Machine.execCallJ32 g off hx s
  | .brReg g b => Sys2Proof.Machine.execBrReg g b s
  | .callReg g b => Sys2Proof.Machine.execCallReg g b s
  | .ret g => Sys2Proof.Machine.execRet g s
  | .brc g c off hx => Sys2Proof.Machine.execBrc g c off hx s
  | .ld g ty d a sc o imm => Sys2Proof.Machine.execLd g ty d a sc o imm s
  | .st g ty d a sc o imm => Sys2Proof.Machine.execSt g ty d a sc o imm s
  | .stw g v a imm => Sys2Proof.Machine.execStw g v a imm s
  | .xst g wd x c o imm => Sys2Proof.Machine.execXst g wd x c o imm s
  | .ldt g ty t a imm => Sys2Proof.Machine.execLdt g ty t a imm s
  | .take g d k pd => Sys2Proof.Machine.execTake g d k pd s
  | .amo g op a b sc o u wd => Sys2Proof.Machine.execAmo g op a b sc o u wd s
  | .amor g op d a b sc o u wd => Sys2Proof.Machine.execAmor g op d a b sc o u wd s
  | .amorCas g d a b c sc o u wd => Sys2Proof.Machine.execAmorCas g d a b c sc o u wd s
  | .addw g a b => Sys2Proof.Machine.execAddw g a b s
  | .fence g sc o => Sys2Proof.Machine.execFence g sc o s
  | .rflush g => Sys2Proof.Machine.execRflush g s
  | .wdrain g => Sys2Proof.Machine.execWdrain g s
  | .vadd g d a b ty => Sys2Proof.Machine.execVadd g d a b ty s
  | .vsub g d a b ty => Sys2Proof.Machine.execVsub g d a b ty s
  | .vmul g d a b ty => Sys2Proof.Machine.execVmul g d a b ty s
  | .vmin g d a b ty => Sys2Proof.Machine.execVmin g d a b ty s
  | .vmax g d a b ty => Sys2Proof.Machine.execVmax g d a b ty s
  | .vabs g d a ty => Sys2Proof.Machine.execVabs g d a ty s
  | .vneg g d a ty => Sys2Proof.Machine.execVneg g d a ty s
  | .vand g d a b ty => Sys2Proof.Machine.execVand g d a b ty s
  | .vor g d a b ty => Sys2Proof.Machine.execVor g d a b ty s
  | .vxor g d a b ty => Sys2Proof.Machine.execVxor g d a b ty s
  | .vshl g d a b ty => Sys2Proof.Machine.execVshl g d a b ty s
  | .vshr g d a b ty => Sys2Proof.Machine.execVshr g d a b ty s
  | .vdiv g d a b ty => Sys2Proof.Machine.execVdiv g d a b ty s
  | .vsqrt g d a ty => Sys2Proof.Machine.execVsqrt g d a ty s
  | .vadds g d a b ty => Sys2Proof.Machine.execVadds g d a b ty s
  | .vsubs g d a b ty => Sys2Proof.Machine.execVsubs g d a b ty s
  | .vfma g d a b c ty => Sys2Proof.Machine.execVfma g d a b c ty s
  | .vfms g d a b c ty => Sys2Proof.Machine.execVfms g d a b c ty s
  | .vfnma g d a b c ty => Sys2Proof.Machine.execVfnma g d a b c ty s
  | .vfnms g d a b c ty => Sys2Proof.Machine.execVfnms g d a b c ty s
  | .vcmp g c d a b ty => Sys2Proof.Machine.execVcmp g c d a b ty s
  | .vsel g d a b c ty => Sys2Proof.Machine.execVsel g d a b c ty s
  | .vcvt g d a tyd tys => Sys2Proof.Machine.execVcvt g d a tyd tys s
  | .vcvtz g d a tyd tys => Sys2Proof.Machine.execVcvtz g d a tyd tys s
  | .vcvthi g d a tyd tys => Sys2Proof.Machine.execVcvthi g d a tyd tys s
  | .vcvtzhi g d a tyd tys => Sys2Proof.Machine.execVcvtzhi g d a tyd tys s
  | .vredadd g d a ty => Sys2Proof.Machine.execVredadd g d a ty s
  | .vredmin g d a ty => Sys2Proof.Machine.execVredmin g d a ty s
  | .vredmax g d a ty => Sys2Proof.Machine.execVredmax g d a ty s
  | .vredand g d a ty => Sys2Proof.Machine.execVredand g d a ty s
  | .vredor g d a ty => Sys2Proof.Machine.execVredor g d a ty s
  | .vperm g d a b ty => Sys2Proof.Machine.execVperm g d a b ty s
  | .vzip g d a b ty => Sys2Proof.Machine.execVzip g d a b ty s
  | .vunzip g d a b ty => Sys2Proof.Machine.execVunzip g d a b ty s
  | .vbcast g d a ty => Sys2Proof.Machine.execVbcast g d a ty s
  | .vextr g d v ty lane => Sys2Proof.Machine.execVextr g d v ty lane s
  | .vins g x v ty lane => Sys2Proof.Machine.execVins g x v ty lane s
  | .vld g v a imm => Sys2Proof.Machine.execVld g v a imm s
  | .vst g v a imm => Sys2Proof.Machine.execVst g v a imm s
  | .bfly2 g d a b c ty => Sys2Proof.Machine.execBfly2 g d a b c ty s
  | .bfly4 g d a c ty => Sys2Proof.Machine.execBfly4 g d a c ty s
  | .twid g d a b => Sys2Proof.Machine.execTwid g d a b s
  | .rand g d a b c ty => Sys2Proof.Machine.execRand g d a b c ty s
  | .mma g m => Sys2Proof.Machine.execMma g m s
  | .mmag g m => Sys2Proof.Machine.execMmag g m s
  | .mconv g m => Sys2Proof.Machine.execMconv g m s
  | .mldw g w a n => Sys2Proof.Machine.execMldw g w a n s
  | .mrd g acc a ty raw => Sys2Proof.Machine.execMrd g acc a ty raw s
  | .mwr g acc a ty raw => Sys2Proof.Machine.execMwr g acc a ty raw s
  | .mspill g a m => Sys2Proof.Machine.execMspill g a m s
  | .mfill g a m => Sys2Proof.Machine.execMfill g a m s
  | .ctload g e a n => Sys2Proof.Machine.execCtload g e a n s
  | .ctswap g => Sys2Proof.Machine.execCtswap g s
  | .mzero g acc => Sys2Proof.Machine.execMzero g acc s
  | .tspawn g a b => Sys2Proof.Machine.execTspawn g a b s
  | .tdec g a b => Sys2Proof.Machine.execTdec g a b s
  | .twatch g a b => Sys2Proof.Machine.execTwatch g a b s
  | .tend g => Sys2Proof.Machine.execTend g s
  | .tunwatch g a => Sys2Proof.Machine.execTunwatch g a s
  | .cbadv g cb a prod => Sys2Proof.Machine.execCbadv g cb a prod s
  | .send g a b => Sys2Proof.Machine.execSend g a b s
  | .xcopy g a b => Sys2Proof.Machine.execXcopy g a b s
  | .xgather g a b => Sys2Proof.Machine.execXgather g a b s
  | .xpref g a b => Sys2Proof.Machine.execXpref g a b s
  | .xcoll g a b => Sys2Proof.Machine.execXcoll g a b s
  | .resume g a b c => Sys2Proof.Machine.execResume g a b c s
  | .barset g bn a tree => Sys2Proof.Machine.execBarset g bn a tree s
  | .barv g bn tree => Sys2Proof.Machine.execBarv g bn tree s
  | .trap g code => Sys2Proof.Machine.execTrap g code s
  | .rte g => Sys2Proof.Machine.execRte g s
  | .ctlrd g d c => Sys2Proof.Machine.execCtlrd g d c s
  | .ctlwr g x c => Sys2Proof.Machine.execCtlwr g x c s
  | .timenow g d => Sys2Proof.Machine.execTimenow g d s
  | .nop g => Sys2Proof.Machine.execNop g s
  | .landingSlotArrival c h t got => Sys2Proof.Machine.execLandingSlotArrival c h t got s
  | .landingSlotFault c h t got => Sys2Proof.Machine.execLandingSlotFault c h t got s
  | .remoteAnswer c h id ans => Sys2Proof.Machine.execRemoteAnswer c h id ans s
  | .remoteWriteAck id refusal => Sys2Proof.Machine.execRemoteWriteAck id refusal s
  | .ingressRequest p q => Sys2Proof.Machine.execIngressRequest p q s
  | .linkLostTimeout dev => Sys2Proof.Machine.execLinkLostTimeout dev s
  | .aggageExpiry c b => Sys2Proof.Machine.execAggageExpiry c b s
  | .aggregationElementApply id merge => Sys2Proof.Machine.execAggregationElementApply id merge s
  | .xstLand id => Sys2Proof.Machine.execXstLand id s
  | .flushAcknowledge c h => Sys2Proof.Machine.execFlushAcknowledge c h s
  | .writeBudgetWindow k => Sys2Proof.Machine.execWriteBudgetWindow k s
  | .writeLaneDrain id => Sys2Proof.Machine.execWriteLaneDrain id s
  | .wlcBackgroundPromote id => Sys2Proof.Machine.execWlcBackgroundPromote id s
  | .decrementApply id => Sys2Proof.Machine.execDecrementApply id s
  | .wakeWrite id => Sys2Proof.Machine.execWakeWrite id s
  | .firingBind c h => Sys2Proof.Machine.execFiringBind c h s
  | .messageInject id => Sys2Proof.Machine.execMessageInject id s
  | .messageArrival src => Sys2Proof.Machine.execMessageArrival src s
  | .copyStep id => Sys2Proof.Machine.execCopyStep id s
  | .gatherElement id => Sys2Proof.Machine.execGatherElement id s
  | .prefetchLine id => Sys2Proof.Machine.execPrefetchLine id s
  | .xcollContribution src => Sys2Proof.Machine.execXcollContribution src s
  | .collectiveComplete n id => Sys2Proof.Machine.execCollectiveComplete n id s
  | .chime id => Sys2Proof.Machine.execChime id s
  | .matrixExecute c => Sys2Proof.Machine.execMatrixExecute c s
  | .matrixComplete c => Sys2Proof.Machine.execMatrixComplete c s
  | .mmagPanelAvailable c h => Sys2Proof.Machine.execMmagPanelAvailable c h s
  | .barrierArrivalReceive id => Sys2Proof.Machine.execBarrierArrivalReceive id s
  | .barrierRelease id => Sys2Proof.Machine.execBarrierRelease id s
  | .treeRelease c bn => Sys2Proof.Machine.execTreeRelease c bn s
  | .trapEntry c h => Sys2Proof.Machine.execTrapEntry c h s
  | .trapqRead => Sys2Proof.Machine.execTrapqRead s
  | .trapcmdResume n vcore h => Sys2Proof.Machine.execTrapcmdResume n vcore h s
  | .trapcmdAbort n vcore h => Sys2Proof.Machine.execTrapcmdAbort n vcore h s
  | .create tag n => Sys2Proof.Machine.execCreate tag n s
  | .suspend tag n => Sys2Proof.Machine.execSuspend tag n s
  | .ctxResume tag n => Sys2Proof.Machine.execCtxResume tag n s
  | .destroy tag n => Sys2Proof.Machine.execDestroy tag n s
  | .ctxUpdate tag n => Sys2Proof.Machine.execCtxUpdate tag n s
  | .badcmd tag n => Sys2Proof.Machine.execBadcmd tag n s
  | .ctxrspRead => Sys2Proof.Machine.execCtxrspRead s
  | .leaseGrant => Sys2Proof.Machine.execLeaseGrant s
  | .preemptRetireExpiry n => Sys2Proof.Machine.execPreemptRetireExpiry n s
  | .preemptComplete n => Sys2Proof.Machine.execPreemptComplete n s
  | .teardownComplete n => Sys2Proof.Machine.execTeardownComplete n s
  | .doorbellWrite n q => Sys2Proof.Machine.execDoorbellWrite n q s
  | .ticketWrite n q => Sys2Proof.Machine.execTicketWrite n q s
  | .launchStart n q => Sys2Proof.Machine.execLaunchStart n q s
  | .dispatchSelection => Sys2Proof.Machine.execDispatchSelection s
  | .taskPlace id => Sys2Proof.Machine.execTaskPlace id s
  | .kernelComplete kid => Sys2Proof.Machine.execKernelComplete kid s
  | .swapInstant => Sys2Proof.Machine.execSwapInstant s
  | .swapExchangeBegin a b => Sys2Proof.Machine.execSwapExchangeBegin a b s
  | .swapAbandon a b => Sys2Proof.Machine.execSwapAbandon a b s
  | .swapExchangeEnd a b => Sys2Proof.Machine.execSwapExchangeEnd a b s
  | .coreGate c => Sys2Proof.Machine.execCoreGate c s
  | .coreWakeComplete c => Sys2Proof.Machine.execCoreWakeComplete c s
  | .coreFence u => Sys2Proof.Machine.execCoreFence u s
  | .tlbinv w => Sys2Proof.Machine.execTlbinv w s
  | .tlbinvDone => Sys2Proof.Machine.execTlbinvDone s
  | .tlbinvrspRead => Sys2Proof.Machine.execTlbinvrspRead s
  | .portEnable p => Sys2Proof.Machine.execPortEnable p s
  | .portDisable p => Sys2Proof.Machine.execPortDisable p s
  | .trainingSuccess p four => Sys2Proof.Machine.execTrainingSuccess p four s
  | .trainingFail p => Sys2Proof.Machine.execTrainingFail p s
  | .negotiationComplete p peer => Sys2Proof.Machine.execNegotiationComplete p peer s
  | .flitReceive p f => Sys2Proof.Machine.execFlitReceive p f s
  | .flitReplayLimit p => Sys2Proof.Machine.execFlitReplayLimit p s
  | .portstatRead p => Sys2Proof.Machine.execPortstatRead p s
  | .timeFlitSend p => Sys2Proof.Machine.execTimeFlitSend p s
  | .timeFlitReceive p counter hops path => Sys2Proof.Machine.execTimeFlitReceive p counter hops path s
  | .ptmExchange hostTime => Sys2Proof.Machine.execPtmExchange hostTime s
  | .hostBar2Access a => Sys2Proof.Machine.execHostBar2Access a s
  | .registerWrite off val => Sys2Proof.Machine.execRegisterWrite off val s
  | .mgmtCommand m => Sys2Proof.Machine.execMgmtCommand m s
  | .fwUpdate img => Sys2Proof.Machine.execFwUpdate img s
  | .recover img => Sys2Proof.Machine.execRecover img s
  | .quote nonce => Sys2Proof.Machine.execQuote nonce s
  | .healthstatRead => Sys2Proof.Machine.execHealthstatRead s
  | .poisonlogRead => Sys2Proof.Machine.execPoisonlogRead s
  | .powerOn => Sys2Proof.Machine.execPowerOn s
  | .selftestComplete bad => Sys2Proof.Machine.execSelftestComplete bad s
  | .powerWindow milliwatts celsius => Sys2Proof.Machine.execPowerWindow milliwatts celsius s
  | .thermalTrip => Sys2Proof.Machine.execThermalTrip s
  | .scrub f => Sys2Proof.Machine.execScrub f s
  | .poison line => Sys2Proof.Machine.execPoison line s
  | .idleRetest bad => Sys2Proof.Machine.execIdleRetest bad s
  | .homeSliceAnswer c h id => Sys2Proof.Machine.execHomeSliceAnswer c h id s
  | .powerLoss inFlashWrite => Sys2Proof.Machine.execPowerLoss inFlashWrite s
  | .pcieCompletionTimeout c h id => Sys2Proof.Machine.execPcieCompletionTimeout c h id s
  | .atomicopRequesterEnableWrite en => Sys2Proof.Machine.execAtomicopRequesterEnableWrite en s
  | .hostPortDown down => Sys2Proof.Machine.execHostPortDown down s

end Sys2Proof.Machine
end

