-- ==== Sys2Proof/Machine/Fetch.lean ====
section
/-! DEFINITION. Fetching a head (R32 to R37, R42 to R44, R144, R316), the issue scheduler (R277), and what the machine does
next (log 2, DESIGN CHOICE). -/

namespace Sys2Proof.Machine

/-- The outcome of a fetch: a head with the next PC after it (R32); a trap with its TRAPADDR (R35, R37, R144, R316); or a wait for
another device's answer (R328). -/
inductive Fetched where
  | head (i : Instr) (npc : Pc) (f : Fab)
  | trap (cause : Cause) (addr : Word) (f : Fab)
  | wait (f : Fab)

/-- The line that a thread holds as it was read when the thread came to it (R43). -/
def Thread.codeOf (t : Thread) (gpa : Nat) : Option Line :=
  match t.code with
  | some (a, d) => if a = gpa then some d else none
  | none => none

/-- Whether a code line cannot be read: it is poisoned, or no route to it stands (log 20, DESIGN CHOICE). -/
def Fab.codeBad (f : Fab) (m : Mgt) (gpa : Nat) : Bool :=
  f.poisoned gpa 64 || match m.place gpa with
    | .own _ => false
    | .host _ => f.readBad m gpa
    | .other d _ => !m.routed d
    | .nowhere => true

/-- A code line as a thread reads it when it comes to it (R43): from a copy of a stable page, or its home; another device's line is
asked for (R328). -/
def Fab.codeRead (f : Fab) (m : Mgt) (c : CoreId) (h : ThreadId) (e : TlbEnt) (gpa : Nat) : FarRes :=
  let n := (f.core c).ctxId
  if !m.isOther gpa then .done (lineBytes (f.codeLine m n gpa))
  else
    match f.remoteCopy m c n e gpa with
    | some d => .done (lineBytes d)
    | none => f.farRead m (.head c h (f.who c h).fid) n gpa 64

/-- The head at a thread's PC in the line that it holds. -/
def Fab.headIn (f : Fab) (c : CoreId) (h : ThreadId) (d : Line) : Fetched :=
  let pc := (f.thread c h).pc
  let at' : Word := BitVec.ofNat 64 (pc.toNat / 64 * 64)
  match decodeLine (lineBytes d) with
  | .error _ => .trap .illegalLine at' f
  | .ok l =>
    match l.heads[(pc &&& 63).toNat]? with
    | none => .trap .illegalLine at' f
    | some (head, tail) =>
      match decodeHead head tail with
      | .error _ => .trap .illegalOp at' f
      | .ok i => .head i (nextPc pc l.count) f

/-- The line at a global physical address is held, or read, and its head found. -/
def Fab.fetchLine (f : Fab) (m : Mgt) (c : CoreId) (h : ThreadId) (e : TlbEnt) (gpa : Nat) : Fetched :=
  let fault := fun (cause : Cause) => Fetched.trap cause ((f.thread c h).pc.zeroExtend 64) f
  match (f.thread c h).codeOf gpa with
  | some d => f.headIn c h d
  | none =>
    if f.codeBad m gpa then fault .pageFault
    else
      match f.codeRead m c h e gpa with
      | .wait g => .wait g
      | .bad cause => fault cause
      | .done bs =>
        ((f.dropReads c h).modThread c h fun t => { t with code := some (gpa, bytesLine bs) }).headIn c h (bytesLine bs)

/-- The head at a thread's PC. The walk and the line stay fetched where the head then traps (R43, R320). -/
def Fab.fetch (f : Fab) (m : Mgt) (c : CoreId) (h : ThreadId) : Fetched :=
  let pc := (f.thread c h).pc
  let line := pc.toNat / 64 * 64
  match if line < peerBase then f.translate m c (f.core c).ctxId line (·.exe) else none with
  | none => .trap .pageFault (pc.zeroExtend 64) f
  | some (e, g) => if e.exe then g.fetchLine m c h e (e.gpa line) else .trap .pageFault (pc.zeroExtend 64) g

/-! The issue scheduler (R277). Which thread issues governs timing only. -/

/-- Whether a thread may issue: it holds a running firing or a trap routine. -/
def Thread.live (t : Thread) : Bool := t.st == .running || t.st == .routine

/-- Role of a thread's firing; the landing thread counts as a loader (R277). A trap routine keeps its firing's. -/
def Thread.role (t : Thread) : Nat := (t.firing.map (·.role)).getD 0

/-- The next of some threads after one, in ascending order, wrapping. -/
def nextAfter (last : Nat) (hs : List ThreadId) : Option ThreadId :=
  match hs.find? fun h => h.val > last with
  | some h => some h
  | none => hs.head?

/-- What the scheduler compares of a thread's next head: its thread, firing, PC and role. -/
def Thread.tried (t : Thread) (h : ThreadId) : Tried :=
  ⟨h, if t.st == .routine then t.rfid else (t.firing.map (·.fid)).getD 0, t.pc, t.role⟩

/-- Whether a thread may still be tried in the cycle under way: it may issue, and its head has not stalled in this cycle. -/
def Core.untried (x : Core) (h : ThreadId) : Bool := x.threads[h].live && !x.sched.tried.any fun k => k = x.threads[h].tried h

/-- The choice of R277 among the eligible threads of a core. -/
def Core.choose (x : Core) (hs : List ThreadId) : Option ThreadId :=
  let old := hs.filter fun h => x.threads[h].age ≥ x.agemax.toNat
  let top := old.foldl (fun a h => max a x.threads[h].age) 0
  match old.find? fun h => x.threads[h].age = top with
  | some h => some h
  | none =>
    let r := (hs.map fun h => x.threads[h].role).foldl min 3
    nextAfter ((x.sched.lastRole[r]?.map (·.val)).getD 7) (hs.filter fun h => x.threads[h].role = r)

/-- Whether the cycle of a core's last try goes on: every head tried in it has stalled, and a thread is left. -/
def Core.goesOn (x : Core) (now : Nat) : Bool :=
  x.sched.at' = now && !x.sched.tried.isEmpty && (List.finRange 8).any x.untried

/-- A cycle begins (R277): every eligible thread that was not chosen in the cycle before is one cycle older. Where every head tried in
that cycle stalled, none was chosen in it. -/
def Core.newCycle (x : Core) (now : Nat) (eligible : ThreadId → Bool) : Core :=
  let last := if x.sched.tried.isEmpty then x.sched.last else none
  { x with
    threads := Vector.ofFn fun (k : Fin 8) =>
      let t := x.threads[k]
      if last ≠ some k && eligible k then { t with age := t.age + 1 } else t
    sched := ⟨last, x.sched.lastRole, [], now⟩ }

/-- The head of thread h is chosen (R277): its age is reset, and the cycle ends. -/
def Core.chosen (x : Core) (h : ThreadId) : Core :=
  let t := x.threads[h]
  { x.setThread h { t with age := 0 } with
    sched := ⟨some h, if t.role < 3 then x.sched.lastRole.set! t.role h else x.sched.lastRole, [], x.sched.at'⟩ }

/-- The head of thread h stalls in the cycle under way: its age is held (R277). -/
def Core.stalled (x : Core) (h : ThreadId) : Core :=
  { x with sched := { x.sched with tried := x.threads[h].tried h :: x.sched.tried } }

/-- Whether a core issues: it has an occupant whose group is not stopped (R346), it is awake (R283), and it is not exchanging
(R290). -/
def Fab.issues (f : Fab) (c : Nat) (x : Core) : Bool :=
  (match x.occ with | some o => !(f.ctx o.ctx).stopping | none => false) && x.power == .awake &&
    !f.pairs.any (fun p => p.begun && (p.lo.val = c || p.hi.val = c)) && x.threads.toList.any (·.live)

/-- The core that issues next: the first one after the core that issued last. -/
def Fab.nextCore (f : Fab) (last : CoreId) : Option CoreId :=
  let cs := (f.cores.filter fun c => f.issues c.1 c.2).map (·.1)
  match cs.find? fun c => c > last.val with
  | some c => some (Fin.ofNat 2304 c)
  | none => cs.head?.map (Fin.ofNat 2304)

/-- Whether the retire allowance of a pre-emption has passed (R346: PREEMPTWAIT, in µs). -/
def Ctx.retireOver (x : Ctx) (m : Mgt) : Bool :=
  x.pre == some .retire && !x.stopping && x.retiring ≥ 1000 * m.preemptwait.toNat

/-- What has come due without a cause of its own: a waiting exchange that is abandoned or begins (R289), a message whose delay has
passed (R221), a step of a pre-emption or the end of its retire allowance (R346), a kernel that may complete (R275), an invalidation
that may complete (R318), an idle core that is to be gated (R283). -/
def Fab.aged (f : Fab) (m : Mgt) : List Instr :=
  (f.pairs.filter fun p => !p.begun && p.waited ≥ Config.swapWait).map (fun p => .swapAbandon p.lo p.hi) ++
  (f.pairs.filter fun p => !p.begun && p.waited < Config.swapWait && (f.core p.lo).between && (f.core p.hi).between).map
    (fun p => .swapExchangeBegin p.lo p.hi) ++
  (f.msgs.filter fun x => !x.gone && x.due ≤ f.cycle).map (fun x => .messageInject x.id) ++
  ((List.finRange 64).filter fun n => f.preReady m n).map .preemptComplete ++
  ((List.finRange 64).filter fun n => (f.ctx n).retireOver m).map .preemptRetireExpiry ++
  (f.kernels.filter fun k => (f.ctx k.ctx).st == .active && (f.ctx k.ctx).pre.isNone && f.mayComplete m k).map
    (fun k => .kernelComplete k.kid) ++
  (if f.tlbReady m then [.tlbinvDone] else []) ++
  ((f.cores.map fun c => (Fin.ofNat 2304 c.1 : CoreId)).filter fun c => f.mayGate m c).map .coreGate

/-- Aggregation buffers whose age timers have run out: nothing extends the bound, so that they leave before all else (R111). -/
def Fab.expired (f : Fab) : List Instr :=
  f.cores.flatMap fun c =>
    (c.2.agg.filter fun b => f.cycle ≥ b.2.born + c.2.aggage.toNat).map fun b =>
      .aggageExpiry (Fin.ofNat 2304 c.1) (Fin.ofNat 16 b.1)

/-- What falls due at a time that TIMENOW has reached, before anything else happens at that time: the budget windows of the stacks
(R246) and the swap instant (R285). -/
def Fab.reached (f : Fab) (m : Mgt) : List Instr :=
  ((List.finRange 8).filter fun k => m.windowNo k ≠ f.winAt[k]).map .writeBudgetWindow ++
  (if m.time[0].toNat < m.swapAt then [] else [.swapInstant])

/-! What happens next (log 2, DESIGN CHOICE). -/

/-- A step that ends here, or one that executes an instruction or event. -/
inductive Turn where
  | still (s : State)
  | run (i : Instr) (s : State)

/-- Whether the head of the current thread issues: its core and its thread may, and the device runs (R277, R359). -/
def State.mayIssue (s : State) : Bool :=
  s.f.issues s.core.val (s.f.core s.core) && (s.f.thread s.core s.th).live && s.m.dev == .running

/-- The head of the current thread is fetched: the trap of R35 and R316, a wait, or the head. -/
def State.fetched (s : State) : Turn :=
  match s.f.fetch s.m s.core s.th with
  | .trap cause addr f => .still { s with f := f.trap s.m s.core s.th cause addr }
  | .wait f => .still { s with f := f }
  | .head i npc f => .run i { s with f := f.modThread s.core s.th fun t => { t with npc := npc } }

/-- What a head that ends by setting the PC reads and writes, with its guard (R142, R143). -/
def flowRegs : Instr → Option (Guard × List Dst × List Dst)
  | .brJ16 g .. | .brJ32 g .. => some (g, [], [])
  | .callJ16 g .. | .callJ32 g .. => some (g, [], [.s lk])
  | .brReg g b => some (g, [.s b], [])
  | .callReg g b => some (g, [.s b], [.s lk])
  | .ret g => some (g, [.s lk], [])
  | .brc g c .. => some (g, [.s c], [.s c])
  | _ => none

/-- Whether a head that sets the PC waits for a register (R152). -/
def Thread.flowWaits (t : Thread) (g : Guard) (rs ws : List Dst) : Bool :=
  t.rdp g.gp ≠ g.gn && (t.refusedAt rs).isNone && (t.awaits rs || t.awaits ws)

/-- Whether two views of a thread stand at the same head of the same firing. -/
def Thread.same (t u : Thread) : Bool := t.st == u.st && t.pc = u.pc && t.firing == u.firing

/-- Whether the next head of a thread would stall (R56, R277), run being what executes an instruction: it would leave its thread at
that head. A head that sets the PC, which may lead to itself, stalls where it waits for a register. -/
def State.stalls (run : Instr → State → Res) (s : State) (c : CoreId) (h : ThreadId) : Bool :=
  let t := s.f.thread c h
  match { s with core := c, th := h }.fetched with
  | .still u => t.same (u.f.thread c h)
  | .run i u =>
    match flowRegs i with
    | some (g, rs, ws) => t.flowWaits g rs ws
    | none =>
      match run i u with
      | .next v => t.same (v.f.thread c h)
      | _ => false

/-- Whether a thread is eligible (R277). -/
def State.eligible (run : Instr → State → Res) (s : State) (c : CoreId) (h : ThreadId) : Bool :=
  (s.f.thread c h).live && !s.stalls run c h

/-- The state in which the head of thread h of a core is tried: where the core's last cycle is over, another has begun, and the other
eligible threads have aged; the head is chosen, or stalls (R277). -/
def State.attempt (run : Instr → State → Res) (s : State) (c : CoreId) (h : ThreadId) : State :=
  let x := s.f.core c
  let on := x.goesOn s.f.cycle && x.untried h
  let now := if on then s.f.cycle else s.f.cycle + 1
  let x := if on then x else x.newCycle now fun k => k ≠ h && s.eligible run c k
  let x := if s.stalls run c h then x.stalled h else x.chosen h
  { s with core := c, th := h, f := { s.f.setCore c x with cycle := now } }

/-- Issues the next head of a thread. -/
def State.issue (run : Instr → State → Res) (s : State) (c : CoreId) (h : ThreadId) : Turn :=
  if { s with core := c, th := h }.mayIssue then (s.attempt run c h).fetched else .still { s with core := c, th := h }

/-- The thread of a core whose head is tried next: those that stall first, so that what they wait for is asked for, then the one that
the scheduler chooses (R277). -/
def State.nextThread (run : Instr → State → Res) (s : State) (c : CoreId) : ThreadId :=
  let x := s.f.core c
  let on := x.goesOn s.f.cycle
  let left := (List.finRange 8).filter fun h => if on then x.untried h else x.threads[h].live
  match left.find? (s.stalls run c) with
  | some h => h
  | none =>
    let x := if on then x else x.newCycle 0 left.contains
    (x.choose left).getD 0

/-- Issues a head on a core (R277). -/
def State.issueOn (run : Instr → State → Res) (s : State) (c : CoreId) : Turn := s.issue run c (s.nextThread run c)

/-- The longest time that one move lets pass, in ns: no more than one time flit falls due in it at a port, and one window of R246. -/
def tickMax : Nat := 999

/-- The events that fall due when die 0's counter moves on by some ns: the time flits of the ports that are UP (R334). -/
def timed (m : Mgt) (ns : Nat) : List Instr :=
  let t := m.time[0].toNat
  if t / 1000 ≠ (t + ns) / 1000 then ((List.finRange 36).filter fun p => m.ports[p].st == .up).map .timeFlitSend else []

/-- How far a counter that is off moves while k ns pass: 1 ns at most for each 5,000 (R334: 200 ppm). -/
def Mgt.slewBy (m : Mgt) (k : Nat) : Int :=
  let n : Int := ((m.slewAcc + k) / 5000 : Nat)
  max (-n) (min n m.slew)

/-- Nanoseconds pass for the four copies of the counter, which slew towards their source (R26, R334). -/
def Mgt.tick (m : Mgt) (k : Nat) : Mgt :=
  Mgt.relock { m with
    time := Vector.ofFn fun (d : Fin 4) => m.time[d] + BitVec.ofInt 64 (k + m.slewBy k)
    slew := m.slew - m.slewBy k
    slewAcc := (m.slewAcc + k) % 5000 }

/-- Nanoseconds of a retire allowance pass (R346, step 2). -/
def Ctx.ages (x : Ctx) (k : Nat) : Ctx := if x.pre = some .retire then { x with retiring := x.retiring + k } else x

/-- How long a core has been idle, after k ns more (R283). -/
def Fab.idleFor (f : Fab) (c : CoreId) (k : Nat) : Nat := if f.idle c then (f.core c).idle + k else 0

/-- Nanoseconds pass. Durations are measured by the counter, slewed as it is (R6). -/
def State.tick (s : State) (ns : Nat) : State :=
  let k := min ns tickMax
  let d := (k + s.m.slewBy k).toNat
  { s with
    f := { s.f with
      due := s.f.due ++ timed s.m d
      ctxs := s.f.ctxs.map fun x => (x.1, x.2.ages d)
      pairs := s.f.pairs.map fun p => { p with waited := p.waited + d }
      cores := s.f.cores.map fun c => (c.1, { c.2 with idle := s.f.idleFor (Fin.ofNat 2304 c.1) d }) }
    m := s.m.tick k }

/-- Cycles after which 10 ns have passed (R6: 21 periods of 2.1 GHz). -/
def beatCycles : Nat := 21

/-- Whether 10 ns are over. -/
def Fab.beats (f : Fab) : Bool := f.cycle % beatCycles = beatCycles - 1

/-- A line that the write lane sends to HBM4E when nothing else is to do: the one that the scheduler of a stack serves next (R315). -/
def Fab.idleLine (f : Fab) : Option Nat :=
  match f.wl.find? fun e => e.place == .queue with
  | some e => (f.nextLine e.stack).map (·.id)
  | none => none

/-- A move of the outside, or a choice. -/
def State.move (run : Instr → State → Res) (s : State) (mv : Move) : Turn :=
  match mv with
  | .event i => if i.isEvent then .run i s else .still s
  | .issue c h => s.issue run c h
  | .tick ns => .still (s.tick ns)
  | .evict line must => .still { s with f := s.f.evict s.m line must }

/-- The core whose head the machine issues by itself: the one whose cycle goes on, else the next one (R277, log 2). -/
def State.coreToIssue (s : State) : Option CoreId :=
  let x := s.f.core s.core
  if s.f.issues s.core.val x && x.goesOn s.f.cycle then some s.core else s.f.nextCore s.core

/-- What the machine does by itself when nothing is due: 10 ns that are over, else a head, else a line of the write lane, else an
idle cycle. -/
def State.quiet (run : Instr → State → Res) (s : State) : Turn :=
  let next := { s with f := { s.f with cycle := s.f.cycle + 1 } }
  if s.f.beats then .still (next.tick 10)
  else
    match s.coreToIssue with
    | some c => s.issueOn run c
    | none =>
      match s.f.idleLine with
      | some id => .run (.writeLaneDrain id) next
      | none => .still next

/-- An event of a list happens; an entry that is none is passed over. -/
def State.event? (s : State) (i : Instr) : Turn := if i.isEvent then .run i s else .still s

/-- The next turn: an aggregation buffer whose time has run out, else what TIMENOW has reached, else packets that a core's router held
(R23, R291), else the outside's move, else an event already caused, else one that has come due, else what the machine does by
itself. -/
def State.turn (run : Instr → State → Res) (s : State) : Turn :=
  match s.f.expired ++ s.f.reached s.m with
  | i :: _ => .run i s
  | [] =>
    match s.f.urgent with
    | i :: rest => { s with f := { s.f with urgent := rest } }.event? i
    | [] =>
      match s.agenda with
      | mv :: rest => { s with agenda := rest }.move run mv
      | [] =>
        match s.f.due with
        | i :: rest => { s with f := { s.f with due := rest } }.event? i
        | [] =>
          match s.f.aged s.m with
          | i :: _ => .run i s
          | [] => s.quiet run

/-! A program is loaded from outside the machine (log 15, DESIGN CHOICE). -/

/-- The page that State.placed maps: virtual 0, the first 64 KiB of device memory. -/
def placedPage (m : Mgt) : TlbEnt := ⟨0, 0, 2 ^ 16, m.gpa 0, true, true, true, true, false, false, 0, 0, 0⟩

/-- No aggregation buffer is old, no exchange under way, no window to be opened, and no packet held back. -/
def Fab.unaged (f : Fab) (m : Mgt) : Fab :=
  { f with pairs := [], urgent := [], winAt := Vector.ofFn m.windowNo, cores := f.cores.map fun p => (p.1, { p.2 with agg := [] }) }

/-- The outside has booted the device, granted context 0 a lease of core 0, stored a code line at the start of device memory,
mapped it, and started a firing there; the next move is its issue (log 15, DESIGN CHOICE). -/
def State.placed (s : State) (line : List Byte) : State :=
  let m := { s.m with
    dev := .running, devnum := if s.m.devnum = 0x3FFF then 0 else s.m.devnum, swapAt := s.m.nextInstant s.m.swapNow.toNat }
  let f := s.f.modCtx 0 fun x => { x with st := .active, lease := .granted, lh := 1, lw := 1, map := [] }
  let f := (f.store m none false (m.gpa 0) line).unaged m
  let f := f.modCtx 0 fun x => { x with since := f.past.length }
  let f := f.modCore 0 fun x => { x with occ := some ⟨0, 0, 0⟩, power := .awake, tlb := placedPage m :: x.tlb }
  let f := f.modThread 0 0 fun t =>
    { t with
      st := .running, pc := 0, npc := 0, code := none
      firing := some ⟨.counter, f.ids, 0, none, 0, 0, false, false, [], [], none, none⟩ }
  { s with f := { f with ids := f.ids + 1 }, m := m, agenda := [.issue 0 0] }

end Sys2Proof.Machine
end

