-- ==== Sys2Proof/Machine/Step.lean ====
section
/-! DEFINITION. One step, and the state whose next step runs a given instruction. -/

namespace Sys2Proof.Machine

/-- One step of the machine: what State.turn finds to do next. The scheduler looks with exec whether a head stalls (R277). -/
def step (s : State) : Host.Outcome State Fault Refusal :=
  match s.turn exec with
  | .still t => .next t
  | .run i t => exec i t

/-- The state whose next step fetches the instruction of a table number and runs it (log 15, DESIGN CHOICE): State.placed. -/
def State.withFetchWord (s : State) (nbits w : Nat) : State := s.placed (tableLine nbits w)

end Sys2Proof.Machine
end

