-- ==== Sys2Proof/Safety.lean ====
section
/-! DEFINITION. The words that claims are stated in: the current thread and what may run on it, the guard and the registers
of a head, the management invariant, and runs of the machine. -/

namespace Sys2Proof

/-- The guard of a head (R34); an event has none. -/
def Instr.guard (i : Instr) : Option Guard := i.raw.map (·.g)

namespace Machine

/-- The thread whose head executes. -/
def State.cur (s : State) : Thread := s.f.thread s.core s.th
/-- The state in which only the current thread is another one. -/
def State.withCur (s : State) (t : Thread) : State := { s with f := s.f.setThread s.core s.th t }

/-- Whether a thread executes heads: it holds a running firing, or its trap routine (R277, R340). -/
def Thread.alive (t : Thread) : Prop := t.st = .running ∨ t.st = .routine
/-- No value is to come to one of some registers (R152). -/
def Thread.settled (t : Thread) (ds : List Dst) : Prop := ∀ p ∈ t.pend, p.dst ∈ ds → p.st.open = false
/-- No refused answer to one of some registers is still to be taken as a trap (R330). -/
def Thread.clean (t : Thread) (ds : List Dst) : Prop := ∀ p ∈ t.pend, p.dst ∈ ds → ∀ e, p.st ≠ .refused e

/-- A head of guard g that reads the registers rs and writes those of ws acts: its thread executes heads, its guard is true, no
register waits, and no answer to one that it reads was refused. -/
structure State.Runs (s : State) (g : Guard) (rs ws : List Dst) : Prop where
  alive : s.cur.alive
  guard : s.cur.rdp g.gp ≠ g.gn
  reads : s.cur.settled rs
  writes : s.cur.settled ws
  clean : s.cur.clean rs

end Machine

open Machine

/-- The registers that a head reads, as R152 and R330 count its sources. A TAKE reads one only where it moves a value, which is
said at its own statement. -/
def Instr.reads : Instr → List Dst
  | .addReg _ _ a b | .subReg _ _ a b | .mulReg _ _ a b | .mulhReg _ _ a b | .mulhzReg _ _ a b | .divsReg _ _ a b
  | .divzReg _ _ a b | .remsReg _ _ a b | .remzReg _ _ a b | .andReg _ _ a b | .orReg _ _ a b | .xorReg _ _ a b
  | .andnReg _ _ a b | .shlReg _ _ a b | .shrzReg _ _ a b | .shrsReg _ _ a b | .min _ _ _ a b | .max _ _ _ a b
  | .sel _ _ _ a b | .cmpReg _ _ _ _ a b | .amor _ _ _ a b _ _ _ _ | .amo _ _ a b _ _ _ _ | .st _ _ a b _ _ _
  | .addw _ a b | .mspill _ a b | .mfill _ a b | .tspawn _ a b | .tdec _ a b | .twatch _ a b | .send _ a b
  | .xcopy _ a b | .xgather _ a b | .xpref _ a b | .xcoll _ a b | .twid _ _ a b => [.s a, .s b]
  | .addImm _ _ a _ | .subImm _ _ a _ | .mulImm _ _ a _ | .mulhImm _ _ a _ | .mulhzImm _ _ a _ | .divsImm _ _ a _
  | .divzImm _ _ a _ | .remsImm _ _ a _ | .remzImm _ _ a _ | .andImm _ _ a _ | .orImm _ _ a _ | .xorImm _ _ a _
  | .andnImm _ _ a _ | .shlImm _ _ a _ | .shrzImm _ _ a _ | .shrsImm _ _ a _ | .lih _ _ a _ | .clz _ _ a | .ctz _ _ a
  | .popc _ _ a | .sext _ _ a _ | .zext _ _ a _ | .cmpImm _ _ _ _ a _ | .pwr _ a | .brReg _ a | .callReg _ a
  | .brc _ a _ _ | .ld _ _ _ a _ _ _ | .ldt _ _ _ a _ | .vbcast _ _ a _ | .vld _ _ a _ | .mrd _ _ a _ _
  | .mwr _ _ a _ _ | .tunwatch _ a | .cbadv _ _ a _ | .barset _ _ a _ | .ctlwr _ a _ => [.s a]
  | .ret _ => [.s lk]
  | .xst _ _ a b c _ | .amorCas _ _ a b c _ _ _ _ | .mldw _ a b c | .ctload _ a b c | .resume _ a b c
  | .rand _ _ a b c _ => [.s a, .s b, .s c]
  | .stw _ v a _ | .vst _ v a _ => [.v v, .s a]
  | .vadd _ _ a b _ | .vsub _ _ a b _ | .vmul _ _ a b _ | .vmin _ _ a b _ | .vmax _ _ a b _ | .vand _ _ a b _
  | .vor _ _ a b _ | .vxor _ _ a b _ | .vshl _ _ a b _ | .vshr _ _ a b _ | .vdiv _ _ a b _ | .vadds _ _ a b _
  | .vsubs _ _ a b _ | .vcmp _ _ _ a b _ | .vperm _ _ a b _ | .vzip _ _ a b _ | .vunzip _ _ a b _ => [.v a, .v b]
  | .vabs _ _ a _ | .vneg _ _ a _ | .vsqrt _ _ a _ | .vcvt _ _ a _ _ | .vcvtz _ _ a _ _ | .vredadd _ _ a _
  | .vredmin _ _ a _ | .vredmax _ _ a _ | .vredand _ _ a _ | .vredor _ _ a _ | .vextr _ _ a _ _ => [.v a]
  | .vcvthi _ d a tyd tys | .vcvtzhi _ d a tyd tys => hiReads tyd tys d a
  | .vfma _ _ a b c _ | .vfms _ _ a b c _ | .vfnma _ _ a b c _ | .vfnms _ _ a b c _ | .vsel _ _ a b c _
  | .bfly2 _ _ a b c _ => [.v a, .v b, .v c]
  | .vins _ x v _ _ => [.s x, .v v]
  | .bfly4 _ _ a c _ => (List.range 4).map (fun k => .v (vnext a k)) ++ (List.range 3).map (fun k => .v (vnext c k))
  | .mma _ o | .mmag _ o | .mconv _ o => [.s o.sa, .s o.sb, .s o.sk, .s o.sx]
  | _ => []

/-- The registers that a head writes, as R152 counts its destinations; of a TAKE, see Instr.reads. -/
def Instr.dests : Instr → List Dst
  | .addReg _ d _ _ | .subReg _ d _ _ | .mulReg _ d _ _ | .mulhReg _ d _ _ | .mulhzReg _ d _ _ | .divsReg _ d _ _
  | .divzReg _ d _ _ | .remsReg _ d _ _ | .remzReg _ d _ _ | .andReg _ d _ _ | .orReg _ d _ _ | .xorReg _ d _ _
  | .andnReg _ d _ _ | .shlReg _ d _ _ | .shrzReg _ d _ _ | .shrsReg _ d _ _ | .addImm _ d _ _ | .subImm _ d _ _
  | .mulImm _ d _ _ | .mulhImm _ d _ _ | .mulhzImm _ d _ _ | .divsImm _ d _ _ | .divzImm _ d _ _ | .remsImm _ d _ _
  | .remzImm _ d _ _ | .andImm _ d _ _ | .orImm _ d _ _ | .xorImm _ d _ _ | .andnImm _ d _ _ | .shlImm _ d _ _
  | .shrzImm _ d _ _ | .shrsImm _ d _ _ | .prd _ d | .sel _ d _ _ _ | .liL27 _ d _ | .liL59 _ d _ | .lih _ d _ _
  | .addpc _ d _ | .clz _ d _ | .ctz _ d _ | .popc _ d _ | .sext _ d _ _ | .zext _ d _ _ | .min _ _ d _ _
  | .max _ _ d _ _ | .brc _ d _ _ | .vredadd _ d _ _ | .vredmin _ d _ _ | .vredmax _ d _ _ | .vredand _ d _ _
  | .vredor _ d _ _ | .vextr _ d _ _ _ | .ctlrd _ d _ | .timenow _ d | .ld _ _ d _ _ _ _ | .amor _ _ d _ _ _ _ _ _
  | .amorCas _ d _ _ _ _ _ _ _ => [.s d]
  | .callJ16 .. | .callJ32 .. | .callReg .. => [.s lk]
  | .vadd _ d _ _ _ | .vsub _ d _ _ _ | .vmul _ d _ _ _ | .vmin _ d _ _ _ | .vmax _ d _ _ _ | .vabs _ d _ _
  | .vneg _ d _ _ | .vand _ d _ _ _ | .vor _ d _ _ _ | .vxor _ d _ _ _ | .vshl _ d _ _ _ | .vshr _ d _ _ _
  | .vdiv _ d _ _ _ | .vsqrt _ d _ _ | .vadds _ d _ _ _ | .vsubs _ d _ _ _ | .vfma _ d _ _ _ _ | .vfms _ d _ _ _ _
  | .vfnma _ d _ _ _ _ | .vfnms _ d _ _ _ _ | .vcmp _ _ d _ _ _ | .vsel _ d _ _ _ _ | .vcvt _ d _ _ _
  | .vcvtz _ d _ _ _ | .vcvthi _ d _ _ _ | .vcvtzhi _ d _ _ _ | .vperm _ d _ _ _ | .vzip _ d _ _ _ | .vunzip _ d _ _ _
  | .vbcast _ d _ _ | .vins _ _ d _ _ | .twid _ d _ _ | .rand _ d _ _ _ _ | .vld _ d _ _ => [.v d]
  | .bfly2 _ d _ _ _ _ => [.v d, .v (vnext d 1)]
  | .bfly4 _ d _ _ _ => (List.range 4).map fun k => .v (vnext d k)
  | _ => []

/-- What a head that works on registers alone may write beside the PC: scalar and vector registers, and predicates. none: a
head that may change more, or an event. -/
def Instr.writes : Instr → Option (List Dst × List PReg)
  | .addReg _ d _ _ | .subReg _ d _ _ | .mulReg _ d _ _ | .mulhReg _ d _ _ | .mulhzReg _ d _ _ | .divsReg _ d _ _
  | .divzReg _ d _ _ | .remsReg _ d _ _ | .remzReg _ d _ _ | .andReg _ d _ _ | .orReg _ d _ _ | .xorReg _ d _ _
  | .andnReg _ d _ _ | .shlReg _ d _ _ | .shrzReg _ d _ _ | .shrsReg _ d _ _ | .addImm _ d _ _ | .subImm _ d _ _
  | .mulImm _ d _ _ | .mulhImm _ d _ _ | .mulhzImm _ d _ _ | .divsImm _ d _ _ | .divzImm _ d _ _ | .remsImm _ d _ _
  | .remzImm _ d _ _ | .andImm _ d _ _ | .orImm _ d _ _ | .xorImm _ d _ _ | .andnImm _ d _ _ | .shlImm _ d _ _
  | .shrzImm _ d _ _ | .shrsImm _ d _ _ | .prd _ d | .sel _ d _ _ _ | .liL27 _ d _ | .liL59 _ d _ | .lih _ d _ _
  | .addpc _ d _ | .clz _ d _ | .ctz _ d _ | .popc _ d _ | .sext _ d _ _ | .zext _ d _ _ | .min _ _ d _ _
  | .max _ _ d _ _ | .brc _ d _ _ | .vredadd _ d _ _ | .vredmin _ d _ _ | .vredmax _ d _ _ | .vredand _ d _ _
  | .vredor _ d _ _ | .vextr _ d _ _ _ | .ctlrd _ d _ | .timenow _ d => some ([.s d], [])
  | .cmpReg _ _ pd pe _ _ | .cmpImm _ _ pd pe _ _ => some ([], [pd, pe])
  | .pand _ pd _ _ | .por _ pd _ _ | .pxor _ pd _ _ | .pandn _ pd _ _ | .pnot _ pd _ => some ([], [pd])
  | .pwr .. => some ([], [1, 2, 3, 4, 5, 6, 7])
  | .callJ16 .. | .callJ32 .. | .callReg .. => some ([.s lk], [])
  | .brJ16 .. | .brJ32 .. | .brReg .. | .ret _ | .nop _ => some ([], [])
  | .vadd _ d _ _ _ | .vsub _ d _ _ _ | .vmul _ d _ _ _ | .vmin _ d _ _ _ | .vmax _ d _ _ _ | .vabs _ d _ _
  | .vneg _ d _ _ | .vand _ d _ _ _ | .vor _ d _ _ _ | .vxor _ d _ _ _ | .vshl _ d _ _ _ | .vshr _ d _ _ _
  | .vdiv _ d _ _ _ | .vsqrt _ d _ _ | .vadds _ d _ _ _ | .vsubs _ d _ _ _ | .vfma _ d _ _ _ _ | .vfms _ d _ _ _ _
  | .vfnma _ d _ _ _ _ | .vfnms _ d _ _ _ _ | .vcmp _ _ d _ _ _ | .vsel _ d _ _ _ _ | .vcvt _ d _ _ _
  | .vcvtz _ d _ _ _ | .vcvthi _ d _ _ _ | .vcvtzhi _ d _ _ _ | .vperm _ d _ _ _ | .vzip _ d _ _ _ | .vunzip _ d _ _ _
  | .vbcast _ d _ _ | .vins _ _ d _ _ | .twid _ d _ _ | .rand _ d _ _ _ _ => some ([.v d], [])
  | .bfly2 _ d _ _ _ _ => some ([.v d, .v (vnext d 1)], [])
  | .bfly4 _ d _ _ _ => some ([.v d, .v (vnext d 1), .v (vnext d 2), .v (vnext d 3)], [])
  | _ => none

namespace Machine

/-- The registers of the management side that hold a bounded value, as R280, R317 and R352 clamp them, the health rules of
R353 and R354, and the lane counts of R324. -/
structure Mgt.Inv (m : Mgt) : Prop where
  period : 50 ≤ m.swapperiod.toNat
  now : 50 ≤ m.swapNow.toNat
  gain : 1 ≤ m.gain.toNat
  gate : 1 ≤ m.idlegate.toNat
  cap : 800 ≤ m.powcap.toNat ∧ m.powcap.toNat ≤ 2400
  fenced : m.fencedCores ≠ [] ∨ m.fencedRouters ≠ [] → m.replace = true
  poisons : 64 < m.poisons.toNat → m.replace = true
  lanes : ∀ p : Fin 36, m.ports[p].lanes = 0 ∨ m.ports[p].lanes = 2 ∨ m.ports[p].lanes = 4

/-- The head that the next step tries, and the state in which it does: the outside names the head, or nothing else is to do and the
issue scheduler chooses it (R277, log 2). none: the next step tries no head. -/
def State.toIssue (s : State) : Option (State × CoreId × ThreadId) :=
  if !(s.f.expired ++ s.f.reached s.m).isEmpty || !s.f.urgent.isEmpty then none
  else
    match s.agenda with
    | .issue c h :: rest => some ({ s with agenda := rest }, c, h)
    | _ :: _ => none
    | [] =>
      if s.f.due.isEmpty && (s.f.aged s.m).isEmpty && !s.f.beats then s.coreToIssue.map fun c => (s, c, s.nextThread exec c)
      else none

/-- The head of a core's thread is fetched next, in state t: the device runs, and the core and the thread may issue. -/
def State.Issues (s t : State) : Prop :=
  ∃ u c h, s.toIssue = some (u, c, h) ∧ { u with core := c, th := h }.mayIssue = true ∧ t = u.attempt exec c h

/-- The line at the current thread's PC as the thread executes it (R43), where its page lets it be fetched (R316): translated,
executable, and held already, or newly come to and read. -/
structure State.Line (s : State) (e : TlbEnt) (g : Fab) (d : Line) : Prop where
  region : s.cur.pc.toNat / 64 * 64 < peerBase
  page : s.f.translate s.m s.core (s.f.core s.core).ctxId (s.cur.pc.toNat / 64 * 64) (·.exe) = some (e, g)
  exe : e.exe = true
  code : s.cur.codeOf (e.gpa (s.cur.pc.toNat / 64 * 64)) = some d ∨
    s.cur.codeOf (e.gpa (s.cur.pc.toNat / 64 * 64)) = none ∧ g.codeBad s.m (e.gpa (s.cur.pc.toNat / 64 * 64)) = false ∧
    ∃ bs, g.codeRead s.m s.core s.th e (e.gpa (s.cur.pc.toNat / 64 * 64)) = .done bs ∧ d = bytesLine bs

/-- The fabric once a thread has come to a line: what it executes there stays as it was read (R43). -/
def Fab.atLine (g : Fab) (c : CoreId) (h : ThreadId) (gpa : Nat) (d : Line) : Fab :=
  if ((g.thread c h).codeOf gpa).isSome then g
  else (g.dropReads c h).modThread c h fun t => { t with code := some (gpa, d) }

/-- Nothing earlier of the current thread holds an access to n bytes in a fabric (R103, R113, R158, R206, R208). -/
structure State.Free (s : State) (g : Fab) (tgt : Tgt) (n : Nat) : Prop where
  buffers : g.aggWait s.core (s.f.who s.core s.th) tgt n = none
  order : g.inWay s.m s.core s.th (s.f.who s.core s.th) g.ids (some tgt) n = false

/-- An access of n bytes of the current thread to its own local window: at offset off, aligned, with nothing earlier that holds
it. -/
structure State.InWindow (s : State) (ea : Word) (n : Nat) (off : Nat) : Prop where
  place : ea.toNat = locBase + off
  inside : off < 0x24000
  aligned : ea.toNat % n = 0
  free : s.Free s.f (.loc off) n

/-- An access of the current thread passes its checks: it goes to global physical address gpa on page e, and the fabric is g once
the address is translated (R148, R313). -/
def State.Checked (s : State) (r : Req) (gpa : Nat) (e : TlbEnt) (g : Fab) : Prop :=
  s.f.check s.m s.core (s.f.who s.core s.th) r = .ok (.mem gpa e, g)

/-- What a release that is part of a store or an atomic leaves, where it does not wait: k (R102, R112). rel: the head is a
release; sc: its scope, .core on the local window. -/
def State.Released (s : State) (g : Fab) (rel : Bool) (sc own : Scope) (k : Fab) : Prop :=
  (if rel then g.flush s.m s.core s.th (decide (scopeRank sc ≥ 1)) true own else .done g) = .done k

/-- The state in which the current thread goes on at the next head, in fabric g. -/
def State.on (s : State) (g : Fab) : State := { s with f := g.modThread s.core s.th Thread.adv }

/-- Two fabrics whose device and host memory read the same. -/
def Fab.sameMemory (f g : Fab) : Prop := (∀ la, f.devByte la = g.devByte la) ∧ f.host = g.host
/-- Every other thread is as before. -/
def Fab.sameThreads (f g : Fab) (c : CoreId) (h : ThreadId) : Prop :=
  ∀ d k, ¬(d = c ∧ k = h) → f.thread d k = g.thread d k

/-- A finite value times 2^K, as an integer: exact where K reaches its lowest bit. -/
def Num.scaled (K : Nat) : Num → Int
  | .fin neg m e => signed neg m * 2 ^ (e + K).toNat
  | _ => 0

/-- Pattern r of a format is num / (den · 2^K) rounded to nearest, ties to even (R77), for den > 0 and a K that reaches the format's
lowest bit: from half a unit above the largest finite value on an infinity, below it the nearest finite pattern; a value that is not
zero keeps its sign. -/
structure Fp.Rounds (F : Fp) (K : Nat) (num : Int) (den r : Nat) : Prop where
  bits : r < 2 ^ F.width
  sign : num ≠ 0 → F.neg r = decide (num < 0)
  big : (2 ^ (F.fw + 2) - 1) * 2 ^ (F.bias + K) * den ≤ num.natAbs * 2 ^ (F.fw + 1) → r % F.signBit = F.infBits
  near : num.natAbs * 2 ^ (F.fw + 1) < (2 ^ (F.fw + 2) - 1) * 2 ^ (F.bias + K) * den →
    r % F.signBit < F.infBits ∧ ∀ y, y < 2 ^ F.width → y % F.signBit < F.infBits →
      let off := fun (z : Nat) => (num - den * (F.decode z).scaled K).natAbs
      off r ≤ off y ∧ (off r = off y → (F.decode y).scaled K ≠ (F.decode r).scaled K → r % 2 = 0)

/-- Pattern r of a format is num / 2^K rounded toward zero (R84), for a K that reaches the format's lowest bit: the finite pattern of
the largest magnitude that is not above, with the sign of a value that is not zero. -/
structure Fp.Chops (F : Fp) (K : Nat) (num : Int) (r : Nat) : Prop where
  bits : r < 2 ^ F.width
  sign : num ≠ 0 → F.neg r = decide (num < 0)
  finite : r % F.signBit < F.infBits
  below : ((F.decode r).scaled K).natAbs ≤ num.natAbs
  most : ∀ y, y < 2 ^ F.width → y % F.signBit < F.infBits → ((F.decode y).scaled K).natAbs ≤ num.natAbs →
    ((F.decode y).scaled K).natAbs ≤ ((F.decode r).scaled K).natAbs

/-- A run of the machine: each state answers the next one. -/
inductive Run : State → State → Prop
  | refl (s : State) : Run s s
  | step {s t u : State} (h : step s = .next t) (r : Run t u) : Run s u

/-- A safe state: no run from it stops. -/
def State.Safe (s : State) : Prop := ∀ t, Run s t → ∃ u, step t = .next u

end Machine
end Sys2Proof
end

