-- ==== Sys2Proof/Certificates/Slice0/Obligations.lean ====
section
/-! DEFINITION. The statements for the provers. -/

open Sys2Proof Sys2Proof.Machine

/-! Decoding, fetching and the step. -/

/-- A step runs the decoded head (R32, R34, R35). Where the head that a thread issues next lies in a line that it holds or can
read, is well formed and decodes, the step is exec of the instruction, with the next PC of R32 noted. The line executed is one
version of it, as it stands or as it stood before a store to it since the group's last kernel boundary (R43; which of them is
free, log 5), and the thread keeps it; that a boundary lets a thread finish the line that it stands inside is log 5 too. -/
def Obligations.StepRunsDecodedHead : Prop :=
  (∀ (s t : State) (e : TlbEnt) (g : Fab) (d : Line) (l : CodeLine) (head tail : Nat) (i : Instr),
    s.Issues t → t.Line e g d → decodeLine (lineBytes d) = .ok l →
    l.heads[(t.cur.pc &&& 63).toNat]? = some (head, tail) → decodeHead head tail = .ok i →
    let pc := t.cur.pc
    let next := if (pc &&& 63).toNat + 1 < l.count then pc + 1 else ((pc >>> 6) + 1) <<< 6
    let kept := g.atLine t.core t.th (e.gpa (pc.toNat / 64 * 64)) d
    step s = exec i { t with f := kept.modThread t.core t.th fun x => { x with npc := next } }) ∧
  (∀ (f : Fab) (m : Mgt) (n : CtxId) (gpa : Nat),
    let old := fun (x : OldLine) =>
      m.place gpa = (if x.host then Place.host (64 * x.line) else Place.own (64 * x.line))
    let now := bytesLine (f.bytesAt m gpa 64)
    gpa % 64 = 0 →
    (f.codeLine m n gpa = now ∨ ∃ x ∈ f.past.drop (f.ctx n).since, old x ∧ f.codeLine m n gpa = x.data) ∧
    ((∀ x ∈ f.past.drop (f.ctx n).since, ¬old x) → f.codeLine m n gpa = now) ∧
    (f.boundary n).codeLine m n gpa = now) ∧
  (∀ (f : Fab) (m : Mgt) (c : CoreId) (h : ThreadId) (e : TlbEnt) (gpa : Nat) (d : Line),
    let t := f.thread c h
    (t.code = some (gpa, d) → t.codeOf gpa = some d) ∧ (t.code = none → t.codeOf gpa = none) ∧
    (m.isOther gpa = false → f.codeRead m c h e gpa = .done (lineBytes (f.codeLine m (f.core c).ctxId gpa))) ∧
    ∀ o, (f.core c).occ = some o →
      ((f.boundary o.ctx).thread c h).code = if t.pc &&& 63 = 0 then none else t.code)

/-- The traps of a fetch (R31, R33, R35, R37, R144, R316), with their TRAPADDR. R316 gives PAGE_FAULT at the PC for a failed walk
and for EXE = 0. The clauses of a line that is poisoned, out of reach, refused or awaited are the model's choice (log 20): neither
R354 nor R330 lists a fetch. -/
def Obligations.FetchTraps : Prop :=
  ∀ (s t : State), s.Issues t →
    let pc := t.cur.pc
    let va := pc.toNat / 64 * 64
    let takes := fun (g : Fab) (cause : Cause) (addr : Word) => step s = .next { t with f := g.trap t.m t.core t.th cause addr }
    let kept := fun (e : TlbEnt) (g : Fab) (d : Line) => g.atLine t.core t.th (e.gpa va) d
    let walk := t.f.translate t.m t.core (t.f.core t.core).ctxId va (·.exe)
    let faults := fun (g : Fab) => takes g .pageFault (pc.zeroExtend 64)
    (peerBase ≤ va → faults t.f) ∧
    (va < peerBase → walk = none → faults t.f) ∧
    (∀ e g, va < peerBase → walk = some (e, g) → e.exe = false → faults g) ∧
    (∀ e g, va < peerBase → walk = some (e, g) → e.exe = true → t.cur.codeOf (e.gpa va) = none →
      (g.poisoned (e.gpa va) 64 = true → faults g) ∧
      (∀ dev la, t.m.place (e.gpa va) = .other dev la → t.m.routed dev = false → faults g) ∧
      (∀ pa, t.m.place (e.gpa va) = .host pa → t.m.hostLink = false → faults g) ∧
      (g.codeBad t.m (e.gpa va) = false →
        (∀ cause, g.codeRead t.m t.core t.th e (e.gpa va) = .bad cause → takes g cause (pc.zeroExtend 64)) ∧
        ∀ k, g.codeRead t.m t.core t.th e (e.gpa va) = .wait k → step s = .next { t with f := k })) ∧
    (∀ e g d why, t.Line e g d → decodeLine (lineBytes d) = .error why →
      takes (kept e g d) .illegalLine (BitVec.ofNat 64 va)) ∧
    (∀ e g d l, t.Line e g d → decodeLine (lineBytes d) = .ok l → l.heads[(pc &&& 63).toNat]? = none →
      takes (kept e g d) .illegalLine (BitVec.ofNat 64 va)) ∧
    (∀ e g d l head tail why, t.Line e g d → decodeLine (lineBytes d) = .ok l →
      l.heads[(pc &&& 63).toNat]? = some (head, tail) → decodeHead head tail = .error why →
      takes (kept e g d) .illegalOp (BitVec.ofNat 64 va))

/-- Words that the spec writes out, from each family, and words that it rejects (R29, R36 to R40, R133, R135, R142). -/
def Obligations.SpecWordsDecode : Prop :=
  decodeHead 0x0105 0x214C = .ok (.divsReg ⟨0, false⟩ 4 5 6) ∧
  decodeHead 0x0902 0x7022 = .ok (.cmpReg ⟨0, false⟩ .ltS 3 4 1 2) ∧
  decodeHead 0x1207 0x4044C000 = .ok (.sel ⟨0, false⟩ 8 3 1 2) ∧
  decodeHead 0x1700 0x1A3779B97F4A7C15 = .ok (.liL59 ⟨0, false⟩ 3 0x23779B97F4A7C15) ∧
  decodeHead 0x1953 0x0240 = .ok (.callReg ⟨2, true⟩ 9) ∧
  decodeHead 0x1A05 0x3FFFFFC4 = .ok (.brc ⟨0, false⟩ 7 0x3FFFFE 4) ∧
  decodeHead 0x4202 0x20D20008 = .ok (.ld ⟨0, false⟩ .s32 4 3 .die .acq 8) ∧
  decodeHead 0x520A 0x28864788 = .ok (.amorCas ⟨0, false⟩ 5 2 3 4 .dev .ar .none .w64) ∧
  decodeHead 0x8A45 0x12340000 = .ok (.vsel ⟨2, false⟩ 1 2 3 4 .f32) ∧
  decodeHead 0x9604 0x39B0A000 = .ok (.vextr ⟨0, false⟩ 7 3 .s16 5) ∧
  decodeHead 0xC301 0x2219232800000000 = .ok (.mmag ⟨0, false⟩ ⟨.tile, 2, 3, 4, .fade, .k16, .k128, 5⟩) ∧
  decodeHead 0xE105 0x3240 = .ok (.cbadv ⟨0, false⟩ 3 4 true) ∧
  decodeHead 0xE505 0x10C8 = .ok (.resume ⟨0, false⟩ 2 3 4) ∧
  decodeHead 0xE901 0x2080 = .ok (.barv ⟨0, false⟩ 1 true) ∧
  decodeHead 0xEE03 0x38120000 = .ok (.ctlwr ⟨0, false⟩ 7 .fade) ∧
  (∃ e, decodeHead 0x1100 0x0004 = .error e) ∧
  (∃ e, decodeHead 0x1902 0x0840 = .error e) ∧
  (∃ e, decodeHead 0x0905 0x4800 = .error e) ∧
  decodeHead 0x0905 0 = .ok (.cmpReg ⟨0, false⟩ .geZ 0 0 0 0)

/-- Decoding the encoding of a well-formed head gives it back, with every operand at every value (R29, R36, R38, R39, R40). -/
def Obligations.HeadRoundTrip : Prop :=
  ∀ i : Instr, i.isEvent = false → i.wf = true →
    ∃ head tl tail, encode i = some (head, tl, tail) ∧ head < 2 ^ 16 ∧ tl = head / 256 % 4 ∧
      tail < 2 ^ (8 * tailBytes tl) ∧ decodeHead head tail = .ok i

/-- What the decoder reads from a head and its tail is well formed and encodes to that head and that tail: each word has one
meaning, and no two heads share a word (R36, R38 to R40). -/
def Obligations.DecodedHeadReencodes : Prop :=
  ∀ (head tail : Nat) (i : Instr), head < 2 ^ 16 → tail < 2 ^ (8 * tailBytes (head / 256 % 4)) →
    decodeHead head tail = .ok i →
    i.isEvent = false ∧ i.wf = true ∧ encode i = some (head, head / 256 % 4, tail)

/-- A line packed by R30 that satisfies R31 is read back: its count and its heads with their tails. -/
def Obligations.LineRoundTrip : Prop :=
  ∀ hs : List (Nat × Nat × Nat), hs ≠ [] →
    (∀ p ∈ hs, p.1 < 2 ^ 16 ∧ p.2.1 = p.1 / 256 % 4 ∧ p.2.2 < 2 ^ (8 * tailBytes p.2.1)) →
    2 * hs.length + (hs.map fun p => tailBytes p.2.1).sum ≤ 62 →
    (encodeLine hs).length = 64 ∧ decodeLine (encodeLine hs) = .ok ⟨hs.length, hs.map fun p => (p.1, p.2.2)⟩

/-! Reset, invariants, and the frame of a head. -/

/-- The reset values that the Reset columns of the register tables give. -/
def Obligations.ResetValues : Prop :=
  (∀ (c : CoreId) (h : ThreadId),
    (Fab.reset.thread c h).rd 0 = 0 ∧ (Fab.reset.thread c h).rdp 0 = true ∧
    (Fab.reset.thread c h).ctl.trapcause = 0 ∧ (Fab.reset.thread c h).ctl.trapaddr = 0 ∧
    (Fab.reset.thread c h).ctl.trappc = 0 ∧ (Fab.reset.thread c h).ctl.taketag = 0 ∧ (Fab.reset.thread c h).ctl.xferid = 0 ∧
    (Fab.reset.thread c h).ctl.fmta = 2 ∧ (Fab.reset.thread c h).ctl.fmtb = 2 ∧ (Fab.reset.thread c h).ctl.scla = 0 ∧
    (Fab.reset.thread c h).ctl.sclb = 0 ∧ (Fab.reset.thread c h).ctl.fade = 0x3F800000) ∧
  (∀ c : CoreId, (Fab.reset.core c).occ = none ∧ (Fab.reset.core c).agemax = 64 ∧ (Fab.reset.core c).landctl = false ∧
    (Fab.reset.core c).aggage = 512 ∧ (Fab.reset.core c).ctActive = false ∧ (Fab.reset.core c).tlb = [] ∧
    (∀ k : Fin 16, (Fab.reset.core c).cbs[k] = ⟨0, 0, 0, 0, 0, false⟩) ∧
    ∀ b : Fin 8, (Fab.reset.core c).bars[b].desc = 0 ∧ (Fab.reset.core c).trees[b].desc = 0) ∧
  (∀ k : Nat, mget [] Fab.reset.ctlb k = []) ∧
  (∀ n : CtxId, (Fab.reset.ctx n).st = .free) ∧
  Mgt.reset.swen = true ∧ Mgt.reset.swapperiod = 200 ∧ Mgt.reset.gain = 1 ∧
  Mgt.reset.gten = true ∧ Mgt.reset.idlegate = 20 ∧ Mgt.reset.runest = 400 ∧
  Mgt.reset.tmaster = false ∧ Mgt.reset.domid = 0 ∧ Mgt.reset.devnum = 0x3FFF ∧
  Mgt.reset.lock = false ∧ Mgt.reset.tsrc = 0xFF ∧ Mgt.reset.hops = 0xFF ∧ Mgt.reset.ptmofs = 0 ∧ Mgt.reset.atomReq = false ∧
  (∀ p : PortId, Mgt.reset.ports[p].en = false ∧ Mgt.reset.ports[p].capoff = 0 ∧ Mgt.reset.ports[p].st = .off ∧
    Mgt.reset.ports[p].lanes = 0 ∧ Mgt.reset.ports[p].cap = 0 ∧ Mgt.reset.ports[p].sw = false ∧
    Mgt.reset.ports[p].peer = 0 ∧ Mgt.reset.ports[p].replays = 0) ∧
  (∀ w : Fin 16, Mgt.reset.ingwin[w] = ⟨false, false, 0, 0, 0, 0⟩) ∧
  (∀ n : CtxId, mget 0 Mgt.reset.collslots n.val = 0) ∧
  (∀ d : Nat, mget ⟨false, 0, 0⟩ Mgt.reset.desttab d = ⟨false, 0, 0⟩) ∧
  (∀ d j : Nat, Mgt.reset.hashMask d j = BitVec.allOnes 144) ∧
  Fab.reset.tlbinv.busy = false ∧ Fab.reset.tlbinv.lost = false ∧ Fab.reset.tlbinv.ctx = 0 ∧ Fab.reset.tlbinv.done = false ∧
  Mgt.reset.preemptwait = 100 ∧ Fab.reset.ctxbase = 0 ∧ Fab.reset.ctxrsp = ⟨0, 0, false, 0⟩ ∧ Fab.reset.trapq = [] ∧
  Mgt.reset.powcap = 2400 ∧ Mgt.reset.dev = .off ∧ Mgt.reset.coresLeft = 2304 ∧ Mgt.reset.fencedRouters = [] ∧
  Mgt.reset.poisons = 0 ∧ Mgt.reset.poisonlog = []

/-- The management invariant at power-on. -/
def Obligations.MgtInvAtReset : Prop := State.reset.m.Inv

/-- Every step keeps the management invariant (R280, R324, R352, R354, R358). The model's choice: a register stores the bound that an
out-of-range write is taken as, so that it reads back as that bound (log 29). -/
def Obligations.MgtInvKept : Prop :=
  ∀ s t : State, s.m.Inv → step s = .next t → t.m.Inv

/-- No state stops the machine: a step always answers a next state. -/
def Obligations.EveryStepAnswers : Prop := ∀ s : State, ∃ t, step s = .next t

/-- What comes before a head's own effect, for every head (R34, R152, R330). That the refused answer comes before the awaited one
is the model's choice (log 20). -/
def Obligations.HeadFrame : Prop :=
  ∀ (i : Instr) (g : Guard) (s : State), i.guard = some g → s.cur.alive →
    (s.cur.rdp g.gp = g.gn → exec i s = .next (s.withCur { s.cur with pc := s.cur.npc })) ∧
    (s.cur.rdp g.gp ≠ g.gn →
      let bad := s.cur.pend.findSome? fun p => match p.st with
        | .refused cause => if i.reads.contains p.dst then some (p, cause) else none
        | _ => none
      (∀ p cause, bad = some (p, cause) → exec i s = .next { s with f := s.f.refuse s.m s.core s.th p cause }) ∧
      (bad = none → (∃ p ∈ s.cur.pend, (p.dst ∈ i.reads ∨ p.dst ∈ i.dests) ∧ (p.st = .waiting ∨ p.st = .resend)) →
        exec i s = .next s))

/-- Reads and writes of registers (R55, R59). -/
def Obligations.RegisterFile : Prop :=
  ∀ t : Thread,
    (t.rd 0 = 0 ∧ ∀ x, t.wr 0 x = t) ∧
    (t.rdp 0 = true ∧ ∀ b, t.wrp 0 b = t) ∧
    (∀ (r : SReg) (x : Word), r ≠ 0 → (t.wr r x).rd r = x) ∧
    (∀ (r q : SReg) (x : Word), q ≠ r → (t.wr r x).rd q = t.rd q) ∧
    (∀ (p : PReg) (b : Bool), p ≠ 0 → (t.wrp p b).rdp p = b) ∧
    (∀ (p q : PReg) (b : Bool), q ≠ p → (t.wrp p b).rdp q = t.rdp q) ∧
    (∀ (r : VReg) (x : Line), (t.wrv r x).rdv r = x) ∧
    (∀ (r q : VReg) (x : Line), q ≠ r → (t.wrv r x).rdv q = t.rdv q)

/-- The frame of the heads of Instr.writes: what is left unchanged where the head does not trap. The mark of a refused delivery is
the model's choice (log 20). -/
def Obligations.FrameRegisterHeads : Prop :=
  ∀ (i : Instr) (ds : List Dst) (ps : List PReg) (s t : State),
    i.writes = some (ds, ps) → exec i s = .next t → t.cur.st = s.cur.st →
    (t = s ∨ t = s.withCur t.cur) ∧
    (∀ r, Dst.s r ∉ ds → t.cur.rd r = s.cur.rd r) ∧ (∀ r, Dst.v r ∉ ds → t.cur.rdv r = s.cur.rdv r) ∧
    (∀ p, p ∉ ps → t.cur.rdp p = s.cur.rdp p) ∧
    t.cur.ctl = s.cur.ctl ∧ t.cur.ls = s.cur.ls ∧ t.cur.firing = s.cur.firing ∧
    (t.cur.pend.map fun p => { p with overwritten := false }) = (s.cur.pend.map fun p => { p with overwritten := false }) ∧
    (∀ c h, ¬(c = s.core ∧ h = s.th) → t.f.thread c h = s.f.thread c h) ∧
    (∀ gpa, t.f.bytesAt t.m gpa 1 = s.f.bytesAt s.m gpa 1) ∧
    (∀ c off, (t.f.core c).locBytes off 1 = (s.f.core c).locBytes off 1)

/-! Scalar instructions (07_isa_scalar). -/

/-- The results of R131 but for the divides; MULH and MULHZ from the product of 128 bits. -/
def Obligations.ScalarArithmetic : Prop :=
  ∀ (s : State) (g : Guard) (d a b : SReg) (imm : BitVec 22),
    let done := fun (x : Word) => Host.Outcome.next (φ := Fault) (ρ := Refusal) (s.withCur (s.cur.wr d x).adv)
    let high := fun (x y : BitVec 128) => ((x * y) >>> 64).truncate 64
    let x := s.cur.rd a
    (let y := s.cur.rd b
     s.Runs g [.s a, .s b] [.s d] →
      exec (.addReg g d a b) s = done (x + y) ∧ exec (.subReg g d a b) s = done (x - y) ∧
      exec (.mulReg g d a b) s = done (x * y) ∧
      exec (.mulhReg g d a b) s = done (high (x.signExtend 128) (y.signExtend 128)) ∧
      exec (.mulhzReg g d a b) s = done (high (x.zeroExtend 128) (y.zeroExtend 128)) ∧
      exec (.andReg g d a b) s = done (x &&& y) ∧ exec (.orReg g d a b) s = done (x ||| y) ∧
      exec (.xorReg g d a b) s = done (x ^^^ y) ∧ exec (.andnReg g d a b) s = done (x &&& ~~~y) ∧
      exec (.shlReg g d a b) s = done (x <<< (y &&& 63)) ∧ exec (.shrzReg g d a b) s = done (x >>> (y &&& 63)) ∧
      exec (.shrsReg g d a b) s = done (x.sshiftRight' (y &&& 63))) ∧
    (let y := imm.signExtend 64
     s.Runs g [.s a] [.s d] →
      exec (.addImm g d a imm) s = done (x + y) ∧ exec (.subImm g d a imm) s = done (x - y) ∧
      exec (.mulImm g d a imm) s = done (x * y) ∧
      exec (.mulhImm g d a imm) s = done (high (x.signExtend 128) (y.signExtend 128)) ∧
      exec (.mulhzImm g d a imm) s = done (high (x.zeroExtend 128) (y.zeroExtend 128)) ∧
      exec (.andImm g d a imm) s = done (x &&& y) ∧ exec (.orImm g d a imm) s = done (x ||| y) ∧
      exec (.xorImm g d a imm) s = done (x ^^^ y) ∧ exec (.andnImm g d a imm) s = done (x &&& ~~~y) ∧
      exec (.shlImm g d a imm) s = done (x <<< (y &&& 63)) ∧ exec (.shrzImm g d a imm) s = done (x >>> (y &&& 63)) ∧
      exec (.shrsImm g d a imm) s = done (x.sshiftRight' (y &&& 63)))

/-- The results of R131 for the divides: the unsigned forms on naturals, the signed ones on 64-bit two's complement. -/
def Obligations.ScalarDivides : Prop :=
  ∀ (s : State) (g : Guard) (d a b : SReg) (imm : BitVec 22),
    let done := fun (x : Word) => Host.Outcome.next (φ := Fault) (ρ := Refusal) (s.withCur (s.cur.wr d x).adv)
    let x := s.cur.rd a
    let z := fun (n : Nat) => BitVec.ofNat 64 n
    (let y := s.cur.rd b
     s.Runs g [.s a, .s b] [.s d] → y ≠ 0 →
      exec (.divsReg g d a b) s = done (x.sdiv y) ∧ exec (.remsReg g d a b) s = done (x.srem y) ∧
      exec (.divzReg g d a b) s = done (z (x.toNat / y.toNat)) ∧ exec (.remzReg g d a b) s = done (z (x.toNat % y.toNat))) ∧
    (let y := imm.signExtend 64
     s.Runs g [.s a] [.s d] → y ≠ 0 →
      exec (.divsImm g d a imm) s = done (x.sdiv y) ∧ exec (.remsImm g d a imm) s = done (x.srem y) ∧
      exec (.divzImm g d a imm) s = done (z (x.toNat / y.toNat)) ∧ exec (.remzImm g d a imm) s = done (z (x.toNat % y.toNat)))

/-- Division by zero (R132). The trap is Fab.trap at the head's own PC; TrapEntryAndReturn says what it does. -/
def Obligations.DivideByZeroTraps : Prop :=
  ∀ (s : State) (g : Guard) (d a b : SReg),
    let trap := Host.Outcome.next (φ := Fault) (ρ := Refusal) { s with f := s.f.trap s.m s.core s.th .divZero 0 }
    (s.Runs g [.s a, .s b] [.s d] → s.cur.rd b = 0 →
      exec (.divsReg g d a b) s = trap ∧ exec (.remsReg g d a b) s = trap ∧ exec (.divzReg g d a b) s = trap ∧
      exec (.remzReg g d a b) s = trap) ∧
    (s.Runs g [.s a] [.s d] →
      exec (.divsImm g d a 0) s = trap ∧ exec (.remsImm g d a 0) s = trap ∧ exec (.divzImm g d a 0) s = trap ∧
      exec (.remzImm g d a 0) s = trap)

/-- R134: the conditions on integers, the writes, and the rule's own examples. -/
def Obligations.CompareResults : Prop :=
  (∀ (s : State) (g : Guard) (c : Cond) (pd pe : PReg) (a b : SReg) (imm : BitVec 21),
    let holds := fun (x y : Word) => match c with
      | .eq => decide (x = y)
      | .ne => decide (x ≠ y)
      | .ltS => decide (x.toInt < y.toInt)
      | .geS => decide (x.toInt ≥ y.toInt)
      | .ltZ => decide (x.toNat < y.toNat)
      | .geZ => decide (x.toNat ≥ y.toNat)
      | .tst => decide (x &&& y ≠ 0)
      | .ntst => decide (x &&& y = 0)
    let done := fun (v : Bool) =>
      Host.Outcome.next (φ := Fault) (ρ := Refusal) (s.withCur ((s.cur.wrp pd v).wrp pe (!v)).adv)
    (s.Runs g [.s a, .s b] [] → exec (.cmpReg g c pd pe a b) s = done (holds (s.cur.rd a) (s.cur.rd b))) ∧
    (s.Runs g [.s a] [] → exec (.cmpImm g c pd pe a imm) s = done (holds (s.cur.rd a) (imm.signExtend 64)))) ∧
  (∀ (s : State) (g : Guard) (a : SReg), s.Runs g [.s a] [] →
    exec (.cmpImm g .ltZ 1 2 a (-1)) s =
      .next (s.withCur ((s.cur.wrp 1 (decide ((s.cur.rd a).toNat < 2 ^ 64 - 1))).wrp 2
        (decide ((s.cur.rd a).toNat ≥ 2 ^ 64 - 1))).adv)) ∧
  (∀ (s : State) (g : Guard), s.Runs g [.s 1, .s 2] [] → s.cur.rd 1 = -1 → s.cur.rd 2 = 1 →
    exec (.cmpReg g .ltS 3 4 1 2) s = .next (s.withCur ((s.cur.wrp 3 true).wrp 4 false).adv) ∧
    exec (.cmpReg g .ltZ 3 4 1 2) s = .next (s.withCur ((s.cur.wrp 3 false).wrp 4 true).adv))

/-- R135 and R136: the effects, the heads without a guard, and the guard of SEL. -/
def Obligations.PredicatesAndSelect : Prop :=
  ∀ (s : State) (g : Guard) (pd pa pb : PReg) (d a b : SReg),
    let go := fun (t : Thread) => Host.Outcome.next (φ := Fault) (ρ := Refusal) (s.withCur t.adv)
    let t := s.cur
    (s.Runs g [] [] →
      exec (.pand g pd pa pb) s = go (t.wrp pd (t.rdp pa && t.rdp pb)) ∧
      exec (.por g pd pa pb) s = go (t.wrp pd (t.rdp pa || t.rdp pb)) ∧
      exec (.pxor g pd pa pb) s = go (t.wrp pd (xor (t.rdp pa) (t.rdp pb))) ∧
      exec (.pandn g pd pa pb) s = go (t.wrp pd (t.rdp pa && !t.rdp pb)) ∧
      exec (.pnot g pd pa) s = go (t.wrp pd (!t.rdp pa)) ∧
      exec (.por g 5 0 0) s = go (t.wrp 5 true) ∧ exec (.pnot g 5 0) s = go (t.wrp 5 false)) ∧
    (s.Runs g [] [.s d] → ∃ x : Word, exec (.prd g d) s = go (t.wr d x) ∧ ∀ i : Fin 64,
      x.getLsbD i = if h : i.val < 8 then t.rdp ⟨i.val, h⟩ else false) ∧
    (s.Runs g [.s a] [] → ∃ u : Thread, exec (.pwr g a) s = go u ∧ u = { t with p := u.p } ∧
      ∀ p : PReg, u.rdp p = if p = 0 then true else (t.rd a).getLsbD p.val) ∧
    (s.Runs g [.s a, .s b] [.s d] → exec (.sel g d pd a b) s = go (t.wr d (if t.rdp pd = true then t.rd a else t.rd b))) ∧
    (s.cur.alive → s.cur.rdp g.gp = g.gn → ∃ u, exec (.sel g d pd a b) s = .next u ∧ u.cur.rd d = s.cur.rd d ∧
      u = s.withCur { s.cur with pc := s.cur.npc }) ∧
    (let pl := fun (x : SReg) => pd.val * 2 ^ 13 + pa.val * 2 ^ 10 + pb.val * 2 ^ 7 + x.val * 4
     let n : Guard := ⟨0, false⟩
     let bad := fun (head tail : Nat) => ∃ e, decodeHead head tail = .error e
     decodeHead 0x1100 (pl 0) = .ok (.pand n pd pa pb) ∧ decodeHead 0x1101 (pl 0) = .ok (.por n pd pa pb) ∧
     decodeHead 0x1102 (pl 0) = .ok (.pxor n pd pa pb) ∧ decodeHead 0x1103 (pl 0) = .ok (.pandn n pd pa pb) ∧
     (pb = 0 → decodeHead 0x1104 (pl 0) = .ok (.pnot n pd pa)) ∧
     (pd = 0 → pa = 0 → pb = 0 → decodeHead 0x1105 (pl d) = .ok (.prd n d) ∧ decodeHead 0x1106 (pl a) = .ok (.pwr n a)) ∧
     (d ≠ 0 → bad 0x1100 (pl d) ∧ bad 0x1101 (pl d) ∧ bad 0x1102 (pl d) ∧ bad 0x1103 (pl d) ∧ bad 0x1104 (pl d)) ∧
     (pb ≠ 0 → bad 0x1104 (pl d)) ∧ (pd ≠ 0 ∨ pa ≠ 0 ∨ pb ≠ 0 → bad 0x1105 (pl d) ∧ bad 0x1106 (pl d)) ∧
     ∃ tail, encode (.sel n d pd a b) = some (0x1207, 2, tail) ∧ tail < 2 ^ 32 ∧
       decodeHead 0x1207 tail = .ok (.sel n d pd a b))

/-- R137 and R138. -/
def Obligations.ConstantsAndAddresses : Prop :=
  ∀ (s : State) (g : Guard) (d a : SReg) (i27 : BitVec 27) (i59 : BitVec 59) (k : BitVec 6),
    let done := fun (x : Word) => Host.Outcome.next (φ := Fault) (ρ := Refusal) (s.withCur (s.cur.wr d x).adv)
    (s.Runs g [] [.s d] →
      exec (.liL27 g d i27) s = done (BitVec.ofInt 64 i27.toInt) ∧ exec (.liL59 g d i59) s = done (BitVec.ofInt 64 i59.toInt) ∧
      exec (.addpc g d i27) s = done (BitVec.ofInt 64 ((s.cur.pc.toNat / 64 * 64 : Nat) + i27.toInt))) ∧
    (s.Runs g [.s a] [.s d] →
      exec (.lih g d a k) s = done (BitVec.ofNat 64 (k.toNat * 2 ^ 58 + (s.cur.rd a).toNat % 2 ^ 58)))

/-- R139 to R141. -/
def Obligations.CountsExtensionsMinMax : Prop :=
  ∀ (s : State) (g : Guard) (d a b : SReg) (k : BitVec 6),
    let done := fun (x : Word) => Host.Outcome.next (φ := Fault) (ρ := Refusal) (s.withCur (s.cur.wr d x).adv)
    let x := s.cur.rd a
    let y := s.cur.rd b
    let n := k.toNat + 1
    (s.Runs g [.s a] [.s d] →
      (∃ c, exec (.clz g d a) s = done (BitVec.ofNat 64 c) ∧ c ≤ 64 ∧ (∀ j, j < c → x.getLsbD (63 - j) = false) ∧
        (c < 64 → x.getLsbD (63 - c) = true)) ∧
      (∃ c, exec (.ctz g d a) s = done (BitVec.ofNat 64 c) ∧ c ≤ 64 ∧ (∀ j, j < c → x.getLsbD j = false) ∧
        (c < 64 → x.getLsbD c = true)) ∧
      exec (.popc g d a) s = done (BitVec.ofNat 64 ((List.range 64).countP fun j => x.getLsbD j)) ∧
      exec (.sext g d a k) s = done (BitVec.ofInt 64 (BitVec.ofNat n x.toNat).toInt) ∧
      exec (.zext g d a k) s = done (BitVec.ofNat 64 (x.toNat % 2 ^ n))) ∧
    (s.Runs g [.s a, .s b] [.s d] →
      exec (.min g false d a b) s = done (if x.toInt ≤ y.toInt then x else y) ∧
      exec (.max g false d a b) s = done (if x.toInt ≤ y.toInt then y else x) ∧
      exec (.min g true d a b) s = done (if x.toNat ≤ y.toNat then x else y) ∧
      exec (.max g true d a b) s = done (if x.toNat ≤ y.toNat then y else x))

/-- R142 and R143, with the targets of R33. -/
def Obligations.ControlFlow : Prop :=
  ∀ (s : State) (g : Guard) (o11 : BitVec 11) (o22 : BitVec 22) (o27 : BitVec 27) (hx : BitVec 5) (b : SReg),
    let goes := fun (t : Thread) (p : Pc) => Host.Outcome.next (φ := Fault) (ρ := Refusal) (s.withCur { t with pc := p })
    let t := s.cur
    let target := fun (off : Int) => BitVec.ofInt 57 (((t.pc.toNat / 64 : Nat) + off) * 64 + (hx.toNat : Nat))
    let call := fun (p : Pc) => goes (t.wr 30 (t.npc.zeroExtend 64)) p
    (s.Runs g [] [] → exec (.brJ16 g o11 hx) s = goes t (target o11.toInt) ∧ exec (.brJ32 g o27 hx) s = goes t (target o27.toInt)) ∧
    (s.Runs g [] [.s 30] →
      exec (.callJ16 g o11 hx) s = call (target o11.toInt) ∧ exec (.callJ32 g o27 hx) s = call (target o27.toInt)) ∧
    (s.Runs g [.s 30] [] → exec (.ret g) s = goes t ((t.rd 30).truncate 57)) ∧
    (s.Runs g [.s b] [] → exec (.brReg g b) s = goes t ((t.rd b).truncate 57)) ∧
    (s.Runs g [.s b] [.s 30] → exec (.callReg g b) s = call ((t.rd b).truncate 57)) ∧
    (s.Runs g [.s b] [.s b] →
      exec (.brc g b o22 hx) s =
        (let n := t.rd b - 1
         if n = 0 then goes (t.wr b n) t.npc else goes (t.wr b n) (target o22.toInt)))

/-! Memory instructions (08_isa_memory). -/

/-- The checks of R148 in their order, at an access r of an issuer w. The model's choice (log 19): an offset from 0x24000 is refused
with the region, the route with check 3, the peer offset and the lease after the alignment, the poison last. -/
def Obligations.AccessChecks : Prop :=
  ∀ (f : Fab) (m : Mgt) (c : CoreId) (w : Who) (r : Req),
    let traps := fun (e : Cause) => f.check m c w r = .error e
    let ea := r.ea.toNat
    (2 ^ 57 ≤ ea → traps .pageFault) ∧
    (0x01FFFF0400000000 ≤ ea → ea < locBase → traps .pageFault) ∧
    (ea < peerBase → r.mem = false → traps .pageFault) ∧
    (peerBase ≤ ea → ea < 0x01FFFF0400000000 → r.peer = false → traps .pageFault) ∧
    (locBase ≤ ea → ea < 2 ^ 57 → r.loc = false → traps .pageFault) ∧
    (locBase + 0x24000 ≤ ea → traps .pageFault) ∧
    (ea % r.align ≠ 0 →
      (ea < peerBase → r.mem = true → traps .misaligned) ∧
      (peerBase ≤ ea → ea < 0x01FFFF0400000000 → r.peer = true → traps .misaligned) ∧
      (locBase ≤ ea → ea < locBase + 0x24000 → r.loc = true → traps .misaligned)) ∧
    (ea % r.align = 0 → ea < peerBase → r.mem = true →
      (f.translate m c w.ctx ea (·.grants r.want) = none → traps .pageFault) ∧
      ∀ e g, f.translate m c w.ctx ea (·.grants r.want) = some (e, g) →
        (e.grants r.want = false → traps .pageFault) ∧
        (∀ dev la, m.place (e.gpa ea) = .other dev la → m.routed dev = false → traps .pageFault) ∧
        (e.grants r.want = true → (∃ la, m.place (e.gpa ea) = .own la) →
          (e.stable = true → r.want ≠ .load → traps .writeStable) ∧
          ((e.stable = false ∨ r.want = .load) →
            (r.narrowFadd = true → (f.ctx w.ctx).det = true → traps .detTarget) ∧
            ((r.narrowFadd = false ∨ (f.ctx w.ctx).det = false) →
              (r.check6 = true → recorded m (f.ctx w.ctx) e = true → (f.ctx w.ctx).conflicts w (e.gpa ea) r.comm = true →
                traps .conflict) ∧
              ((r.check6 = false ∨ recorded m (f.ctx w.ctx) e = false ∨ (f.ctx w.ctx).conflicts w (e.gpa ea) r.comm = false) →
                let bad := f.poisoned (e.gpa ea) r.len = true ∧ ¬(r.want = .store ∧ r.len % 64 = 0)
                (bad → traps .pageFault) ∧ (¬bad → f.check m c w r = .ok (.mem (e.gpa ea) e, g))))))) ∧
    (locBase ≤ ea → ea < locBase + 0x24000 → r.loc = true → ea % r.align = 0 →
      (r.narrowFadd = true → (f.ctx w.ctx).det = true → traps .detTarget) ∧
      ((r.narrowFadd = false ∨ (f.ctx w.ctx).det = false) → f.check m c w r = .ok (.loc (ea - locBase), f))) ∧
    (peerBase ≤ ea → ea < 0x01FFFF0400000000 → r.peer = true → ea % r.align = 0 →
      let off := (ea - peerBase) % 2 ^ 18
      let vx := (ea - peerBase) / 2 ^ 18 % 256
      let vy := (ea - peerBase) / 2 ^ 26
      ((0x20000 ≤ off ∨ (f.ctx w.ctx).inLease vx vy = false) → traps .pageFault) ∧
      (off < 0x20000 → (f.ctx w.ctx).inLease vx vy = true →
        (r.narrowFadd = true → (f.ctx w.ctx).det = true → traps .detTarget) ∧
        ((r.narrowFadd = false ∨ (f.ctx w.ctx).det = false) → f.check m c w r = .ok (.peer vx vy off, f))))

/-- LD and VLD of the local window (R152, R182). -/
def Obligations.LocalLoads : Prop :=
  ∀ (s : State) (g : Guard) (ty : LdTy) (d a : SReg) (v : VReg) (sc : Scope) (o : Order) (imm : BitVec 17) (off : Nat),
    let ea := s.cur.rd a + imm.signExtend 64
    let x := fun (n : Nat) => leNum ((s.f.core s.core).locBytes off n)
    (s.Runs g [.s a] [.s d] → s.InWindow ea (ldSize ty) off →
      exec (.ld g ty d a sc o imm) s =
        .next (s.withCur (s.cur.wr d (match ty with
          | .s8 => (BitVec.ofNat 8 (x 1)).signExtend 64
          | .s16 => (BitVec.ofNat 16 (x 2)).signExtend 64
          | .s32 => (BitVec.ofNat 32 (x 4)).signExtend 64
          | .s64 => BitVec.ofNat 64 (x 8)
          | .z8 => BitVec.ofNat 64 (x 1)
          | .z16 => BitVec.ofNat 64 (x 2)
          | .z32 => BitVec.ofNat 64 (x 4))).adv)) ∧
    (s.Runs g [.s a] [.v v] → s.InWindow ea 64 off →
      exec (.vld g v a imm) s = .next (s.withCur (s.cur.wrv v (BitVec.ofNat 512 (x 64))).adv))

/-- LD and VLD of memory (R152, R182). The model's choice: a recorded page's load is performed at its issue (log 4), a kept copy
of a stable line may serve (log 10), a refused delivery to the same register is written no more (log 20). -/
def Obligations.MemoryLoadsAreOwed : Prop :=
  ∀ (s : State) (g : Guard) (ty : LdTy) (d a : SReg) (v : VReg) (sc : Scope) (o : Order) (imm : BitVec 17) (gpa : Nat)
    (e : TlbEnt) (k : Fab),
    let ea := s.cur.rd a + imm.signExtend 64
    let n := (s.f.who s.core s.th).ctx
    let issued := fun (i : Instr) (p : Pend) =>
      ∃ t : State, exec i s = .next t ∧ t.f.sameMemory k ∧ t.f.sameThreads s.f s.core s.th ∧
        (let old := s.cur.pend.map (Pend.written p.dst)
         let owed := t.cur = { s.cur with pc := s.cur.npc, pend := old ++ [p] }
         let got := fun (x : Line) => t.cur = ({ s.cur with pend := old.filter fun q => q.id ≠ k.ids }.wrDst p.dst x).adv
         (recorded s.m (k.ctx n) e = true →
           got (p.op.value (Fab.bytesAt { k with ids := k.ids + 1 } s.m gpa p.size))) ∧
         (recorded s.m (k.ctx n) e = false →
           (s.m.isOther gpa = false → owed ∧ t.f.due = k.due ++ [.homeSliceAnswer s.core s.th p.id]) ∧
           ∀ dev la, s.m.place gpa = .other dev la →
             match k.remoteCopy s.m s.core n e gpa with
             | none => owed ∧ t.f.due = k.due ∧
               t.f.sent = k.sent ++ [⟨.load s.core s.th p.id, dev, gpa / 64, s.m.portFor dev (gpa / 64)⟩]
             | some x => got (p.op.value (((lineBytes x).drop (gpa % 64)).take p.size))))
    (s.Runs g [.s a] [.s d] → s.Checked (memReq ea (ldSize ty) .load) gpa e k → s.Free k (.mem gpa e) (ldSize ty) →
      issued (.ld g ty d a sc o imm)
        ⟨k.ids, .s d, ea, .mem gpa e, .load ty, sc, o, .none, s.m.isOther gpa, false, .waiting, false⟩) ∧
    (s.Runs g [.s a] [.v v] → s.Checked (memReq ea 64 .load) gpa e k → s.Free k (.mem gpa e) 64 →
      issued (.vld g v a imm)
        ⟨k.ids, .v v, ea, .mem gpa e, .vload, .core, .rlx, .none, s.m.isOther gpa, false, .waiting, false⟩)

/-- HOME_SLICE_ANSWER (R152, R163, R342). The model's choice: a register that a later head has written is not overwritten (log 20),
and what becomes of a parked routine's atomic (log 13). -/
def Obligations.HomeSliceAnswers : Prop :=
  ∀ (s : State) (c : CoreId) (h : ThreadId) (id : Nat) (p : Pend),
    let w := s.f.who c h
    let exe := exec (.homeSliceAnswer c h id) s
    ((s.f.thread c h).owed id false = none → (∀ q ∈ (s.f.thread c h).pend, q.id = id → q.st ≠ .resend) →
      (∀ x ∈ s.f.loose, x.p.id ≠ id) → (∀ k, s.f.armedAt s.m c h k id = none) → exe = .next s) ∧
    (∀ x gpa e, (s.f.thread c h).owed id false = none → (∀ q ∈ (s.f.thread c h).pend, q.id = id → q.st ≠ .resend) →
      s.f.loose = [x] → x.p.id = id → x.p.remote = false → x.p.tgt = .mem gpa e →
      s.f.poisoned gpa x.p.size = false → s.m.hostLost gpa = false → ∃ t, exe = .next t ∧ t.f.loose = [] ∧
        t.f.sameMemory (s.f.storeOwn s.m x.who gpa e (x.p.op.run x.p.ea (s.f.bytesAt s.m gpa x.p.size)).bytes (x.p.use == .comm))) ∧
    ((s.f.thread c h).owed id false = some p → p.held = false →
      let rest := { s.f.thread c h with pend := (s.f.thread c h).pend.filter fun q => q.id ≠ p.id }
      let wrote := fun (x : Line) => if p.overwritten then rest else rest.wrDst p.dst x
      let refused := ∃ t, exe = .next t ∧ t.f.sameMemory s.f ∧ t.f.sameThreads s.f c h ∧
        t.f.thread c h = { s.f.thread c h with pend := (s.f.thread c h).pend.map fun q =>
          if q.id = id ∧ q.st.open = true then { q with st := .refused .pageFault } else q }
      (∀ gpa e, p.tgt = .mem gpa e →
        let lost := ∃ pa, s.m.place gpa = .host pa ∧ s.m.hostLink = false
        (s.f.poisoned gpa p.size = true ∨ lost → refused) ∧
        (s.f.poisoned gpa p.size = false → ¬lost →
          (p.op.isLoad = true → e.stable = false → ∃ t, exe = .next t ∧
            t.f.thread c h = wrote (p.op.value (s.f.bytesAt s.m gpa p.size)) ∧
            t.f.sameMemory s.f ∧ t.f.sameThreads s.f c h) ∧
          (p.op.isLoad = false → ∃ t, exe = .next t ∧
            t.f.thread c h = wrote (BitVec.ofNat 512 (p.op.run p.ea (s.f.bytesAt s.m gpa p.size)).old.toNat) ∧
            t.f.sameMemory (s.f.storeOwn s.m w gpa e (p.op.run p.ea (s.f.bytesAt s.m gpa p.size)).bytes (p.use == .comm)) ∧
            t.f.sameThreads s.f c h))) ∧
      (∀ vx vy off, p.tgt = .peer vx vy off →
        (s.f.find w.ctx vx vy = none → refused) ∧
        ∀ d, s.f.find w.ctx vx vy = some d →
          let stays := s.f.closed d = true ∨ (s.f.core d).locked off p.size = true
          (stays → exe = .next { s with f := s.f.holdAt d (.homeSliceAnswer c h id) }) ∧
          (¬stays → ∃ t, exe = .next t ∧ t.f.sameMemory s.f ∧ t.f.sameThreads s.f c h ∧
            (let r := p.op.run p.ea ((s.f.core d).locBytes off p.size)
             t.f.thread c h = wrote (r.old.zeroExtend 512) ∧
             ∀ j, j < r.bytes.length → off + j < 0x20000 → (t.f.core d).locBytes (off + j) 1 = [r.bytes.getD j 0]))))

/-- ST and VST (R149, R152, R182). -/
def Obligations.StoreHeads : Prop :=
  ∀ (s : State) (g : Guard) (ty : StTy) (d a : SReg) (v : VReg) (sc : Scope) (o : Order) (imm : BitVec 17) (off gpa : Nat)
    (e : TlbEnt) (k0 k : Fab),
    let ea := s.cur.rd a + imm.signExtend 64
    let n := match ty with | .z8 => 1 | .z16 => 2 | .z32 => 4 | .z64 => 8
    let low := leBytes n (s.cur.rd d).toNat
    let whole := leBytes 64 (s.cur.rdv v).toNat
    let w := s.f.who s.core s.th
    let local' := fun (n : Nat) => ea.toNat = locBase + off ∧ off < 0x24000 ∧ ea.toNat % n = 0
    (s.Runs g [.s d, .s a] [] →
      (local' n → s.Released s.f (o == .rel) sc .core k → s.Free k (.loc off) n →
        exec (.st g ty d a sc o imm) s = .next
          (if (k.core s.core).locked off n = true then { s with f := k }
           else s.on (k.modCore s.core fun x => x.locWrite off low))) ∧
      (s.Checked (memReq ea n .store) gpa e k0 → s.Released k0 (o == .rel) sc sc k → s.Free k (.mem gpa e) n →
        exec (.st g ty d a sc o imm) s = .next (s.on (k.put s.m w ea gpa e low 0x11 ty.code none)))) ∧
    (s.Runs g [.v v, .s a] [] →
      (local' 64 → s.Free s.f (.loc off) 64 →
        exec (.vst g v a imm) s = .next
          (if (s.f.core s.core).locked off 64 = true then s else s.on (s.f.modCore s.core fun x => x.locWrite off whole))) ∧
      (s.Checked (memReq ea 64 .store) gpa e k → s.Free k (.mem gpa e) 64 →
        exec (.vst g v a imm) s = .next (s.on (k.put s.m w ea gpa e whole 0x26 1 none))))

/-- What Core.locWrite and Fab.put store (R4, R67, R105, R154, R265, R337). -/
def Obligations.StoredBytes : Prop :=
  (∀ (x : Core) (off : Nat) (bs : List Byte), off < 0x24000 → (off < 0x20000 → off + bs.length ≤ 0x20000) →
    (x.locWrite off bs).locBytes off bs.length = bs ∧
    (∀ a, ¬(off ≤ a ∧ a < off + bs.length) → (x.locWrite off bs).locBytes a 1 = x.locBytes a 1) ∧
    (x.locWrite off bs).shadow = x.shadow ∧ (x.locWrite off bs).threads = x.threads) ∧
  (∀ (f : Fab) (m : Mgt) (w : Who) (ea : Word) (gpa : Nat) (e : TlbEnt) (bs : List Byte) (major minor : Nat)
    (op : Option (Nat × Nat)),
    let g := f.put m w ea gpa e bs major minor op
    let posted := g.rwrites = f.rwrites ++ [⟨f.ids, w, ea, gpa, bs, major, minor, none, op, none, none⟩]
    (∀ c h, g.thread c h = f.thread c h) ∧
    (∀ la, m.place gpa = .own la →
      (∀ i, i < bs.length → f.owned (m.gpa (la + i)) = false → g.devByte (la + i) = bs.getD i 0) ∧
      (∀ a, ¬(la ≤ a ∧ a < la + bs.length) ∨ f.owned (m.gpa a) = true → g.devByte a = f.devByte a) ∧ g.host = f.host ∧
      g.rwrites = f.rwrites) ∧
    (∀ pa, m.place gpa = .host pa → posted ∧ (∀ la, g.devByte la = f.devByte la) ∧
      (m.hostLink = false → g.host = f.host) ∧
      (m.hostLink = true →
        (∀ i, i < bs.length → f.owned (gpa + i) = false → peek g.host (pa + i) = bs.getD i 0) ∧
        ∀ a, ¬(pa ≤ a ∧ a < pa + bs.length ∧ f.owned (gpa + (a - pa)) = false) → peek g.host a = peek f.host a)) ∧
    (∀ dev la, m.place gpa = .other dev la → g.sameMemory f ∧ posted))

/-- STW (R153, R154, R246, R247). -/
def Obligations.StreamingStore : Prop :=
  ∀ (s : State) (g : Guard) (v : VReg) (a : SReg) (imm : BitVec 17) (gpa : Nat) (e : TlbEnt) (k : Fab),
    let ea := s.cur.rd a + imm.signExtend 64
    let w := s.f.who s.core s.th
    let i : Instr := .stw g v a imm
    s.Runs g [.v v, .s a] [] → s.Checked { memReq ea 64 .store with loc := false } gpa e k → s.Free k (.mem gpa e) 64 →
      (∀ la, s.m.place gpa = .own la →
        let n := stackOf la
        let x := s.f.ctx w.ctx
        let enters := fun (p : WPlace) => ∃ t : State, exec i s = .next t ∧ t.cur = { s.cur with pc := s.cur.npc } ∧
          t.f.host = k.host ∧ t.f.sameThreads s.f s.core s.th ∧
          t.f.wl = k.wl ++
            [⟨k.ids, w, n, la / 64, ea.toNat, k.maskLine s.m la (s.cur.rdv v), e.wlc, p, none, false, false, false⟩] ∧
          (∀ j, j < 64 → (k.maskLine s.m la (s.cur.rdv v)).extractLsb' (8 * j) 8 =
            if k.owned (s.m.gpa (la + j)) = true then k.devByte (la + j) else (s.cur.rdv v).extractLsb' (8 * j) 8) ∧
          (∀ j, j < 64 → t.f.devByte (64 * (la / 64) + j) = (k.maskLine s.m la (s.cur.rdv v)).extractLsb' (8 * j) 8) ∧
          (∀ b, b / 64 ≠ la / 64 → t.f.devByte b = k.devByte b) ∧
          (t.f.ctx w.ctx).allow[n] = (if p = .queue ∧ x.nolimit[n] = false then x.allow[n] - 1 else x.allow[n])
        let may := x.nolimit[n] = true ∨ 0 < x.allow[n]
        (may → enters .queue) ∧
        (¬may → s.f.inBudget w.ctx n < Config.budgetQueue → enters .budget) ∧
        (¬may → Config.budgetQueue ≤ s.f.inBudget w.ctx n →
          exec i s = .next { s with f := if s.cur.ctl.wbud then k.trap s.m s.core s.th .writeBudget ea else k })) ∧
      ((∀ la, s.m.place gpa ≠ .own la) →
        exec i s = .next (s.on (k.put s.m w ea gpa e (leBytes 64 (s.cur.rdv v).toNat) 0x11 4 none)))

/-- XST (R120, R155). -/
def Obligations.ExchangeStore : Prop :=
  ∀ (s : State) (g : Guard) (wd : Wd) (x cc o : SReg) (imm : BitVec 17), s.Runs g [.s x, .s cc, .s o] [] →
    let tgt := s.cur.rd cc
    let off := s.cur.rd o + imm.signExtend 64
    let n := match wd with | .w32 => 4 | .w64 => 8
    let w := s.f.who s.core s.th
    let vx := tgt.toNat % 256
    let vy := tgt.toNat / 256 % 256
    let i : Instr := .xst g wd x cc o imm
    let traps := fun (e : Cause) (addr : Word) => exec i s = .next { s with f := s.f.trap s.m s.core s.th e addr }
    (2 ^ 16 ≤ tgt.toNat → traps .pageFault tgt) ∧
    (tgt.toNat < 2 ^ 16 →
      ((s.f.ctx w.ctx).inLease vx vy = false → traps .pageFault tgt) ∧
      ((s.f.ctx w.ctx).inLease vx vy = true →
        (off.toNat < 0x20000 ∨ 0x23FFF < off.toNat → traps .pageFault off) ∧
        (0x20000 ≤ off.toNat → off.toNat ≤ 0x23FFF →
          (off.toNat % n ≠ 0 → traps .misaligned off) ∧
          (off.toNat % n = 0 →
            ((s.f.core s.core).exchange = none → traps .noExchange off) ∧
            ∀ b, (s.f.core s.core).exchange = some b →
              let waits := (s.f.core s.core).logFull = true ∨ s.f.inWay s.m s.core s.th w s.f.ids none 0 = true
              (waits → exec i s = .next s) ∧
              (¬waits → exec i s = .next (s.on (Fab.aggregate { s.f with ids := s.f.ids + 1 } s.core
                ⟨s.f.ids, w, off, 0, false, .xst vx vy off.toNat n (BitVec.ofNat 64 ((s.cur.rd x).toNat % 2 ^ (8 * n)))
                  ((s.f.core s.core).xphase + b.arr.toNat), .core vx vy, .buffered, 0, false, []⟩)))))))

/-- LDT (R156) and TAKE (R62, R159). How a slot's load comes to land or to fault is the model's choice (log 6). -/
def Obligations.LandingSlots : Prop :=
  ∀ (s : State) (g : Guard) (ty : LdTy) (k : Tag) (d e a : SReg) (pd : PReg) (imm : BitVec 22),
    let ea := s.cur.rd a + imm.signExtend 64
    let slot := s.cur.ls.slots[k]
    (s.Runs g [.s a] [] →
      (slot.st ≠ .free → exec (.ldt g ty k a imm) s = .next { s with
        f := s.f.trapFull s.m s.core s.th (causeCode .landingBusy) slot.addr s.cur.pc (some (BitVec.ofNat 5 k.val)) none none }) ∧
      (slot.st = .free →
        ∃ t, exec (.ldt g ty k a imm) s = .next t ∧
          t.cur = { s.cur with
            pc := s.cur.npc
            ls := { s.cur.ls with
              slots := s.cur.ls.slots.set k { Slot.empty with id := s.f.ids, st := .armed, addr := ea, ty := ty } } } ∧
          t.f.sameMemory s.f ∧ t.f.sameThreads s.f s.core s.th ∧ t.f.sent = s.f.sent ∧
          (let to' := Fab.tgtOf { s.f with ids := s.f.ids + 1 } s.m s.core (s.f.who s.core s.th).ctx ea
           let away := ∃ gpa e dev la, to' = some (.mem gpa e) ∧ s.m.place gpa = .other dev la
           (away → t.f.due = s.f.due ++ [.homeSliceAnswer s.core s.th s.f.ids]) ∧
           (¬away → t.f.due = s.f.due ++
             [.landingSlotArrival s.core s.th k ⟨s.f.ids, 0⟩, .landingSlotFault s.core s.th k ⟨s.f.ids, none⟩])))) ∧
    (s.Runs g [] [] →
      let det := (s.f.ctx (s.f.who s.core s.th).ctx).det
      let i : Instr := .take g d e pd
      ((∀ j : Tag, s.cur.ls.slots[j].st = .free) → exec i s = .next (s.withCur (s.cur.wrp pd false).adv)) ∧
      ((∃ j : Tag, s.cur.ls.slots[j].st ≠ .free) →
        (s.cur.ls.pick det = none → exec i s = .next s) ∧
        ∀ j, s.cur.ls.pick det = some j →
          (s.cur.ls.slots[j].st ≠ .faulted →
            (s.cur.settled [.s d, .s e] → exec i s = .next (s.withCur
              ((({ s.cur with ls := ⟨s.cur.ls.slots.set j Slot.empty, s.cur.ls.order.erase j⟩ }.wr d s.cur.ls.slots[j].val).wr e
                (BitVec.ofNat 64 j.val)).wrp pd true).adv)) ∧
            (¬s.cur.settled [.s d, .s e] → exec i s = .next s)) ∧
          (∀ cause, s.cur.ls.slots[j].st = .faulted → s.cur.ls.slots[j].cause = some cause →
            exec i s = .next { s with
              f := s.f.trapFull s.m s.core s.th (causeCode cause) s.cur.ls.slots[j].addr s.cur.pc (some (BitVec.ofNat 5 j.val))
                none (some (j, s.cur.pc)) })) ∧
      (det = false → s.cur.ls.pick det = s.cur.ls.order.head?) ∧
      (∀ j, det = true → s.cur.ls.slots[j].st ≠ .free → s.cur.ls.slots[j].st ≠ .armed →
        (∀ l : Tag, l < j → s.cur.ls.slots[l].st = .free) → s.cur.ls.pick det = some j))

/-- R161 and R162: what atomRun and casRun leave and return, for a location of w bits that holds the bytes bs; R90 to R92 for a
window. -/
def Obligations.AtomicResults : Prop :=
  ∀ (wd : Wd) (bs : List Byte) (b c : Word),
    let w := match wd with | .w32 => 32 | .w64 => 64
    bs.length = w / 8 →
    let x : BitVec w := BitVec.ofNat w (leNum bs)
    let y : BitVec w := b.truncate w
    let leaves := fun (r : AtomRes) (z : BitVec w) => r.bytes = leBytes (w / 8) z.toNat ∧ r.old.toNat = x.toNat
    leaves (atomRun .add wd false bs b) (x + y) ∧ leaves (atomRun .and wd false bs b) (x &&& y) ∧
    leaves (atomRun .or wd false bs b) (x ||| y) ∧ leaves (atomRun .xor wd false bs b) (x ^^^ y) ∧
    leaves (atomRun .minS wd false bs b) (if x.toInt < y.toInt then x else y) ∧
    leaves (atomRun .maxS wd false bs b) (if x.toInt < y.toInt then y else x) ∧
    leaves (atomRun .minZ wd false bs b) (if x.toNat < y.toNat then x else y) ∧
    leaves (atomRun .maxZ wd false bs b) (if x.toNat < y.toNat then y else x) ∧
    leaves (atomRun .swap wd false bs b) y ∧
    (wd = .w32 → (atomRun .fadd wd false bs b).old.toNat = x.toNat ∧
      (atomRun .fadd wd false bs b).bytes = leBytes 4 (f32.addBits x.toNat y.toNat)) ∧
    leaves (casRun wd bs b c) (if x = c.truncate w then y else x) ∧
    ∀ ws : List Byte, ws.length = 64 →
      let r := atomRun .fadd .w32 true ws b
      let old : BitVec 512 := BitVec.ofNat 512 (leNum ws)
      let new : BitVec 512 := BitVec.ofNat 512 (leNum r.bytes)
      let v := (old.extractLsb' 0 448).toInt
      let f := b.toNat % 2 ^ 32
      r.bytes.length = 64 ∧
      (f % f32.signBit < f32.infBits →
        let u := v + (f32.decode f).scaled 256
        new.extractLsb' 0 448 = BitVec.ofInt 448 u ∧ new.extractLsb' 449 63 = old.extractLsb' 449 63 ∧
        new.getLsbD 448 = (old.getLsbD 448 || decide (u < -(2 : Int) ^ 447) || decide (2 ^ 447 ≤ u)) ∧
        r.ovf = (new.getLsbD 448 && !old.getLsbD 448)) ∧
      (f32.infBits ≤ f % f32.signBit → new = old ||| (1#512 <<< 449) ∧ r.ovf = false) ∧
      (old.getLsbD 449 = true → r.old = if old.getLsbD 448 then 0x7FC00003 else 0x7FC00002) ∧
      (old.getLsbD 449 = false → old.getLsbD 448 = true → r.old = 0x7FC00001) ∧
      (old.getLsbD 449 = false → old.getLsbD 448 = false → f32.Rounds 256 v 1 r.old.toNat ∧ (v = 0 → r.old = 0))

/-- Atomics of the issuing core (R161 to R165). That ADDW waits for matrix operands in its own 64 bytes alone is the model's choice
(log 41). -/
def Obligations.LocalAtomics : Prop :=
  ∀ (s : State) (g : Guard) (op : AOp) (wd : Wd) (d a b c : SReg) (sc : Scope) (o : Order) (u : AUse) (off : Nat) (k0 k : Fab),
    let ea := s.cur.rd a
    let w := s.f.who s.core s.th
    let win := onWindow op ea
    let n := (atomReq ea op wd u false).len
    let x := k.core s.core
    let wrote := fun (bs : List Byte) => k.modCore s.core fun x => x.locWrite off bs
    let ends := fun (i : Instr) (r : AtomRes) => exec i s =
      (let t := (wrote r.bytes).modThread s.core s.th fun t => t.wr d r.old
       if r.ovf && (k.thread s.core s.th).ctl.wovf then .next { s with f := t.trapNext s.m s.core s.th .windowOverflow ea }
       else .next (s.on t))
    let order := fun (n : Nat) => k.inWay s.m s.core s.th w k.ids (if u = .unp then none else some (.loc off)) n = false ∧
      (k.core s.core).locked off n = false
    let buffers := fun (n : Nat) => k.aggWait s.core w (.loc off) n = none
    (s.Runs g [.s a, .s b] [] → s.f.check s.m s.core w (atomReq ea op wd u true) = .ok (.loc off, k0) →
      s.Released k0 (o == .rel) sc .core k → (u ≠ .unp → buffers n) → order n →
      exec (.amo g op a b sc o u wd) s = .next (s.on (wrote (atomRun op wd win (x.locBytes off n) (s.cur.rd b)).bytes))) ∧
    (s.Runs g [.s a, .s b] [.s d] → s.f.check s.m s.core w (atomReq ea op wd u false) = .ok (.loc off, k0) →
      s.Released k0 (o == .rel || o == .ar) sc .core k → buffers n → order n →
      ends (.amor g op d a b sc o u wd) (atomRun op wd win (x.locBytes off n) (s.cur.rd b))) ∧
    (s.Runs g [.s a, .s b, .s c] [.s d] → s.f.check s.m s.core w (atomReq ea .swap wd u false) = .ok (.loc off, k0) →
      s.Released k0 (o == .rel || o == .ar) sc .core k → buffers (wdSize wd) → order (wdSize wd) →
      ends (.amorCas g d a b c sc o u wd) (casRun wd (x.locBytes off (wdSize wd)) (s.cur.rd b) (s.cur.rd c))) ∧
    (s.Runs g [.s a, .s b] [] →
      let traps := fun (e : Cause) => exec (.addw g a b) s = .next { s with f := s.f.trap s.m s.core s.th e ea }
      (ea.toNat < locBase ∨ locBase + 0x20000 ≤ ea.toNat → traps .pageFault) ∧
      (ea.toNat = locBase + off → off < 0x20000 →
        (ea.toNat % 64 ≠ 0 → traps .misaligned) ∧
        (∀ k, ea.toNat % 64 = 0 → s.f.aggWait s.core w (.loc off) 64 = some k → exec (.addw g a b) s = .next { s with f := k }) ∧
        (ea.toNat % 64 = 0 → s.Free s.f (.loc off) 64 → (s.f.core s.core).locked off 64 = false →
          let r := atomRun .fadd .w32 true ((s.f.core s.core).locBytes off 64) (s.cur.rd b)
          let t := s.f.modCore s.core fun x => x.locWrite off r.bytes
          exec (.addw g a b) s =
            if r.ovf && s.cur.ctl.wovf then .next { s with f := t.trapNext s.m s.core s.th .windowOverflow ea }
            else .next (s.on t))))

/-- Atomics that leave the core (R109, R114, R163, R164, R326). ATOMIC_PATH before the release is the model's choice (log 20). -/
def Obligations.AtomicsThatLeave : Prop :=
  ∀ (s : State) (g : Guard) (op : AOp) (wd : Wd) (d a b c : SReg) (sc : Scope) (o : Order) (u : AUse) (tgt : Tgt) (k0 k : Fab),
    let ea := s.cur.rd a
    let w := s.f.who s.core s.th
    let n := (atomReq ea op wd u false).len
    let away := fun (cls : Nat) => match tgt with
      | .loc _ => false
      | .peer .. => true
      | .mem gpa _ => pathCarries s.m gpa cls
    let other := match tgt with | .mem gpa _ => s.m.isOther gpa | _ => false
    let buffers := fun (n : Nat) => k.aggWait s.core w tgt n = none
    let order := fun (n : Nat) => k.inWay s.m s.core s.th w k.ids (if u = .unp then none else some tgt) n = false
    (s.Runs g [.s a, .s b] [] → s.f.check s.m s.core w (atomReq ea op wd u true) = .ok (tgt, k0) → (∀ off, tgt ≠ .loc off) →
      s.Released k0 (o == .rel) sc sc k → (o = .rel → u ≠ .unp → buffers n) → order n →
      (away (classBit op false) = true → (o ≠ .rel → (k.core s.core).logFull = false) →
        let e : Elem := ⟨k.ids, w, ea, (match tgt with | .mem gpa _ => gpa | _ => 0),
          (match tgt with | .mem _ e => recorded s.m (s.f.ctx w.ctx) e | _ => false), .amo op wd (s.cur.rd b) u,
          (match tgt with | .peer vx vy _ => .core vx vy | .mem gpa e => destOf s.m e gpa | .loc _ => .core 0 0),
          if o = .rel then .flight else .buffered, (match tgt with | .mem _ e => e.wlc | _ => 0),
          (match tgt with | .mem gpa _ => pathCarries s.m gpa 3 | _ => true), []⟩
        exec (.amo g op a b sc o u wd) s = .next (s.on
          (if o = .rel then
             { k with ids := k.ids + 1, elems := k.elems ++ [e], due := k.due ++ [.aggregationElementApply k.ids false] }
           else Fab.aggregate { k with ids := k.ids + 1 } s.core e))) ∧
      (away (classBit op false) = false → (k.core s.core).logFull = false → s.f.find w.ctx w.vx w.vy = some s.core →
        (k.core s.core).holds w.fid = true → (∀ y ∈ (k.core s.core).flog, (k.core s.core).holds y.who.fid = true) →
        ∃ (t : State) (y : LogEntry), exec (.amo g op a b sc o u wd) s = .next t ∧ t.cur = { s.cur with pc := s.cur.npc } ∧
          t.f.sameMemory k ∧ (t.f.core s.core).flog = (k.core s.core).flog ++ [y] ∧ y.who = w ∧ y.addr = ea ∧
          y.cause = .atomicPath ∧ y.operand = s.cur.rd b)) ∧
    (s.Runs g [.s a, .s b] [.s d] → s.f.check s.m s.core w (atomReq ea op wd u false) = .ok (tgt, k0) → (∀ off, tgt ≠ .loc off) →
      (away (classBit op (onWindow op ea)) = false →
        exec (.amor g op d a b sc o u wd) s = .next { s with f := k0.trap s.m s.core s.th .atomicPath ea }) ∧
      (away (classBit op (onWindow op ea)) = true → s.Released k0 (o == .rel || o == .ar) sc sc k → buffers n → order n →
        let hold := onWindow op ea && (k.thread s.core s.th).ctl.wovf
        let t := k.owe s.m s.core s.th ⟨k.ids, .s d, ea, tgt, .amor op wd (s.cur.rd b), sc, o, u, other, hold, .waiting, false⟩
        exec (.amor g op d a b sc o u wd) s = .next (if hold then { s with f := t } else s.on t))) ∧
    (s.Runs g [.s a, .s b, .s c] [.s d] → s.f.check s.m s.core w (atomReq ea .swap wd u false) = .ok (tgt, k0) →
      (∀ off, tgt ≠ .loc off) →
      (away 0 = false →
        exec (.amorCas g d a b c sc o u wd) s = .next { s with f := k0.trap s.m s.core s.th .atomicPath ea }) ∧
      (away 0 = true → s.Released k0 (o == .rel || o == .ar) sc sc k → buffers (wdSize wd) → order (wdSize wd) →
        exec (.amorCas g d a b c sc o u wd) s = .next (s.on (k.owe s.m s.core s.th
          ⟨k.ids, .s d, ea, tgt, .cas wd (s.cur.rd b) (s.cur.rd c), sc, o, u, other, false, .waiting, false⟩))))

/-- FENCE, RFLUSH and WDRAIN (R166 to R168, R248). -/
def Obligations.FencesAndDrains : Prop :=
  ∀ (s : State) (g : Guard) (sc : Scope) (o : Order), s.Runs g [] [] →
    let w := s.f.who s.core s.th
    let acq := o == .acq || o == .ar
    let rel := o == .rel || o == .ar
    let loads := s.cur.owes = true ∨ (∃ x ∈ s.f.loose, x.who.fid ∈ s.cur.fids) ∨
      ∃ e ∈ (s.f.core s.core).mq, e.who.fid ∈ s.cur.fids ∧ e.fills = true
    let clear := acq = true → s.f.ownAtoms s.core s.th = none ∧ ¬loads
    let own := fun (e : Elem) => ∃ p ∈ e.parts, p.2.1.fid ∈ s.cur.fids
    let spills := fun (t : State) => ∃ e ∈ (t.f.core s.core).mq, e.who.fid ∈ s.cur.fids ∧ e.done = false ∧ e.lines ≠ []
    ((∀ k, acq = true → s.f.ownAtoms s.core s.th = some k → exec (.fence g sc o) s = .next { s with f := k }) ∧
     (acq = true → s.f.ownAtoms s.core s.th = none → loads → exec (.fence g sc o) s = .next s) ∧
     (∀ k, clear → (if rel then s.f.flush s.m s.core s.th (decide (scopeRank sc ≥ 1)) true sc else .done s.f) = .done k →
        exec (.fence g sc o) s = .next (s.on k)) ∧
     (∀ k, clear → rel = true → s.f.flush s.m s.core s.th (decide (scopeRank sc ≥ 1)) true sc = .stop k →
        exec (.fence g sc o) s = .next { s with f := k })) ∧
    ((∀ p ∈ s.cur.pend, ∀ c, p.st ≠ .refused c) → (∀ e ∈ (s.f.core s.core).flog, e.who.fid ≠ w.fid) →
      let k := s.f.sendAll s.core
      ((∀ e ∈ k.elems, ¬own e) → exec (.rflush g) s = .next (s.on k)) ∧
      ((∃ e ∈ k.elems, own e) → exec (.rflush g) s = .next { s with f := k })) ∧
    (∀ ids, s.cur.wdrain = some (true, ids) →
      ((∀ e ∈ s.f.wl, e.id ∉ ids) → exec (.wdrain g) s = .next (s.withCur { s.cur with wdrain := none, pc := s.cur.npc })) ∧
      ((∃ e ∈ s.f.wl, e.id ∈ ids) → exec (.wdrain g) s = .next s)) ∧
    ((∀ ids, s.cur.wdrain ≠ some (true, ids)) → ∃ t, exec (.wdrain g) s = .next t ∧ t.cur.pc = s.cur.pc ∧ t.f.host = s.f.host ∧
      (s.cur.wdrain = none → ∀ e ∈ s.f.wl, e.who.ctx = w.ctx → e.place = .budget → e.id < s.f.ids →
        (∀ x ∈ s.f.wl, x.place = .unit → x.id ≠ e.id) → { e with place := .queue } ∈ t.f.wl) ∧
      (∀ e ∈ t.f.wl, e.place = .unit → e.mid ≠ none → e.who.fid ∈ s.cur.fids → e.who.ctx ≠ w.ctx) ∧
      (spills t → t.cur.wdrain = some (false, [])) ∧
      (¬spills t → ∃ ids, t.cur.wdrain = some (true, ids) ∧
          (∀ e ∈ t.f.wl, e.who.ctx = w.ctx → e.place = .queue → e.id ∈ ids) ∧
          ∀ n ∈ ids, ∃ e ∈ t.f.wl, e.id = n ∧ e.who.ctx = w.ctx ∧ e.place = .queue))

/-! Vector and transform instructions (09_isa_vector). -/

/-- R174 to R177 on lanes. -/
def Obligations.VectorLanes : Prop :=
  ∀ (s : State) (g : Guard) (d a b c : VReg) (ty : Ty) (cond : VCond),
    let w := ty.width
    let at' := fun (x : Line) (j : Nat) => (x.extractLsb' (w * j) w).toNat
    let A := s.cur.rdv a
    let B := s.cur.rdv b
    let C := s.cur.rdv c
    let holds := fun (i : Instr) (op : Nat → Nat) =>
      ∃ v, exec i s = .next (s.withCur (s.cur.wrv d v).adv) ∧ ∀ j, j < 512 / w → at' v j = op j % 2 ^ w
    let un := fun (i : Instr) (op : Nat → Nat) => holds i fun j => op (at' A j)
    let bin := fun (i : Instr) (op : Nat → Nat → Nat) => holds i fun j => op (at' A j) (at' B j)
    let tri := fun (i : Instr) (op : Nat → Nat → Nat → Nat) => holds i fun j => op (at' A j) (at' B j) (at' C j)
    let whole := fun (i : Instr) (v : Line) => exec i s = .next (s.withCur (s.cur.wrv d v).adv)
    (s.Runs g [.v a] [.v d] →
      un (.vabs g d a ty) (vAbsElem ty) ∧ un (.vneg g d a ty) (vNegElem ty) ∧ un (.vsqrt g d a ty) (vSqrtElem ty)) ∧
    (s.Runs g [.v a, .v b] [.v d] →
      bin (.vadd g d a b ty) (vAddElem ty false) ∧ bin (.vsub g d a b ty) (vAddElem ty true) ∧
      bin (.vmul g d a b ty) (vMulElem ty) ∧ bin (.vmin g d a b ty) (vMinElem ty false) ∧
      bin (.vmax g d a b ty) (vMinElem ty true) ∧ bin (.vshl g d a b ty) (vShlElem ty) ∧
      bin (.vshr g d a b ty) (vShrElem ty) ∧ bin (.vdiv g d a b ty) (vDivElem ty) ∧
      bin (.vadds g d a b ty) (vSatElem ty false) ∧ bin (.vsubs g d a b ty) (vSatElem ty true) ∧
      whole (.vand g d a b ty) (A &&& B) ∧ whole (.vor g d a b ty) (A ||| B) ∧ whole (.vxor g d a b ty) (A ^^^ B) ∧
      bin (.vcmp g cond d a b ty) fun x y => if vCmpHolds ty cond x y then 2 ^ w - 1 else 0) ∧
    (s.Runs g [.v a, .v b, .v c] [.v d] →
      tri (.vfma g d a b c ty) (vFmaElem ty false false) ∧ tri (.vfms g d a b c ty) (vFmaElem ty false true) ∧
      tri (.vfnma g d a b c ty) (vFmaElem ty true false) ∧ tri (.vfnms g d a b c ty) (vFmaElem ty true true) ∧
      tri (.vsel g d a b c ty) fun x y z => if z.testBit (w - 1) then x else y)

/-- The element operations of R174 to R176. In the second half V x is the value of pattern x in units of 2^-K (FormatsRoundTrip),
and Fp.Rounds says that a pattern is an exact value rounded once. -/
def Obligations.VectorElements : Prop :=
  ((∀ (ty : Ty) (x y : BitVec ty.width), ty.isI = true →
     let a := x.toNat
     let b := y.toNat
     let v := fun (z : BitVec ty.width) => if ty.isSigned then z.toInt else (z.toNat : Int)
     let clamp := fun (z : Int) =>
       if ty.isSigned then max (-(2 : Int) ^ (ty.width - 1)) (min (2 ^ (ty.width - 1) - 1) z) else max 0 (min (2 ^ ty.width - 1) z)
     vAddElem ty false a b = (x + y).toNat ∧ vAddElem ty true a b = (x - y).toNat ∧ vMulElem ty a b = (x * y).toNat ∧
     vNegElem ty a = (-x).toNat ∧ vAbsElem ty a = (if v x < 0 then -x else x).toNat ∧
     vMinElem ty false a b = (if v x < v y then a else b) ∧ vMinElem ty true a b = (if v x < v y then b else a) ∧
     vShlElem ty a b = (if ty.width ≤ b then 0 else (x <<< b).toNat) ∧
     vShrElem ty a b = (if ty.isSigned then (x.sshiftRight b).toNat else (x >>> b).toNat) ∧
     vSatElem ty false a b = (BitVec.ofInt ty.width (clamp (v x + v y))).toNat ∧
     vSatElem ty true a b = (BitVec.ofInt ty.width (clamp (v x - v y))).toNat ∧
     (vCmpHolds ty .eq a b = true ↔ x = y) ∧ (vCmpHolds ty .ne a b = true ↔ x ≠ y) ∧
     (vCmpHolds ty .lt a b = true ↔ v x < v y) ∧ (vCmpHolds ty .le a b = true ↔ v x ≤ v y) ∧
     vCmpHolds ty .uno a b = false) ∧
   (∀ (ty : Ty) (F : Fp) (a b c : Nat), tyFp ty = some F → a < 2 ^ F.width → b < 2 ^ F.width → c < 2 ^ F.width →
     let quiet := fun (x : Nat) => x ||| 2 ^ (F.fw - 1)
     (F.isNan a = true →
       vAddElem ty false a b = quiet a ∧ vAddElem ty true a b = quiet a ∧ vMulElem ty a b = quiet a ∧
       vDivElem ty a b = quiet a ∧ vMinElem ty false a b = quiet a ∧ vMinElem ty true a b = quiet a ∧
       vSqrtElem ty a = quiet a ∧ (∀ n p, vFmaElem ty n p a b c = quiet a) ∧
       vCmpHolds ty .eq a b = false ∧ vCmpHolds ty .lt a b = false ∧ vCmpHolds ty .le a b = false ∧
       vCmpHolds ty .ne a b = true ∧ vCmpHolds ty .uno a b = true) ∧
     (F.isNan a = false → F.isNan b = true →
       vAddElem ty false a b = quiet b ∧ vAddElem ty true a b = quiet b ∧ vMulElem ty a b = quiet b ∧
       vDivElem ty a b = quiet b ∧ vMinElem ty false a b = quiet b ∧ vMinElem ty true a b = quiet b ∧
       ∀ n p, vFmaElem ty n p a b c = quiet b) ∧
     (F.isNan a = false → F.isNan b = false → F.isNan c = true → ∀ n p, vFmaElem ty n p a b c = quiet c) ∧
     vAbsElem ty a = a % 2 ^ (F.width - 1) ∧ vNegElem ty a = a ^^^ 2 ^ (F.width - 1) ∧
     vMinElem ty false 0 F.signBit = F.signBit ∧ vMinElem ty true F.signBit 0 = 0 ∧
     vAddElem ty true F.infBits F.infBits = F.nanBits ∧ vMulElem ty 0 F.infBits = F.nanBits ∧ vDivElem ty 0 0 = F.nanBits)) ∧
  ((∀ (ty : Ty) (F : Fp) (a b c : Nat), tyFp ty = some F → a < 2 ^ F.width → b < 2 ^ F.width → c < 2 ^ F.width →
     let K := F.bias + F.fw
     let V := fun (x : Nat) => (F.decode x).scaled K
     let fin := fun (x : Nat) => x % F.signBit < F.infBits
     let inf := fun (x : Nat) => x % F.signBit = F.infBits
     let sgn := fun (s : Bool) => if s then F.signBit else 0
     let both := xor (F.neg a) (F.neg b)
     (fin a → fin b →
       F.Rounds K (V a + V b) 1 (vAddElem ty false a b) ∧ F.Rounds K (V a - V b) 1 (vAddElem ty true a b) ∧
       (V a + V b = 0 → vAddElem ty false a b = sgn (decide (a = F.signBit) && decide (b = F.signBit))) ∧
       (V a - V b = 0 → vAddElem ty true a b = sgn (decide (a = F.signBit) && decide (b = 0))) ∧
       F.Rounds (2 * K) (V a * V b) 1 (vMulElem ty a b) ∧ (V a * V b = 0 → vMulElem ty a b = sgn both) ∧
       (V b ≠ 0 → F.Rounds K (V a * (V b).sign * 2 ^ K) (V b).natAbs (vDivElem ty a b) ∧ (V a = 0 → vDivElem ty a b = sgn both)) ∧
       (V a ≠ 0 → V b = 0 → vDivElem ty a b = sgn both + F.infBits) ∧
       vMinElem ty false a b = (if V a < V b ∨ V a = V b ∧ F.neg a = true then a else b) ∧
       vMinElem ty true a b = (if V a < V b ∨ V a = V b ∧ F.neg a = true then b else a) ∧
       vCmpHolds ty .eq a b = decide (V a = V b) ∧ vCmpHolds ty .ne a b = decide (V a ≠ V b) ∧
       vCmpHolds ty .lt a b = decide (V a < V b) ∧ vCmpHolds ty .le a b = decide (V a ≤ V b) ∧
       (fin c → ∀ np na : Bool,
         let p := (if np then -(V a * V b) else V a * V b)
         let z := (if na then -V c else V c)
         F.Rounds (2 * K) (p + z * 2 ^ K) 1 (vFmaElem ty np na a b c) ∧
         (p + z * 2 ^ K = 0 → vFmaElem ty np na a b c =
           sgn (decide (p = 0) && xor both np && xor (F.neg c) na)))) ∧
     (fin a →
       (V a = 0 → vSqrtElem ty a = a) ∧ (V a < 0 → vSqrtElem ty a = F.nanBits) ∧
       (0 < V a → fin (vSqrtElem ty a) ∧ F.neg (vSqrtElem ty a) = false ∧ ∀ y, y < F.infBits →
         (y < vSqrtElem ty a → (V y + V (vSqrtElem ty a)) ^ 2 ≤ 4 * V a * 2 ^ K) ∧
         (vSqrtElem ty a < y → 4 * V a * 2 ^ K ≤ (V y + V (vSqrtElem ty a)) ^ 2))) ∧
     (inf a → fin b →
       vAddElem ty false a b = a ∧ vAddElem ty false b a = a ∧ vDivElem ty a b = sgn both + F.infBits ∧
       vDivElem ty b a = sgn both ∧ vMulElem ty a b = if V b = 0 then F.nanBits else sgn both + F.infBits) ∧
     (inf a → inf b →
       vAddElem ty false a b = (if a = b then a else F.nanBits) ∧ vMulElem ty a b = sgn both + F.infBits ∧
       vDivElem ty a b = F.nanBits) ∧
     (vSqrtElem ty F.infBits = F.infBits ∧ vSqrtElem ty (F.signBit + F.infBits) = F.nanBits)) ∧
   (∀ (ty lt : Ty) (F : Fp) (a b : Nat), (ty, lt, F) = (.c32, .f32, f32) ∨ (ty, lt, F) = (.c16, .f16, f16) →
     a < 2 ^ (2 * F.width) → b < 2 ^ (2 * F.width) →
     let K := F.bias + F.fw
     let V := fun (x : Nat) => (F.decode x).scaled K
     let re := fun (x : Nat) => x % 2 ^ F.width
     let im := fun (x : Nat) => x / 2 ^ F.width
     let fin := fun (x : Nat) => re x % F.signBit < F.infBits ∧ im x % F.signBit < F.infBits
     (∀ minus, re (vAddElem ty minus a b) = vAddElem lt minus (re a) (re b) ∧
       im (vAddElem ty minus a b) = vAddElem lt minus (im a) (im b)) ∧
     re (vNegElem ty a) = vNegElem lt (re a) ∧ im (vNegElem ty a) = vNegElem lt (im a) ∧
     (fin a → fin b →
       F.Rounds (2 * K) (V (re a) * V (re b) - V (im a) * V (im b)) 1 (re (vMulElem ty a b)) ∧
       F.Rounds (2 * K) (V (re a) * V (im b) + V (im a) * V (re b)) 1 (im (vMulElem ty a b)))))

/-- Decode and Round of the IEEE and the tapered formats (R76, R77, R80 to R84): the round trip, the values, the tables of R81 in
units of 2^-8 and of R82 in units of 2^-12, and rounding said through the values. -/
def Obligations.FormatsRoundTrip : Prop :=
  (∀ F ∈ [f32, f16, b16],
     (∀ x, x < 2 ^ F.width → F.isNan x = false → F.round .near (F.decode x) = x ∧ F.round .zero (F.decode x) = x) ∧
     (∀ d, F.round d .nan = F.nanBits) ∧
     (∀ d neg mag exp, F.round d (.fin neg mag exp) < 2 ^ F.width ∧ F.isNan (F.round d (.fin neg mag exp)) = false) ∧
     (∀ neg mag (exp : Nat), 2 ^ (F.bias + 1) ≤ mag * 2 ^ exp →
       F.round .near (.fin neg mag exp) = (if neg then F.signBit else 0) + F.infBits ∧
       F.round .zero (.fin neg mag exp) = (if neg then F.signBit else 0) + F.infBits - 1)) ∧
  ((∀ F ∈ [f32, f16, b16], ∀ x, x < 2 ^ F.width →
     let frac := x % 2 ^ F.fw
     let ex := x / 2 ^ F.fw % 2 ^ F.ew
     let neg := decide (2 ^ (F.width - 1) ≤ x)
     (ex = 2 ^ F.ew - 1 → F.decode x = if frac = 0 then .inf neg else .nan) ∧
     (ex ≠ 2 ^ F.ew - 1 → ∃ m e, F.decode x = .fin neg m e ∧
       (F.decode x).scaled (F.bias + F.fw - 1) =
         (if neg then -1 else 1) * ((if ex = 0 then frac else (2 ^ F.fw + frac) * 2 ^ (ex - 1) : Nat) : Int))) ∧
   (∀ n, n = 6 ∨ n = 8 → tapDecode n 0 = .fin false 0 0 ∧ tapDecode n (2 ^ (n - 1)) = .nan ∧
     ∀ c, 2 ^ (n - 1) < c → c < 2 ^ n → tapDecode n c = (tapDecode n (2 ^ n - c)).negate) ∧
   (List.range 32).map (fun c => (tapDecode 6 c).scaled 8) = [0, 1, 4, 8, 16, 24, 32, 48, 64, 80, 96, 112, 128, 160, 192, 224,
     256, 320, 384, 448, 512, 640, 768, 896, 1024, 1536, 2048, 3072, 4096, 8192, 16384, 65536] ∧
   ∀ grp ∈ [(0x01, 0x01, 0, 0), (0x02, 0x03, 1, 0), (0x04, 0x07, 2, 1), (0x08, 0x0F, 3, 2), (0x10, 0x1F, 4, 3), (0x20, 0x3F, 5, 4),
       (0x40, 0x5F, 6, 4), (0x60, 0x6F, 7, 3), (0x70, 0x77, 8, 2), (0x78, 0x7B, 9, 1), (0x7C, 0x7D, 10, 0), (0x7E, 0x7E, 11, 0),
       (0x7F, 0x7F, 12, 0)],
     let (lo, hi, k, w) := grp
     ∀ c, lo ≤ c → c ≤ hi →
       2 ^ w * (tapDecode 8 c).scaled 12 = (4 ^ k * 2 ^ ((c - lo) / 2 ^ w) * (2 ^ w + (c - lo) % 2 ^ w) : Nat)) ∧
  ((∀ F ∈ [f32, f16, b16], ∀ (neg : Bool) (mag : Nat) (exp : Int) (K : Nat), F.bias + F.fw ≤ K → 0 ≤ exp + K →
     let x : Machine.Num := .fin neg mag exp
     F.Rounds K (x.scaled K) 1 (F.round .near x) ∧ F.Chops K (x.scaled K) (F.round .zero x) ∧
     (mag = 0 → ∀ d, F.round d x = if neg then F.signBit else 0)) ∧
   (∀ n, n = 6 ∨ n = 8 →
     (∀ d, tapRound n d .nan = 2 ^ (n - 1) ∧ (∀ neg, tapRound n d (.inf neg) = 2 ^ (n - 1)) ∧
       ∀ neg e, tapRound n d (.fin neg 0 e) = 0) ∧
     ∀ (neg : Bool) (mag : Nat) (exp : Int) (K : Nat), 0 < mag → 16 ≤ K → 0 ≤ exp + K →
       let v := mag * 2 ^ (exp + K).toNat
       let off := fun (c : Nat) => ((v : Int) - (tapDecode n c).scaled K).natAbs
       let put := fun (c : Nat) => if neg then 2 ^ n - c else c
       (∃ c, tapRound n .near (.fin neg mag exp) = put c ∧ 1 ≤ c ∧ c < 2 ^ (n - 1) ∧
         ∀ y, 1 ≤ y → y < 2 ^ (n - 1) → off c ≤ off y ∧ (off c = off y → y ≠ c → c % 2 = 0)) ∧
       ∃ c, tapRound n .zero (.fin neg mag exp) = put c ∧ 1 ≤ c ∧ c < 2 ^ (n - 1) ∧
         (c = 1 ∨ (tapDecode n c).scaled K ≤ v) ∧ ∀ y, c < y → y < 2 ^ (n - 1) → (v : Int) < (tapDecode n y).scaled K))

/-- R178 to R180: the lanes of a conversion and the tree of a reduction, r k i being node i of level k; R84 on elements. That
VCVT.t6.t6 writes bits 7:6 zero is the model's reading (log 34). -/
def Obligations.ConversionsAndReductions : Prop :=
  (∀ (s : State) (g : Guard) (d a : VReg) (sd : SReg) (tyd tys ty : Ty),
     let at' := fun (w : Nat) (x : Line) (j : Nat) => (x.extractLsb' (w * j) w).toNat
     let wd := tyd.width
     let ws := tys.width
     let n := 512 / max wd ws
     let A := s.cur.rdv a
     let cv := fun (i : Instr) (dir : Dir) (hi : Bool) => ∃ v, exec i s = .next (s.withCur (s.cur.wrv d v).adv) ∧
       let up := if hi then n else 0
       ∀ j, j < 512 / wd → at' wd v j =
         if ws ≤ wd then convertAny dir tyd tys (at' ws A (j + up)) % 2 ^ wd
         else if up ≤ j ∧ j < up + n then convertAny dir tyd tys (at' ws A (j - up)) % 2 ^ wd
         else if hi then at' wd (s.cur.rdv d) j else 0
     let red := fun (i : Instr) (op : Nat → Nat → Nat) => ∃ r : Nat → Nat → Nat,
       (∀ j, r 0 j = at' ty.width A j) ∧ (∀ k j, r (k + 1) j = op (r k (2 * j)) (r k (2 * j + 1))) ∧
       exec i s = .next (s.withCur (s.cur.wr sd
         (let x : BitVec ty.width := BitVec.ofNat ty.width (r (512 / ty.width).log2 0)
          if ty.isSigned then x.signExtend 64 else BitVec.ofNat 64 (r (512 / ty.width).log2 0))).adv)
     (s.Runs g [.v a] [.v d] → cv (.vcvt g d a tyd tys) .near false ∧ cv (.vcvtz g d a tyd tys) .zero false) ∧
     (s.Runs g (if wd < ws then [.v d, .v a] else [.v a]) [.v d] →
       cv (.vcvthi g d a tyd tys) .near true ∧ cv (.vcvtzhi g d a tyd tys) .zero true) ∧
     (s.Runs g [.v a] [.s sd] →
       red (.vredadd g sd a ty) (vAddElem ty false) ∧ red (.vredmin g sd a ty) (vMinElem ty false) ∧
       red (.vredmax g sd a ty) (vMinElem ty true) ∧ red (.vredand g sd a ty) Nat.land ∧ red (.vredor g sd a ty) Nat.lor)) ∧
  ((∀ (d : Dir) (dst src : Ty) (x : Nat), x < 2 ^ src.width → dst.isC = false → src.isC = false →
     let v := elemVal src x
     let r := convertAny d dst src x
     (dst = src → r = if dst = .t6 then x % 64 else x) ∧
     (dst ≠ src →
       (∀ F, tyFp dst = some F → v.isNan = false → r = F.round d v) ∧
       (dst = .t8 → r = tapRound 8 d v) ∧ (dst = .t6 → r = tapRound 6 d v) ∧
       (∀ F, tyFp dst = some F → tyFp src = none → v.isNan = true → r = F.nanBits) ∧
       (∀ S F, tyFp src = some S → tyFp dst = some F → v.isNan = true →
         F.isNan r = true ∧ F.neg r = S.neg x ∧ r / 2 ^ (F.fw - 1) % 2 = 1 ∧
         (F.fw ≤ S.fw → r % 2 ^ (F.fw - 1) = x % 2 ^ (S.fw - 1) / 2 ^ (S.fw - F.fw)) ∧
         (S.fw ≤ F.fw → r % 2 ^ (F.fw - 1) = x % 2 ^ (S.fw - 1) * 2 ^ (F.fw - S.fw))) ∧
       (dst.isI = true →
         let lo : Int := if dst.isSigned then -(2 : Int) ^ (dst.width - 1) else 0
         let hi : Int := if dst.isSigned then 2 ^ (dst.width - 1) - 1 else 2 ^ dst.width - 1
         let is := fun (n : Int) => r = (BitVec.ofInt dst.width (max lo (min hi n))).toNat
         (v.isNan = true → r = 0) ∧ (v = .inf false → is hi) ∧ (v = .inf true → is lo) ∧
         ∀ neg mag exp, v = .fin neg mag exp →
           let V := v.scaled 256
           (d = .near → ∃ n : Int, is n ∧ (V - n * 2 ^ 256).natAbs ≤ 2 ^ 255 ∧ ((V - n * 2 ^ 256).natAbs = 2 ^ 255 → n % 2 = 0)) ∧
           (d = .zero → is (V.tdiv (2 ^ 256)))) ∧
       (src.isI = true → v = .fin (decide (intVal src.isSigned src.width x < 0)) (intVal src.isSigned src.width x).natAbs 0))) ∧
   (∀ (d : Dir) (x : Nat), x < 2 ^ 64 →
     convertAny d .c16 .c32 x = convertAny d .f16 .f32 (x % 2 ^ 32) + 2 ^ 16 * convertAny d .f16 .f32 (x / 2 ^ 32) ∧
     convertAny d .c32 .c32 x = x ∧
     (x < 2 ^ 32 → convertAny d .c16 .c16 x = x ∧
       convertAny d .c32 .c16 x = convertAny d .f32 .f16 (x % 2 ^ 16) + 2 ^ 32 * convertAny d .f32 .f16 (x / 2 ^ 16))))

/-- R181 and R183 to R186 on lanes; R94 to R98 on elements. That VPERM.t6 reads all bits of an index is the model's choice (log
34). -/
def Obligations.PermutesAndTransforms : Prop :=
  (∀ (s : State) (g : Guard) (d a b c : VReg) (sa sb sc : SReg) (ty : Ty) (k : BitVec 6),
     let w := ty.width
     let n := 512 / w
     let at' := fun (w : Nat) (x : Line) (j : Nat) => (x.extractLsb' (w * j) w).toNat
     let A := s.cur.rdv a
     let B := s.cur.rdv b
     let r := fun (x : VReg) (k : Nat) => s.cur.rdv (Fin.ofNat 16 (x.val + k))
     let gives := fun (i : Instr) (d : VReg) (w : Nat) (lane : Nat → Nat) =>
       ∃ v, exec i s = .next (s.withCur (s.cur.wrv d v).adv) ∧ ∀ j, j < 512 / w → at' w v j = lane j % 2 ^ w
     (s.Runs g [.v a, .v b] [.v d] →
       gives (.vperm g d a b ty) d w (fun j => if at' w B j < n then at' w A (at' w B j) else 0) ∧
       gives (.vzip g d a b ty) d w (fun j => if j % 2 = 0 then at' w A (j / 2) else at' w B (j / 2)) ∧
       gives (.vunzip g d a b ty) d w (fun j => if j < n / 2 then at' w A (2 * j) else at' w B (2 * (j - n / 2)))) ∧
     (s.Runs g [.s sa] [.v d] → gives (.vbcast g d sa ty) d w fun _ => (s.cur.rd sa).toNat) ∧
     (s.Runs g [.v a] [.s sa] →
       exec (.vextr g sa a ty k) s = .next (s.withCur (s.cur.wr sa
         (let x : BitVec w := A.extractLsb' (w * k.toNat) w
          if ty.isSigned then x.signExtend 64 else BitVec.ofNat 64 x.toNat)).adv)) ∧
     (s.Runs g [.s sa, .v a] [.v a] →
       gives (.vins g sa a ty k) a w fun j => if j = k.toNat then (s.cur.rd sa).toNat else at' w A j) ∧
     (s.Runs g [.v a, .v b, .v c] [.v d, .v (Fin.ofNat 16 (d.val + 1))] → ∃ y0 y1,
       exec (.bfly2 g d a b c ty) s = .next (s.withCur ((s.cur.wrv d y0).wrv (Fin.ofNat 16 (d.val + 1)) y1).adv) ∧
       ∀ j, j < n →
         let y := bfly2Elem (cFp ty) (at' w A j) (at' w B j) (at' w (s.cur.rdv c) j)
         at' w y0 j = y.1 % 2 ^ w ∧ at' w y1 j = y.2 % 2 ^ w) ∧
     (s.Runs g ((List.range 4).map (fun k => .v (Fin.ofNat 16 (a.val + k))) ++
         (List.range 3).map (fun k => .v (Fin.ofNat 16 (c.val + k))))
         ((List.range 4).map fun k => .v (Fin.ofNat 16 (d.val + k))) → ∃ y : Nat → Line,
       exec (.bfly4 g d a c ty) s = .next (s.withCur
         ((((s.cur.wrv d (y 0)).wrv (Fin.ofNat 16 (d.val + 1)) (y 1)).wrv (Fin.ofNat 16 (d.val + 2)) (y 2)).wrv
           (Fin.ofNat 16 (d.val + 3)) (y 3)).adv) ∧
       ∀ k j, k < 4 → j < n → at' w (y k) j = (bfly4Elem (cFp ty) (at' w (r a 0) j) (at' w (r a 1) j) (at' w (r a 2) j)
         (at' w (r a 3) j) (at' w (r c 0) j) (at' w (r c 1) j) (at' w (r c 2) j)).getD k 0 % 2 ^ w) ∧
     (s.Runs g [.s sa, .s sb] [.v d] →
       gives (.twid g d sa sb) d 64 fun j => twidElem (s.cur.rd sa).toNat ((s.cur.rd sb).toNat + j)) ∧
     (s.Runs g [.s sa, .s sb, .s sc] [.v d] →
       gives (.rand g d sa sb sc ty) d w fun j =>
         randElem ty (rand64 (s.cur.rd sa) (s.cur.rd sb) (s.cur.rd sc + BitVec.ofNat 64 j)))) ∧
  ((∀ F ∈ [f32, f16], ∀ a0 a1 a2 a3 w1 w2 w3 : Nat,
     let xs := [a0, a1, a2, a3, w1, w2, w3]
     (∀ x ∈ xs, x < 2 ^ (2 * F.width)) →
     let K := F.bias + F.fw
     let V := fun (x : Nat) => (F.decode x).scaled K
     let re := fun (x : Nat) => x % 2 ^ F.width
     let im := fun (x : Nat) => x / 2 ^ F.width
     let fin := fun (x : Nat) => x % F.signBit < F.infBits
     let rnd := fun (k : Nat) (v : Int) (r : Nat) => F.Rounds k v 1 r ∧ (v = 0 → r = 0)
     let tw := fun (w a r i : Nat) => rnd (2 * K) (V (re w) * V (re a) - V (im w) * V (im a)) r ∧
       rnd (2 * K) (V (re w) * V (im a) + V (im w) * V (re a)) i
     let join := fun (r i : Nat) => r + 2 ^ F.width * i
     let bad := join F.nanBits F.nanBits
     ((∀ x ∈ [a0, a1, w1], fin (re x) ∧ fin (im x)) → ∃ r i, tw w1 a1 r i ∧ (fin r → fin i → ∃ p q u v,
       bfly2Elem F a0 a1 w1 = (join p q, join u v) ∧ rnd K (V (re a0) + V r) p ∧ rnd K (V (im a0) + V i) q ∧
       rnd K (V (re a0) - V r) u ∧ rnd K (V (im a0) - V i) v)) ∧
     ((∀ x ∈ xs, fin (re x) ∧ fin (im x)) → ∃ r1 i1 r2 i2 r3 i3, tw w1 a1 r1 i1 ∧ tw w2 a2 r2 i2 ∧ tw w3 a3 r3 i3 ∧
       ((∀ x ∈ [r1, i1, r2, i2, r3, i3], fin x) → ∃ y : Nat → Nat × Nat,
       bfly4Elem F a0 a1 a2 a3 w1 w2 w3 = (List.range 4).map (fun k => join (y k).1 (y k).2) ∧
       rnd K (V (re a0) + V r1 + V r2 + V r3) (y 0).1 ∧ rnd K (V (im a0) + V i1 + V i2 + V i3) (y 0).2 ∧
       rnd K (V (re a0) + V i1 - V r2 - V i3) (y 1).1 ∧ rnd K (V (im a0) - V r1 - V i2 + V r3) (y 1).2 ∧
       rnd K (V (re a0) - V r1 + V r2 - V r3) (y 2).1 ∧ rnd K (V (im a0) - V i1 + V i2 - V i3) (y 2).2 ∧
       rnd K (V (re a0) - V i1 - V r2 + V i3) (y 3).1 ∧ rnd K (V (im a0) + V r1 - V i2 - V r3) (y 3).2)) ∧
     ((∃ x ∈ [a0, a1, w1], F.isNan (re x) = true ∨ F.isNan (im x) = true) → bfly2Elem F a0 a1 w1 = (bad, bad)) ∧
     ((∃ x ∈ xs, F.isNan (re x) = true ∨ F.isNan (im x) = true) → bfly4Elem F a0 a1 a2 a3 w1 w2 w3 = [bad, bad, bad, bad])) ∧
   (∀ N k : Nat,
     ((∃ j, j ≤ 24 ∧ N = 2 ^ j) → twidElem N k = twidElem N (k % N) ∧ (N ≤ 2 ^ 23 → twidElem (2 * N) (2 * k) = twidElem N k)) ∧
     ((∀ j, j ≤ 24 → N ≠ 2 ^ j) → twidElem N k = 0x7FC00000 + 2 ^ 32 * 0x7FC00000)) ∧
   (twidElem 8 0 = 0x3F800000 ∧ twidElem 8 1 = 0x3F3504F3 + 2 ^ 32 * 0xBF3504F3 ∧ twidElem 8 2 = 2 ^ 32 * 0xBF800000 ∧
     twidElem 8 4 = 0xBF800000) ∧
   (∀ seed stream index : Word,
     let round := fun (M : Word) (L : Nat) (x k : Word) =>
       let y := (x + k) * M
       let z := y ^^^ (y >>> 29)
       (z <<< L) ||| (z >>> (64 - L))
     let up : Word := 0x5C4E93A71B2FD683
     rand64 seed stream index =
       round 0xA57C3E19F2D84B61 41 (round 0xD1B54A329C6E07F3 31
         (round 0x8F3A61C55D27B0E9 23 (index ^^^ ((stream <<< 32) ||| (stream >>> 32))) seed) (seed + up)) (seed + up + up)) ∧
   (∀ (ty : Ty) (x : Word),
     (ty.isI = true → randElem ty x = x.toNat / 2 ^ (64 - ty.width)) ∧
     ∀ F n, (ty, F, n) = (.f32, f32, 24) ∨ (ty, F, n) = (.f16, f16, 11) ∨ (ty, F, n) = (.b16, b16, 8) →
       randElem ty x < F.infBits ∧ (F.decode (randElem ty x)).scaled 200 = (x.toNat / 2 ^ (64 - n) : Nat) * 2 ^ (200 - n)))

/-! Matrix instructions (10_isa_matrix). -/

/-- The issue of the matrix heads (R189, R191, R196, R201 to R208). -/
def Obligations.MatrixIssue : Prop :=
  ∀ (s : State) (g : Guard) (o : MMOps) (acc : AccSel) (ty : Ty) (raw : Bool) (x y z : SReg),
    let t := s.cur
    let k0 := s.core
    let X := t.rd x
    let Y := t.rd y
    let Z := t.rd z
    let entry := fun (f : Fab) (i : Instr) (a b k v : Word) (ws : List Word) (rd wr lines : List (Nat × Nat)) =>
      (⟨f.ids, s.f.who k0 s.th, i, a, b, k, v, t.ctl.fmta, t.ctl.fmtb, t.ctl.scla, t.ctl.sclb, t.ctl.fade,
        (s.f.core k0).ctActive, ws, none, none, rd, wr, lines, false⟩ : MEntry)
    let issues := fun (f : Fab) (i : Instr) (e : MEntry) => exec i s = .next { s with f := f.hand k0 s.th e }
    let inSpad := fun (base : Word) (len : Nat) => len = 0 ∨ (locBase ≤ base.toNat ∧ base.toNat + len ≤ locBase + 0x20000)
    let inWbuf := fun (base : Word) (len : Nat) => len = 0 ∨ base.toNat + len ≤ 0x8000
    let free := fun (f : Fab) (rd wr : List (Nat × Nat)) => f.matWaits s.m k0 s.th rd (spadTgts (rd ++ wr)) = none
    let xfer := xferLen acc ty raw
    (s.Runs g [.s o.sa, .s o.sb, .s o.sk, .s o.sx] [] →
      let A := t.rd o.sa
      let B := t.rd o.sb
      let K := t.rd o.sk
      let D := t.rd o.sx
      let sa : Word := t.ctl.scla.zeroExtend 64
      let sb : Word := t.ctl.sclb.zeroExtend 64
      (let wb := D.getLsbD 63
       let p := spansOf t o K.toNat (D.toNat % 2 ^ 16) (D.toNat / 2 ^ 16 % 2 ^ 16) wb (D.getLsbD 62)
       let rd := extOf A p.lenA ++ (if wb then [] else extOf B p.lenB) ++ extOf sa p.sclA ++ extOf sb p.sclB
       K.toNat % 16 = 0 → 16 ≤ K.toNat → K.toNat ≤ 16384 → D.toNat / 2 ^ 32 % 2 ^ 30 = 0 → (D.getLsbD 62 = true → wb = true) →
       fmtBad t = false → pitchBad (D.toNat % 2 ^ 16) p.rowA = false → pitchBad (D.toNat / 2 ^ 16 % 2 ^ 16) p.rowB = false →
       inSpad A p.lenA → (if wb then inWbuf B p.lenB else inSpad B p.lenB) → inSpad sa p.sclA → inSpad sb p.sclB →
       A.toNat % 16 = 0 → B.toNat % 16 = 0 → free s.f rd [] →
       issues s.f (.mma g o) (entry s.f (.mma g o) A B K D [] rd [] [])) ∧
      (∀ bs f, s.f.shape s.m k0 s.th D = .done bs f →
       let ws := shapeWords bs
       let v := convOf ws
       let px := v.c * matBits ((fmtTy t.ctl.fmta).getD .b16) / 8
       let rowB := if v.wb then (if v.cw then v.k / 2 else v.k) else v.k * matBits ((fmtTy t.ctl.fmtb).getD .b16) / 8
       let lenA := v.ih * v.iw * pitchOf v.pitch px
       let lenB := rowsLen (accCols o.acc) (pitchOf v.ldb rowB) rowB
       let nA := if scaledBit t.ctl.fmta then v.ih * v.iw * (v.c / blkSize o.bka) else 0
       let nB := if scaledBit t.ctl.fmtb then accCols o.acc * ((v.k + blkSize o.bkb - 1) / blkSize o.bkb) else 0
       let rd := extOf A lenA ++ (if v.wb then [] else extOf B lenB) ++ extOf sa nA ++ extOf sb nB
       v.ok (max (blkSize o.bka) (blkSize o.bkb)) = true → fmtBad t = false → pitchBad v.ldb rowB = false →
       inSpad A lenA → (if v.wb then inWbuf B lenB else inSpad B lenB) → inSpad sa nA →
       inSpad sb nB → A.toNat % 16 = 0 → B.toNat % 16 = 0 → free f rd [] →
       issues f (.mconv g o) (entry f (.mconv g o) A B K D ws rd [] []))) ∧
    (s.Runs g [.s x, .s y, .s z] [] →
      (Z.toNat % 16 = 0 → Z.toNat ≤ 32768 → inSpad Y Z.toNat → X.toNat + Z.toNat ≤ 32768 → Y.toNat % 16 = 0 →
       X.toNat % 16 = 0 → free s.f (extOf Y Z.toNat) [] →
       issues s.f (.mldw g x y z) (entry s.f (.mldw g x y z) Y X Z 0 [] (extOf Y Z.toNat) [] [])) ∧
      (X.toNat + Z.toNat ≤ 256 → inSpad Y (2 * Z.toNat) → Y.toNat % 2 = 0 → free s.f (extOf Y (2 * Z.toNat)) [] →
       issues s.f (.ctload g x y z) (entry s.f (.ctload g x y z) Y X Z 0 [] (extOf Y (2 * Z.toNat)) [] []))) ∧
    (s.Runs g [.s x] [] → inSpad X xfer → X.toNat % 16 = 0 →
      (free s.f [] (extOf X xfer) →
        issues s.f (.mrd g acc x ty raw) (entry s.f (.mrd g acc x ty raw) X 0 0 0 [] [] (extOf X xfer) [])) ∧
      (free s.f (extOf X xfer) [] →
       issues s.f (.mwr g acc x ty raw) (entry s.f (.mwr g acc x ty raw) X 0 0 0 [] (extOf X xfer) [] []))) ∧
    (s.Runs g [.s x, .s y] [] → Y.toNat < 16 → (Y ≠ 0 → X.toNat % 64 = 0) →
      (∀ q ∈ maskQuarters Y, (X.toNat + 16384 * q.val) % 2 ^ 64 + 16384 ≤ peerBase) →
      let tgts := fun (ls : List (Nat × TlbEnt)) => ls.map fun l => (Tgt.mem l.1 l.2, 64)
      (∀ ls f, s.f.quarterLines s.m k0 (s.f.who k0 s.th) .store (quarterAddrs X Y) = .ok (ls, f) →
       f.matWaits s.m k0 s.th [] (tgts ls) = none →
       let f := ls.foldl (fun f l => f.noteWrite s.m (s.f.who k0 s.th) l.2 l.1 64 false) f
       issues f (.mspill g x y) (entry f (.mspill g x y) X Y 0 0 [] [] [] (ls.map fun l => (l.1, l.2.wlc)))) ∧
      (∀ ls f, s.f.quarterLines s.m k0 (s.f.who k0 s.th) .load (quarterAddrs X Y) = .ok (ls, f) →
       f.matWaits s.m k0 s.th [] (tgts ls) = none →
       issues f (.mfill g x y) (entry f (.mfill g x y) X Y 0 0 [] [] [] (ls.map fun l => (l.1, l.2.wlc))))) ∧
    (s.Runs g [] [] → free s.f [] [] →
      issues s.f (.mzero g acc) (entry s.f (.mzero g acc) 0 0 0 0 [] [] [] []) ∧
      exec (.ctswap g) s = .next { s with
        f := (s.f.hand k0 s.th (entry s.f (.ctswap g) 0 0 0 0 [] [] [] [])).modCore k0 fun c =>
          { c with ctActive := !c.ctActive } })

/-- Traps of the matrix heads (R191). Where the fault on MCONV's record stands among the checks is the model's choice (log 18). -/
def Obligations.MatrixChecks : Prop :=
  ∀ (s : State) (g : Guard) (o : MMOps) (acc : AccSel) (ty : Ty) (raw : Bool) (x y z : SReg),
    let t := s.cur
    let traps := fun (i : Instr) (c : Cause) (addr : Word) => exec i s = .next { s with f := s.f.trap s.m s.core s.th c addr }
    (s.Runs g [.s o.sa, .s o.sb, .s o.sk, .s o.sx] [] →
      let K := (t.rd o.sk).toNat
      let D := (t.rd o.sx).toNat
      let shapeBad := K % 16 ≠ 0 ∨ K < 16 ∨ 16384 < K ∨ D / 2 ^ 32 % 2 ^ 30 ≠ 0 ∨ (D / 2 ^ 62 = 1)
      (shapeBad → traps (.mma g o) .matrixShape 0) ∧
      (¬shapeBad → fmtBad t = true → traps (.mma g o) .matrixFormat 0) ∧
      (¬shapeBad → fmtBad t = false →
        (D % 2 ^ 16 ≠ 0 ∧ 16 * (D % 2 ^ 16) < K * matBits ((fmtTy t.ctl.fmta).getD .b16) / 8 → traps (.mma g o) .matrixShape 0)) ∧
      (∀ e f, s.f.shape s.m s.core s.th (t.rd o.sx) = .fault e f → fmtBad t = false → (t.rd o.sa).toNat % 16 = 0 →
        (t.rd o.sb).toNat % 16 = 0 →
        exec (.mconv g o) s = .next { s with f := f.trap s.m s.core s.th e (t.rd o.sx) }) ∧
      (∀ bs f, s.f.shape s.m s.core s.th (t.rd o.sx) = .done bs f →
        (convOf (shapeWords bs)).ok (max (blkSize o.bka) (blkSize o.bkb)) = false →
        exec (.mconv g o) s = .next { s with f := f.trap s.m s.core s.th .matrixShape (t.rd o.sx) })) ∧
    (s.Runs g [.s x, .s y, .s z] [] →
      ((t.rd z).toNat % 16 ≠ 0 ∨ 32768 < (t.rd z).toNat → traps (.mldw g x y z) .matrixShape 0) ∧
      (256 < (t.rd x).toNat + (t.rd z).toNat → traps (.ctload g x y z) .matrixShape 0)) ∧
    (s.Runs g [.s x, .s y] [] → 16 ≤ (t.rd y).toNat →
      traps (.mspill g x y) .matrixShape 0 ∧ traps (.mfill g x y) .matrixShape 0) ∧
    (s.Runs g [.s x] [] →
      let b := (t.rd x).toNat
      let len := xferLen acc ty raw
      (0 < len → (b < locBase ∨ locBase + 0x20000 ≤ b) →
        traps (.mrd g acc x ty raw) .pageFault (t.rd x) ∧ traps (.mwr g acc x ty raw) .pageFault (t.rd x)) ∧
      (locBase ≤ b → b < locBase + 0x20000 → locBase + 0x20000 < b + len →
        traps (.mrd g acc x ty raw) .pageFault (BitVec.ofNat 64 (locBase + 0x20000)) ∧
        traps (.mwr g acc x ty raw) .pageFault (BitVec.ofNat 64 (locBase + 0x20000))) ∧
      (locBase ≤ b → b + len ≤ locBase + 0x20000 → b % 16 ≠ 0 →
        traps (.mrd g acc x ty raw) .misaligned (t.rd x) ∧ traps (.mwr g acc x ty raw) .misaligned (t.rd x)))

/-- MMAG and MMAG_PANEL_AVAILABLE (R199, R200), for an MMAG whose checks pass. The model's choice: which checks a core makes that
does not own a panel (log 37), and the comparison made (log 34). -/
def Obligations.MmagReadsItsPanels : Prop :=
  ∀ (s : State) (g : Guard) (o : MMOps) (ca cb : CoreId) (ea eb : Export),
    let t := s.cur
    let w := s.f.who s.core s.th
    let x := s.f.ctx w.ctx
    let occ := (s.f.core s.core).occ.getD ⟨0, 0, 0⟩
    let K := t.rd o.sk
    let D := t.rd o.sx
    let q := squareOf D.toNat
    let own := fun (b : Bool) (n : Nat) => if b then n else 0
    let p := spansOf t o K.toNat (bits D.toNat 15 0) (bits D.toNat 31 16) false false
    let inSpad := fun (base : Word) (len : Nat) => len = 0 ∨ (locBase ≤ base.toNat ∧ base.toNat + len ≤ locBase + 0x20000)
    let atA := decide (occ.vx = q.vx0)
    let atB := decide (occ.vy = q.vy0)
    let mine := fun (z : MWait) => z.th = s.th ∧ z.fid = w.fid ∧ z.pc = t.pc ∧ z.ops = o
    s.Runs g [.s o.sa, .s o.sb, .s o.sk, .s o.sx] [] →
    kBad K = false → bits D.toNat 63 52 = 0 → bits D.toNat 51 50 ≠ 3 → bits D.toNat 49 48 ≠ 3 → q.vx0 + q.gw ≤ x.lw →
    q.vy0 + q.gh ≤ x.lh → q.vx0 ≤ occ.vx → occ.vx < q.vx0 + q.gw → q.vy0 ≤ occ.vy → occ.vy < q.vy0 + q.gh →
    fmtBad t = false → pitchBad (bits D.toNat 15 0) p.rowA = false → pitchBad (bits D.toNat 31 16) p.rowB = false →
    inSpad (t.rd o.sa) (own atA p.lenA) → inSpad (t.rd o.sb) (own atB p.lenB) →
    inSpad (t.ctl.scla.zeroExtend 64) (own atA p.sclA) → inSpad (t.ctl.sclb.zeroExtend 64) (own atB p.sclB) →
    (t.rd o.sa).toNat % 16 = 0 → (t.rd o.sb).toNat % 16 = 0 →
    s.f.find w.ctx occ.vx q.vy0 = some cb →
    (let scla : Word := t.ctl.scla.zeroExtend 64
     let ext := extOf (t.rd o.sa) p.lenA ++ extOf scla p.sclA
     atA = true → atB = false → (s.f.core s.core).exports = [] → cb ≠ s.core →
     (∀ z ∈ (s.f.core s.core).mwait, ¬mine z) → s.f.matWaits s.m s.core s.th ext (spadTgts ext) = none →
     (s.f.core cb).exportFor q false (x.vnum occ.vx occ.vy) = none →
     ∃ t' : State, exec (.mmag g o) s = .next t' ∧ t'.cur = s.cur ∧
       (t'.f.core s.core).mwait = (s.f.core s.core).mwait ++ [⟨s.th, w.fid, g, t.pc, t.npc, o⟩] ∧
       (t'.f.core s.core).exports = [⟨q.vx0, q.vy0, q.gw, q.gh, true, o, K, D,
         ⟨t.ctl.fmta, pitchOf (bits D.toNat 15 0) p.rowA, peeks (s.f.core s.core).spad ((t.rd o.sa).toNat - locBase) p.lenA,
           peeks (s.f.core s.core).spad (scla.toNat - locBase) p.sclA⟩, ext,
         q.row x occ.vy, w.fid, w.res⟩]) ∧
    (∀ n : Pc, s.f.find w.ctx q.vx0 occ.vy = some ca →
    (s.f.core ca).exportFor q true (x.vnum occ.vx occ.vy) = some ea →
    (s.f.core cb).exportFor q false (x.vnum occ.vx occ.vy) = some eb →
    let agree := ea.ops.sa = o.sa ∧ ea.ops.sb = o.sb ∧ ea.ops.bka = o.bka ∧ ea.ops.bkb = o.bkb ∧ ea.ops.acc.w = o.acc.w ∧
      ea.k = K ∧ ea.d = D ∧ eb.ops.sa = o.sa ∧ eb.ops.sb = o.sb ∧ eb.ops.bka = o.bka ∧ eb.ops.bkb = o.bkb ∧
      eb.ops.acc.w = o.acc.w ∧ eb.k = K ∧ eb.d = D
    let issued := fun (i : Instr) (n : Pc) => ∃ t : State, exec i s = .next t ∧ t.cur = { s.cur with npc := n, pc := n } ∧
      ∃ e, (t.f.core s.core).mq = (s.f.core s.core).mq ++ [e] ∧ e.instr = .mmag g o ∧ e.a = s.cur.rd o.sa ∧ e.b = s.cur.rd o.sb ∧
        e.k = K ∧ e.x = D ∧ e.fade = s.cur.ctl.fade ∧ e.panelA = some ea.panel ∧ e.panelB = some eb.panel ∧ e.done = false
    let event : Instr := .mmagPanelAvailable s.core s.th
    let stands := ∃ z ∈ (s.f.core s.core).mwait, mine z
    let waits := (s.f.core s.core).mwait.find? (fun z => z.th = s.th && z.fid = w.fid && z.pc = t.pc) =
      some ⟨s.th, w.fid, g, t.pc, n, o⟩
    (agree → (s.f.core s.core).mq.length < Config.matrixHeld →
      (stands → issued (.mmag g o) t.npc) ∧ (waits → issued event n) ∧
      (¬stands → atA = false → atB = false → (s.f.core s.core).exports = [] → s.f.matWaits s.m s.core s.th [] [] = none →
        issued (.mmag g o) t.npc)) ∧
    (¬agree →
      (stands → exec (.mmag g o) s = .next { s with f := s.f.trap s.m s.core s.th .groupMismatch 0 }) ∧
      (waits → exec event s = .next { s with
        f := (s.f.modThread s.core s.th fun t => { t with npc := n }).trap s.m s.core s.th .groupMismatch 0 })))

/-- R86 to R88 and R196 on the accumulator store. -/
def Obligations.ProductPairs : Prop :=
  ∀ (acc : AMap Word) (dst : AccSel) (mode : MMode) (fade : BitVec 32) (kb kk : Nat) (va vb : Nat → Nat → Machine.Num), 0 < kb →
    let new := product acc dst mode fade kb kk va vb
    let total := fun (i j n : Nat) =>
      blockTotal ((List.range (min kb (kk - kb * n))).map fun l => (va i (kb * n + l)).mul (vb j (kb * n + l)))
    (∀ i j, i < accRows dst → j < accCols dst →
      mget 0 new (accKey dst i j) = (List.range ((kk + kb - 1) / kb)).foldl (fun p n => pairAdd p (total i j n))
        (match mode with
          | .zero => 0
          | .accum => mget 0 acc (accKey dst i j)
          | .fade => pairFade (mget 0 acc (accKey dst i j)) fade.toNat)) ∧
    (∀ key, (∀ i j, i < accRows dst → j < accCols dst → key ≠ accKey dst i j) → mget 0 new key = mget 0 acc key)

/-- The unit's events (R189, R190, R196 to R208), with the operands of the products: elem is element k of a row of w-bit elements
that starts at byte 0 (R192), scl a scaled element (R85, R195), pitch a row pitch (R193). -/
def Obligations.MatrixUnitEvents : Prop :=
  ∀ (s : State) (c : CoreId) (e : MEntry) (es : List MEntry), (s.f.core c).mq = e :: es →
    let x := s.f.core c
    let held := { x with mq := { e with done := true } :: es }
    let becomes := fun (y : Core) => ∃ t : State, exec (.matrixExecute c) s = .next t ∧ t.f.core c = y ∧ t.f.mem = s.f.mem ∧
      t.f.due = s.f.due ++ [.matrixComplete c]
    let fmt := fun (b : BitVec 5) =>
      [(1, Ty.f16), (2, .b16), (5, .s8), (9, .z8), (13, .t8), (14, .t6)].lookup (b.toNat % 16)
    let size := fun (t : Ty) => if t = .t6 then 6 else t.width
    let blk := fun (b : Blk) => match b with | .k16 => 16 | .k32 => 32 | .k64 => 64 | .k128 => 128
    let spad := fun (a : Nat) => peek x.spad (a - locBase)
    let pitch := fun (ld row : Nat) => if ld = 0 then (row + 15) / 16 * 16 else 16 * ld
    let elem := fun (byte : Nat → Byte) (w k : Nat) => (List.range w).foldr
      (fun n r => (if (byte ((w * k + n) / 8)).getLsbD ((w * k + n) % 8) then 1 else 0) + 2 * r) 0
    let scl := fun (b : BitVec 5) (v : Machine.Num) (E : Nat) =>
      if b.getLsbD 4 then (if E = 255 then .nan else v.mul (.fin false 1 ((E : Int) - 127))) else v
    let rows := fun (t : Ty) (b : BitVec 5) (byte : Nat → Byte) (base p sc K B : Nat) (i k : Nat) =>
      scl b (elemVal t (elem (fun n => byte (base + i * p + n)) (size t) k)) (spad (sc + i * ((K + B - 1) / B) + k / B)).toNat
    let operB := fun (t : Ty) (wb cw : Bool) (ld K B : Nat) =>
      if wb then fun (j k : Nat) =>
        let code := elem (fun n => peek x.wbuf (e.b.toNat + j * pitch ld (if cw then K / 2 else K) + n)) (if cw then 4 else 8) k
        scl e.fmtb (elemVal t ((mget 0 (x.table e.bank) code).toNat % 2 ^ size t))
          (spad (e.sclb.toNat + j * ((K + B - 1) / B) + k / B)).toNat
      else rows t e.fmtb spad e.b.toNat (pitch ld (K * size t / 8)) e.sclb.toNat K B
    (e.done = false → x.entryWaits e = false →
      (∀ g o ta tb, e.instr = .mma g o → fmt e.fmta = some ta → fmt e.fmtb = some tb →
        let D := e.x.toNat
        let K := e.k.toNat
        becomes { held with
          acc := product x.acc o.acc o.mode e.fade (max (blk o.bka) (blk o.bkb)) K
            (rows ta e.fmta spad e.a.toNat (pitch (D % 2 ^ 16) (K * size ta / 8)) e.scla.toNat K (blk o.bka))
            (operB tb (D.testBit 63) (D.testBit 62) (D / 2 ^ 16 % 2 ^ 16) K (blk o.bkb)) }) ∧
      (∀ g o pa pb ta tb, e.instr = .mmag g o → e.panelA = some pa → e.panelB = some pb → fmt pa.fmt = some ta →
        fmt pb.fmt = some tb →
        let K := e.k.toNat
        let panel := fun (p : Panel) (t : Ty) (b : Nat) (i k : Nat) =>
          scl p.fmt (elemVal t (elem (fun n => p.bytes.getD (i * p.pitch + n) 0) (size t) k))
            (p.scales.getD (i * ((K + b - 1) / b) + k / b) 0).toNat
        becomes { held with
          acc := product x.acc o.acc o.mode e.fade (max (blk o.bka) (blk o.bkb)) K (panel pa ta (blk o.bka))
            (panel pb tb (blk o.bkb)) }) ∧
      (∀ g o ta tb, e.instr = .mconv g o → fmt e.fmta = some ta → fmt e.fmtb = some tb →
        let field := fun (i hi lo : Nat) => (e.shape.getD i 0).toNat / 2 ^ lo % 2 ^ (hi - lo + 1)
        let C := field 0 63 48
        let IH := field 0 31 16
        let IW := field 0 15 0
        let S := field 1 31 24
        let K := field 1 23 16 * S * C
        let OW := field 1 15 0
        let A := fun (m k : Nat) =>
          let p := e.k.toNat + m
          let iy : Int := ((p / OW * field 1 35 32 + k / (C * S) * field 1 43 40 : Nat) : Int) - field 1 55 48
          let ix : Int := ((p % OW * field 1 39 36 + k / C % S * field 1 47 44 : Nat) : Int) - field 1 63 56
          let px := (iy * IW + ix).toNat
          if 0 ≤ iy ∧ iy < IH ∧ 0 ≤ ix ∧ ix < IW then
            scl e.fmta (elemVal ta (elem (fun n => spad (e.a.toNat + px * pitch (field 0 47 32) (C * size ta / 8) + n)) (size ta)
              (k % C))) (spad (e.scla.toNat + px * (C / blk o.bka) + k % C / blk o.bka)).toNat
          else elemVal ta (field 2 15 0 % 2 ^ size ta)
        becomes { held with
          acc := product x.acc o.acc o.mode e.fade (max (blk o.bka) (blk o.bkb)) K A
            (operB tb (decide (field 2 63 63 = 1)) (decide (field 2 62 62 = 1)) (field 2 31 16) K (blk o.bkb)) }) ∧
      (∀ g w a n, e.instr = .mldw g w a n →
        ∃ y, becomes y ∧ y = { held with wbuf := y.wbuf } ∧ ∀ i, peek y.wbuf i =
          if e.b.toNat ≤ i ∧ i < e.b.toNat + e.k.toNat then peek x.spad (e.a.toNat - locBase + (i - e.b.toNat))
          else peek x.wbuf i) ∧
      (∀ g src a ty raw, e.instr = .mrd g src a ty raw →
        becomes (held.locWrite (e.a.toNat - locBase) (pairBytes x.acc src ty raw))) ∧
      (∀ g dst a ty raw, e.instr = .mwr g dst a ty raw →
        ∃ y, becomes y ∧ y = { held with acc := y.acc } ∧
          (∀ i j, i < accRows dst → j < accCols dst → mget 0 y.acc (accKey dst i j) =
            elemPair ty raw (rowElem (fun n => peek x.spad (e.a.toNat + n - locBase)) (i * (accCols dst * xferBits ty raw / 8))
              (xferBits ty raw) j)) ∧
          ∀ key, (∀ i j, i < accRows dst → j < accCols dst → key ≠ accKey dst i j) → mget 0 y.acc key = mget 0 x.acc key) ∧
      (∀ g b a n, e.instr = .ctload g b a n →
        ∃ y, becomes y ∧ y = { held with ct0 := y.ct0, ct1 := y.ct1 } ∧ y.table e.bank = x.table e.bank ∧
          ∀ i, mget 0 (y.table (!e.bank)) i =
            if e.b.toNat ≤ i ∧ i < e.b.toNat + e.k.toNat then
              BitVec.ofNat 16 ((peek x.spad (e.a.toNat + 2 * (i - e.b.toNat) - locBase)).toNat +
                256 * (peek x.spad (e.a.toNat + (2 * (i - e.b.toNat) + 1) - locBase)).toNat)
            else mget 0 (x.table (!e.bank)) i) ∧
      (∀ g dst, e.instr = .mzero g dst →
        ∃ y, becomes y ∧ y = { held with acc := y.acc } ∧
          (∀ i j, i < accRows dst → j < accCols dst → mget 0 y.acc (accKey dst i j) = 0) ∧
          ∀ key, (∀ i j, i < accRows dst → j < accCols dst → key ≠ accKey dst i j) → mget 0 y.acc key = mget 0 x.acc key) ∧
      (∀ g a k, e.instr = .mfill g a k →
        let mine := fun (a : Nat) => s.f.reads.find? fun r => r.by' = .unit c e.id && r.gpa = a && r.len = 64
        let bytes := fun (a : Nat) => match (mine a).bind (·.ans) with | some (.value v) => lineBytes v | _ => s.f.bytesAt s.m a 64
        ((∀ l ∈ e.lines, (s.m.isOther l.1 = true ∧ ∃ v, (mine l.1).bind (·.ans) = some (.value v)) ∨
            (s.m.isOther l.1 = false ∧ s.f.readBad s.m l.1 = false ∧ mine l.1 = none)) →
          ∃ y, becomes y ∧ y = { held with acc := y.acc } ∧
            ∀ n q i j, (maskQuarters e.b)[n]? = some q → i < 32 → j < 64 →
              mget 0 y.acc (accKey (.quarter q) i j) = BitVec.ofNat 64 (leNum
                (((e.lines.flatMap fun l => bytes l.1).drop (16384 * n + 512 * i + 8 * j)).take 8))) ∧
        ((∃ l ∈ e.lines, s.m.isOther l.1 = true ∧ mine l.1 = none) →
          ∃ t : State, exec (.matrixExecute c) s = .next t ∧ t.f.core c = x ∧ t.f.mem = s.f.mem ∧
            ∀ l ∈ e.lines, s.m.isOther l.1 = true → ∃ r ∈ t.f.reads, r.by' = .unit c e.id ∧ r.gpa = l.1 ∧ r.len = 64)) ∧
      (∀ g a k, e.instr = .mspill g a k → ∃ t : State, exec (.matrixExecute c) s = .next t ∧
        let data := (maskQuarters e.b).flatMap fun q => linesOf 256 (pairBytes x.acc (.quarter q) .f32 true)
        t.f = ((s.f.setCore c held).spillLines s.m c e (((quarterAddrs e.a e.b).zip (e.lines.zip data)).map fun p =>
          (p.1, p.2.1.1, p.2.1.2, p.2.2))).push (.matrixComplete c)) ∧
      (∀ g, e.instr = .ctswap g → becomes held)) ∧
    (e.done = true → (∀ l ∈ s.f.wl, ¬(l.mid = some e.id ∧ l.place = .unit)) →
      ∃ t : State, exec (.matrixComplete c) s = .next t ∧ (t.f.core c).mq = es ∧ t.f.mem = s.f.mem ∧
        (es ≠ [] → Instr.matrixExecute c ∈ t.f.due))

/-- Task instructions (R212 to R218). The model's choices: TSPAWN, TWATCH and TUNWATCH act whole at their head (log 22); a TEND in a
trap routine ends the trapped firing, and so waits for the matrix instructions of that firing and of every routine that ran for it
(log 20). -/
def Obligations.TaskHeads : Prop :=
  ∀ (s : State) (g : Guard) (a b : SReg) (cb : Fin 16) (prod : Bool) (word recd : Option Nat) (k0 k1 k : Fab),
    let w := s.f.who s.core s.th
    let n := w.ctx
    let me := (s.f.ctx n).vnum w.vx w.vy
    let ea := s.cur.rd a
    let eb := s.cur.rd b
    let traps := fun (f : Fab) (i : Instr) (e : Cause) (x : Word) => exec i s = .next { s with f := f.trap s.m s.core s.th e x }
    (s.Runs g [.s a, .s b] [] →
      (∀ e, s.f.operand s.m s.core n ea 64 true true false = .error (e, k0) → traps k0 (.tspawn g a b) e ea) ∧
      (∀ e, s.f.operand s.m s.core n ea 64 false true false = .error (e, k0) → traps k0 (.tdec g a b) e ea) ∧
      (∀ e, s.f.operand s.m s.core n ea 8 true false false = .error (e, k0) → traps k0 (.twatch g a b) e ea) ∧
      (∀ gpa, s.f.operand s.m s.core n ea 64 true true false = .ok (some gpa, k0) →
        (2 ^ 32 ≤ eb.toNat ∨ w.kid = none → traps k0 (.tspawn g a b) .taskRecord ea) ∧
        ∀ kid, eb.toNat < 2 ^ 32 → w.kid = some kid → s.Released k0 true .dom .dom k →
          let bad := k.recPoison s.m n ea.toNat gpa
          (∀ x, bad = some x → traps k (.tspawn g a b) .pageFault (BitVec.ofNat 64 x)) ∧
          (bad = none → k.liveAt gpa ≠ none ∨ k.recChecks s.m n ea.toNat gpa ≠ 0 → traps k (.tspawn g a b) .taskRecord ea) ∧
          (bad = none → k.liveAt gpa = none → k.recChecks s.m n ea.toNat gpa = 0 →
            ∃ t r, exec (.tspawn g a b) s = .next t ∧ t.cur = { s.cur with pc := s.cur.npc } ∧ t.f.liveAt gpa = some r ∧
              r.ctx = n ∧ r.recAddr = ea.toNat ∧ r.kid = kid ∧ r.dead = false ∧ r.running = 0 ∧
              ∀ la, s.m.place gpa = .own la → gpa % 64 = 0 → eb ≠ 0 →
                t.f.word s.m (gpa + 8) % 2 ^ 32 = eb.toNat ∧
                t.f.word s.m (gpa + 32) = kid.toNat * 2 ^ 32 + ((k.ctx n).carry (k.who s.core s.th).epoch).toNat ∧
                t.f.field s.m gpa 5 56 6 = 0 ∧ t.f.field s.m gpa 6 31 0 = 0 ∧ t.f.field s.m gpa 6 63 56 = 0 ∧
                t.f.field s.m gpa 5 59 57 = k.field s.m gpa 5 59 57 ∧ t.f.field s.m gpa 5 5 0 = k.field s.m gpa 5 5 0 ∧
                t.f.field s.m gpa 6 55 32 = k.field s.m gpa 6 55 32 ∧
                ((∀ p ∈ k.cores, p.2.runq = [] ∧ p.2.late = [] ∧ p.2.inbox = []) → (k.ctx n).cores = [] →
                  t.f.field s.m gpa 5 63 60 = 1))) ∧
      (s.f.operand s.m s.core n ea 64 false true false = .ok (word, k0) → s.Released k0 true .dom .dom k →
        let q := if b = 0 then 1 else eb.toNat
        (q = 0 → exec (.tdec g a b) s = .next (s.on k)) ∧
        (q ≠ 0 → ∃ t : State, exec (.tdec g a b) s = .next t ∧ t.cur = { s.cur with pc := s.cur.npc } ∧
          t.f.decs = k.decs ++ [⟨k.ids, n, ea.toNat, q, (k.ctx n).carry w.epoch, .tdec w⟩] ∧
          t.f.due = k.due ++ [.decrementApply k.ids] ∧ t.f.sameMemory k)) ∧
      (s.f.operand s.m s.core n ea 8 true false false = .ok (word, k0) →
        (∀ e, k0.operand s.m s.core n eb 64 false true false = .error (e, k1) → traps k1 (.twatch g a b) e eb) ∧
        (k0.operand s.m s.core n eb 64 false true false = .ok (recd, k1) →
          let x := word.getD 0
          let mine := k1.watches.filter fun y => y.ctx = n && y.vcore = me
          let busy := (∃ y ∈ k1.watches, y.word = x) ∨
            ∃ p ∈ k1.ctxs, ∃ y ∈ p.2.queues, k1.watchOf s.m (Fin.ofNat 64 p.1) y.1 0 y.2.watch0 = some x ∨
              k1.watchOf s.m (Fin.ofNat 64 p.1) y.1 1 y.2.watch1 = some x
          (busy → traps k1 (.twatch g a b) .watchBusy ea) ∧
          (¬busy →
            (Config.watches ≤ mine.length → traps k1 (.twatch g a b) .watchFull ea) ∧
            (mine.length < Config.watches →
              exec (.twatch g a b) s = .next (s.on { k1 with watches := k1.watches ++ [⟨x, n, me, eb.toNat⟩] })))))) ∧
    (s.Runs g [.s a] [] →
      (∀ e, s.f.operand s.m s.core n ea 8 true false false = .error (e, k0) → traps k0 (.tunwatch g a) e ea) ∧
      (s.f.operand s.m s.core n ea 8 true false false = .ok (word, k0) →
        ∃ t : State, exec (.tunwatch g a) s = .next t ∧ t.cur = { s.cur with pc := s.cur.npc } ∧
          (∀ y, y ∈ t.f.watches ↔ y ∈ k0.watches ∧ ¬(y.word = word.getD 0 ∧ y.ctx = n ∧ y.vcore = me)))) ∧
    (s.Runs g [] [] →
      let free := (∀ e ∈ (s.f.core s.core).mq, e.who.fid ∉ s.cur.fids) ∧ s.cur.ls.count .armed = 0
      (¬free → exec (.tend g) s = .next s) ∧
      (free → s.Released s.f true .dev .dev k →
        ∃ t : State, exec (.tend g) s = .next t ∧ t.cur = { Thread.reset with age := s.cur.age } ∧
          ∀ fi kid gpa r, s.cur.firing = some fi → fi.kid = some kid →
            k.liveRec s.m (s.f.core s.core).ctxId fi.recAddr = some (gpa, r) →
            ∃ r', t.f.liveAt gpa = some r' ∧ r'.running = r.running - 1)) ∧
    (s.Runs g [.s a] [] →
      let d := (s.f.core s.core).cbs[cb]
      let left := s.cur.allowance prod cb
      let i : Instr := .cbadv g cb a prod
      (d.en = false → traps s.f i .cbUnbound 0) ∧
      (d.en = true → left < ea.toNat → traps s.f i (if prod then .cbOverrun else .cbUnderrun) ea) ∧
      (d.en = true → ea.toNat ≤ left → s.Released s.f true .core .core k →
        ∃ t : State, exec i s = .next t ∧ t.cur = (s.cur.spendAllowance prod cb ea.toNat).adv ∧
          (t.f.core s.core).cbs = (k.core s.core).cbs.set cb
            (if prod then { d with pseq := (d.pseq + ea.toNat) % seqMod d }
             else { d with cseq := (d.cseq + ea.toNat) % seqMod d })))

/-- BARSET (R232), and when it finds the register busy (R302: ARR, RIN or CIN). The model's choice: a register counts as one with
XCH only while it is ON (log 34). -/
def Obligations.BarrierRegisters : Prop :=
  ∀ (s : State) (g : Guard) (bn : Fin 8) (a : SReg) (tree : Bool) (o : Occ),
    s.Runs g [.s a] [] → (s.f.core s.core).occ = some o →
    let d := s.cur.rd a
    let x := s.f.core s.core
    let ctx := s.f.ctx o.ctx
    let r := if tree then x.trees[bn] else x.bars[bn]
    let traps := fun (e : Cause) (v : Word) => exec (.barset g bn a tree) s = .next { s with f := s.f.trap s.m s.core s.th e v }
    let x0 := bits d.toNat 23 16
    let y0 := bits d.toNat 31 24
    let x1 := bits d.toNat 39 32
    let y1 := bits d.toNat 47 40
    let bad := bits d.toNat 63 48 ≠ 0 ∨ d.getLsbD 13 = true ∨ x1 < x0 ∨ y1 < y0 ∨
      ¬(x1 < ctx.lw ∧ y1 < ctx.lh) ∨ ¬(x0 ≤ o.vx ∧ o.vx ≤ x1 ∧ y0 ≤ o.vy ∧ o.vy ≤ y1) ∨
      (d.getLsbD 15 = true ∧ (tree = true ∨ ∃ k : Fin 8, k ≠ bn ∧ x.bars[k].xch = true))
    let busy := r.arr = true ∨ r.rin = true ∨ r.cin = true
    let fresh : BarReg := ⟨(d &&& ~~~(1#64 <<< 14)) ||| (1#64 <<< 14), false, false, false, false, 0, false⟩
    (tree = true ∧ ctx.priv = false → traps .privilege 0) ∧
    (¬(tree = true ∧ ctx.priv = false) →
      (bad → traps .barShape d) ∧
      (¬bad → busy → traps .barBusy (BitVec.ofNat 64 bn.val)) ∧
      (¬bad → ¬busy → ∃ t : State, exec (.barset g bn a tree) s = .next t ∧ t.cur = { s.cur with pc := s.cur.npc } ∧
        (t.f.core s.core).bars = (if tree then x.bars else x.bars.set bn fresh) ∧
        (t.f.core s.core).trees = (if tree then x.trees.set bn fresh else x.trees)))

/-- BARV and the barrier events (R233, R296 to R304). The model's choice: a report that finds the run queue full, or others waiting,
waits in the core's list late until an entry frees (log 21). -/
def Obligations.BarrierArrivals : Prop :=
  ∀ (s : State) (g : Guard) (bn : Fin 8) (tree : Bool) (k : Fab) (id : Nat) (c : CoreId) (o : Occ),
    let phase := fun (f : Fab) (c : CoreId) (d : Word) => leNum ((f.core c).locBytes (barBlk d) 8)
    let cleared := fun (d : Word) => (⟨d, false, false, false, false, 0, false⟩ : BarReg)
    let traps := fun (e : Cause) (v : Word) => exec (.barv g bn tree) s = .next { s with f := s.f.trap s.m s.core s.th e v }
    (s.Runs g [] [] → (s.f.core s.core).occ = some o →
      let r := (s.f.core s.core).bar tree bn
      let no := tree = true ∧ (s.f.ctx o.ctx).priv = false
      (no → traps .privilege 0) ∧
      (¬no → r.on = false → traps .barUnset (BitVec.ofNat 64 bn.val)) ∧
      (¬no → r.on = true → r.arr = true → traps .barBusy (BitVec.ofNat 64 bn.val)) ∧
      (¬no → r.on = true → r.arr = false → s.Released s.f true .dom .dom k →
        (k.xstsOut o = true → exec (.barv g bn tree) s = .next { s with f := k }) ∧
        (k.xstsOut o = false →
          ∃ t : State, exec (.barv g bn tree) s = .next t ∧ t.cur = { s.cur with pc := s.cur.npc } ∧
            ((t.f.core s.core).bar tree bn).arr = true ∧ ((t.f.core s.core).bar tree bn).desc = r.desc ∧
            ((t.f.core s.core).bar tree bn).epoch = laterEpoch r.epoch (s.f.who s.core s.th).epoch ∧
            (tree = false → r.fwd = false → barX0 r.desc = o.vx → barX1 r.desc = o.vx → barY0 r.desc = o.vy →
              barY1 r.desc = o.vy →
              t.f.bars = k.bars ++ [⟨k.ids, .release, o.ctx, bn, o.vx, o.vy, r.desc,
                laterEpoch r.epoch (s.f.who s.core s.th).epoch⟩])))) ∧
    (∀ b, s.f.bars.find? (·.id = id) = some b → s.f.find b.ctx b.vx b.vy = some c → s.f.closed c = false →
      (let r := (s.f.core c).bars[b.bn]
       (r.on = true → barSame r.desc b.desc = true →
        ∃ t : State, exec (.barrierArrivalReceive id) s = .next t ∧
          ((t.f.core c).bars[b.bn]).arr = r.arr ∧ ((t.f.core c).bars[b.bn]).desc = r.desc ∧
          ((t.f.core c).bars[b.bn]).rin = (r.rin || b.kind == .row) ∧ ((t.f.core c).bars[b.bn]).cin = (r.cin || b.kind == .col) ∧
          ((t.f.core c).bars[b.bn]).epoch = laterEpoch r.epoch b.epoch) ∧
       (r.on = false ∨ barSame r.desc b.desc = false →
        let x := s.f.core c
        let e : Ready := ⟨s.f.cycle, (s.f.ctx b.ctx).traprec, .report 0x1B b.desc (BitVec.ofNat 5 b.bn.val) none⟩
        let room := x.runq.length < Config.runQueue ∧ x.late = []
        ∃ t : State, exec (.barrierArrivalReceive id) s = .next t ∧ (t.f.core c).bars = x.bars ∧
          (room → (t.f.core c).runq = x.runq ++ [e] ∧ (t.f.core c).late = x.late) ∧
          (¬room → (t.f.core c).runq = x.runq ∧ (t.f.core c).late = x.late ++ [e]))) ∧
      (b.kind = .release →
        let r := (s.f.core c).bars[b.bn]
        let stands := r.on = true ∧ r.arr = true
        (stands → (s.f.core c).phaseWaits r.desc = true →
          ∃ t : State, exec (.barrierRelease id) s = .next t ∧
            t.f.bars = s.f.bars ∧ (t.f.core c).spad = (s.f.core c).spad ∧ (t.f.core c).bars = (s.f.core c).bars ∧
            (t.f.core c).held = (s.f.core c).held ++ [.barrierRelease id]) ∧
        (stands → (s.f.core c).phaseWaits r.desc = false →
          ∃ t : State, exec (.barrierRelease id) s = .next t ∧
            phase t.f c r.desc = (phase s.f c r.desc + 1) % 2 ^ 64 ∧
            (t.f.core c).bank = ((s.f.core c).bank != barXch r.desc) ∧
            (t.f.core c).xphase = (s.f.core c).xphase + (barXch r.desc).toNat ∧
            (t.f.core c).bars = (s.f.core c).bars.set b.bn (cleared r.desc) ∧
            (let cont := leNum ((s.f.core c).locBytes (barBlk r.desc + 8) 8)
             (cont = 0 → t.f.decs = s.f.decs) ∧
             (cont ≠ 0 → t.f.decs = s.f.decs ++
               [⟨s.f.ids, b.ctx, cont, 1, (s.f.ctx b.ctx).carry b.epoch, .barrier b.ctx b.vx b.vy⟩]))) ∧
        (¬stands → ∃ t : State, exec (.barrierRelease id) s = .next t ∧ t.f.cores = s.f.cores ∧ t.f.decs = s.f.decs ∧
          ∀ y ∈ s.f.bars, y.id ≠ id → y ∈ t.f.bars))) ∧
    (∀ ms, (s.f.core c).occ = some o →
      let d := (s.f.core c).trees[bn].desc
      o.vx = barX1 d → o.vy = barY1 d → s.f.treeReady o.ctx bn d = true → s.f.members o.ctx (barCores d) = some ms →
      (ms.map (·.2)).Nodup →
      ∃ t : State, exec (.treeRelease c bn) s = .next t ∧
        ∀ p ∈ ms, (s.f.core p.2).phaseWaits (s.f.core p.2).trees[bn].desc = false → s.f.closed p.2 = false →
          phase t.f p.2 (s.f.core p.2).trees[bn].desc = (phase s.f p.2 (s.f.core p.2).trees[bn].desc + 1) % 2 ^ 64 ∧
          (t.f.core p.2).trees[bn] = cleared (s.f.core p.2).trees[bn].desc)

/-- Active messages as heads (R221). The model's choices: the block is read at the head, under the conditions of a load of the
thread but without a check of R126 (log 10), and the wait for a copy in flight comes before the release (log 24). -/
def Obligations.MessageHeads : Prop :=
  ∀ (s : State) (g : Guard) (a b p : SReg) (i : Instr) (form : Nat) (rs : List Dst) (pos : Word),
    (i, form, rs, pos) ∈ [(.send g a b, 0, [.s a, .s b], 0), (.xcopy g a b, 1, [.s a, .s b], 0),
      (.xgather g a b, 2, [.s a, .s b], 0), (.xpref g a b, 3, [.s a, .s b], 0), (.xcoll g a b, 4, [.s a, .s b], 0),
      (Instr.resume g a b p, 5, [Dst.s a, .s b, .s p], s.cur.rd p)] →
    s.Runs g rs [] →
    let w := s.f.who s.core s.th
    let ea := s.cur.rd a
    let load := s.f.loadNow s.m s.core s.th { memReq ea 64 .load with check6 := false }
    let traps := fun (f : Fab) (e : Cause) => exec i s = .next { s with f := f.trap s.m s.core s.th e ea }
    (∀ e k0, load = .fault e k0 → traps k0 e) ∧
    (∀ k0, load = .wait k0 → exec i s = .next { s with f := k0 }) ∧
    (∀ bs k0, load = .done bs k0 →
      let blk := bytesLine bs
      let away := (s.f.ctx w.ctx).inLease (blkVx blk) (blkVy blk) = false
      let bad := blkRk blk = 3 ∨ (form = 5 ∧ blkKind blk = 3) ∨ (form = 0 ∧ blkRmt blk = false ∧ away) ∨
        (form = 1 ∧ blkCbf blk = true ∧ away)
      let full := (form = 1 ∨ form = 2 ∨ form = 5) ∧ Config.copyFlight ≤ s.f.copiesOf w
      (bad → traps k0 .msgFormat) ∧
      (¬bad → full → exec i s = .next { s with f := k0 }) ∧
      ∀ k, ¬bad → ¬full → s.Released k0 true .dom .dom k →
        ∃ (t : State) (inbox : Nat), exec i s = .next t ∧ t.cur = { s.cur with pc := s.cur.npc } ∧ t.f.sameMemory k ∧
          t.f.msgs = k.msgs ++ [⟨k.ids, form, blk, (s.cur.rd b).truncate 32, w, pos.toNat, inbox, k.cycle + 64 * blkHold blk,
            false⟩] ∧
          (form ≠ 3 → inbox = clusterOf s.core.val) ∧
          t.f.due = (if blkHold blk = 0 then k.due ++ [.messageInject k.ids] else k.due))

/-- TRAP, RTE's return and NOP (R234, R235, R238, R342). The model's choice: a parked thread's TRAPCAUSE keeps the code of its
last trap (log 20). -/
def Obligations.SoftwareTrap : Prop :=
  ∀ (s : State) (g : Guard) (code : BitVec 16),
    let report := s.cur.firing.map (·.kind) = some .report
    (s.Runs g [] [] → s.cur.st = .running → ¬report →
      ∃ t : State, exec (.trap g code) s = .next t ∧
        (t.cur.st = .trapping ∨ t.cur.st = .routine ∨ t.cur.st = .parked) ∧
        (t.cur.ctl.trapcause = 0x1F ∨ (t.cur.st = .parked ∧ t.cur.ctl.trapcause = 3)) ∧
        t.cur.ctl.trapaddr = code.zeroExtend 64 ∧ t.cur.ctl.trappc = s.cur.npc) ∧
    (s.Runs g [] [] → s.cur.st = .routine ∨ report →
      ∃ t : State, exec (.trap g code) s = .next t ∧ t.cur.st = .parked ∧
        t.cur.ctl = { s.cur.ctl with trapcause := 0x1F } ∧
        (s.f.trapq.length < Config.trapq →
          ∃ x : Word, t.f.trapq = s.f.trapq ++ [x] ∧ x.toNat % 256 = 0x1F ∧ x.toNat / 2 ^ 24 % 256 = s.th.val)) ∧
    (s.Runs g [] [] → s.cur.st = .routine → s.cur.owes = false →
      ∃ t : State, exec (.rte g) s = .next t ∧ t.cur.pc = s.cur.ctl.trappc ∧ t.cur.st = .running) ∧
    (s.cur.alive → s.cur.rdp g.gp = g.gn → exec (.trap g code) s = .next (s.withCur { s.cur with pc := s.cur.npc })) ∧
    (s.cur.alive → exec (.nop g) s = .next (s.withCur { s.cur with pc := s.cur.npc }))

/-- Taking a trap and returning from one (R235, R339 to R343). The model's choices: what the frame's words of a running task hold
and what becomes of a routine's unanswered atomic (log 13); the words of a saved slot, and that one made ARMED in the save area
starts its load at RTE (log 14); RTE waits for what the routine's loads still owe, and a parked thread's TRAPCAUSE keeps its code
(log 20). -/
def Obligations.TrapEntryAndReturn : Prop :=
  ∀ (s : State) (c : CoreId) (h : ThreadId) (g : Guard),
    let t := s.f.thread c h
    let o := ((s.f.core c).occ.getD ⟨0, 0, 0⟩)
    let x := s.f.ctx o.ctx
    let report := t.firing.map (·.kind) = some .report
    let enters := fun (f u : Fab) (k : Ctrl) =>
      let t' := f.thread c h
      let v := ((f.writeFrame s.m c h 2).modThread c h fun y =>
        { y with savedLs := y.ls, savedPend := y.pend, pend := [] }).saveLanding s.m c h
      (∀ la, (∀ j, j < 0x600 → s.m.place (s.f.frameAt c h + j) = .own (la + j)) →
        (∀ j, j < 576 → s.m.place (s.f.saveAt c + landingOff h + j) = .own (la + (landingOff h - frameOff h) + j)) →
        v.bytesAt s.m (s.f.frameAt c h) 0x600 = frameBytes t' 2 ∧
        v.bytesAt s.m (s.f.saveAt c + landingOff h) 576 = t'.ls.saved) ∧
      (x.traprec = 0 → u = v.park s.m c h k.trapcause) ∧
      (∀ v', x.traprec ≠ 0 → v.lineWords s.m c (v.who c h) x.traprec = .error v' → u = v'.park s.m c h 0x03) ∧
      (∀ ws v', x.traprec ≠ 0 → v.lineWords s.m c (v.who c h) x.traprec = .ok (ws, v') →
        (let r := u.thread c h
         r.st = .routine ∧ r.pc = BitVec.ofNat 57 (ws.getD 0 0 % 2 ^ 57) ∧ r.npc = r.pc ∧
         r.rd 1 = BitVec.ofNat 64 x.traprec ∧ r.rd 2 = BitVec.ofNat 64 (0x40400 + 0x600 * h.val) ∧
         r.rd 3 = BitVec.ofNat 64 (o.vy * x.lw + o.vx) ∧ r.rd 31 = BitVec.ofNat 64 (ws.getD 2 0 % 2 ^ 57) ∧
         r.ctl.trapcause = k.trapcause ∧ r.ctl.trapaddr = k.trapaddr ∧ r.ctl.trappc = k.trappc ∧ r.ctl.taketag = k.taketag ∧
         r.savedLs = t'.ls ∧ r.ls = Landing.empty ∧ r.firing = t'.firing))
    let back := fun (u : Fab) (k : Ctrl) =>
      let w := fun (off : Nat) => leNum (s.f.bytesAt s.m (s.f.frameAt c h + off) 8)
      let slot := fun (off : Nat) => leNum (s.f.bytesAt s.m (s.f.saveAt c + landingOff h + off) 8)
      let set := s.f.savedSet s.m c h
      let r := u.thread c h
      r.st = .running ∧ r.pc = k.trappc ∧ r.ctl.trapcause = k.trapcause ∧ r.ctl.trapaddr = k.trapaddr ∧
      r.ctl.trappc = k.trappc ∧ r.ctl.taketag = k.taketag ∧
      (∀ q : SReg, q ≠ 0 → (∀ p ∈ t.savedPend, p.st = .retry → p.dst ≠ .s q) →
        r.rd q = BitVec.ofNat 64 (w (8 * q.val))) ∧
      (∀ q : PReg, q ≠ 0 → r.rdp q = (BitVec.ofNat 8 (w 0x108)).getLsbD q.val) ∧
      (∀ q : VReg, (∀ p ∈ t.savedPend, p.st = .retry → p.dst ≠ .v q) →
        r.rdv q = bytesLine (s.f.bytesAt s.m (s.f.frameAt c h + 0x200 + 64 * q.val) 64)) ∧
      (∀ q : Tag, let y := set.slots[q]
        let w0 := slot (16 * q.val)
        let w1 := slot (16 * q.val + 8)
        (y.st = .free ↔ w1 / 2 ^ 62 = 0) ∧ (y.st = .armed ↔ w1 / 2 ^ 62 = 1) ∧ (y.st = .landed ↔ w1 / 2 ^ 62 = 2) ∧
        (y.st = .faulted ↔ w1 / 2 ^ 62 = 3) ∧ (y.st = .landed → y.val = BitVec.ofNat 64 w0) ∧
        (y.st = .armed ∨ y.st = .faulted → y.addr = BitVec.ofNat 64 w0)) ∧
      (t.take = none → (∀ q : Tag, set.slots[q].st = .armed → set.slots[q] = t.savedLs.slots[q]) → r.ls = set)
    let free := fun (u : Fab) => u.thread c h = { Thread.reset with age := t.age }
    (∀ code addr pc tag elem take,
      let u := s.f.trapFull s.m c h code addr pc tag elem take
      let k := { t.ctl with trapcause := code, trapaddr := addr, trappc := pc, taketag := tag.getD t.ctl.taketag }
      let f := (s.f.dropReads c h).modThread c h fun t =>
        { t with ctl := k, st := .trapping, elem := elem, take := take, wdrain := none }
      (t.st = .routine ∨ report →
        (u.thread c h).st = .parked ∧ (u.thread c h).ls = Landing.empty ∧ (u.thread c h).ctl.trapcause = code ∧
        (∀ p ∈ t.pend, p.st.open = true → p.op.isLoad = false → ∃ y ∈ u.loose, y.c = c ∧ y.h = h ∧ y.p = p) ∧
        (∀ la, s.m.place (s.f.frameAt c h + 0x170) = .own la → s.m.place (s.f.frameAt c h + 0x177) = .own (la + 7) →
          u.word s.m (s.f.frameAt c h + 0x170) = 3) ∧
        u.trapq = (if s.f.trapq.length < Config.trapq then s.f.trapq ++ [BitVec.ofNat 64 (2 ^ 63 + o.ctx.val * 2 ^ 56 +
          (o.vy * x.lw + o.vx) % 2 ^ 16 * 2 ^ 32 + h.val * 2 ^ 24 + code.toNat)] else s.f.trapq)) ∧
      (t.st ≠ .routine → ¬report → t.owes = true → u = f.push (.trapEntry c h)) ∧
      (t.st ≠ .routine → ¬report → t.owes = false → enters f u k)) ∧
    (t.st = .trapping → t.owes = false → ∃ u : Fab, exec (.trapEntry c h) s = .next { s with f := u } ∧ enters s.f u t.ctl) ∧
    (t.st = .trapping → t.owes = true → exec (.trapEntry c h) s = .next s) ∧
    (s.Runs g [] [] → c = s.core → h = s.th →
      (t.owes = true → (t.st = .routine ∨ report) → exec (.rte g) s = .next s) ∧
      (t.st = .routine → t.owes = false → ∃ u : Fab, exec (.rte g) s = .next { s with f := u } ∧ back u t.ctl) ∧
      (t.st ≠ .routine → report → t.owes = false → ∃ u : Fab, exec (.rte g) s = .next { s with f := u } ∧ free u) ∧
      (t.st ≠ .routine → ¬report → exec (.rte g) s = .next { s with f := s.f.trap s.m c h .privilege 0 })) ∧
    (∀ n vcore, s.f.coreNum n vcore.toNat = some c →
      let resume := exec (.trapcmdResume n vcore h) s
      let abort := exec (.trapcmdAbort n vcore h) s
      let held := ∃ e ∈ (s.f.core c).mq, e.who.fid ∈ t.fids
      (t.st ≠ .parked ∨ s.m.bar0 = false → resume = .next s) ∧
      (t.st ≠ .aborting → t.st ≠ .parked ∨ s.m.bar0 = false → abort = .next s) ∧
      (t.st = .parked → s.m.bar0 = true →
        (∃ u : Fab, resume = .next { s with f := u } ∧ (report → free u) ∧
          (¬report → back u (frameTraps (s.f.bytesAt s.m (s.f.frameAt c h) 0x600) t.ctl))) ∧
        ∃ u : Fab, abort = .next { s with f := u } ∧ (¬held → free u) ∧
          (held → (u.thread c h).st = .aborting ∧ (u.thread c h).ls = Landing.empty ∧
            ∀ e, e ∈ (u.core c).flog ↔ e ∈ (s.f.core c).flog ∧ e.who.fid ∉ t.fids)) ∧
      (t.st = .aborting → held → abort = .next s) ∧
      (t.st = .aborting → ¬held → ∃ u : Fab, abort = .next { s with f := u } ∧ free u)) ∧
    (s.m.bar0 = false → exec .trapqRead s = .next s) ∧
    (s.m.bar0 = true → exec .trapqRead s = .next { s with
      f := { s.f with trapq := s.f.trapq.tail, out := s.f.out ++ [.reg 0x5000 (s.f.trapq.headD 0)] } })

/-- Control registers (R69, R70, R236, R237). -/
def Obligations.ControlRegisters : Prop :=
  ∀ (s : State) (g : Guard) (d : SReg) (r : Ctl),
    let x := s.f.core s.core
    let ctx := s.f.ctx x.ctxId
    let v := s.cur.rd d
    let k := s.cur.ctl
    let reads := fun (r : Ctl) (y : Word) => exec (.ctlrd g d r) s = .next (s.withCur (s.cur.wr d y).adv)
    let leaves := fun (r : Ctl) (y : Word) => ∃ t : State, exec (.ctlwr g d r) s = .next t ∧
      t.cur = { s.cur with pc := s.cur.npc, ctl := t.cur.ctl } ∧ ctlValue t.m t.f s.core s.th r = y ∧
      ∀ q, q ≠ r → ctlValue t.m t.f s.core s.th q = ctlValue s.m s.f s.core s.th q
    (s.Runs g [] [.s d] →
      reads r (ctlValue s.m s.f s.core s.th r) ∧
      exec (.timenow g d) s = .next (s.withCur (s.cur.wr d s.m.time[dieOf s.core.val % 4]).adv) ∧
      reads .timenow s.m.time[dieOf s.core.val % 4] ∧ reads .thid (BitVec.ofNat 64 s.th.val) ∧
      (∀ o, x.occ = some o →
        reads .vcoreid (BitVec.ofNat 64 (o.vy % 256 * 256 + o.vx % 256)) ∧
        reads .ctxid (BitVec.ofNat 64 (ctx.priv.toNat * 512 + ctx.det.toNat * 256 + o.ctx.val))) ∧
      reads .taskrec (k.taskrec.zeroExtend 64) ∧ reads .trapcause (k.trapcause.zeroExtend 64) ∧ reads .trapaddr k.trapaddr ∧
      reads .trappc (k.trappc.zeroExtend 64) ∧ reads .taketag (k.taketag.zeroExtend 64) ∧ reads .xferid (k.xferid.zeroExtend 64) ∧
      reads .trapen (BitVec.ofNat 64 (k.wovf.toNat * 2 + k.wbud.toNat)) ∧ reads .fmta (k.fmta.zeroExtend 64) ∧
      reads .fmtb (k.fmtb.zeroExtend 64) ∧ reads .scla (k.scla.zeroExtend 64) ∧ reads .sclb (k.sclb.zeroExtend 64) ∧
      reads .fade (k.fade.zeroExtend 64) ∧ reads .agemax (x.agemax.zeroExtend 64) ∧ reads .aggage (x.aggage.zeroExtend 64) ∧
      reads .landctl (BitVec.ofNat 64 x.landctl.toNat)) ∧
    (s.Runs g [.s d] [] →
      leaves .trapcause (v &&& 0xFF) ∧ leaves .trapaddr v ∧ leaves .trappc (BitVec.ofNat 64 (v.toNat % 2 ^ 57)) ∧
      leaves .taketag (v &&& 0x1F) ∧ leaves .trapen (v &&& 3) ∧ leaves .fmta (v &&& 0x1F) ∧ leaves .fmtb (v &&& 0x1F) ∧
      leaves .scla (BitVec.ofNat 64 (v.toNat % 2 ^ 57)) ∧
      leaves .sclb (BitVec.ofNat 64 (v.toNat % 2 ^ 57)) ∧ leaves .fade (v &&& 0xFFFFFFFF) ∧
      (ctx.priv = true →
        leaves .agemax (BitVec.ofNat 64 (max 16 (min 4096 (v.toNat % 2 ^ 13)))) ∧
        leaves .landctl (v &&& 1) ∧ leaves .aggage (BitVec.ofNat 64 (max 64 (v.toNat % 2 ^ 16)))) ∧
      (ctx.priv = false → ∀ p ∈ [(Ctl.agemax, 0x40), (Ctl.landctl, 0x41), (Ctl.aggage, 0x42)],
        exec (.ctlwr g d p.1) s = .next { s with f := s.f.trap s.m s.core s.th .privilege p.2 }))

/-- Answers (R62, R112, R157, R160, R225, R329, R330, R337). The model's choices: which bytes of a line another device sends (log 6);
the width that a fault-log entry of a write notes (log 9); the list in which what waits for a core stands (log 17); that a fault log
takes an entry past its 64th (log 21); and the answer to a link peer's write that covers a poisoned line in part (log 33). -/
def Obligations.AnswersFromOutside : Prop :=
  ∀ (s : State) (c : CoreId) (h : ThreadId) (k : Tag) (ext : Word) (extc : Option Cause) (id : Nat),
    let t := s.f.thread c h
    let marked := fun (cause : Cause) (u : State) =>
      u.f.thread c h = { t with pend := t.pend.map fun q =>
        if q.id = id && q.st.open then { q with st := .refused cause } else q }
    (∀ saved x, s.f.armedAt s.m c h k id = some (saved, x) →
      let load := s.f.slotLoad s.m c h saved x
      let sent := ∃ y ∈ s.f.sent, y.what = .slot c h id
      let arrival := exec (.landingSlotArrival c h k ⟨id, ext⟩) s
      let fault := exec (.landingSlotFault c h k ⟨id, extc⟩) s
      let lands := fun (r : Host.Outcome State Fault Refusal) (y : Slot) => ∃ u : State, r = .next u ∧
        let old := if saved then t.savedLs else t.ls
        let new := if saved then (u.f.thread c h).savedLs else (u.f.thread c h).ls
        let before := fun (i : Tag) => decide (old.slots[i].at' < s.f.cycle) || (old.slots[i].at' = s.f.cycle && i < k)
        new.slots = old.slots.set k { y with at' := s.f.cycle } ∧
        new.order = old.order.takeWhile before ++ k :: old.order.dropWhile before
      let fails := fun (e : Cause) => lands fault { x with st := .faulted, cause := some e }
      (sent → lands arrival { x with st := .landed, val := ldExtend x.ty ext.toNat } ∧
        ∀ e, extc = some e → e = .pageFault ∨ e = .conflict → fails e) ∧
      (¬sent →
        (∀ v g, load = .value v g → lands arrival { x with st := .landed, val := v } ∧
          (extc = some .pageFault → s.f.slotAtHost s.m c h x = true → fails .pageFault)) ∧
        (∀ gpa g, load = .away gpa g → arrival = .next { s with f := g.sendSlot s.m c h id gpa }) ∧
        (∀ g, load = .wait g → arrival = .next { s with f := g.holdAt c (.landingSlotArrival c h k ⟨id, ext⟩) }) ∧
        (∀ e g, load = .fault e g → fails e))) ∧
    (∀ p, t.owed id true = some p →
      let rest : Thread := { t with pend := t.pend.filter fun q => q.id ≠ p.id }
      let gets := fun (v : Line) => if p.overwritten then rest else rest.wrDst p.dst (p.op.answer v)
      (∀ v, p.held = false → ∃ u, exec (.remoteAnswer c h id (.value v)) s = .next u ∧ u.f.thread c h = gets v) ∧
      (∀ v, p.held = true → t.alive → ∃ u, exec (.remoteAnswer c h id (.value v)) s = .next u ∧
        u.f.thread c h = (gets v).adv) ∧
      (∀ e, e = .pageFault ∨ e = .conflict → ∃ u, exec (.remoteAnswer c h id (.refused e)) s = .next u ∧ marked e u)) ∧
    (∀ r ans, t.owed id true = none → s.f.reads.find? (fun r => r.id = id && r.ans.isNone) = some r →
      (∀ e, ans = .refused e → e = .pageFault ∨ e = .conflict) →
      ∃ u, exec (.remoteAnswer c h id ans) s = .next u ∧ u.f.cores = s.f.cores ∧
        u.f.reads = s.f.reads.map fun x => if x.id = id then { x with ans := some ans } else x) ∧
    (∀ r, s.f.rwrites.find? (·.id = id) = some r → (∀ e ∈ s.f.elems, e.id ≠ id) →
      let ended := s.f.rwrites.filter fun x => x.id ≠ id
      (∃ u, exec (.remoteWriteAck id none) s = .next u ∧ u.f.rwrites = ended ∧ u.f.cores = s.f.cores ∧ u.f.sameMemory s.f ∧
        ∀ y ∈ u.f.sent, y.what ≠ .write id) ∧
      (∀ cause, cause = .pageFault ∨ (cause = .conflict ∧ s.m.atHost r.gpa = false) →
        (∀ o pos, r.op = some (o, pos) → ∃ u, exec (.remoteWriteAck id (some cause)) s = .next u ∧ u.f.rwrites = ended ∧
          (∀ x ∈ s.f.ops, x.msg.id = o → { x with bad := lowerBad x.bad (pos, cause, r.ea) } ∈ u.f.ops) ∧
          ∀ x ∈ s.f.contribs, (∃ y, x.own = some y ∧ y.id = o) →
            { x with bad := lowerBad x.bad (pos, cause, r.ea) } ∈ u.f.contribs) ∧
        (∀ d, r.op = none → r.queue = none → r.who.fid ≠ 0 → s.f.find r.who.ctx r.who.vx r.who.vy = some d →
          let e : LogEntry := ⟨r.who, r.ea, cause, r.major, r.minor, Config.logWidth r.bytes.length,
            BitVec.ofNat 64 (leNum r.bytes), .write r.gpa r.bytes, none⟩
          (∀ y ∈ (s.f.core d).flog ++ [e], (s.f.core d).holds y.who.fid = true) →
          ∃ u, exec (.remoteWriteAck id (some cause)) s = .next u ∧ u.f.rwrites = ended ∧
            (u.f.core d).flog = (s.f.core d).flog ++ [e]))) ∧
    (∀ (p : PortId) (q : IngReq), s.m.ports[p].st = .up →
      let gpa := s.m.gpa q.addr
      let seen := ∃ a ∈ s.f.answers, a.dev = q.dev ∧ a.num = q.num
      let admits := ∃ w ∈ s.m.ingwin.toList, w.admits q.dev q.addr (ingSize q.kind) (ingWrites q.kind) = true
      let does := fun (f : Fab) (a : Answer) => exec (.ingressRequest p q) s =
        .next { s with f := Fab.carry { f with answers := f.answers ++ [a] } p (.answer q.dev q.num) }
      let answers := does s.f
      let writes := fun (bs old : List Byte) => ∃ u, exec (.ingressRequest p q) s = .next u ∧
        u.f.answers = s.f.answers ++ [⟨q.dev, q.num, none, old⟩] ∧
        (∀ j, j < bs.length → u.f.devByte (q.addr + j) =
          if s.f.owned (s.m.gpa (q.addr + j)) = true then s.f.devByte (q.addr + j) else bs.getD j 0) ∧
        ∀ la, (la < q.addr ∨ q.addr + bs.length ≤ la) → u.f.devByte la = s.f.devByte la
      (∀ chime, q.kind = .ack chime → ∃ u, exec (.ingressRequest p q) s = .next u ∧
        (∀ a, a ∈ u.f.answers ↔ a ∈ s.f.answers ∧ ¬(chime = false ∧ a.dev = q.dev ∧ a.num = q.num)) ∧
        ∀ y, y ∈ u.f.chimed ↔ y ∈ s.f.chimed ∧ ¬(chime = true ∧ y.dev = q.dev ∧ y.id.toNat = q.num)) ∧
      ((∀ chime, q.kind ≠ .ack chime) →
        (seen → exec (.ingressRequest p q) s = .next { s with f := s.f.carry p (.answer q.dev q.num) }) ∧
        (¬seen → ¬admits → answers ⟨q.dev, q.num, some .pageFault, []⟩) ∧
        (¬seen → admits →
          let bad := s.f.poisoned gpa (ingSize q.kind)
          (∀ n, q.kind = .read n → answers (if bad then ⟨q.dev, q.num, some .pageFault, []⟩
            else ⟨q.dev, q.num, none, s.f.hostBytes q.addr n⟩)) ∧
          (∀ bs, q.kind = .write bs → s.f.partPoison gpa bs.length = true → answers ⟨q.dev, q.num, some .pageFault, []⟩) ∧
          (∀ n e cause, q.kind = .decrement n e → s.f.linkDecrement s.m gpa n e = .error cause →
            answers ⟨q.dev, q.num, some cause, []⟩) ∧
          (∀ n e g, q.kind = .decrement n e → s.f.linkDecrement s.m gpa n e = .ok g → does g ⟨q.dev, q.num, none, []⟩) ∧
          (s.m.devnum ≠ 0x3FFF → q.addr + ingSize q.kind ≤ 2 ^ 39 →
            (∀ bs, q.kind = .write bs → s.f.partPoison gpa bs.length = false → writes bs []) ∧
            (∀ op wd b, q.kind = .atomic op wd b → bad = false →
              let r := atomRun op wd false (s.f.bytesAt s.m gpa (wdSize wd)) b
              writes r.bytes (leBytes (wdSize wd) r.old.toNat)) ∧
            (∀ wd b v, q.kind = .cas wd b v → bad = false →
              let r := casRun wd (s.f.bytesAt s.m gpa (wdSize wd)) b v
              writes r.bytes (leBytes (wdSize wd) r.old.toNat)))))) ∧
    (∀ dev, (s.m.routed dev = true ∨ dev = s.m.devnum.toNat → exec (.linkLostTimeout dev) s = .next s) ∧
      (s.m.routed dev = false → dev ≠ s.m.devnum.toNat →
        let at' := fun (gpa : Nat) => ∃ la, s.m.place gpa = .other dev la
        ∃ u, exec (.linkLostTimeout dev) s = .next u ∧
          (∀ p ∈ t.pend, (∃ x ∈ s.f.cores, x.1 = c.val) → p.st = .waiting → p.remote = true → p.tgt.isAt s.m dev = true →
            { p with st := .refused .linkLost } ∈ (u.f.thread c h).pend) ∧
          (∀ x, (∃ x ∈ s.f.cores, x.1 = c.val) → s.f.armedAt s.m c h k id = some (false, x) →
            (∃ y ∈ s.f.sent, y.what = .slot c h id ∧ y.dev = dev) →
            ((u.f.thread c h).ls.slots[k]).st = .faulted ∧ ((u.f.thread c h).ls.slots[k]).cause = some .linkLost) ∧
          (∀ r ∈ s.f.reads, r.ans = none → at' r.gpa → ∀ y ∈ u.f.reads, y.id = r.id → y.ans = some (.refused .linkLost)) ∧
          (∀ r ∈ u.f.rwrites, ¬at' r.gpa) ∧ (∀ y ∈ u.f.sent, y.dev ≠ dev) ∧
          (∀ x ∈ s.f.msgs, x.away dev = true →
            ∃ y ∈ u.f.chimes, y.msg = x ∧ y.code = .fault ∧ y.cause = some .linkLost ∧ y.pos = 0))) ∧
    (∃ u, exec (.flushAcknowledge c h) s = .next u ∧
      (∀ e ∈ s.f.elems, e.st ≠ .applied → e ∈ u.f.elems) ∧
      (∀ e ∈ u.f.elems, e.st = .applied → ∀ p ∈ e.parts, ¬(p.2.1.th = h ∧ s.f.find p.2.1.ctx p.2.1.vx p.2.1.vy = some c))) ∧
    (∀ p gpa e, t.owed id false = some p → p.tgt = .mem gpa e → s.m.atHost gpa = true →
      ∃ u, exec (.pcieCompletionTimeout c h id) s = .next u ∧ marked .pageFault u) ∧
    (∀ r, t.owed id false = none → (∀ e ∈ s.f.elems, e.id ≠ id) →
      s.f.rwrites.find? (fun r => r.id = id && s.m.atHost r.gpa) = some r → r.queue = none →
      ∃ u, exec (.pcieCompletionTimeout c h id) s = .next u ∧ u.f.rwrites = s.f.rwrites.filter fun x => x.id ≠ id)

/-- Elements and the write lane (R107 to R120, R246, R315). The model's choices: whether a router merges is the event's (log 25);
of the bytes of a queued line that a home slice holds newer, the slice keeps its own (log 23); a window reached after others have
passed opens once for all of them (log 27). -/
def Obligations.ElementsAndWriteLane : Prop :=
  ∀ (s : State) (c : CoreId) (i : Fin 16) (id : Nat) (k : StackId),
    (∀ j b, (s.f.core c).agg.find? (·.1 = i.val) = some (j, b) →
      (s.f.cycle < b.born + (s.f.core c).aggage.toNat → exec (.aggageExpiry c i) s = .next s) ∧
      (b.born + (s.f.core c).aggage.toNat ≤ s.f.cycle → ∃ t : State, exec (.aggageExpiry c i) s = .next t ∧
        t.f.elems = s.f.elems ++ b.elems.map (fun e => { e with st := .flight }) ∧
        t.f.due = s.f.due ++ b.elems.map Elem.event ∧ ∀ p ∈ (t.f.core c).agg, p.1 ≠ i.val)) ∧
    (∀ e op wd b u, s.f.elems.find? (fun e => e.id = id && e.st == .flight) = some e → e.op = .amo op wd b u →
      let n := wdSize wd
      let applies := fun (p : State → Prop) => ∃ t : State, exec (.aggregationElementApply id false) s = .next t ∧
        t.f.elems = s.f.elems.map (fun x => if x.id = e.id then { x with st := .applied } else x) ∧ p t
      (∀ cl, e.dest = .slice cl → s.f.behind e = true → exec (.aggregationElementApply id false) s = .next s) ∧
      (s.f.behind e = false →
        (∀ cl la, e.dest = .slice cl → s.m.place e.gpa = .own la → s.f.poisoned e.gpa n = false →
          let clash := e.parts.any fun p => (s.f.ctx e.who.ctx).conflicts p.2.1 e.gpa (u == .comm)
          (e.chk = true → clash = true → ∃ t : State, exec (.aggregationElementApply id false) s = .next t ∧
            t.f.elems = s.f.elems.filter (fun x => x.id ≠ e.id) ∧ t.f.mem = s.f.mem) ∧
          (e.chk = false ∨ clash = false → applies fun t =>
            ∀ j, j < n → t.f.devByte (la + j) =
              if s.f.owned (s.m.gpa (la + j)) = true then s.f.devByte (la + j)
              else (atomRun op wd false (s.f.bytesAt s.m e.gpa n) b).bytes.getD j 0)) ∧
        (∀ vx vy d, e.dest = .core vx vy → s.f.find e.who.ctx vx vy = some d → s.f.closed d = false →
          (s.f.core d).locked (e.ea.toNat % 2 ^ 18) (if onWindow op e.ea then 64 else n) = false →
          applies fun t => { t.f.core d with held := [] } =
            { ((s.f.core d).atomLocal op wd (onWindow op e.ea) (e.ea.toNat % 2 ^ 18) b).1 with held := [] }) ∧
        (∀ dev ep, e.dest = .device dev ep → s.f.posted e = false →
          ∃ (t : State) (r : RWrite), exec (.aggregationElementApply id false) s = .next t ∧ t.f.rwrites = s.f.rwrites ++ [r] ∧
            r.id = id ∧ r.who = e.who ∧ r.gpa = e.gpa ∧ r.posted = some (op, wd, b))) ∧
      (∀ y, s.f.posted e = false →
        s.f.elems.find? (fun x => mergeable (s.f.ctx e.who.ctx) e x && !s.f.posted x) = some y →
        ∃ t : State, exec (.aggregationElementApply id true) s = .next t ∧ e.merge y ∈ t.f.elems ∧ ∀ x ∈ t.f.elems, x.id ≠ y.id)) ∧
    (∀ e vx vy off n val stamp d, s.f.elems.find? (fun e => e.id = id && (e.st == .flight || e.st == .held)) = some e →
      e.op = .xst vx vy off n val stamp → s.f.find e.who.ctx vx vy = some d →
      let x := s.f.core d
      (s.f.closed d = true ∨ s.f.behind e = true → exec (.xstLand id) s = .next { s with f := s.f.holdAt d (.xstLand id) }) ∧
      (s.f.closed d = false → s.f.behind e = false →
        (x.exchange = none ∨ stamp < x.xphase →
          ∃ t : State, exec (.xstLand id) s = .next t ∧ t.f.elems = s.f.elems.filter (fun y => y.id ≠ e.id)) ∧
        (x.exchange ≠ none → x.xphase < stamp → ∃ t : State, exec (.xstLand id) s = .next t ∧
          (∀ q, { t.f.core q with held := [] } = { s.f.core q with held := [] }) ∧
          t.f.elems = s.f.elems.map fun y => if y.id = id then { y with st := .held } else y) ∧
        (x.exchange ≠ none → stamp = x.xphase → ∃ t : State, exec (.xstLand id) s = .next t ∧
          t.f.elems = s.f.elems.map (fun y => if y.id = e.id then { y with st := .applied } else y) ∧
          (t.f.core d).visible = x.visible ∧ (t.f.core d).spad = x.spad ∧
          (∀ j, j < n → peek (t.f.core d).shadow (off - 0x20000 + j) = BitVec.ofNat 8 (val.toNat / 2 ^ (8 * j))) ∧
          ∀ a, (a < off - 0x20000 ∨ off - 0x20000 + n ≤ a) → peek (t.f.core d).shadow a = peek x.shadow a))) ∧
    (s.m.windowNo k = s.f.winAt[k] → exec (.writeBudgetWindow k) s = .next s) ∧
    (s.m.windowNo k ≠ s.f.winAt[k] →
      ∃ t : State, exec (.writeBudgetWindow k) s = .next t ∧ t.f.winAt[k] = s.m.windowNo k ∧
        ∀ n, (t.f.ctx n).debt[k] = (s.f.ctx n).debt[k] - (s.f.ctx n).wbudget[k] ∧
          ((∀ e ∈ s.f.wl, e.stack = k → e.who.ctx = n → e.place = .queue) →
            (t.f.ctx n).allow[k] = (s.f.ctx n).wbudget[k] - (s.f.ctx n).debt[k])) ∧
    (∀ e, s.f.nextLine k = some e → ∀ x ∈ s.f.wl, x.stack = k → x.place = .queue → x.rank ≤ e.rank) ∧
    (∀ e, s.f.wl.find? (fun e => e.id = id && e.place == .queue) = some e → s.f.nextLine e.stack = some e → e.stale = false →
      ∃ t : State, exec (.writeLaneDrain id) s = .next t ∧ (∀ x ∈ t.f.wl, x.id ≠ id) ∧
        (s.f.dirtyAt e.line = none →
          (∀ j, j < 64 → peek t.f.mem (64 * e.line + j) = e.data.extractLsb' (8 * j) 8) ∧
          ∀ a, (a < 64 * e.line ∨ 64 * e.line + 64 ≤ a) → peek t.f.mem a = peek s.f.mem a) ∧
        (∀ d, s.f.dirtyAt e.line = some d →
          t.f.dirtyAt e.line = some { d with hbm := e.data } ∧ t.f.mem = s.f.mem)) ∧
    ∀ e ∈ s.f.wl, e.id = id → e.wlc = 1 → e.place = .queue →
      ∃ t : State, exec (.wlcBackgroundPromote id) s = .next t ∧ { e with high := true } ∈ t.f.wl ∧
        ({ e with high := true } : WEntry).rank = 2

/-- Task events (R214, R215, R223, R267, R271, R275). The model's choice: a decrement, a wake or a barrier message of the context
that is on its way keeps a kernel from being quiescent (log 39). -/
def Obligations.TaskEvents : Prop :=
  ∀ (s : State) (id : Nat) (c : CoreId) (h : ThreadId),
    let calm := ∀ d, (s.f.core d).chain = [] ∧ (s.f.core d).late = [] ∧ (s.f.core d).runq.length < Config.runQueue
    (∀ d gpa la, s.f.decs.find? (·.id = id) = some d → s.f.recWr s.m d.ctx d.recAddr = some gpa → s.m.place gpa = .own la →
      gpa % 64 = 0 →
      let count := s.f.field s.m gpa 1 31 0
      let clean := s.f.poisoned gpa 64 = false
      let epoch := max (s.f.field s.m gpa 4 31 0) (if (s.f.ctx d.ctx).det then d.epoch.toNat else 0)
      (s.f.decBehind s.m d = true → exec (.decrementApply id) s = .next { s with
        f := { s.f with due := s.f.due ++ [.decrementApply id] } }) ∧
      (s.f.decBehind s.m d = false →
      (¬clean ∨ s.f.liveAt gpa = none ∨ count < d.n → ∃ t : State, exec (.decrementApply id) s = .next t ∧ t.f.mem = s.f.mem) ∧
      (clean → s.f.liveAt gpa ≠ none → d.n < count → ∃ t : State, exec (.decrementApply id) s = .next t ∧
        t.f.field s.m gpa 1 31 0 = count - d.n ∧ t.f.field s.m gpa 4 31 0 = epoch ∧ t.f.cores = s.f.cores ∧
        t.f.decs = s.f.decs.filter (fun x => x.id ≠ id)) ∧
      (clean → s.f.liveAt gpa ≠ none → d.n = count → calm → s.f.recPend s.m gpa < 2 ^ 32 - 1 →
        ∃ t : State, exec (.decrementApply id) s = .next t ∧
          t.f.field s.m gpa 1 31 0 = (if s.f.field s.m gpa 3 14 14 = 1 then s.f.field s.m gpa 1 63 32 else 0) ∧
          t.f.field s.m gpa 4 31 0 = 0 ∧ t.f.recPend s.m gpa = s.f.recPend s.m gpa + 1))) ∧
    (∀ w, s.f.wakes.find? (·.id = id) = some w → exec (.wakeWrite id) s = .next { s with
      f := { s.f with
        wakes := s.f.wakes.filter (fun x => x.id ≠ id)
        ids := s.f.ids + 1
        decs := s.f.decs ++ [⟨s.f.ids, w.ctx, w.recAddr, 1, w.epoch, .wake⟩]
        due := s.f.due ++ [.decrementApply s.f.ids] } }) ∧
    (∀ r e gpa l la, s.f.binds c = true → (s.f.core c).mayTake h = true → (s.f.core c).runq = [r] → (s.f.core c).inbox = [] →
      (s.f.core c).flog = [] → r.kind = .counter e → calm →
      s.f.liveRec s.m (s.f.core c).ctxId r.recAddr = some (gpa, l) → s.m.place gpa = .own la → gpa % 64 = 0 →
      1 ≤ s.f.recPend s.m gpa →
      ∃ (t : State) (l' : LiveRec) (g : Firing), exec (.firingBind c h) s = .next t ∧
        t.f.recPend s.m gpa = s.f.recPend s.m gpa - 1 ∧ t.f.liveAt gpa = some l' ∧ l'.running = l.running + 1 ∧
        (let u := t.f.thread c h
         u.st = .running ∧ u.pc = BitVec.ofNat 57 (s.f.word s.m gpa) ∧ u.npc = u.pc ∧ u.rd 1 = BitVec.ofNat 64 l.recAddr ∧
         u.rd 31 = BitVec.ofNat 64 (s.f.word s.m (gpa + 16) % 2 ^ 57) ∧ (∀ q : SReg, q ≠ 1 → q ≠ 31 → u.rd q = 0) ∧
         (∀ q : PReg, q ≠ 0 → u.rdp q = false) ∧ (∀ q : VReg, u.rdv q = 0) ∧ u.ls = Landing.empty ∧
         u.firing = some g ∧ g.kind = .counter ∧ g.recAddr = l.recAddr ∧ g.kid = some l.kid ∧ l'.prev = some g.epoch ∧
         g.allowC = l.binds.map (fun b => (b.cb.val, b.crate)) ∧ g.allowP = l.binds.map (fun b => (b.cb.val, b.prate)) ∧
         ((s.f.ctx l.ctx).det = false → g.epoch = 0) ∧
         ((s.f.ctx l.ctx).det = true → (l.prev = none → g.epoch = e) ∧
           ∀ p, l.prev = some p → g.epoch = if e.toNat < p.toNat + 1 then p + 1 else e)) ∧
        (t.f.core c).runq = []) ∧
    (∀ y, s.f.chimes.find? (·.id = id) = some y →
      let area := wordOf y.msg.blk 3 % 2 ^ 57
      let w := y.msg.who
      (area = 0 → blkRk y.msg.blk = 1 → s.f.statusFlies y = false → ∃ t : State, exec (.chime id) s = .next t ∧
        t.f.chimes = s.f.chimes.filter (fun x => x.id ≠ id) ∧
        t.f.decs = s.f.decs ++ [⟨s.f.ids, w.ctx, wordOf y.msg.blk 1 % 2 ^ 57, 1,
          (s.f.ctx w.ctx).carry w.epoch, .chime w y.msg.form⟩]) ∧
      (∀ off d, area = locBase + off → off % 64 = 0 → off < 0x20000 → blkRk y.msg.blk = 0 → y.wrote = false → y.first = false →
        y.code ≠ .refused →
        s.f.statusFlies y = false → s.f.find w.ctx w.vx w.vy = some d → s.f.closed d = false → (s.f.core d).locked off 64 = false →
        ∃ t : State, exec (.chime id) s = .next t ∧ t.f.chimes = s.f.chimes.filter (fun x => x.id ≠ id) ∧
          (t.f.core d).locBytes off 64 = lineBytes (lineOf [y.msg.xid.toNat * 2 ^ 32 +
            ((y.cause.map fun e => (causeCode e).toNat).getD 0) * 2 ^ 24 + y.msg.opc * 2 ^ 8 + y.code.num,
            if y.code = .fault then y.pos else 0, if y.code = .fault then y.addr.toNat else 0]))) ∧
    (∀ (kid : BitVec 32) (y : Kernel), s.f.kernels.find? (fun k => k.kid = kid && s.f.mayComplete s.m k) = some y →
      (s.f.ctx y.ctx).st = .active → (s.f.ctx y.ctx).pre = none → y.cword = 0 →
      ∃ t : State, exec (.kernelComplete kid) s = .next t ∧ t.f.kernels = s.f.kernels.filter (fun k => k.kid ≠ kid) ∧
        (∀ r ∈ t.f.live, r.2.kid ≠ kid) ∧ (t.f.ctx y.ctx).stable = [] ∧ (t.f.ctx y.ctx).conf = [] ∧
        let v := (s.f.ctx y.ctx).vec[1]
        t.f.out = s.f.out ++ if y.intr = true ∧ v.getLsbD 15 = true ∧ s.m.hostLink = true then [.msix (v.toNat % 2048)] else [])

/-- Engines (R221 to R230, R332, R333, R346). The model's choices: a full inbox refuses a SEND before its record is looked at, and
the granules of a copy with landing handlers (log 24); a copy into a buffer of a core outside the lease chimes BADMSG as a RESUME
too, an engine reads a gated core's window at once, and a handler's granule waits while LANDCTL.EN is 0 (log 43); which bytes past
a failed step are written (log 12); the result of a collective enters the write lane (log 36). -/
def Obligations.EngineEvents : Prop :=
  ∀ (s : State) (id : Nat) (c : CoreId),
    let chimed := fun (t : State) (x : Msg) (code : Code) =>
      t.f.chimes = s.f.chimes ++ [⟨s.f.ids, x, code, none, 0, 0, false, false⟩] ∧ t.f.mem = s.f.mem ∧ t.f.cores = s.f.cores ∧
      t.f.msgs = s.f.msgs.filter (fun y => y.id ≠ x.id) ∧ t.f.ops = s.f.ops.filter fun o => o.msg.id ≠ x.id
    (∀ x, s.f.msgs.find? (fun x => x.id = id && !x.gone && x.due ≤ s.f.cycle) = some x →
      ∃ t : State, exec (.messageInject id) s = .next t ∧ t.f.due = s.f.due ++ [.messageArrival (.own id)] ∧
        t.f.msgs = s.f.msgs.filter (fun y => y.id ≠ id) ++ [{ x with gone := true }]) ∧
    (∀ x, s.f.msgs.find? (fun x => x.id = id && x.gone && !s.f.sent.any fun q => q.what = .send id) = some x →
      (s.f.msgBehind x = true → ∃ t : State, exec (.messageArrival (.own id)) s = .next t ∧ t.f.ops = s.f.ops ∧
        t.f.chimes = s.f.chimes ∧ t.f.msgs = s.f.msgs ∧ ∀ d, (t.f.core d).inbox = (s.f.core d).inbox) ∧
      (s.f.msgBehind x = false →
      (x.form ≠ 0 → s.f.inboxFull x = true →
        ∃ t : State, exec (.messageArrival (.own id)) s = .next t ∧ chimed t x .refused) ∧
      (x.form ≠ 0 → s.f.inboxFull x = false → ∃ t : State, exec (.messageArrival (.own id)) s = .next t ∧
        t.f.ops = s.f.ops ++ [⟨x, false, if x.form = 5 then x.pos else 0, 0, none, false, false, [], none⟩] ∧
        t.f.msgs = s.f.msgs.filter (fun y => y.id ≠ x.id)) ∧
      (x.form = 0 → blkRmt x.blk = false → (s.f.ctx x.who.ctx).st = .active →
        s.f.find x.who.ctx (blkVx x.blk) (blkVy x.blk) = some c → s.f.closed c = false →
        let va := wordOf x.blk 4
        (Config.taskInbox ≤ (s.f.core c).inbox.length →
          ∃ t : State, exec (.messageArrival (.own id)) s = .next t ∧ chimed t x .refused) ∧
        ((s.f.core c).inbox.length < Config.taskInbox → (s.f.liveRec s.m x.who.ctx va).isSome = true →
          ∃ (t : State) (n : Nat), exec (.messageArrival (.own id)) s = .next t ∧
            (t.f.core c).inbox = (s.f.core c).inbox ++ [⟨s.f.cycle, va, x.blk, (s.f.ctx x.who.ctx).carry x.who.epoch⟩] ∧
            t.f.chimes = s.f.chimes ++ [⟨n, x, .done, none, 0, 0, false, false⟩])))) ∧
    (∀ o, s.f.ops.find? (fun o => o.msg.id = id) = some o →
      s.f.find o.msg.who.ctx o.msg.who.vx o.msg.who.vy = some c →
      let x := o.msg
      let b := x.blk
      let quiet := s.f.awaits id = false
      let off := s.f.enginesOff x.who.ctx
      (off = true → s.f.betweenSteps s.m o = true → s.f.recvCore x ≠ none →
        (x.opc = 1 → exec (.copyStep id) s = .next s) ∧ (x.opc = 2 → exec (.gatherElement id) s = .next s) ∧
        (x.opc = 3 → exec (.prefetchLine id) s = .next s)) ∧
      (off = false →
      let stopped := fun (t : State) (y : Nat × Cause × Word) =>
        t.f.chimes = s.f.chimes ++ [⟨s.f.ids, x, .fault, some y.2.1, y.1, y.2.2, false, false⟩]
      (x.opc = 1 → s.f.recvCore x = none → ∃ t : State, exec (.copyStep id) s = .next t ∧ chimed t x .badmsg) ∧
      (x.opc = 1 → s.f.recvCore x ≠ none →
        (∀ code, o.started = false → x.early (cpSize b) (s.f.copyBad x) = some code →
          ∃ t : State, exec (.copyStep id) s = .next t ∧ chimed t x code) ∧
        (∀ y, o.started = true → o.handler = false → o.granDone = false → o.bad = some y → quiet →
          ∃ t : State, exec (.copyStep id) s = .next t ∧ stopped t y) ∧
        (o.started = true → o.handler = false → o.granDone = false → o.bad = none → cpSize b ≤ o.pos → quiet →
          ∃ t : State, exec (.copyStep id) s = .next t ∧ chimed t x .done) ∧
        (o.started = false → x.early (cpSize b) (s.f.copyBad x) = none →
          ∃ t : State, exec (.copyStep id) s = .next t ∧ { o with started := true } ∈ t.f.ops) ∧
        (o.started = true → o.handler = true → exec (.copyStep id) s = .next s)) ∧
      (∀ d os, x.opc = 1 → s.f.recvCore x = some d → o.started = true → o.handler = false → o.granDone = false → o.bad = none →
        o.pos < cpSize b → cpSrc b + o.pos = locBase + os →
        let src := fun (j : Nat) => ((s.f.core c).locBytes (os + j) 1).getD 0 0
        let cb := (s.f.core d).cbs[blkCb b]
        (blkLh b = false → blkCbf b = false → (s.f.flying id).length < 4 →
          let stop := s.f.stepEnd s.m c x o.pos
          let n := stop - o.pos
          o.pos < stop → os + n ≤ 0x24000 →
          (∀ od, cpDst b + o.pos = locBase + od → od + n ≤ 0x24000 → os + n ≤ od ∨ od + n ≤ os → s.f.closed c = false →
            (s.f.core c).locked od n = false →
            ∃ t : State, exec (.copyStep id) s = .next t ∧ { o with pos := stop } ∈ t.f.ops ∧
              (∀ j, j < n → (t.f.core c).locBytes (od + j) 1 = [src j]) ∧
              ∀ a, a < 0x24000 → (a < od ∨ od + n ≤ a) → (t.f.core c).locBytes a 1 = (s.f.core c).locBytes a 1) ∧
          (∀ gpa e la k, s.f.check s.m c x.who (engReq (cpDst b + o.pos) n .store) = .ok (.mem gpa e, k) → s.m.place gpa = .own la →
            (cpDst b + o.pos) % 64 + n ≤ 64 → la % 64 + n ≤ 64 → (s.f.ctx x.who.ctx).mayEnter (stackOf la) = true →
            ∃ t : State, exec (.copyStep id) s = .next t ∧ { o with pos := stop } ∈ t.f.ops ∧
              ∀ j, j < n → t.f.devByte (la + j) =
                if s.f.owned (s.m.gpa (la + j)) = true then s.f.devByte (la + j) else src j)) ∧
        (blkLh b = false → blkCbf b = true → cb.en = true → s.f.closed d = false → freeCount cb ≠ 0 →
          let at' := slotOff cb o.pos
          let n := elemBytes cb - o.pos % elemBytes cb
          os + n ≤ 0x24000 → at' + n ≤ 0x20000 → (s.f.core d).locked at' n = false →
          ∃ t : State, exec (.copyStep id) s = .next t ∧ { o with pos := o.pos + n } ∈ t.f.ops ∧
            (∀ j, j < n → (t.f.core d).locBytes (at' + j) 1 = [src j]) ∧
            ((t.f.core d).cbs[blkCb b]).pseq = (cb.pseq + 1) % seqMod cb) ∧
        (∀ gpa r, blkLh b = true → (blkCbf b = true → cb.en = true ∧ freeCount cb ≠ 0) → (s.f.ctx x.who.ctx).pre = none →
          s.f.closed d = false → (s.f.core d).landctl = true → ((s.f.core d).threads[7]).st = .free →
          s.f.liveRec s.m x.who.ctx (blkLhrec b) = some (gpa, r) → s.f.mayBind s.m x.who.ctx (blkLhrec b) = true →
          let n := min (64 - o.pos % 64) (cpSize b - o.pos)
          let dst := if blkCbf b then locBase + slotOff cb o.pos else cpDst b + o.pos
          os + n ≤ 0x24000 →
          ∃ (t : State) (g : Firing), exec (.copyStep id) s = .next t ∧ { o with handler := true } ∈ t.f.ops ∧
            let u := t.f.thread d 7
            u.st = .running ∧ u.firing = some g ∧ g.kind = .landing ∧ g.op = some id ∧ g.recAddr = r.recAddr ∧
            u.rdv 0 = bytesLine ((List.range n).map src) ∧ u.rdv 1 = lineOf [dst, n, x.xid.toNat])) ∧
      (∀ d, x.opc = 1 → s.f.recvCore x = some d → o.started = true → o.handler = false → o.granDone = true → blkCbf b = false →
        ∃ t : State, exec (.copyStep id) s = .next t ∧
          { o with pos := min (o.pos + (64 - o.pos % 64)) (cpSize b), granDone := false } ∈ t.f.ops) ∧
      (x.opc = 2 →
        (∀ code, o.started = false → x.early (gaCount b) (gatherBad b) = some code →
          ∃ t : State, exec (.gatherElement id) s = .next t ∧ chimed t x code) ∧
        (∀ y, o.started = true → quiet → o.bad = some y → ∃ t : State, exec (.gatherElement id) s = .next t ∧ stopped t y) ∧
        (o.started = true → gaCount b ≤ o.pos → quiet → o.bad = none →
          ∃ t : State, exec (.gatherElement id) s = .next t ∧ chimed t x .done) ∧
        (∀ iv oi od, o.started = true → quiet → o.bad = none →
          o.pos < gaCount b → o.sub = 0 → o.buf = none → gaSize b = 4 → s.f.closed c = false →
          gaIdx b + 4 * o.pos = locBase + oi → oi % 4 = 0 → oi < 0x24000 →
          iv = leNum ((s.f.core c).locBytes oi 4) → gaBase b = locBase → 4 * iv < 0x24000 →
          gaDst b + 4 * o.pos = locBase + od → od % 4 = 0 → od < 0x24000 → (s.f.core c).locked od 4 = false →
          ∃ t : State, exec (.gatherElement id) s = .next t ∧
            (t.f.core c).locBytes od 4 = (s.f.core c).locBytes (4 * iv) 4 ∧
            { o with pos := o.pos + 1, sub := 0 } ∈ t.f.ops)) ∧
      (x.opc = 3 →
        (∀ code, o.started = false → x.early (cpSize b) none = some code →
          ∃ t : State, exec (.prefetchLine id) s = .next t ∧ chimed t x code) ∧
        (o.started = true → cpSize b ≤ o.pos → ∃ t : State, exec (.prefetchLine id) s = .next t ∧ chimed t x .done) ∧
        (o.started = true → o.pos < cpSize b →
          let ea := wordOf b 4 + o.pos
          let k := s.f.walked s.m c x.who (engReq ea 1 .load)
          (∀ e, s.f.prefFault s.m c x.who.ctx ea = some e → ∃ t : State, exec (.prefetchLine id) s = .next t ∧ t.f.mem = k.mem ∧
            t.f.chimes = s.f.chimes ++ [⟨k.ids, x, .fault, some e, o.pos, BitVec.ofNat 64 ea, false,
              false⟩]) ∧
          (s.f.prefFault s.m c x.who.ctx ea = none → ∃ t : State, exec (.prefetchLine id) s = .next t ∧
            t.f.mem = k.mem ∧ t.f.cores = k.cores ∧
            { o with pos := min (o.pos + (64 - ea % 64)) (cpSize b) } ∈ t.f.ops))) ∧
      (x.form = 4 → o.started = false → collOp b = none ∨ collTy b = none →
        ∃ t : State, exec (.xcollContribution (.own id)) s = .next t ∧ chimed t x .badmsg) ∧
      (∀ op ty os, x.form = 4 → o.started = false → collOp b = some op → collTy b = some ty → cpSrc b = locBase + os →
        let count := gaCount b
        let n := collSlots b * count * collSize ty
        let bad := s.f.collBad s.m x.who.ctx x.xid op ty count (collSlot0 b) (collSlots b)
        (bad = true → ∃ t : State, exec (.xcollContribution (.own id)) s = .next t ∧ chimed t x .badmsg) ∧
        (bad = false → os + n ≤ 0x24000 → ∃ t : State, exec (.xcollContribution (.own id)) s = .next t ∧
          t.f.contribs = s.f.contribs ++ [⟨x.who.ctx, x.xid, op, ty, count, collSlot0 b,
            slotsOf (collSize ty) count (collSlots b) ((List.range n).map fun j => ((s.f.core c).locBytes (os + j) 1).getD 0 0),
            some x, 0, false, none⟩] ∧ ∀ y ∈ t.f.ops, y.msg.id ≠ id)))) ∧
    (∀ l : LinkContrib,
      let bad := s.f.collBad s.m l.ctx l.id l.op l.ty l.count l.slot0 l.slots.length = true ∨ ∃ x ∈ l.slots, x.length ≠ l.count
      (bad → exec (.xcollContribution (.link l)) s = .next s) ∧
      (¬bad → ∃ t : State, exec (.xcollContribution (.link l)) s = .next t ∧
        t.f.contribs = s.f.contribs ++ [⟨l.ctx, l.id, l.op, l.ty, l.count, l.slot0, l.slots, none, 0, false, none⟩])) ∧
    ∀ (n : CtxId) (xid : BitVec 32),
      (s.f.contribsOf n xid = [] ∨ s.f.covered s.m n xid = false → exec (.collectiveComplete n xid) s = .next s) ∧
      (s.f.contribsOf n xid ≠ [] → s.f.covered s.m n xid = true → (∀ k ∈ s.f.contribsOf n xid, k.own = none) →
        exec (.collectiveComplete n xid) s = .next { s with
          f := { s.f with contribs := s.f.contribs.filter fun k => !(k.ctx = n && k.xid = xid) } }) ∧
      (∀ k x g, s.f.contribsOf n xid = [k] → s.f.covered s.m n xid = true → k.own = some x → k.wrote = false → k.bad = none →
        s.f.find x.who.ctx x.who.vx x.who.vy = some c →
        let bs := s.f.collBytes s.m n xid
        let op := fun (ea : Nat) => some (x.id, (ea - cpDst x.blk) / collSize k.ty)
        s.f.engWrites s.m c x.who x.form op (.collectiveComplete n xid) (bs.length / 32 + 2) k.off
          (cpDst x.blk + k.off) (bs.drop k.off) = .done g →
        ∃ t : State, exec (.collectiveComplete n xid) s = .next t ∧ t.f.mem = g.mem ∧ t.f.cores = g.cores ∧
          (g.awaits x.id = true → t.f.chimes = g.chimes ∧ { k with wrote := true } ∈ t.f.contribs) ∧
          (g.awaits x.id = false → t.f.chimes = g.chimes ++ [⟨g.ids, x, .done, none, 0, 0, false, false⟩] ∧
            ∀ y ∈ t.f.contribs, ¬(y.ctx = n ∧ y.xid = xid))) ∧
      ∀ a b, a < 2 ^ 32 → b < 2 ^ 32 →
        collResult .sum .s32 [a, b] = (a + b) % 2 ^ 32 ∧ collResult .sum .f32 [a, b] = f32.addBits a b ∧
        collResult .min .z32 [a, b] = min a b ∧ collResult .max .z32 [a, b] = max a b

/-- Contexts and leases (R241 to R249, R278, R279, R293, R346, R347). The model's choices: a CREATE whose record cannot be read
gives BADREC, and a command outside RUNNING has no effect (log 38); a new context's running window has its whole budget (log 23);
what a step of a pre-emption waits for, and messages not yet accepted by an engine being cancelled with its operations (log 26).
-/
def Obligations.ContextEvents : Prop :=
  ∀ (s : State) (tag : BitVec 16) (n : CtxId),
    let x := s.f.ctx n
    let all : List Instr := [.create tag n, .suspend tag n, .ctxResume tag n, .destroy tag n, .ctxUpdate tag n, .badcmd tag n]
    let only := fun (i : Instr) (code : Nat) =>
      exec i s = .next { s with f := { s.f with ctxrsp := ⟨tag, n, s.f.ctxrsp.lost, code⟩ } }
    let done := fun (i : Instr) (p : State → Prop) => ∃ t : State, exec i s = .next t ∧ t.m = s.m ∧
      t.f.ctxrsp = ⟨tag, n, s.f.ctxrsp.lost, 0⟩ ∧ p t
    let lives := x.st = .waiting ∨ x.st = .active ∨ x.st = .suspended
    (s.m.dev ≠ .running ∨ s.m.bar0 = false → ∀ i ∈ all, exec i s = .next s) ∧
    (s.m.dev = .running → s.m.bar0 = true → s.f.ctxBusy = true → ∀ i ∈ all,
      exec i s = .next { s with f := { s.f with ctxrsp := { s.f.ctxrsp with lost := true } } }) ∧
    (s.m.dev = .running → s.m.bar0 = true → s.f.ctxBusy = false →
      let ws := s.f.ctxRecord s.m n
      let ok := s.f.ctxReadable s.m n = true ∧ recValid s.m ws = true
      (x.st ≠ .free → only (.create tag n) 2) ∧ (x.st = .free → ¬ok → only (.create tag n) 3) ∧
      (x.st = .free → ok → done (.create tag n) fun t =>
        t.f.reqs = s.f.reqs ++ [n] ∧
        let y := t.f.ctx n
        y.st = .waiting ∧ y.lease = .requested ∧ y.ptroot = bits (ws.getD 0 0) 52 12 * 2 ^ 12 ∧ y.det = (ws.getD 0 0).testBit 1 ∧
        y.priv = (ws.getD 0 0).testBit 0 ∧ y.lw = bits (ws.getD 2 0) 7 0 ∧ y.lh = bits (ws.getD 2 0) 15 8 ∧
        y.traprec = bits (ws.getD 25 0) 56 6 * 64 ∧ y.vec = recVectors ws ∧ y.windows = recWindows ws ∧
        y.wbudget = recBudgets ws ∧ y.allow = recBudgets ws ∧ y.debt = Vector.replicate 8 0) ∧
      (x.st = .waiting → done (.suspend tag n) fun t => t.f.reqs = s.f.reqs.filter (· ≠ n) ∧
        t.f.ctx n = { x with st := .suspended, lease := .none, nofit := false }) ∧
      (x.st = .active → done (.suspend tag n) fun t =>
        t.f.ctx n = { x with
          st := .suspending, lease := .ending, pre := some .retire, retiring := 0, queues := (t.f.ctx n).queues } ∧
        ∀ y ∈ t.f.sels, y.ctx ≠ n) ∧
      (x.st ≠ .waiting → x.st ≠ .active → only (.suspend tag n) 2) ∧
      (x.st = .suspended → done (.ctxResume tag n) fun t => t.f.reqs = s.f.reqs ++ [n] ∧
        t.f.ctx n = { x with st := .waiting, lease := .requested }) ∧
      (x.st ≠ .suspended → only (.ctxResume tag n) 2) ∧
      (lives → done (.destroy tag n) fun t => (∀ y ∈ t.f.reqs, y ≠ n) ∧ t.f.due = s.f.due ++ [.teardownComplete n] ∧
        t.f.ctx n = { x with
          st := .destroying, stopping := true, nofit := false, lease := if x.lease = .granted then .ending else .none }) ∧
      (¬lives → only (.destroy tag n) 2 ∧ only (.ctxUpdate tag n) 2) ∧
      (lives → done (.ctxUpdate tag n) fun t => t.f.ctx n = { x with vec := recVectors ws, wbudget := recBudgets ws }) ∧
      only (.badcmd tag n) 4) ∧
    (s.m.bar0 = false → exec .ctxrspRead s = .next s) ∧
    (s.m.bar0 = true → exec .ctxrspRead s = .next { s with
      f := { s.f with ctxrsp := { s.f.ctxrsp with lost := false }, out := s.f.out ++ [.reg 0x1010 s.f.ctxrspValue] } }) ∧
    (s.f.reqs = [n] →
      let whole := findRect x.lw x.lh fun c => !s.m.coreFenced c
      let room := findRect x.lw x.lh fun c => !s.m.coreFenced c && (s.f.core c).occ.isNone
      (whole = none → exec .leaseGrant s = .next { s with f := s.f.modCtx n fun y => { y with nofit := true } }) ∧
      (whole ≠ none → room = none → exec .leaseGrant s = .next { s with f := s.f.modCtx n fun y => { y with nofit := false } }) ∧
      (∀ px py, whole ≠ none → room = some (px, py) → x.saved = false →
        ∃ t : State, exec .leaseGrant s = .next t ∧ t.f.reqs = [] ∧
        (t.f.ctx n).st = .active ∧ (t.f.ctx n).lease = .granted ∧ (t.f.ctx n).px0 = px ∧ (t.f.ctx n).py0 = py ∧
        ∀ v, v < x.lw * x.lh →
          let c : CoreId := Fin.ofNat 2304 (48 * (py + v / x.lw) + (px + v % x.lw))
          (t.f.core c).occ = some ⟨n, v % x.lw, v / x.lw⟩ ∧ (t.f.core c).spad = [] ∧ (t.f.core c).xb0 = [] ∧
          (t.f.core c).xb1 = [] ∧ (t.f.core c).acc = [] ∧ (t.f.core c).bank = false ∧ (t.f.core c).threads = Core.reset.threads)) ∧
    (∀ a, a ≠ n → s.f.reqs = [a, n] →
      let fits := fun (n : CtxId) (ok : CoreId → Bool) => findRect (s.f.ctx n).lw (s.f.ctx n).lh fun c => !s.m.coreFenced c && ok c
      fits a (fun _ => true) ≠ none → fits a (fun c => (s.f.core c).occ.isNone) = none → fits n (fun _ => true) = none →
        exec .leaseGrant s = .next { s with f := (s.f.modCtx a fun y => { y with nofit := false }).modCtx n fun y =>
          { y with nofit := true } }) ∧
    (x.pre = some .retire →
      exec (.preemptRetireExpiry n) s = .next { s with f := s.f.modCtx n fun y => { y with stopping := true } }) ∧
    (s.f.preReady s.m n = false → exec (.preemptComplete n) s = .next s) ∧
    (s.f.preReady s.m n = true →
      (∀ p ∈ [(PreStep.retire, PreStep.engines), (.buffers, .loads), (.loads, .barriers), (.barriers, .save)],
        x.pre = some p.1 → ∃ t : State, exec (.preemptComplete n) s = .next t ∧
          t.f.ctx n = { x with pre := some p.2, stopping := x.stopping || p.1 == .retire } ∧ t.f.mem = s.f.mem) ∧
      (x.pre = some .engines → ∃ t : State, exec (.preemptComplete n) s = .next t ∧ (t.f.ctx n).pre = some .buffers ∧
        (t.f.ctx n).cancelled = x.cancelled ++ (s.f.ops.filter (fun o => o.msg.who.ctx = n) ++
          (s.f.msgs.filter fun y => y.who.ctx = n && y.form ≠ 0).map opOf).map (fun o => { o with buf := none }) ∧
        (∀ o ∈ t.f.ops, o.msg.who.ctx ≠ n) ∧ (∀ y ∈ t.f.msgs, y.who.ctx = n → y.form = 0) ∧
        ∀ c ∈ x.coreList, (t.f.core c).agg = []) ∧
      (x.pre = some .save → ∃ t : State, exec (.preemptComplete n) s = .next t ∧ t.f.ctxrsp.result = 0 ∧
        (t.f.ctx n).st = .suspended ∧ (t.f.ctx n).lease = .none ∧ (t.f.ctx n).map = [] ∧ (t.f.ctx n).pre = none ∧
        (t.f.ctx n).saved = true ∧ ∀ p ∈ x.leaseCores, (t.f.core p.2).occ = none)) ∧
    (x.st = .destroying → (∀ p ∈ s.f.pairs, p.begun = true → p.lo ∉ x.coreList ∧ p.hi ∉ x.coreList) →
      ∃ t : State, exec (.teardownComplete n) s = .next t ∧ t.f.ctx n = Ctx.reset ∧ t.f.ctxrsp.result = 0 ∧
        (∀ c ∈ x.coreList, (t.f.core c).occ = none) ∧ (∀ e ∈ t.f.wl, e.who.ctx ≠ n) ∧ (∀ d ∈ t.f.decs, d.ctx ≠ n) ∧
        (∀ y ∈ t.f.msgs, y.who.ctx ≠ n) ∧ (∀ o ∈ t.f.ops, o.msg.who.ctx ≠ n) ∧ (∀ w ∈ t.f.watches, w.ctx ≠ n) ∧
        (∀ p ∈ t.f.dirty, ∀ w, p.2.who = some w → w.ctx ≠ n) ∧ (∀ r ∈ t.f.live, r.2.ctx ≠ n) ∧
        (∀ k ∈ t.f.kernels, k.ctx ≠ n) ∧ (∀ b ∈ t.f.bars, b.ctx ≠ n) ∧
        ∀ c, ∀ e ∈ (t.f.core c).tlb, e.ctx ≠ n)

/-- Queues, launches and dispatch (R253 to R262, R274, R282). The model's choices: what a word-1 write does to a live queue whose
ring has become invalid, and that a task returned by a pre-emption keeps its queue eligible (log 39); the least pass at which a
queue joins is that of the queues eligible before (log 40); a queue counts as eligible whether or not a thread is free (log 27).
-/
def Obligations.QueueEvents : Prop :=
  ∀ (s : State) (n : CtxId) (q : QueueId) (id : Nat),
    let x := s.f.ctx n
    let y := s.f.queue n q
    let writes := fun (z : Queue) => ∃ g, (s.f.setQueue n q z).queueWords s.m n q z false = some g
    (∀ bs, x.hasQueue q = true → s.f.devRead s.m n (x.descAt q) 8 = some bs →
      let p := BitVec.ofNat 32 (leNum bs)
      let posted := (p - y.cidx).toNat
      (p = y.pidx → exec (.doorbellWrite n q) s = .next s) ∧
      (p ≠ y.pidx → y.st.live = true → 2 ^ y.log2sz < posted → ∃ t : State, exec (.doorbellWrite n q) s = .next t ∧
        t.f.queue n q = { y with pidx := p, st := .faulted, fcode := 3, lidx := y.cidx, owed := (t.f.queue n q).owed }) ∧
      (p ≠ y.pidx → y.st = .empty → 1 ≤ posted → posted ≤ 2 ^ y.log2sz → writes { y with pidx := p, st := .waiting } →
        ∃ t : State, exec (.doorbellWrite n q) s = .next t ∧ t.f.queue n q = { y with pidx := p, st := .waiting, owed := false } ∧
          Instr.launchStart n q ∈ t.f.due)) ∧
    (∀ ws, x.hasQueue q = true → s.f.descWords s.m n q = some ws →
      let tickets := min (ws.getD 1 0 % 2 ^ 11) 1024
      (y.st.live = true → tickets = 0 → writes { y with st := .off, tickets := 0 } →
        ∃ t : State, exec (.ticketWrite n q) s = .next t ∧ t.f.queue n q = { y with st := .off, tickets := 0, owed := false }) ∧
      (y.st.live = true → tickets ≠ 0 → ∃ t : State, exec (.ticketWrite n q) s = .next t ∧
        (t.f.queue n q).tickets = tickets ∧ (t.f.queue n q).st = y.st ∧ (t.f.queue n q).pidx = y.pidx) ∧
      (y.st.live = false → tickets = 0 → exec (.ticketWrite n q) s = .next { s with
        f := s.f.setQueue n q { y with tickets := 0 } })) ∧
    (x.st = .active → x.pre = none → x.hasQueue q = true → y.st = .waiting → 1 ≤ y.posted → y.tail = [] → y.unbound = 0 →
      let rec' := s.f.devRead s.m n (y.ring + 64 * (y.cidx.toNat % y.size)) 64
      (rec' = none → ∃ t : State, exec (.launchStart n q) s = .next t ∧
        (t.f.queue n q).st = .faulted ∧ (t.f.queue n q).fcode = 2) ∧
      ∀ bs, rec' = some bs →
        let ws := (List.range 8).map (wordOf (bytesLine bs))
        let waits := (ws.getD 4 0).testBit 0 = true ∧ ∃ k ∈ s.f.kernels, k.ctx = n ∧ k.q = q
        (waits → exec (.launchStart n q) s = .next s) ∧
        (¬waits → s.f.launchOk s.m n ws = false → ∃ t : State, exec (.launchStart n q) s = .next t ∧
          (t.f.queue n q).st = .faulted ∧ (t.f.queue n q).fcode = 4 ∧ t.f.kernels = s.f.kernels) ∧
        (¬waits → s.f.launchOk s.m n ws = true →
          ∃ (t : State) (k : Kernel), exec (.launchStart n q) s = .next t ∧ k ∈ t.f.kernels ∧
          k.kid = kidOf n q y.cidx ∧ k.ctx = n ∧ k.q = q ∧ k.st = .running ∧ k.cword = ws.getD 2 0 % 2 ^ 57 ∧
          (t.f.queue n q).cidx = y.cidx + 1 ∧ (t.f.ctx n).stable = [] ∧ (t.f.ctx n).conf = [])) ∧
    (s.f.eligibleNow = [] → exec .dispatchSelection s = .next { s with f := { s.f with eligible := [] } }) ∧
    (∀ g0, leastBy s.f.pass s.f.eligibleNow = some g0 →
      let gvt := s.f.pass ((leastBy s.f.pass (s.f.eligibleNow.filter fun g => s.f.eligible.contains g)).getD g0)
      let pass := fun (g : Nat) => if g ∈ s.f.eligible then s.f.pass g else max (s.f.pass g) gvt
      ∃ (t : State) (g : Nat), exec .dispatchSelection s = .next t ∧ g ∈ s.f.eligibleNow ∧
        (∀ k ∈ s.f.eligibleNow, pass g ≤ pass k) ∧
        let z := s.f.queue (ctxOf g) (queueOf g)
        t.f.sels = s.f.sels ++ [⟨s.f.ids, ctxOf g, queueOf g, z.kid, z.tail.headD 0⟩] ∧
        (t.f.queue (ctxOf g) (queueOf g)).tail = z.tail.tail ∧
        (t.f.queue (ctxOf g) (queueOf g)).pass = BitVec.ofNat 64 (pass g + 1048576 / z.tickets) ∧
        t.f.eligible = t.f.eligibleNow ∧ Instr.taskPlace s.f.ids ∈ t.f.due) ∧
    ∀ e, s.f.sels.find? (·.id = id) = some e →
      let live := (s.f.ctx e.ctx).st = .active ∧ (s.f.ctx e.ctx).pre = none
      (¬live → exec (.taskPlace id) s = .next s) ∧
      (live → ∃ t : State, exec (.taskPlace id) s = .next t ∧ t.f.sels = s.f.sels.filter (fun z => z.id ≠ id) ∧
        (t.f.queue e.ctx e.q).unbound = (s.f.queue e.ctx e.q).unbound - 1 ∧
        ∀ gpa r c, s.f.liveRec s.m e.ctx e.recAddr = some (gpa, r) → r.kid = e.kid → r.binds = [] →
          ((s.f.pinOf s.m gpa).elim (s.f.placeFor s.m e.ctx) fun v => s.f.find e.ctx v.1 v.2) = some c →
          (s.f.core c).runq.length < Config.runQueue → (s.f.core c).chain = [] → (s.f.core c).late = [] →
          (t.f.core c).runq = (s.f.core c).runq ++ [⟨s.f.cycle, r.recAddr, .counter 0⟩])

/-- Placement, power gating, fencing (R283 to R294, R357, R358). The model's choices: an instant that the counter steps over is
none, and the decay acts on cores of granted leases (log 27); a fence of a router fences its four cores, and one that meets an
exchange waits for its end (log 31). -/
def Obligations.PlacementEvents : Prop :=
  ∀ (s : State) (a b c : CoreId) (u : FenceUnit),
    let k := s.f.swapK + 1
    let x := s.f.core a
    let y := s.f.core b
    let pair := fun (late : Bool) => s.f.pairs.any (fun p => p.lo = a && p.hi = b && !p.begun &&
      (if late then decide (Config.swapWait ≤ p.waited) else decide (p.waited < Config.swapWait))) = true
    (s.m.time[0].toNat < s.m.swapAt → exec .swapInstant s = .next s) ∧
    (s.m.swapAt ≤ s.m.time[0].toNat →
      let ns := 1000 * max 50 s.m.swapperiod.toNat
      ∃ (t : State) (new : List SwapPair), exec .swapInstant s = .next t ∧ t.f.swapK = k ∧ t.f.pairs = s.f.pairs ++ new ∧
      t.m = { s.m with swapNow := s.m.swapperiod, swapAt := (s.m.time[0].toNat / ns + 1) * ns } ∧
      (s.m.swen = false → new = []) ∧
      (∀ p ∈ new, p.k = k ∧ p.begun = false ∧ ∃ n v w, (s.f.ctx n).lease = .granted ∧ v ∈ (s.f.ctx n).leaseCores ∧
        w ∈ (s.f.ctx n).leaseCores ∧ v.2 = p.lo ∧ w.2 = p.hi ∧ s.f.swappable s.m n k v w = true ∧
        let B := s.f.pairCost (s.f.ctx n).leaseCores v w p.lo p.hi
        let A := s.f.pairCost (s.f.ctx n).leaseCores v w p.hi p.lo
        A < B ∧ s.m.gain.toNat * B < 8 * (B - A)) ∧
      new.Pairwise (fun p q => p.lo ≠ q.lo ∧ p.lo ≠ q.hi ∧ p.hi ≠ q.lo ∧ p.hi ≠ q.hi) ∧
      (t.f.core a).traffic = if x.occ.any (fun o => (s.f.ctx o.ctx).lease == .granted)
        then (x.traffic.map fun e => (e.1, e.2 - e.2 / 4)).filter fun e => e.2 ≠ 0 else x.traffic) ∧
    (¬pair false ∨ x.between = false ∨ y.between = false → exec (.swapExchangeBegin a b) s = .next s) ∧
    (pair false → x.between = true → y.between = true → exec (.swapExchangeBegin a b) s = .next { s with
      f := { s.f with
        pairs := s.f.pairs.map fun p => if p.lo = a && p.hi = b then { p with begun := true } else p
        due := s.f.due ++ [.swapExchangeEnd a b] } }) ∧
    (¬pair true → exec (.swapAbandon a b) s = .next s) ∧
    (pair true → ∃ t : State, exec (.swapAbandon a b) s = .next t ∧ t.f.cores = s.f.cores ∧
      t.f.pairs = s.f.pairs.filter fun p => !(p.lo = a && p.hi = b)) ∧
    (∀ p o v, s.f.pairs.find? (fun p => p.lo = a && p.hi = b && p.begun) = some p → a ≠ b → x.occ = some o → y.occ = some v →
      o.ctx = v.ctx → (s.f.ctx o.ctx).vnum o.vx o.vy ≠ (s.f.ctx o.ctx).vnum v.vx v.vy →
      ∃ (t : State) (rest : List Instr), exec (.swapExchangeEnd a b) s = .next t ∧
        t.f.pairs = s.f.pairs.filter (fun q => q ≠ p) ∧ t.f.urgent = s.f.urgent ++ (x.held ++ y.held) ∧ t.f.due = s.f.due ++ rest ∧
        t.f.core a = { y with
          power := x.power, tlb := x.tlb, held := [], idle := 0, swaps := (p.k, (s.f.ctx o.ctx).vnum o.vx o.vy) :: y.swaps } ∧
        t.f.core b = { x with
          power := y.power, tlb := y.tlb, held := [], idle := 0, swaps := (p.k, (s.f.ctx o.ctx).vnum v.vx v.vy) :: x.swaps } ∧
        mget 0 (t.f.ctx o.ctx).map ((s.f.ctx o.ctx).vnum o.vx o.vy) = b.val ∧
        mget 0 (t.f.ctx o.ctx).map ((s.f.ctx o.ctx).vnum v.vx v.vy) = a.val) ∧
    (let gates := s.m.gten = true ∧ s.f.idle c = true ∧ (s.f.core c).power = .awake ∧ (s.f.core c).held = [] ∧
       1000 * s.m.idlegate.toNat ≤ (s.f.core c).idle
     (gates → exec (.coreGate c) s = .next { s with f := s.f.setCore c { s.f.core c with power := .gated } }) ∧
     (¬gates → exec (.coreGate c) s = .next s)) ∧
    ((s.f.core c).power = .waking → ∃ (t : State) (rest : List Instr), exec (.coreWakeComplete c) s = .next t ∧
      t.f.core c = { s.f.core c with power := .awake, held := [] } ∧ t.f.urgent = s.f.urgent ++ (s.f.core c).held ∧
      t.f.due = s.f.due ++ rest) ∧
    (s.m.dev ≠ .running → exec (.coreFence u) s = .next s) ∧
    (s.m.dev = .running →
      let late := ∃ d ∈ fenceCores u, ∃ p ∈ s.f.pairs, p.begun = true ∧ (p.lo = d ∨ p.hi = d)
      (late → ∃ t : State, exec (.coreFence u) s = .next t ∧ t.m = s.m ∧ t.f.mem = s.f.mem) ∧
      (¬late → ∃ t : State, exec (.coreFence u) s = .next t ∧ t.m.replace = true ∧
        (∀ d ∈ fenceCores u, d ∈ t.m.fencedCores ∧ (d ∉ s.m.fencedCores → (t.f.core d).occ = none)) ∧
        (∀ d ∈ s.m.fencedCores, d ∈ t.m.fencedCores) ∧
        ∀ d o, u = .core d → d ∉ s.m.fencedCores → (s.f.core d).occ = some o →
          (t.f.ctx o.ctx).lost = true ∧ (t.f.ctx o.ctx).lostvx = o.vx ∧ (t.f.ctx o.ctx).lostvy = o.vy ∧
          (s.f.ctx o.ctx).vnum o.vx o.vy ∈ (t.f.ctx o.ctx).gone ∧
          ((s.f.ctx o.ctx).st = .active → (s.f.ctx o.ctx).pre = none →
            (t.f.ctx o.ctx).st = .suspending ∧ (t.f.ctx o.ctx).pre = some .retire ∧ (t.f.ctx o.ctx).lease = .ending)))

/-- Links, invalidation and the host port (R317, R318, R322 to R327, R334 to R337). The model's choices: a register that R280 or
R352 takes as a bound reads back as that bound (log 29); the order in which negotiation checks, a port at a fenced router, the
rate of slewing, and that sole says whether the domain has one master (log 30); BAR2 before the device has a number (log 33); a
packet is one flit, and what it brings is in the event of its kind (log 42). -/
def Obligations.LinkAndHostEvents : Prop :=
  ∀ (s : State) (w : Word) (p : PortId) (peer : PeerInfo) (fl : Flit) (hops : BitVec 8) (rtt : Nat) (off : Nat)
      (sole : Bool),
    let r := s.f.tlbinv
    let x := s.m.ports[p]
    let port := fun (i : Instr) (y : Port) => exec i s = .next { s with m := { s.m with ports := s.m.ports.set p y } }
    let open' := s.m.bar0 = true
    (¬open' → ∀ i ∈ [Instr.tlbinv w, .tlbinvrspRead, .portEnable p, .portDisable p, .portstatRead p, .ptmExchange w,
      .atomicopRequesterEnableWrite true, .atomicopRequesterEnableWrite false, .registerWrite off w], exec i s = .next s) ∧
    (open' → r.busy = true → exec (.tlbinv w) s = .next { s with f := { s.f with tlbinv := { r with lost := true } } }) ∧
    (open' → r.busy = false → ∃ t : State, exec (.tlbinv w) s = .next t ∧
      (let n : CtxId := Fin.ofNat 64 (bits w.toNat 21 16)
       let lo := (tlbRange w).1
       let hi := (tlbRange w).2
       t.f.tlbinv = ⟨true, r.lost, n, false, lo, hi, w.getLsbD 13⟩ ∧
       ∀ c, ∀ e ∈ (t.f.core c).tlb, ¬(e.ctx = n ∧ overlap e.vbase e.size lo (hi - lo) = true))) ∧
    (s.f.tlbReady s.m = false → exec .tlbinvDone s = .next s) ∧
    (s.f.tlbReady s.m = true → ∃ t : State, exec .tlbinvDone s = .next t ∧ t.f.tlbinv = { r with busy := false, done := true } ∧
      (t.f.ctx r.ctx).stable = (s.f.ctx r.ctx).stable.filter (fun y => !(y.dropped r)) ∧
      ∀ c, ∀ e ∈ (t.f.core c).tlb, ¬(e.ctx = r.ctx ∧ overlap e.vbase e.size r.lo (r.hi - r.lo) = true)) ∧
    (open' → exec .tlbinvrspRead s = .next { s with
      f := { s.f with tlbinv := { r with lost := false }, out := s.f.out ++ [.reg 0x2808 s.f.tlbinvrspValue] } }) ∧
    (s.m.clusterFenced (portCluster p) = true → exec (.portEnable p) s = .next s) ∧
    (open' → s.m.clusterFenced (portCluster p) = false →
      port (.portEnable p) { x with en := true, st := if x.st = .off then .training else x.st }) ∧
    (open' → ∃ t : State, exec (.portDisable p) s = .next t ∧
      t.m.ports = s.m.ports.set p { Port.reset with capoff := x.capoff, replays := x.replays } ∧
      (x.st ≠ .off → ∀ y ∈ t.f.sent, y.port ≠ some p)) ∧
    (x.st = .training ∨ x.st = .retraining →
      port (.trainingSuccess p true) { x with st := .negotiating, lanes := 4 } ∧
      port (.trainingSuccess p false) { x with st := .negotiating, lanes := 2 } ∧
      port (.trainingFail p) { x with st := .failed, cause := 1, lanes := 0 }) ∧
    (x.st = .negotiating →
      let failed := fun (k : Nat) => port (.negotiationComplete p peer) { x with st := .failed, cause := k, lanes := 0 }
      let same := peer.sw = false ∧ peer.devnum = s.m.devnum
      let bad := 9215 < s.m.devnum.toNat ∨ (peer.sw = false ∧ 9215 < peer.devnum.toNat)
      (peer.domid ≠ s.m.domid → failed 2) ∧ (peer.domid = s.m.domid → same → failed 3) ∧
      (peer.domid = s.m.domid → ¬same → bad → failed 4) ∧
      (peer.domid = s.m.domid → ¬same → ¬bad →
        let y : Port := { x with
          st := .up, cap := ~~~x.capoff &&& peer.offer, sw := peer.sw, peer := if peer.sw = true then 0 else peer.devnum
          consec := 0, peerHops := 0xFF, replays := BitVec.ofNat 16 (min (x.replays.toNat + (s.f.tx p).kept.length) 65535) }
        let m : Mgt := { s.m with ports := s.m.ports.set p y }
        exec (.negotiationComplete p peer) s = .next { s with m := m, f := s.f.comeUp m p })) ∧
    (x.st = .up →
      (fl.crcOk = false → exec (.flitReceive p fl) s = .next s) ∧
      (fl.crcOk = true → ∃ t : State, exec (.flitReceive p fl) s = .next t ∧
        (t.m.ports[p]).rxSeq = (if fl.seq = x.rxSeq then x.rxSeq + 1 else x.rxSeq) ∧
        ((s.f.tx p).wait = [] → (t.f.tx p).kept = (s.f.tx p).kept.filter fun k => fl.ack ≤ k.1)) ∧
      (Config.replayLimit ≤ x.consec → ∃ t : State, exec (.flitReplayLimit p) s = .next t ∧
        t.m.ports = s.m.ports.set p { x with st := .retraining, consec := 0 } ∧ ∀ y ∈ t.f.sent, y.port ≠ some p) ∧
      (x.consec < Config.replayLimit → exec (.flitReplayLimit p) s = .next s) ∧
      ((s.f.tx p).opens p .time = false → exec (.timeFlitSend p) s = .next s) ∧
      ((s.f.tx p).opens p .time = true → (s.f.tx p).wait = [] → ∃ t : State, exec (.timeFlitSend p) s = .next t ∧
        (t.f.tx p).kept = (s.f.tx p).kept ++ [((s.f.tx p).seq, .time)] ∧ (t.f.tx p).seq = (s.f.tx p).seq + 1 ∧
        mget ⟨0, 0, 0⟩ t.m.sent p.val = ⟨s.m.time[p.val / 9 % 4], s.m.hops, x.rtt⟩) ∧
      (s.m.tmaster = true → exec (.timeFlitReceive p w hops ⟨rtt, sole⟩) s = .next { s with
        m := { s.m with ports := s.m.ports.set p { x with peerHops := hops, rtt := rtt }, sole := sole } }) ∧
      (s.m.tmaster = false → sole = false → ∃ t : State, exec (.timeFlitReceive p w hops ⟨rtt, sole⟩) s = .next t ∧
        t.m.tsrc = 0xFF ∧ t.m.hops = 0xFF ∧ t.m.lock = false ∧ t.m.slew = 0 ∧ t.m.time = s.m.time) ∧
      (s.m.tmaster = false → sole = true → hops.toNat < 0xFF →
        (∀ q : PortId, q ≠ p → s.m.ports[q].st = .up → hops.toNat < (s.m.ports[q]).peerHops.toNat) →
        let told := w + BitVec.ofNat 64 (rtt / 2)
        ((∀ y ∈ s.f.ctxs, y.2.st ≠ .active) →
          ∃ t : State, exec (.timeFlitReceive p w hops ⟨rtt, sole⟩) s = .next t ∧ t.m.lock = true ∧ t.m.tsrc.toNat = p.val ∧
            t.m.hops.toNat = hops.toNat + 1 ∧ t.m.slew = 0 ∧ ∀ d : Fin 4, t.m.time[d] = told) ∧
        ((∃ y ∈ s.f.ctxs, y.2.st = .active) →
          ∃ t : State, exec (.timeFlitReceive p w hops ⟨rtt, sole⟩) s = .next t ∧ t.m.tsrc.toNat = p.val ∧ t.m.time = s.m.time ∧
            t.m.slew = (told - s.m.time[0]).toInt ∧ t.m.lock = decide (-25 ≤ t.m.slew ∧ t.m.slew ≤ 25)))) ∧
    (open' → exec (.portstatRead p) s = .next { s with
      m := { s.m with ports := s.m.ports.set p { x with replays := 0 } }
      f := s.f.emit (.reg (0x4800 + 8 * p.val) x.stat) }) ∧
    (open' →
      exec (.ptmExchange w) s = .next { s with m := { s.m with
        ptmofs := w - s.m.time[0], slew := if s.m.tmaster = true then (w - s.m.time[0]).toInt else s.m.slew } } ∧
      ∀ en, exec (.atomicopRequesterEnableWrite en) s = .next { s with m := { s.m with atomReq := en } }) ∧
    (∀ down, exec (.hostPortDown down) s = .next { s with m := { s.m with hostUp := !down } }) ∧
    (∀ a, s.m.hostLink = false ∨ s.m.dev ≠ .running → exec (.hostBar2Access a) s = .next s) ∧
    (s.m.hostLink = true → s.m.dev = .running →
      let gpa := fun (la : Nat) => s.m.local.gpa la
      (∀ la n, la + n ≤ 2 ^ 39 → exec (.hostBar2Access (.read la n)) s = .next { s with
        f := s.f.emit (.hostData (if s.f.poisoned (gpa la) n = true then none else some (s.f.hostBytes la n))) }) ∧
      (∀ la bs, la + bs.length ≤ 2 ^ 39 → s.f.poison = [] → ∃ t : State, exec (.hostBar2Access (.write la bs)) s = .next t ∧
        (∀ j, j < bs.length → t.f.devByte (la + j) =
          if s.f.owned (gpa (la + j)) = true then s.f.devByte (la + j) else bs.getD j 0) ∧
        ∀ a, (a < la ∨ la + bs.length ≤ a) → t.f.devByte a = s.f.devByte a) ∧
      ∀ la wd v old, la + wdSize wd ≤ 2 ^ 39 → s.f.poisoned (gpa la) (wdSize wd) = false →
        s.f.bytesAt s.m.local (gpa la) (wdSize wd) = old →
        (∃ t : State, exec (.hostBar2Access (.fetchAdd la wd v)) s = .next t ∧ t.f.out = s.f.out ++ [.hostData (some old)] ∧
          ((∀ j, j < wdSize wd → s.f.owned (gpa (la + j)) = false) →
            leNum (t.f.bytesAt s.m.local (gpa la) (wdSize wd)) = (leNum old + v.toNat) % 2 ^ (8 * wdSize wd))) ∧
        (∃ t : State, exec (.hostBar2Access (.swap la wd v)) s = .next t ∧ t.f.out = s.f.out ++ [.hostData (some old)]) ∧
        ∃ t : State, exec (.hostBar2Access (.cas la wd v v)) s = .next t ∧ t.f.out = s.f.out ++ [.hostData (some old)]) ∧
    (open' →
      let reads := fun (off : Nat) (v : Nat) => ∃ t : State, exec (.registerWrite off w) s = .next t ∧
        regValue t.m t.f off = BitVec.ofNat 64 v
      let b := fun (hi lo : Nat) => bits w.toNat hi lo
      reads 0x2000 (b 63 63 * 2 ^ 63 + max 50 (b 47 32) * 2 ^ 32 + max 1 (b 2 0)) ∧
      reads 0x2008 (b 63 63 * 2 ^ 63 + max 1 (b 47 32) * 2 ^ 32 + b 15 0) ∧
      reads 0x6008 (min 2400 (max 800 (b 11 0))) ∧ reads 0x5010 (b 15 0) ∧
      (∀ n : Fin 64, reads (0x4600 + 8 * n.val) (b 14 0)) ∧
      (∀ d : Fin 9216, reads (0x20000 + 8 * d.val) (b 63 63 * 2 ^ 63 + b 43 40 * 2 ^ 40 + b 35 0)) ∧
      (∀ i : Fin 32, reads (0x4400 + 8 * i.val) (if i.val % 2 = 0 then b 63 62 * 2 ^ 62 + b 38 16 * 2 ^ 16
        else b 61 48 * 2 ^ 48 + b 45 32 * 2 ^ 32 + b 22 0)) ∧
      ((∀ y ∈ s.f.ctxs, y.2.st = .free) → reads 0x1000 (b 52 8 * 2 ^ 8)) ∧
      (∀ o ∈ [0x4008, 0x4010, 0x4018], exec (.registerWrite o w) s = .next s))

/-- Management (R350 to R360). The model's choices: the status codes 0 to 3 of management answers and the layout of a placement
map (log 2); the byte order of a QUOTE's report, that a power-off keeps host memory, and that POISON names a line by its local
number (log 33). Whether an image is accepted rests on constants that nothing constrains (log 7), so that a state in which one is
accepted is given only as far as the signature is valid. -/
def Obligations.ManagementEvents : Prop :=
  ∀ (s : State) (img : Image) (line : Nat) (n : Fin 576) (c : CoreId) (nonce : BitVec 256) (bad : List FenceUnit) (off : Nat)
      (v : Word) (mw deg : Nat) (loss : Bool) (cs : List CoreId),
    let m := s.m
    let off' := fun (i : Instr) (keep : Option Image) (trip : Bool) => ∃ t : State, exec i s = .next t ∧ t.m.dev = .off ∧
      t.m.image = keep ∧ t.m.fuses = m.fuses ∧ t.m.fencedCores = m.fencedCores ∧ t.m.replace = m.replace ∧ t.m.thtrip = trip ∧
      t.f.mem = [] ∧ t.f.ctxs = [] ∧ t.f.cores = [] ∧ t.f.poison = [] ∧ t.f.host = s.f.host
    let answer := fun (i : Instr) (m' : Mgt) (code : Nat) => exec i s = .next { s with m := m', f := s.f.emit (.mgmt code []) }
    (m.dev = .off → ∃ t : State, exec .powerOn s = .next t ∧ t.m.dev = .selftest ∧ t.m.image = m.image ∧ t.m.fuses = m.fuses) ∧
    (m.dev ≠ .off → exec .powerOn s = .next s) ∧
    off' (.powerLoss loss) (if loss then none else m.image) m.thtrip ∧
    (m.dev ≠ .off → off' .thermalTrip m.image true) ∧
    (m.dev = .selftest →
      ((∀ x, m.image = some x → m.accepts x = false) →
        exec (.selftestComplete bad) s = .next { s with m := { m with dev := .recovery } }) ∧
      (∀ x, m.image = some x → m.accepts x = true →
        (∀ p ∈ s.f.pairs, p.begun = false) →
        ∃ t : State, exec (.selftestComplete bad) s = .next t ∧
          (∀ u ∈ bad, ∀ d ∈ fenceCores u, d ∈ t.m.fencedCores) ∧
          (t.m.coresLeft = 0 → t.m.dev = .recovery ∧ t.m.replace = true) ∧
          (t.m.coresLeft ≠ 0 → t.m.dev = .running ∧ t.m.fuses = max m.fuses x.svn))) ∧
    (m.dev ≠ .selftest → exec (.selftestComplete bad) s = .next s) ∧
    (m.dev ≠ .off → ∃ t : State, exec (.powerWindow mw deg) s = .next t ∧
      t.m = { m with paced := decide (1000 * m.powcap.toNat < mw ∨ 100 < deg) } ∧
      t.f.due = if 110 < deg then s.f.due ++ [.thermalTrip] else s.f.due) ∧
    (let g := m.gline line
     (m.dev ≠ .off → line < 2 ^ 33 → g ∉ s.f.poison → ∃ t : State, exec (.poison line) s = .next t ∧
       t.f.poison = s.f.poison ++ [g] ∧ t.f.out = s.f.out ++ [.alert g] ∧
       t.m.poisons.toNat = min (m.poisons.toNat + 1) 65535 ∧
       t.m.poisonlog = (if m.poisonlog.length < 256 then m.poisonlog ++ [g] else m.poisonlog) ∧
       (64 < t.m.poisons.toNat → t.m.replace = true)) ∧
     (g ∈ s.f.poison ∨ 2 ^ 33 ≤ line → exec (.poison line) s = .next s) ∧
     (m.dev = .running → exec (.scrub (.hbmUncorrected line)) s = exec (.poison line) s)) ∧
    (m.dev = .running →
      exec (.scrub .clean) s = .next s ∧
      exec (.scrub (.hbmCorrected line)) s = .next { s with m := { m with corrected := m.corrected + 1 } } ∧
      exec (.scrub (.sramUncorrected c)) s = exec (.coreFence (.core c)) s ∧
      (mget 0 m.sliceErrs n.val + 1 < 8 → ∃ t : State, exec (.scrub (.sliceClean n)) s = .next t ∧ t.f = s.f ∧
        mget 0 t.m.sliceErrs n.val = mget 0 m.sliceErrs n.val + 1 ∧ t.m.fencedRouters = m.fencedRouters) ∧
      (mget 0 m.sliceErrs n.val = 7 → (∀ p ∈ s.f.pairs, p.begun = false) →
        ∃ t : State, exec (.scrub (.sliceClean n)) s = .next t ∧ n ∈ t.m.fencedRouters ∧ t.m.replace = true) ∧
      (s.f.dirtyAt line = none → exec (.scrub (.sliceDirty n line)) s = exec (.scrub (.sliceClean n)) s) ∧
      (∀ d, s.f.dirtyAt line = some d → line < 2 ^ 33 → m.gline line ∉ s.f.poison → mget 0 m.sliceErrs n.val + 1 < 8 →
        ∃ t : State, exec (.scrub (.sliceDirty n line)) s = .next t ∧ t.f.poison = s.f.poison ++ [m.gline line] ∧
          mget 0 t.m.sliceErrs n.val = mget 0 m.sliceErrs n.val + 1) ∧
      (∀ e ∈ [ScrubFind.sramCorrected c, .sliceCorrected n, .gatewayCorrected n],
        exec (.scrub e) s = .next { s with m := { m with corrected := m.corrected + 1 } }) ∧
      (∃ t : State, exec (.scrub (.gatewayError n line)) s = .next t ∧ t.f.mem = s.f.mem ∧
        ∀ x, ∀ y ∈ (t.f.ctx x).stable, ¬(y.place = .gateway n.val ∧ y.line = line)) ∧
      (mget 0 m.retries n.val + 1 < 8 → ∃ t : State, exec (.scrub (.meshRetry n)) s = .next t ∧ t.f = s.f ∧
        mget 0 t.m.retries n.val = mget 0 m.retries n.val + 1 ∧ t.m.fencedRouters = m.fencedRouters) ∧
      (mget 0 m.retries n.val = 7 → (∀ p ∈ s.f.pairs, p.begun = false) →
        ∃ t : State, exec (.scrub (.meshRetry n)) s = .next t ∧ n ∈ t.m.fencedRouters ∧ t.m.replace = true) ∧
      (∃ t : State, exec (.scrub (.meshPassed n)) s = .next t ∧ t.f = s.f ∧ mget 0 t.m.retries n.val = 0)) ∧
    (m.dev ≠ .running → exec (.idleRetest cs) s = .next s) ∧
    (m.dev = .running → (∀ p ∈ s.f.pairs, p.begun = false) →
      let fails := fun (d : CoreId) => d ∈ cs ∧ (s.f.core d).occ = none
      ∃ t : State, exec (.idleRetest cs) s = .next t ∧ t.f.mem = s.f.mem ∧ t.f.ctxs = s.f.ctxs ∧
        (∀ d, d ∈ t.m.fencedCores ↔ d ∈ m.fencedCores ∨ fails d) ∧ t.m.fencedRouters = m.fencedRouters ∧ t.m.dev = .running ∧
        ((∃ d, fails d) → t.m.replace = true) ∧ ((∀ d, ¬fails d) → t = s) ∧
        (∀ d, fails d → d ∉ m.fencedCores → t.f.core d = Core.reset) ∧ ∀ d, ¬fails d → t.f.core d = s.f.core d) ∧
    (let q := { m with mgmtBusy := false }
     (m.dev = .running → m.accepts img = true → answer (.fwUpdate img) { q with image := some img } 0) ∧
     (m.dev = .running → m.accepts img = false → answer (.fwUpdate img) q 2) ∧
     (m.dev = .selftest ∨ m.dev = .recovery → answer (.fwUpdate img) q 3) ∧
     (m.dev = .recovery → m.accepts img = true → off' (.recover img) (some img) m.thtrip) ∧
     (m.dev = .recovery → m.accepts img = false → answer (.recover img) q 2) ∧
     (m.dev = .selftest ∨ m.dev = .running → answer (.recover img) q 3) ∧
     (m.dev = .running ∨ m.dev = .recovery → exec (.quote nonce) s = .next { s with
       m := q
       f := s.f.emit (.mgmt 0 (m.report nonce ++ Config.sign (m.report nonce) ++ leBytes 48 Config.identityKey.toNat ++
         m.certificate)) })) ∧
    (m.bar0 = false → exec .healthstatRead s = .next s ∧ exec .poisonlogRead s = .next s) ∧
    (m.bar0 = true →
      exec .healthstatRead s = .next { s with m := { m with thtrip := false }, f := s.f.emit (.reg 0x6000 m.healthstat) } ∧
      exec .poisonlogRead s = .next { s with
        m := { m with poisonlog := m.poisonlog.tail }
        f := s.f.emit (.reg 0x6400
          (match m.poisonlog with | [] => 0 | g :: _ => BitVec.ofNat 64 (2 ^ 63 + g % 2 ^ 47 * 2 ^ 6))) }) ∧
    (∀ k, m.dev ≠ .off → m.mgmtBusy = true → answer (.mgmtCommand k) m 1) ∧
    (m.dev ≠ .off → m.mgmtBusy = false →
      (∀ p ∈ [(Mgmt.update img, Instr.fwUpdate img), (.recover img, .recover img), (.quote nonce, .quote nonce)],
        exec (.mgmtCommand p.1) s = .next { s with m := { m with mgmtBusy := true }, f := s.f.push p.2 }) ∧
      (let r := regWrite off v m s.f
       exec (.mgmtCommand (.write off v)) s = .next { s with m := r.1, f := r.2.emit (.mgmt 0 []) } ∧
       (m.bar0 = true → exec (.registerWrite off v) s = .next { s with m := r.1, f := r.2 })) ∧
      (∀ k, exec (.mgmtCommand (.placement k)) s = .next { s with f := s.f.emit (.mgmt 0 (s.f.ctx k).mapBytes) }) ∧
      exec (.mgmtCommand (.read 0x6000)) s = .next { s with
        m := { m with thtrip := false }
        f := s.f.emit (.reg 0x6000 m.healthstat) } ∧
      exec (.mgmtCommand (.read 0x2008)) s = .next { s with f := s.f.emit (.reg 0x2008 (regValue m s.f 0x2008)) })
end

