-- ==== Sys2Proof/Laws/Memory.lean ====
section
/-! SUPPORT. The laws of memory (R4, R105, R116): a byte read after a write, the canonical form that every operation on a memory
keeps, and what a store leaves alone. -/

namespace Sys2Proof.Machine

variable {α : Type}

/-! Maps. -/

theorem keysRise_cons (k : Nat) (v : α) (m : AMap α) :
    keysRise ((k, v) :: m) = true ↔ (∀ p ∈ m, k < p.1) ∧ keysRise m = true := by
  induction m generalizing k v with
  | nil => simp [keysRise]
  | cons q m ih =>
    obtain ⟨b, y⟩ := q
    simp only [keysRise, Bool.and_eq_true, decide_eq_true_eq, List.mem_cons, forall_eq_or_imp]
    refine ⟨fun h => ⟨⟨h.1, fun p hp => ?_⟩, h.2⟩, fun h => ⟨h.1.1, h.2⟩⟩
    exact Nat.lt_trans h.1 (((ih b y).mp h.2).1 p hp)

theorem mem_mset {a : Nat} {x : α} {m : AMap α} {p : Nat × α} (h : p ∈ mset a x m) : p = (a, x) ∨ p ∈ m := by
  induction m with
  | nil => simpa [mset] using h
  | cons q m ih =>
    obtain ⟨k, v⟩ := q
    simp only [mset] at h
    split at h
    · simpa using h
    · split at h
      · rcases List.mem_cons.mp h with h | h <;> simp [h]
      · rcases List.mem_cons.mp h with h | h
        · simp [h]
        · rcases ih h with h | h <;> simp [h]

theorem mem_mdel {a : Nat} {m : AMap α} {p : Nat × α} (h : p ∈ mdel a m) : p ∈ m := by
  induction m with
  | nil => simp [mdel] at h
  | cons q m ih =>
    obtain ⟨k, v⟩ := q
    simp only [mdel] at h
    split at h
    · exact List.mem_cons_of_mem _ (ih h)
    · rcases List.mem_cons.mp h with h | h
      · simp [h]
      · exact List.mem_cons_of_mem _ (ih h)

theorem keysRise_mset {a : Nat} {x : α} {m : AMap α} (h : keysRise m = true) : keysRise (mset a x m) = true := by
  induction m with
  | nil => simp [mset, keysRise]
  | cons q m ih =>
    obtain ⟨k, v⟩ := q
    have hk := (keysRise_cons k v m).mp h
    simp only [mset]
    split
    · rename_i ha
      refine (keysRise_cons _ _ _).mpr ⟨fun p hp => ?_, h⟩
      rcases List.mem_cons.mp hp with rfl | hp
      · exact ha
      · exact Nat.lt_trans ha (hk.1 p hp)
    · split
      · rename_i ha
        subst ha
        exact (keysRise_cons _ _ _).mpr hk
      · refine (keysRise_cons _ _ _).mpr ⟨fun p hp => ?_, ih hk.2⟩
        rcases mem_mset hp with rfl | hp
        · simp only; omega
        · exact hk.1 p hp

theorem keysRise_mdel {a : Nat} {m : AMap α} (h : keysRise m = true) : keysRise (mdel a m) = true := by
  induction m with
  | nil => rfl
  | cons q m ih =>
    obtain ⟨k, v⟩ := q
    have hk := (keysRise_cons k v m).mp h
    simp only [mdel]
    split
    · exact ih hk.2
    · exact (keysRise_cons _ _ _).mpr ⟨fun p hp => hk.1 p (mem_mdel hp), ih hk.2⟩

theorem mget_mdel (d : α) (m : AMap α) (a c : Nat) : mget d (mdel a m) c = if c = a then d else mget d m c := by
  induction m with
  | nil => simp [mdel, mget]
  | cons q m ih =>
    obtain ⟨k, v⟩ := q
    simp only [mdel]
    split
    · rename_i ha
      subst ha
      rw [ih]
      split
      · rfl
      · rename_i hc
        simp [mget, hc]
    · rename_i ha
      simp only [mget, ih]
      by_cases hc : c = k
      · simp [hc, Ne.symm ha]
      · simp [hc]

/-! Bytes. -/

theorem noZero_iff (m : Memory) : noZero m = true ↔ ∀ p ∈ m, p.2 ≠ 0 := by
  induction m with
  | nil => simp [noZero]
  | cons q m ih =>
    obtain ⟨a, b⟩ := q
    simp [noZero, ih]

theorem Memory.wf_iff (m : Memory) : Memory.wf m = true ↔ keysRise m = true ∧ ∀ p ∈ m, p.2 ≠ 0 := by
  simp [Memory.wf, noZero_iff]

theorem poke_wf {a : Nat} {b : Byte} {m : Memory} (h : Memory.wf m = true) : Memory.wf (poke a b m) = true := by
  rw [Memory.wf_iff] at h ⊢
  unfold poke mput
  split
  · exact ⟨keysRise_mdel h.1, fun p hp => h.2 p (mem_mdel hp)⟩
  · rename_i hb
    refine ⟨keysRise_mset h.1, fun p hp => ?_⟩
    rcases mem_mset hp with rfl | hp
    · exact hb
    · exact h.2 p hp

theorem pokes_wf {bs : List Byte} {a : Nat} {m : Memory} (h : Memory.wf m = true) : Memory.wf (pokes m a bs) = true := by
  induction bs generalizing a m with
  | nil => exact h
  | cons b bs ih => exact ih (poke_wf h)

theorem mget_mset_eq (d : α) (a c : Nat) (x : α) (m : AMap α) : mget d (mset a x m) c = if c = a then x else mget d m c := by
  induction m with
  | nil => simp [mset, mget]
  | cons q m ih =>
    obtain ⟨k, v⟩ := q
    simp only [mset]
    split
    · simp [mget]
    · split
      · rename_i ha
        subst ha
        simp only [mget]
        split <;> rfl
      · rename_i ha
        simp only [mget, ih]
        by_cases hc : c = k
        · simp [hc, Ne.symm ha]
        · simp [hc]

/-- A byte read after a byte written. -/
theorem peek_poke (m : Memory) (a c : Nat) (b : Byte) : peek (poke a b m) c = if c = a then b else peek m c := by
  unfold peek poke mput
  split
  · rename_i hb
    rw [mget_mdel, hb]
  · exact mget_mset_eq ..

/-- A byte read after a range written. -/
theorem peek_pokes (bs : List Byte) (m : Memory) (a c : Nat) :
    peek (pokes m a bs) c = if a ≤ c ∧ c < a + bs.length then bs.getD (c - a) 0 else peek m c := by
  induction bs generalizing a m with
  | nil => simp [pokes] <;> omega
  | cons b bs ih =>
    rw [pokes, ih, peek_poke]
    by_cases h1 : c = a
    · subst h1
      have : ¬(c + 1 ≤ c ∧ c < c + 1 + bs.length) := by omega
      rw [if_neg this]
      simp
    · by_cases h2 : a ≤ c ∧ c < a + (b :: bs).length
      · have h3 : a + 1 ≤ c ∧ c < a + 1 + bs.length := by simp at h2; omega
        obtain ⟨k, hk⟩ : ∃ k, c - a = k + 1 := ⟨c - a - 1, by omega⟩
        have : c - (a + 1) = k := by omega
        rw [if_pos h2, if_pos h3, hk, this]
        simp
      · have h3 : ¬(a + 1 ≤ c ∧ c < a + 1 + bs.length) := by simp at h2; omega
        rw [if_neg h3, if_neg h1, if_neg h2]

/-- A range read back. -/
theorem peeks_pokes (bs : List Byte) (m : Memory) (a : Nat) : peeks (pokes m a bs) a bs.length = bs := by
  refine List.ext_getElem (by simp [peeks]) fun i h1 h2 => ?_
  simp only [peeks, List.length_map, List.length_range] at h1
  simp [peeks, peek_pokes, h1]

/-! The memories of the fabric. -/

/-- Device and host memory are in the canonical form. -/
def Fab.memWf (f : Fab) : Bool := Memory.wf f.mem && Memory.wf f.host
/-- The arrays of a core are. -/
def Core.memWf (x : Core) : Bool := Memory.wf x.spad && Memory.wf x.xb0 && Memory.wf x.xb1 && Memory.wf x.wbuf

theorem reset_memWf : State.reset.f.memWf = true := by decide
theorem Core.reset_memWf : Core.reset.memWf = true := by decide

theorem Core.visible_wf {x : Core} (h : x.memWf = true) : Memory.wf x.visible = true := by
  simp only [Core.memWf, Bool.and_eq_true] at h
  unfold Core.visible
  split
  · exact h.1.2
  · exact h.1.1.2

theorem Core.shadow_wf {x : Core} (h : x.memWf = true) : Memory.wf x.shadow = true := by
  simp only [Core.memWf, Bool.and_eq_true] at h
  unfold Core.shadow
  split
  · exact h.1.1.2
  · exact h.1.2

theorem Core.setVisible_memWf {x : Core} {m : Memory} (h : x.memWf = true) (hm : Memory.wf m = true) :
    (x.setVisible m).memWf = true := by
  simp only [Core.memWf, Bool.and_eq_true] at h ⊢
  unfold Core.setVisible
  split <;> simp [h, hm]

theorem Core.setShadow_memWf {x : Core} {m : Memory} (h : x.memWf = true) (hm : Memory.wf m = true) :
    (x.setShadow m).memWf = true := by
  simp only [Core.memWf, Bool.and_eq_true] at h ⊢
  unfold Core.setShadow
  split <;> simp [h, hm]

theorem Core.locWrite_memWf {x : Core} {off : Nat} {bs : List Byte} (h : x.memWf = true) : (x.locWrite off bs).memWf = true := by
  unfold Core.locWrite
  split
  · simp only [Core.memWf, Bool.and_eq_true] at h ⊢
    simp [h, pokes_wf h.1.1.1]
  · exact Core.setVisible_memWf h (pokes_wf (Core.visible_wf h))

theorem Fab.pokeOwn_memWf {bs : List Byte} {f : Fab} {m : Mgt} {mask : Bool} {la : Nat} (h : f.memWf = true) :
    (f.pokeOwn m mask la bs).memWf = true := by
  induction bs generalizing f la with
  | nil => exact h
  | cons b bs ih =>
    rw [Fab.pokeOwn]
    refine ih ?_
    split
    · exact h
    · simp only [Fab.memWf, Bool.and_eq_true] at h ⊢
      exact ⟨poke_wf h.1, h.2⟩

theorem Fab.settle_memWf {f : Fab} {m : Mgt} {w : Option Who} {l : Nat} (h : f.memWf = true) : (f.settle m w l).memWf = true := by
  unfold Fab.settle
  simp only [Fab.memWf, Bool.and_eq_true] at h ⊢
  split
  · exact h
  · refine ⟨?_, h.2⟩
    dsimp only
    split
    · exact pokes_wf h.1
    · exact h.1

theorem Fab.settleAll_memWf {k : Nat} {f : Fab} {m : Mgt} {w : Option Who} {l : Nat} (h : f.memWf = true) :
    (f.settleAll m w l k).memWf = true := by
  induction k generalizing f l with
  | zero => exact h
  | succ k ih => exact ih (Fab.settle_memWf h)

theorem Fab.wakeAll_mem {ws : List Watch} {f : Fab} {w : Option Who} {gpa n : Nat} :
    (f.wakeAll w gpa n ws).mem = f.mem ∧ (f.wakeAll w gpa n ws).host = f.host := by
  induction ws generalizing f with
  | nil => exact ⟨rfl, rfl⟩
  | cons x xs ih =>
    rw [Fab.wakeAll]
    refine ⟨ih.1.trans ?_, ih.2.trans ?_⟩ <;> split <;> rfl

@[simp] theorem Fab.notify_mem (f : Fab) (m : Mgt) (w : Option Who) (gpa n : Nat) : (f.notify m w gpa n).mem = f.mem :=
  Fab.wakeAll_mem.1
@[simp] theorem Fab.notify_host (f : Fab) (m : Mgt) (w : Option Who) (gpa n : Nat) : (f.notify m w gpa n).host = f.host :=
  Fab.wakeAll_mem.2

/-! Noting how lines stand changes the notes only (R43). -/

@[simp] theorem Fab.note_mem (f : Fab) (host : Bool) (l n : Nat) : (f.note host l n).mem = f.mem := rfl
@[simp] theorem Fab.note_host (f : Fab) (host : Bool) (l n : Nat) : (f.note host l n).host = f.host := rfl
@[simp] theorem Fab.note_wl (f : Fab) (host : Bool) (l n : Nat) : (f.note host l n).wl = f.wl := rfl
@[simp] theorem Fab.note_cores (f : Fab) (host : Bool) (l n : Nat) : (f.note host l n).cores = f.cores := rfl
@[simp] theorem Fab.note_ctxs (f : Fab) (host : Bool) (l n : Nat) : (f.note host l n).ctxs = f.ctxs := rfl
@[simp] theorem Fab.note_due (f : Fab) (host : Bool) (l n : Nat) : (f.note host l n).due = f.due := rfl
@[simp] theorem Fab.note_memWf (f : Fab) (host : Bool) (l n : Nat) : (f.note host l n).memWf = f.memWf := rfl

/-- A code line with no other version is fetched as it stands (R43). -/
theorem Fab.codeLine_now {f : Fab} {m : Mgt} {n : CtxId} {gpa : Nat} (h : f.versions m n gpa = []) :
    f.codeLine m n gpa = bytesLine (f.bytesAt m gpa 64) := by
  simp [Fab.codeLine, h]

/-- What a fetch executes is the line as it stands or one of its versions (R43). -/
theorem Fab.codeLine_version (f : Fab) (m : Mgt) (n : CtxId) (gpa : Nat) :
    f.codeLine m n gpa = bytesLine (f.bytesAt m gpa 64) ∨ ∃ v ∈ f.versions m n gpa, f.codeLine m n gpa = v := by
  unfold Fab.codeLine
  split
  · exact .inl rfl
  · next v vs h =>
    rw [h]
    cases e : (v :: vs)[Config.codeVersion f.cycle gpa % (vs.length + 2)]? with
    | none => exact .inl rfl
    | some x => exact .inr ⟨x, List.mem_of_getElem? e, rfl⟩

/-- A thread executes a line that it has come to as it was read then (R43). -/
theorem Thread.codeOf_kept {t : Thread} {gpa : Nat} {d : Line} (e : t.code = some (gpa, d)) : t.codeOf gpa = some d := by
  simp [Thread.codeOf, e]

theorem Fab.pokeHost_wf {bs : List Byte} {f : Fab} {gpa pa : Nat} (h : Memory.wf f.host = true) :
    Memory.wf (f.pokeHost gpa pa bs) = true := by
  induction bs generalizing gpa pa with
  | nil => exact h
  | cons b bs ih =>
    unfold Fab.pokeHost
    dsimp only
    split
    · exact ih
    · exact poke_wf ih

/-- All that sending a request changes: what is sent, and the links (R323, R328, R330). -/
theorem Fab.transmit_spec (f : Fab) (m : Mgt) (what : LinkReq) (dev key : Nat) :
    ∃ l, f.transmit m what dev key = { f with sent := f.sent ++ [⟨what, dev, key, m.portFor dev key⟩], links := l } := by
  unfold Fab.transmit
  cases m.portFor dev key with
  | none => exact ⟨f.links, rfl⟩
  | some p => exact ⟨_, rfl⟩

/-- All that a posted write changes: what is posted, what is sent, and the links (R154, R330). -/
theorem Fab.post_spec (f : Fab) (m : Mgt) (r : RWrite) :
    ∃ x l, f.post m r = { f with rwrites := f.rwrites ++ [r], sent := x, links := l } := by
  unfold Fab.post
  dsimp only
  split
  · next dev la _ =>
    obtain ⟨l, h⟩ := Fab.transmit_spec { f with rwrites := f.rwrites ++ [r] } m (.write r.id) dev (r.gpa / 64)
    exact ⟨_, l, h⟩
  · exact ⟨f.sent, f.links, rfl⟩

theorem Fab.post_memWf {f : Fab} {m : Mgt} {r : RWrite} (h : f.memWf = true) : (f.post m r).memWf = true := by
  obtain ⟨x, l, e⟩ := Fab.post_spec f m r
  rw [e]; exact h

/-- Every store keeps the canonical form. -/
theorem Fab.store_memWf {f : Fab} {m : Mgt} {w : Option Who} {mask : Bool} {gpa : Nat} {bs : List Byte} (h : f.memWf = true) :
    (f.store m w mask gpa bs).memWf = true := by
  unfold Fab.store
  split
  · have := Fab.pokeOwn_memWf (bs := bs) (m := m) (mask := mask) (la := ‹Nat›)
      (Fab.settleAll_memWf (w := w) (k := (‹Nat› + bs.length + 63) / 64 - ‹Nat› / 64) (l := ‹Nat› / 64)
        (m := m) (f := f.note false (‹Nat› / 64) ((‹Nat› + bs.length + 63) / 64 - ‹Nat› / 64)) h)
    simpa [Fab.memWf] using this
  · split
    · have h' := h
      simp only [Fab.memWf, Bool.and_eq_true] at h ⊢
      simp only [Fab.notify_mem, Fab.notify_host, Fab.note_mem]
      refine ⟨h.1, ?_⟩
      split
      · exact Fab.pokeHost_wf h.2
      · exact pokes_wf h.2
    · exact h
  · exact Fab.post_memWf h
  · exact h

theorem Fab.storeWord_memWf {f : Fab} {m : Mgt} {gpa x : Nat} (h : f.memWf = true) : (f.storeWord m gpa x).memWf = true :=
  Fab.store_memWf h

/-- A line that leaves the write lane keeps the form too. -/
theorem Fab.drainOne_memWf {f : Fab} {m : Mgt} {e : WEntry} (h : f.memWf = true) : (f.drainOne m e).memWf = true := by
  unfold Fab.drainOne
  dsimp only
  split
  · exact h
  · split
    · exact h
    · simp only [Fab.memWf, Bool.and_eq_true] at h ⊢
      exact ⟨pokes_wf h.1, h.2⟩

theorem Fab.serveTo_memWf {n : Nat} {f : Fab} {m : Mgt} {k : StackId} {id : Nat} (h : f.memWf = true) :
    (f.serveTo m k id n).memWf = true := by
  induction n generalizing f with
  | zero => exact h
  | succ n ih =>
    rw [Fab.serveTo]
    split
    · exact h
    · split
      · exact ih (by simpa [Fab.memWf] using Fab.drainOne_memWf h)
      · exact h

/-- So does one that leaves its home slice. -/
theorem Fab.writeback_memWf {f : Fab} {line : Nat} {d : Dirty} (h : f.memWf = true) : (f.writeback line d).memWf = true := by
  simp only [Fab.memWf, Bool.and_eq_true] at h
  unfold Fab.writeback
  dsimp only
  split
  · simp [Fab.memWf, h]
  · simp only [Fab.memWf, Bool.and_eq_true]
    exact ⟨pokes_wf h.1, h.2⟩

theorem Fab.evict_memWf {f : Fab} {m : Mgt} {line : Nat} {must : Bool} (h : f.memWf = true) : (f.evict m line must).memWf = true := by
  unfold Fab.evict
  split
  · exact h
  · split
    · exact Fab.writeback_memWf h
    · split
      · exact h
      · split <;> exact Fab.writeback_memWf h

/-- A core whose arrays are read back from its save area starts them from nothing (R342, R347). -/
theorem restored_wf (bs : List Byte) : Memory.wf (pokes [] 0 bs) = true := pokes_wf rfl

end Sys2Proof.Machine
end

