-- ==== Sys2Proof/Laws/State.lean ====
section
/-! SUPPORT. What each update of a thread, a core, the fabric or the state leaves in each field, and what the named reads see
after the named writes. -/

namespace Sys2Proof.Machine

/-! Updates of a thread. -/

@[simp] theorem Thread.wr_p (t : Thread) (r : SReg) (x : Word) : (t.wr r x).p = t.p := by unfold Thread.wr; split <;> rfl
@[simp] theorem Thread.wr_v (t : Thread) (r : SReg) (x : Word) : (t.wr r x).v = t.v := by unfold Thread.wr; split <;> rfl
@[simp] theorem Thread.wr_pc (t : Thread) (r : SReg) (x : Word) : (t.wr r x).pc = t.pc := by unfold Thread.wr; split <;> rfl
@[simp] theorem Thread.wr_npc (t : Thread) (r : SReg) (x : Word) : (t.wr r x).npc = t.npc := by unfold Thread.wr; split <;> rfl
@[simp] theorem Thread.wr_ls (t : Thread) (r : SReg) (x : Word) : (t.wr r x).ls = t.ls := by unfold Thread.wr; split <;> rfl
@[simp] theorem Thread.wr_savedLs (t : Thread) (r : SReg) (x : Word) : (t.wr r x).savedLs = t.savedLs :=
  by unfold Thread.wr; split <;> rfl
@[simp] theorem Thread.wr_ctl (t : Thread) (r : SReg) (x : Word) : (t.wr r x).ctl = t.ctl := by unfold Thread.wr; split <;> rfl
@[simp] theorem Thread.wr_st (t : Thread) (r : SReg) (x : Word) : (t.wr r x).st = t.st := by unfold Thread.wr; split <;> rfl
@[simp] theorem Thread.wr_firing (t : Thread) (r : SReg) (x : Word) : (t.wr r x).firing = t.firing :=
  by unfold Thread.wr; split <;> rfl
@[simp] theorem Thread.wr_rfid (t : Thread) (r : SReg) (x : Word) : (t.wr r x).rfid = t.rfid :=
  by unfold Thread.wr; split <;> rfl
@[simp] theorem Thread.wr_ran (t : Thread) (r : SReg) (x : Word) : (t.wr r x).ran = t.ran := by unfold Thread.wr; split <;> rfl
@[simp] theorem Thread.wr_savedPend (t : Thread) (r : SReg) (x : Word) : (t.wr r x).savedPend = t.savedPend :=
  by unfold Thread.wr; split <;> rfl
@[simp] theorem Thread.wr_elem (t : Thread) (r : SReg) (x : Word) : (t.wr r x).elem = t.elem :=
  by unfold Thread.wr; split <;> rfl
@[simp] theorem Thread.wr_take (t : Thread) (r : SReg) (x : Word) : (t.wr r x).take = t.take :=
  by unfold Thread.wr; split <;> rfl
@[simp] theorem Thread.wr_wdrain (t : Thread) (r : SReg) (x : Word) : (t.wr r x).wdrain = t.wdrain :=
  by unfold Thread.wr; split <;> rfl
@[simp] theorem Thread.wr_code (t : Thread) (r : SReg) (x : Word) : (t.wr r x).code = t.code :=
  by unfold Thread.wr; split <;> rfl
@[simp] theorem Thread.wr_age (t : Thread) (r : SReg) (x : Word) : (t.wr r x).age = t.age := by unfold Thread.wr; split <;> rfl
@[simp] theorem Thread.wrp_s (t : Thread) (r : PReg) (b : Bool) : (t.wrp r b).s = t.s := by unfold Thread.wrp; split <;> rfl
@[simp] theorem Thread.wrp_v (t : Thread) (r : PReg) (b : Bool) : (t.wrp r b).v = t.v := by unfold Thread.wrp; split <;> rfl
@[simp] theorem Thread.wrp_pc (t : Thread) (r : PReg) (b : Bool) : (t.wrp r b).pc = t.pc := by unfold Thread.wrp; split <;> rfl
@[simp] theorem Thread.wrp_npc (t : Thread) (r : PReg) (b : Bool) : (t.wrp r b).npc = t.npc :=
  by unfold Thread.wrp; split <;> rfl
@[simp] theorem Thread.wrp_ls (t : Thread) (r : PReg) (b : Bool) : (t.wrp r b).ls = t.ls := by unfold Thread.wrp; split <;> rfl
@[simp] theorem Thread.wrp_savedLs (t : Thread) (r : PReg) (b : Bool) : (t.wrp r b).savedLs = t.savedLs :=
  by unfold Thread.wrp; split <;> rfl
@[simp] theorem Thread.wrp_ctl (t : Thread) (r : PReg) (b : Bool) : (t.wrp r b).ctl = t.ctl :=
  by unfold Thread.wrp; split <;> rfl
@[simp] theorem Thread.wrp_st (t : Thread) (r : PReg) (b : Bool) : (t.wrp r b).st = t.st := by unfold Thread.wrp; split <;> rfl
@[simp] theorem Thread.wrp_firing (t : Thread) (r : PReg) (b : Bool) : (t.wrp r b).firing = t.firing :=
  by unfold Thread.wrp; split <;> rfl
@[simp] theorem Thread.wrp_rfid (t : Thread) (r : PReg) (b : Bool) : (t.wrp r b).rfid = t.rfid :=
  by unfold Thread.wrp; split <;> rfl
@[simp] theorem Thread.wrp_ran (t : Thread) (r : PReg) (b : Bool) : (t.wrp r b).ran = t.ran :=
  by unfold Thread.wrp; split <;> rfl
@[simp] theorem Thread.wrp_pend (t : Thread) (r : PReg) (b : Bool) : (t.wrp r b).pend = t.pend :=
  by unfold Thread.wrp; split <;> rfl
@[simp] theorem Thread.wrp_savedPend (t : Thread) (r : PReg) (b : Bool) : (t.wrp r b).savedPend = t.savedPend :=
  by unfold Thread.wrp; split <;> rfl
@[simp] theorem Thread.wrp_elem (t : Thread) (r : PReg) (b : Bool) : (t.wrp r b).elem = t.elem :=
  by unfold Thread.wrp; split <;> rfl
@[simp] theorem Thread.wrp_take (t : Thread) (r : PReg) (b : Bool) : (t.wrp r b).take = t.take :=
  by unfold Thread.wrp; split <;> rfl
@[simp] theorem Thread.wrp_wdrain (t : Thread) (r : PReg) (b : Bool) : (t.wrp r b).wdrain = t.wdrain :=
  by unfold Thread.wrp; split <;> rfl
@[simp] theorem Thread.wrp_code (t : Thread) (r : PReg) (b : Bool) : (t.wrp r b).code = t.code :=
  by unfold Thread.wrp; split <;> rfl
@[simp] theorem Thread.wrp_age (t : Thread) (r : PReg) (b : Bool) : (t.wrp r b).age = t.age :=
  by unfold Thread.wrp; split <;> rfl
@[simp] theorem Thread.wrv_s (t : Thread) (r : VReg) (x : Line) : (t.wrv r x).s = t.s := rfl
@[simp] theorem Thread.wrv_p (t : Thread) (r : VReg) (x : Line) : (t.wrv r x).p = t.p := rfl
@[simp] theorem Thread.wrv_pc (t : Thread) (r : VReg) (x : Line) : (t.wrv r x).pc = t.pc := rfl
@[simp] theorem Thread.wrv_npc (t : Thread) (r : VReg) (x : Line) : (t.wrv r x).npc = t.npc := rfl
@[simp] theorem Thread.wrv_ls (t : Thread) (r : VReg) (x : Line) : (t.wrv r x).ls = t.ls := rfl
@[simp] theorem Thread.wrv_savedLs (t : Thread) (r : VReg) (x : Line) : (t.wrv r x).savedLs = t.savedLs := rfl
@[simp] theorem Thread.wrv_ctl (t : Thread) (r : VReg) (x : Line) : (t.wrv r x).ctl = t.ctl := rfl
@[simp] theorem Thread.wrv_st (t : Thread) (r : VReg) (x : Line) : (t.wrv r x).st = t.st := rfl
@[simp] theorem Thread.wrv_firing (t : Thread) (r : VReg) (x : Line) : (t.wrv r x).firing = t.firing := rfl
@[simp] theorem Thread.wrv_rfid (t : Thread) (r : VReg) (x : Line) : (t.wrv r x).rfid = t.rfid := rfl
@[simp] theorem Thread.wrv_ran (t : Thread) (r : VReg) (x : Line) : (t.wrv r x).ran = t.ran := rfl
@[simp] theorem Thread.wrv_savedPend (t : Thread) (r : VReg) (x : Line) : (t.wrv r x).savedPend = t.savedPend := rfl
@[simp] theorem Thread.wrv_elem (t : Thread) (r : VReg) (x : Line) : (t.wrv r x).elem = t.elem := rfl
@[simp] theorem Thread.wrv_take (t : Thread) (r : VReg) (x : Line) : (t.wrv r x).take = t.take := rfl
@[simp] theorem Thread.wrv_wdrain (t : Thread) (r : VReg) (x : Line) : (t.wrv r x).wdrain = t.wdrain := rfl
@[simp] theorem Thread.wrv_code (t : Thread) (r : VReg) (x : Line) : (t.wrv r x).code = t.code := rfl
@[simp] theorem Thread.wrv_age (t : Thread) (r : VReg) (x : Line) : (t.wrv r x).age = t.age := rfl
@[simp] theorem Thread.adv_s (t : Thread) : t.adv.s = t.s := rfl
@[simp] theorem Thread.adv_p (t : Thread) : t.adv.p = t.p := rfl
@[simp] theorem Thread.adv_v (t : Thread) : t.adv.v = t.v := rfl
@[simp] theorem Thread.adv_pc (t : Thread) : t.adv.pc = t.npc := rfl
@[simp] theorem Thread.adv_npc (t : Thread) : t.adv.npc = t.npc := rfl
@[simp] theorem Thread.adv_ls (t : Thread) : t.adv.ls = t.ls := rfl
@[simp] theorem Thread.adv_savedLs (t : Thread) : t.adv.savedLs = t.savedLs := rfl
@[simp] theorem Thread.adv_ctl (t : Thread) : t.adv.ctl = t.ctl := rfl
@[simp] theorem Thread.adv_st (t : Thread) : t.adv.st = t.st := rfl
@[simp] theorem Thread.adv_firing (t : Thread) : t.adv.firing = t.firing := rfl
@[simp] theorem Thread.adv_rfid (t : Thread) : t.adv.rfid = t.rfid := rfl
@[simp] theorem Thread.adv_ran (t : Thread) : t.adv.ran = t.ran := rfl
@[simp] theorem Thread.adv_pend (t : Thread) : t.adv.pend = t.pend := rfl
@[simp] theorem Thread.adv_savedPend (t : Thread) : t.adv.savedPend = t.savedPend := rfl
@[simp] theorem Thread.adv_elem (t : Thread) : t.adv.elem = t.elem := rfl
@[simp] theorem Thread.adv_take (t : Thread) : t.adv.take = t.take := rfl
@[simp] theorem Thread.adv_wdrain (t : Thread) : t.adv.wdrain = t.wdrain := rfl
@[simp] theorem Thread.adv_code (t : Thread) : t.adv.code = t.code := rfl
@[simp] theorem Thread.adv_age (t : Thread) : t.adv.age = t.age := rfl
@[simp] theorem Thread.jump_s (t : Thread) (p : Pc) : (t.jump p).s = t.s := rfl
@[simp] theorem Thread.jump_p (t : Thread) (p : Pc) : (t.jump p).p = t.p := rfl
@[simp] theorem Thread.jump_v (t : Thread) (p : Pc) : (t.jump p).v = t.v := rfl
@[simp] theorem Thread.jump_pc (t : Thread) (p : Pc) : (t.jump p).pc = p := rfl
@[simp] theorem Thread.jump_npc (t : Thread) (p : Pc) : (t.jump p).npc = t.npc := rfl
@[simp] theorem Thread.jump_ls (t : Thread) (p : Pc) : (t.jump p).ls = t.ls := rfl
@[simp] theorem Thread.jump_savedLs (t : Thread) (p : Pc) : (t.jump p).savedLs = t.savedLs := rfl
@[simp] theorem Thread.jump_ctl (t : Thread) (p : Pc) : (t.jump p).ctl = t.ctl := rfl
@[simp] theorem Thread.jump_st (t : Thread) (p : Pc) : (t.jump p).st = t.st := rfl
@[simp] theorem Thread.jump_firing (t : Thread) (p : Pc) : (t.jump p).firing = t.firing := rfl
@[simp] theorem Thread.jump_rfid (t : Thread) (p : Pc) : (t.jump p).rfid = t.rfid := rfl
@[simp] theorem Thread.jump_ran (t : Thread) (p : Pc) : (t.jump p).ran = t.ran := rfl
@[simp] theorem Thread.jump_pend (t : Thread) (p : Pc) : (t.jump p).pend = t.pend := rfl
@[simp] theorem Thread.jump_savedPend (t : Thread) (p : Pc) : (t.jump p).savedPend = t.savedPend := rfl
@[simp] theorem Thread.jump_elem (t : Thread) (p : Pc) : (t.jump p).elem = t.elem := rfl
@[simp] theorem Thread.jump_take (t : Thread) (p : Pc) : (t.jump p).take = t.take := rfl
@[simp] theorem Thread.jump_wdrain (t : Thread) (p : Pc) : (t.jump p).wdrain = t.wdrain := rfl
@[simp] theorem Thread.jump_code (t : Thread) (p : Pc) : (t.jump p).code = t.code := rfl
@[simp] theorem Thread.jump_age (t : Thread) (p : Pc) : (t.jump p).age = t.age := rfl
@[simp] theorem Thread.wr_pend (t : Thread) (r : SReg) (x : Word) :
    (t.wr r x).pend = if r = 0 then t.pend else t.pend.map (Pend.written (.s r)) := by unfold Thread.wr; split <;> rfl
@[simp] theorem Thread.wrv_pend (t : Thread) (r : VReg) (x : Line) : (t.wrv r x).pend = t.pend.map (Pend.written (.v r)) := rfl

/-! Updates of the fabric. -/

@[simp] theorem Fab.setCore_ctlb (f : Fab) (c : CoreId) (x : Core) : (f.setCore c x).ctlb = f.ctlb := rfl
@[simp] theorem Fab.setCore_mem (f : Fab) (c : CoreId) (x : Core) : (f.setCore c x).mem = f.mem := rfl
@[simp] theorem Fab.setCore_dirty (f : Fab) (c : CoreId) (x : Core) : (f.setCore c x).dirty = f.dirty := rfl
@[simp] theorem Fab.setCore_host (f : Fab) (c : CoreId) (x : Core) : (f.setCore c x).host = f.host := rfl
@[simp] theorem Fab.setCore_poison (f : Fab) (c : CoreId) (x : Core) : (f.setCore c x).poison = f.poison := rfl
@[simp] theorem Fab.setCore_ctxs (f : Fab) (c : CoreId) (x : Core) : (f.setCore c x).ctxs = f.ctxs := rfl
@[simp] theorem Fab.setCore_live (f : Fab) (c : CoreId) (x : Core) : (f.setCore c x).live = f.live := rfl
@[simp] theorem Fab.setCore_kernels (f : Fab) (c : CoreId) (x : Core) : (f.setCore c x).kernels = f.kernels := rfl
@[simp] theorem Fab.setCore_watches (f : Fab) (c : CoreId) (x : Core) : (f.setCore c x).watches = f.watches := rfl
@[simp] theorem Fab.setCore_wl (f : Fab) (c : CoreId) (x : Core) : (f.setCore c x).wl = f.wl := rfl
@[simp] theorem Fab.setCore_rot (f : Fab) (c : CoreId) (x : Core) : (f.setCore c x).rot = f.rot := rfl
@[simp] theorem Fab.setCore_winAt (f : Fab) (c : CoreId) (x : Core) : (f.setCore c x).winAt = f.winAt := rfl
@[simp] theorem Fab.setCore_elems (f : Fab) (c : CoreId) (x : Core) : (f.setCore c x).elems = f.elems := rfl
@[simp] theorem Fab.setCore_decs (f : Fab) (c : CoreId) (x : Core) : (f.setCore c x).decs = f.decs := rfl
@[simp] theorem Fab.setCore_wakes (f : Fab) (c : CoreId) (x : Core) : (f.setCore c x).wakes = f.wakes := rfl
@[simp] theorem Fab.setCore_msgs (f : Fab) (c : CoreId) (x : Core) : (f.setCore c x).msgs = f.msgs := rfl
@[simp] theorem Fab.setCore_ops (f : Fab) (c : CoreId) (x : Core) : (f.setCore c x).ops = f.ops := rfl
@[simp] theorem Fab.setCore_chimes (f : Fab) (c : CoreId) (x : Core) : (f.setCore c x).chimes = f.chimes := rfl
@[simp] theorem Fab.setCore_bars (f : Fab) (c : CoreId) (x : Core) : (f.setCore c x).bars = f.bars := rfl
@[simp] theorem Fab.setCore_rwrites (f : Fab) (c : CoreId) (x : Core) : (f.setCore c x).rwrites = f.rwrites := rfl
@[simp] theorem Fab.setCore_links (f : Fab) (c : CoreId) (x : Core) : (f.setCore c x).links = f.links := rfl
@[simp] theorem Fab.setCore_sent (f : Fab) (c : CoreId) (x : Core) : (f.setCore c x).sent = f.sent := rfl
@[simp] theorem Fab.setCore_strand (f : Fab) (c : CoreId) (x : Core) : (f.setCore c x).strand = f.strand := rfl
@[simp] theorem Fab.setCore_reads (f : Fab) (c : CoreId) (x : Core) : (f.setCore c x).reads = f.reads := rfl
@[simp] theorem Fab.setCore_loose (f : Fab) (c : CoreId) (x : Core) : (f.setCore c x).loose = f.loose := rfl
@[simp] theorem Fab.setCore_contribs (f : Fab) (c : CoreId) (x : Core) : (f.setCore c x).contribs = f.contribs := rfl
@[simp] theorem Fab.setCore_reqs (f : Fab) (c : CoreId) (x : Core) : (f.setCore c x).reqs = f.reqs := rfl
@[simp] theorem Fab.setCore_sels (f : Fab) (c : CoreId) (x : Core) : (f.setCore c x).sels = f.sels := rfl
@[simp] theorem Fab.setCore_eligible (f : Fab) (c : CoreId) (x : Core) : (f.setCore c x).eligible = f.eligible := rfl
@[simp] theorem Fab.setCore_pairs (f : Fab) (c : CoreId) (x : Core) : (f.setCore c x).pairs = f.pairs := rfl
@[simp] theorem Fab.setCore_swapK (f : Fab) (c : CoreId) (x : Core) : (f.setCore c x).swapK = f.swapK := rfl
@[simp] theorem Fab.setCore_tlbinv (f : Fab) (c : CoreId) (x : Core) : (f.setCore c x).tlbinv = f.tlbinv := rfl
@[simp] theorem Fab.setCore_ctxbase (f : Fab) (c : CoreId) (x : Core) : (f.setCore c x).ctxbase = f.ctxbase := rfl
@[simp] theorem Fab.setCore_ctxrsp (f : Fab) (c : CoreId) (x : Core) : (f.setCore c x).ctxrsp = f.ctxrsp := rfl
@[simp] theorem Fab.setCore_trapq (f : Fab) (c : CoreId) (x : Core) : (f.setCore c x).trapq = f.trapq := rfl
@[simp] theorem Fab.setCore_answers (f : Fab) (c : CoreId) (x : Core) : (f.setCore c x).answers = f.answers := rfl
@[simp] theorem Fab.setCore_chimed (f : Fab) (c : CoreId) (x : Core) : (f.setCore c x).chimed = f.chimed := rfl
@[simp] theorem Fab.setCore_out (f : Fab) (c : CoreId) (x : Core) : (f.setCore c x).out = f.out := rfl
@[simp] theorem Fab.setCore_ids (f : Fab) (c : CoreId) (x : Core) : (f.setCore c x).ids = f.ids := rfl
@[simp] theorem Fab.setCore_cycle (f : Fab) (c : CoreId) (x : Core) : (f.setCore c x).cycle = f.cycle := rfl
@[simp] theorem Fab.setCore_urgent (f : Fab) (c : CoreId) (x : Core) : (f.setCore c x).urgent = f.urgent := rfl
@[simp] theorem Fab.setCore_due (f : Fab) (c : CoreId) (x : Core) : (f.setCore c x).due = f.due := rfl
@[simp] theorem Fab.setCore_past (f : Fab) (c : CoreId) (x : Core) : (f.setCore c x).past = f.past := rfl
@[simp] theorem Fab.modCore_ctlb (f : Fab) (c : CoreId) (x : Core → Core) : (f.modCore c x).ctlb = f.ctlb := rfl
@[simp] theorem Fab.modCore_mem (f : Fab) (c : CoreId) (x : Core → Core) : (f.modCore c x).mem = f.mem := rfl
@[simp] theorem Fab.modCore_dirty (f : Fab) (c : CoreId) (x : Core → Core) : (f.modCore c x).dirty = f.dirty := rfl
@[simp] theorem Fab.modCore_host (f : Fab) (c : CoreId) (x : Core → Core) : (f.modCore c x).host = f.host := rfl
@[simp] theorem Fab.modCore_poison (f : Fab) (c : CoreId) (x : Core → Core) : (f.modCore c x).poison = f.poison := rfl
@[simp] theorem Fab.modCore_ctxs (f : Fab) (c : CoreId) (x : Core → Core) : (f.modCore c x).ctxs = f.ctxs := rfl
@[simp] theorem Fab.modCore_live (f : Fab) (c : CoreId) (x : Core → Core) : (f.modCore c x).live = f.live := rfl
@[simp] theorem Fab.modCore_kernels (f : Fab) (c : CoreId) (x : Core → Core) : (f.modCore c x).kernels = f.kernels := rfl
@[simp] theorem Fab.modCore_watches (f : Fab) (c : CoreId) (x : Core → Core) : (f.modCore c x).watches = f.watches := rfl
@[simp] theorem Fab.modCore_wl (f : Fab) (c : CoreId) (x : Core → Core) : (f.modCore c x).wl = f.wl := rfl
@[simp] theorem Fab.modCore_rot (f : Fab) (c : CoreId) (x : Core → Core) : (f.modCore c x).rot = f.rot := rfl
@[simp] theorem Fab.modCore_winAt (f : Fab) (c : CoreId) (x : Core → Core) : (f.modCore c x).winAt = f.winAt := rfl
@[simp] theorem Fab.modCore_elems (f : Fab) (c : CoreId) (x : Core → Core) : (f.modCore c x).elems = f.elems := rfl
@[simp] theorem Fab.modCore_decs (f : Fab) (c : CoreId) (x : Core → Core) : (f.modCore c x).decs = f.decs := rfl
@[simp] theorem Fab.modCore_wakes (f : Fab) (c : CoreId) (x : Core → Core) : (f.modCore c x).wakes = f.wakes := rfl
@[simp] theorem Fab.modCore_msgs (f : Fab) (c : CoreId) (x : Core → Core) : (f.modCore c x).msgs = f.msgs := rfl
@[simp] theorem Fab.modCore_ops (f : Fab) (c : CoreId) (x : Core → Core) : (f.modCore c x).ops = f.ops := rfl
@[simp] theorem Fab.modCore_chimes (f : Fab) (c : CoreId) (x : Core → Core) : (f.modCore c x).chimes = f.chimes := rfl
@[simp] theorem Fab.modCore_bars (f : Fab) (c : CoreId) (x : Core → Core) : (f.modCore c x).bars = f.bars := rfl
@[simp] theorem Fab.modCore_rwrites (f : Fab) (c : CoreId) (x : Core → Core) : (f.modCore c x).rwrites = f.rwrites := rfl
@[simp] theorem Fab.modCore_links (f : Fab) (c : CoreId) (x : Core → Core) : (f.modCore c x).links = f.links := rfl
@[simp] theorem Fab.modCore_sent (f : Fab) (c : CoreId) (x : Core → Core) : (f.modCore c x).sent = f.sent := rfl
@[simp] theorem Fab.modCore_strand (f : Fab) (c : CoreId) (x : Core → Core) : (f.modCore c x).strand = f.strand := rfl
@[simp] theorem Fab.modCore_reads (f : Fab) (c : CoreId) (x : Core → Core) : (f.modCore c x).reads = f.reads := rfl
@[simp] theorem Fab.modCore_loose (f : Fab) (c : CoreId) (x : Core → Core) : (f.modCore c x).loose = f.loose := rfl
@[simp] theorem Fab.modCore_contribs (f : Fab) (c : CoreId) (x : Core → Core) : (f.modCore c x).contribs = f.contribs := rfl
@[simp] theorem Fab.modCore_reqs (f : Fab) (c : CoreId) (x : Core → Core) : (f.modCore c x).reqs = f.reqs := rfl
@[simp] theorem Fab.modCore_sels (f : Fab) (c : CoreId) (x : Core → Core) : (f.modCore c x).sels = f.sels := rfl
@[simp] theorem Fab.modCore_eligible (f : Fab) (c : CoreId) (x : Core → Core) : (f.modCore c x).eligible = f.eligible := rfl
@[simp] theorem Fab.modCore_pairs (f : Fab) (c : CoreId) (x : Core → Core) : (f.modCore c x).pairs = f.pairs := rfl
@[simp] theorem Fab.modCore_swapK (f : Fab) (c : CoreId) (x : Core → Core) : (f.modCore c x).swapK = f.swapK := rfl
@[simp] theorem Fab.modCore_tlbinv (f : Fab) (c : CoreId) (x : Core → Core) : (f.modCore c x).tlbinv = f.tlbinv := rfl
@[simp] theorem Fab.modCore_ctxbase (f : Fab) (c : CoreId) (x : Core → Core) : (f.modCore c x).ctxbase = f.ctxbase := rfl
@[simp] theorem Fab.modCore_ctxrsp (f : Fab) (c : CoreId) (x : Core → Core) : (f.modCore c x).ctxrsp = f.ctxrsp := rfl
@[simp] theorem Fab.modCore_trapq (f : Fab) (c : CoreId) (x : Core → Core) : (f.modCore c x).trapq = f.trapq := rfl
@[simp] theorem Fab.modCore_answers (f : Fab) (c : CoreId) (x : Core → Core) : (f.modCore c x).answers = f.answers := rfl
@[simp] theorem Fab.modCore_chimed (f : Fab) (c : CoreId) (x : Core → Core) : (f.modCore c x).chimed = f.chimed := rfl
@[simp] theorem Fab.modCore_out (f : Fab) (c : CoreId) (x : Core → Core) : (f.modCore c x).out = f.out := rfl
@[simp] theorem Fab.modCore_ids (f : Fab) (c : CoreId) (x : Core → Core) : (f.modCore c x).ids = f.ids := rfl
@[simp] theorem Fab.modCore_cycle (f : Fab) (c : CoreId) (x : Core → Core) : (f.modCore c x).cycle = f.cycle := rfl
@[simp] theorem Fab.modCore_urgent (f : Fab) (c : CoreId) (x : Core → Core) : (f.modCore c x).urgent = f.urgent := rfl
@[simp] theorem Fab.modCore_due (f : Fab) (c : CoreId) (x : Core → Core) : (f.modCore c x).due = f.due := rfl
@[simp] theorem Fab.modCore_past (f : Fab) (c : CoreId) (x : Core → Core) : (f.modCore c x).past = f.past := rfl
@[simp] theorem Fab.setThread_ctlb (f : Fab) (c : CoreId) (h : ThreadId) (x : Thread) : (f.setThread c h x).ctlb = f.ctlb := rfl
@[simp] theorem Fab.setThread_mem (f : Fab) (c : CoreId) (h : ThreadId) (x : Thread) : (f.setThread c h x).mem = f.mem := rfl
@[simp] theorem Fab.setThread_dirty (f : Fab) (c : CoreId) (h : ThreadId) (x : Thread) : (f.setThread c h x).dirty = f.dirty :=
  rfl
@[simp] theorem Fab.setThread_host (f : Fab) (c : CoreId) (h : ThreadId) (x : Thread) : (f.setThread c h x).host = f.host := rfl
@[simp] theorem Fab.setThread_poison (f : Fab) (c : CoreId) (h : ThreadId) (x : Thread) : (f.setThread c h x).poison = f.poison :=
  rfl
@[simp] theorem Fab.setThread_ctxs (f : Fab) (c : CoreId) (h : ThreadId) (x : Thread) : (f.setThread c h x).ctxs = f.ctxs := rfl
@[simp] theorem Fab.setThread_live (f : Fab) (c : CoreId) (h : ThreadId) (x : Thread) : (f.setThread c h x).live = f.live := rfl
@[simp] theorem Fab.setThread_kernels (f : Fab) (c : CoreId) (h : ThreadId) (x : Thread) : (f.setThread c h x).kernels = f.kernels :=
  rfl
@[simp] theorem Fab.setThread_watches (f : Fab) (c : CoreId) (h : ThreadId) (x : Thread) : (f.setThread c h x).watches = f.watches :=
  rfl
@[simp] theorem Fab.setThread_wl (f : Fab) (c : CoreId) (h : ThreadId) (x : Thread) : (f.setThread c h x).wl = f.wl := rfl
@[simp] theorem Fab.setThread_rot (f : Fab) (c : CoreId) (h : ThreadId) (x : Thread) : (f.setThread c h x).rot = f.rot := rfl
@[simp] theorem Fab.setThread_winAt (f : Fab) (c : CoreId) (h : ThreadId) (x : Thread) : (f.setThread c h x).winAt = f.winAt :=
  rfl
@[simp] theorem Fab.setThread_elems (f : Fab) (c : CoreId) (h : ThreadId) (x : Thread) : (f.setThread c h x).elems = f.elems :=
  rfl
@[simp] theorem Fab.setThread_decs (f : Fab) (c : CoreId) (h : ThreadId) (x : Thread) : (f.setThread c h x).decs = f.decs := rfl
@[simp] theorem Fab.setThread_wakes (f : Fab) (c : CoreId) (h : ThreadId) (x : Thread) : (f.setThread c h x).wakes = f.wakes :=
  rfl
@[simp] theorem Fab.setThread_msgs (f : Fab) (c : CoreId) (h : ThreadId) (x : Thread) : (f.setThread c h x).msgs = f.msgs := rfl
@[simp] theorem Fab.setThread_ops (f : Fab) (c : CoreId) (h : ThreadId) (x : Thread) : (f.setThread c h x).ops = f.ops := rfl
@[simp] theorem Fab.setThread_chimes (f : Fab) (c : CoreId) (h : ThreadId) (x : Thread) : (f.setThread c h x).chimes = f.chimes :=
  rfl
@[simp] theorem Fab.setThread_bars (f : Fab) (c : CoreId) (h : ThreadId) (x : Thread) : (f.setThread c h x).bars = f.bars := rfl
@[simp] theorem Fab.setThread_rwrites (f : Fab) (c : CoreId) (h : ThreadId) (x : Thread) : (f.setThread c h x).rwrites = f.rwrites :=
  rfl
@[simp] theorem Fab.setThread_links (f : Fab) (c : CoreId) (h : ThreadId) (x : Thread) : (f.setThread c h x).links = f.links :=
  rfl
@[simp] theorem Fab.setThread_sent (f : Fab) (c : CoreId) (h : ThreadId) (x : Thread) : (f.setThread c h x).sent = f.sent := rfl
@[simp] theorem Fab.setThread_strand (f : Fab) (c : CoreId) (h : ThreadId) (x : Thread) : (f.setThread c h x).strand = f.strand :=
  rfl
@[simp] theorem Fab.setThread_reads (f : Fab) (c : CoreId) (h : ThreadId) (x : Thread) : (f.setThread c h x).reads = f.reads :=
  rfl
@[simp] theorem Fab.setThread_loose (f : Fab) (c : CoreId) (h : ThreadId) (x : Thread) : (f.setThread c h x).loose = f.loose :=
  rfl
@[simp] theorem Fab.setThread_contribs (f : Fab) (c : CoreId) (h : ThreadId) (x : Thread) : (f.setThread c h x).contribs = f.contribs :=
  rfl
@[simp] theorem Fab.setThread_reqs (f : Fab) (c : CoreId) (h : ThreadId) (x : Thread) : (f.setThread c h x).reqs = f.reqs := rfl
@[simp] theorem Fab.setThread_sels (f : Fab) (c : CoreId) (h : ThreadId) (x : Thread) : (f.setThread c h x).sels = f.sels := rfl
@[simp] theorem Fab.setThread_eligible (f : Fab) (c : CoreId) (h : ThreadId) (x : Thread) : (f.setThread c h x).eligible = f.eligible :=
  rfl
@[simp] theorem Fab.setThread_pairs (f : Fab) (c : CoreId) (h : ThreadId) (x : Thread) : (f.setThread c h x).pairs = f.pairs :=
  rfl
@[simp] theorem Fab.setThread_swapK (f : Fab) (c : CoreId) (h : ThreadId) (x : Thread) : (f.setThread c h x).swapK = f.swapK :=
  rfl
@[simp] theorem Fab.setThread_tlbinv (f : Fab) (c : CoreId) (h : ThreadId) (x : Thread) : (f.setThread c h x).tlbinv = f.tlbinv :=
  rfl
@[simp] theorem Fab.setThread_ctxbase (f : Fab) (c : CoreId) (h : ThreadId) (x : Thread) : (f.setThread c h x).ctxbase = f.ctxbase :=
  rfl
@[simp] theorem Fab.setThread_ctxrsp (f : Fab) (c : CoreId) (h : ThreadId) (x : Thread) : (f.setThread c h x).ctxrsp = f.ctxrsp :=
  rfl
@[simp] theorem Fab.setThread_trapq (f : Fab) (c : CoreId) (h : ThreadId) (x : Thread) : (f.setThread c h x).trapq = f.trapq :=
  rfl
@[simp] theorem Fab.setThread_answers (f : Fab) (c : CoreId) (h : ThreadId) (x : Thread) : (f.setThread c h x).answers = f.answers :=
  rfl
@[simp] theorem Fab.setThread_chimed (f : Fab) (c : CoreId) (h : ThreadId) (x : Thread) : (f.setThread c h x).chimed = f.chimed :=
  rfl
@[simp] theorem Fab.setThread_out (f : Fab) (c : CoreId) (h : ThreadId) (x : Thread) : (f.setThread c h x).out = f.out := rfl
@[simp] theorem Fab.setThread_ids (f : Fab) (c : CoreId) (h : ThreadId) (x : Thread) : (f.setThread c h x).ids = f.ids := rfl
@[simp] theorem Fab.setThread_cycle (f : Fab) (c : CoreId) (h : ThreadId) (x : Thread) : (f.setThread c h x).cycle = f.cycle :=
  rfl
@[simp] theorem Fab.setThread_urgent (f : Fab) (c : CoreId) (h : ThreadId) (x : Thread) : (f.setThread c h x).urgent = f.urgent :=
  rfl
@[simp] theorem Fab.setThread_due (f : Fab) (c : CoreId) (h : ThreadId) (x : Thread) : (f.setThread c h x).due = f.due := rfl
@[simp] theorem Fab.setThread_past (f : Fab) (c : CoreId) (h : ThreadId) (x : Thread) : (f.setThread c h x).past = f.past := rfl
@[simp] theorem Fab.modThread_ctlb (f : Fab) (c : CoreId) (h : ThreadId) (x : Thread → Thread) : (f.modThread c h x).ctlb = f.ctlb :=
  rfl
@[simp] theorem Fab.modThread_mem (f : Fab) (c : CoreId) (h : ThreadId) (x : Thread → Thread) : (f.modThread c h x).mem = f.mem :=
  rfl
@[simp] theorem Fab.modThread_dirty (f : Fab) (c : CoreId) (h : ThreadId) (x : Thread → Thread) : (f.modThread c h x).dirty = f.dirty :=
  rfl
@[simp] theorem Fab.modThread_host (f : Fab) (c : CoreId) (h : ThreadId) (x : Thread → Thread) : (f.modThread c h x).host = f.host :=
  rfl
@[simp] theorem Fab.modThread_poison (f : Fab) (c : CoreId) (h : ThreadId) (x : Thread → Thread) : (f.modThread c h x).poison = f.poison :=
  rfl
@[simp] theorem Fab.modThread_ctxs (f : Fab) (c : CoreId) (h : ThreadId) (x : Thread → Thread) : (f.modThread c h x).ctxs = f.ctxs :=
  rfl
@[simp] theorem Fab.modThread_live (f : Fab) (c : CoreId) (h : ThreadId) (x : Thread → Thread) : (f.modThread c h x).live = f.live :=
  rfl
@[simp] theorem Fab.modThread_kernels (f : Fab) (c : CoreId) (h : ThreadId) (x : Thread → Thread) : (f.modThread c h x).kernels = f.kernels :=
  rfl
@[simp] theorem Fab.modThread_watches (f : Fab) (c : CoreId) (h : ThreadId) (x : Thread → Thread) : (f.modThread c h x).watches = f.watches :=
  rfl
@[simp] theorem Fab.modThread_wl (f : Fab) (c : CoreId) (h : ThreadId) (x : Thread → Thread) : (f.modThread c h x).wl = f.wl :=
  rfl
@[simp] theorem Fab.modThread_rot (f : Fab) (c : CoreId) (h : ThreadId) (x : Thread → Thread) : (f.modThread c h x).rot = f.rot :=
  rfl
@[simp] theorem Fab.modThread_winAt (f : Fab) (c : CoreId) (h : ThreadId) (x : Thread → Thread) : (f.modThread c h x).winAt = f.winAt :=
  rfl
@[simp] theorem Fab.modThread_elems (f : Fab) (c : CoreId) (h : ThreadId) (x : Thread → Thread) : (f.modThread c h x).elems = f.elems :=
  rfl
@[simp] theorem Fab.modThread_decs (f : Fab) (c : CoreId) (h : ThreadId) (x : Thread → Thread) : (f.modThread c h x).decs = f.decs :=
  rfl
@[simp] theorem Fab.modThread_wakes (f : Fab) (c : CoreId) (h : ThreadId) (x : Thread → Thread) : (f.modThread c h x).wakes = f.wakes :=
  rfl
@[simp] theorem Fab.modThread_msgs (f : Fab) (c : CoreId) (h : ThreadId) (x : Thread → Thread) : (f.modThread c h x).msgs = f.msgs :=
  rfl
@[simp] theorem Fab.modThread_ops (f : Fab) (c : CoreId) (h : ThreadId) (x : Thread → Thread) : (f.modThread c h x).ops = f.ops :=
  rfl
@[simp] theorem Fab.modThread_chimes (f : Fab) (c : CoreId) (h : ThreadId) (x : Thread → Thread) : (f.modThread c h x).chimes = f.chimes :=
  rfl
@[simp] theorem Fab.modThread_bars (f : Fab) (c : CoreId) (h : ThreadId) (x : Thread → Thread) : (f.modThread c h x).bars = f.bars :=
  rfl
@[simp] theorem Fab.modThread_rwrites (f : Fab) (c : CoreId) (h : ThreadId) (x : Thread → Thread) : (f.modThread c h x).rwrites = f.rwrites :=
  rfl
@[simp] theorem Fab.modThread_links (f : Fab) (c : CoreId) (h : ThreadId) (x : Thread → Thread) : (f.modThread c h x).links = f.links :=
  rfl
@[simp] theorem Fab.modThread_sent (f : Fab) (c : CoreId) (h : ThreadId) (x : Thread → Thread) : (f.modThread c h x).sent = f.sent :=
  rfl
@[simp] theorem Fab.modThread_strand (f : Fab) (c : CoreId) (h : ThreadId) (x : Thread → Thread) : (f.modThread c h x).strand = f.strand :=
  rfl
@[simp] theorem Fab.modThread_reads (f : Fab) (c : CoreId) (h : ThreadId) (x : Thread → Thread) : (f.modThread c h x).reads = f.reads :=
  rfl
@[simp] theorem Fab.modThread_loose (f : Fab) (c : CoreId) (h : ThreadId) (x : Thread → Thread) : (f.modThread c h x).loose = f.loose :=
  rfl
@[simp] theorem Fab.modThread_contribs (f : Fab) (c : CoreId) (h : ThreadId) (x : Thread → Thread) : (f.modThread c h x).contribs = f.contribs :=
  rfl
@[simp] theorem Fab.modThread_reqs (f : Fab) (c : CoreId) (h : ThreadId) (x : Thread → Thread) : (f.modThread c h x).reqs = f.reqs :=
  rfl
@[simp] theorem Fab.modThread_sels (f : Fab) (c : CoreId) (h : ThreadId) (x : Thread → Thread) : (f.modThread c h x).sels = f.sels :=
  rfl
@[simp] theorem Fab.modThread_eligible (f : Fab) (c : CoreId) (h : ThreadId) (x : Thread → Thread) : (f.modThread c h x).eligible = f.eligible :=
  rfl
@[simp] theorem Fab.modThread_pairs (f : Fab) (c : CoreId) (h : ThreadId) (x : Thread → Thread) : (f.modThread c h x).pairs = f.pairs :=
  rfl
@[simp] theorem Fab.modThread_swapK (f : Fab) (c : CoreId) (h : ThreadId) (x : Thread → Thread) : (f.modThread c h x).swapK = f.swapK :=
  rfl
@[simp] theorem Fab.modThread_tlbinv (f : Fab) (c : CoreId) (h : ThreadId) (x : Thread → Thread) : (f.modThread c h x).tlbinv = f.tlbinv :=
  rfl
@[simp] theorem Fab.modThread_ctxbase (f : Fab) (c : CoreId) (h : ThreadId) (x : Thread → Thread) : (f.modThread c h x).ctxbase = f.ctxbase :=
  rfl
@[simp] theorem Fab.modThread_ctxrsp (f : Fab) (c : CoreId) (h : ThreadId) (x : Thread → Thread) : (f.modThread c h x).ctxrsp = f.ctxrsp :=
  rfl
@[simp] theorem Fab.modThread_trapq (f : Fab) (c : CoreId) (h : ThreadId) (x : Thread → Thread) : (f.modThread c h x).trapq = f.trapq :=
  rfl
@[simp] theorem Fab.modThread_answers (f : Fab) (c : CoreId) (h : ThreadId) (x : Thread → Thread) : (f.modThread c h x).answers = f.answers :=
  rfl
@[simp] theorem Fab.modThread_chimed (f : Fab) (c : CoreId) (h : ThreadId) (x : Thread → Thread) : (f.modThread c h x).chimed = f.chimed :=
  rfl
@[simp] theorem Fab.modThread_out (f : Fab) (c : CoreId) (h : ThreadId) (x : Thread → Thread) : (f.modThread c h x).out = f.out :=
  rfl
@[simp] theorem Fab.modThread_ids (f : Fab) (c : CoreId) (h : ThreadId) (x : Thread → Thread) : (f.modThread c h x).ids = f.ids :=
  rfl
@[simp] theorem Fab.modThread_cycle (f : Fab) (c : CoreId) (h : ThreadId) (x : Thread → Thread) : (f.modThread c h x).cycle = f.cycle :=
  rfl
@[simp] theorem Fab.modThread_urgent (f : Fab) (c : CoreId) (h : ThreadId) (x : Thread → Thread) : (f.modThread c h x).urgent = f.urgent :=
  rfl
@[simp] theorem Fab.modThread_due (f : Fab) (c : CoreId) (h : ThreadId) (x : Thread → Thread) : (f.modThread c h x).due = f.due :=
  rfl
@[simp] theorem Fab.modThread_past (f : Fab) (c : CoreId) (h : ThreadId) (x : Thread → Thread) : (f.modThread c h x).past = f.past :=
  rfl
@[simp] theorem Fab.setCtx_cores (f : Fab) (n : CtxId) (x : Ctx) : (f.setCtx n x).cores = f.cores := rfl
@[simp] theorem Fab.setCtx_ctlb (f : Fab) (n : CtxId) (x : Ctx) : (f.setCtx n x).ctlb = f.ctlb := rfl
@[simp] theorem Fab.setCtx_mem (f : Fab) (n : CtxId) (x : Ctx) : (f.setCtx n x).mem = f.mem := rfl
@[simp] theorem Fab.setCtx_dirty (f : Fab) (n : CtxId) (x : Ctx) : (f.setCtx n x).dirty = f.dirty := rfl
@[simp] theorem Fab.setCtx_host (f : Fab) (n : CtxId) (x : Ctx) : (f.setCtx n x).host = f.host := rfl
@[simp] theorem Fab.setCtx_poison (f : Fab) (n : CtxId) (x : Ctx) : (f.setCtx n x).poison = f.poison := rfl
@[simp] theorem Fab.setCtx_live (f : Fab) (n : CtxId) (x : Ctx) : (f.setCtx n x).live = f.live := rfl
@[simp] theorem Fab.setCtx_kernels (f : Fab) (n : CtxId) (x : Ctx) : (f.setCtx n x).kernels = f.kernels := rfl
@[simp] theorem Fab.setCtx_watches (f : Fab) (n : CtxId) (x : Ctx) : (f.setCtx n x).watches = f.watches := rfl
@[simp] theorem Fab.setCtx_wl (f : Fab) (n : CtxId) (x : Ctx) : (f.setCtx n x).wl = f.wl := rfl
@[simp] theorem Fab.setCtx_rot (f : Fab) (n : CtxId) (x : Ctx) : (f.setCtx n x).rot = f.rot := rfl
@[simp] theorem Fab.setCtx_winAt (f : Fab) (n : CtxId) (x : Ctx) : (f.setCtx n x).winAt = f.winAt := rfl
@[simp] theorem Fab.setCtx_elems (f : Fab) (n : CtxId) (x : Ctx) : (f.setCtx n x).elems = f.elems := rfl
@[simp] theorem Fab.setCtx_decs (f : Fab) (n : CtxId) (x : Ctx) : (f.setCtx n x).decs = f.decs := rfl
@[simp] theorem Fab.setCtx_wakes (f : Fab) (n : CtxId) (x : Ctx) : (f.setCtx n x).wakes = f.wakes := rfl
@[simp] theorem Fab.setCtx_msgs (f : Fab) (n : CtxId) (x : Ctx) : (f.setCtx n x).msgs = f.msgs := rfl
@[simp] theorem Fab.setCtx_ops (f : Fab) (n : CtxId) (x : Ctx) : (f.setCtx n x).ops = f.ops := rfl
@[simp] theorem Fab.setCtx_chimes (f : Fab) (n : CtxId) (x : Ctx) : (f.setCtx n x).chimes = f.chimes := rfl
@[simp] theorem Fab.setCtx_bars (f : Fab) (n : CtxId) (x : Ctx) : (f.setCtx n x).bars = f.bars := rfl
@[simp] theorem Fab.setCtx_rwrites (f : Fab) (n : CtxId) (x : Ctx) : (f.setCtx n x).rwrites = f.rwrites := rfl
@[simp] theorem Fab.setCtx_links (f : Fab) (n : CtxId) (x : Ctx) : (f.setCtx n x).links = f.links := rfl
@[simp] theorem Fab.setCtx_sent (f : Fab) (n : CtxId) (x : Ctx) : (f.setCtx n x).sent = f.sent := rfl
@[simp] theorem Fab.setCtx_strand (f : Fab) (n : CtxId) (x : Ctx) : (f.setCtx n x).strand = f.strand := rfl
@[simp] theorem Fab.setCtx_reads (f : Fab) (n : CtxId) (x : Ctx) : (f.setCtx n x).reads = f.reads := rfl
@[simp] theorem Fab.setCtx_loose (f : Fab) (n : CtxId) (x : Ctx) : (f.setCtx n x).loose = f.loose := rfl
@[simp] theorem Fab.setCtx_contribs (f : Fab) (n : CtxId) (x : Ctx) : (f.setCtx n x).contribs = f.contribs := rfl
@[simp] theorem Fab.setCtx_reqs (f : Fab) (n : CtxId) (x : Ctx) : (f.setCtx n x).reqs = f.reqs := rfl
@[simp] theorem Fab.setCtx_sels (f : Fab) (n : CtxId) (x : Ctx) : (f.setCtx n x).sels = f.sels := rfl
@[simp] theorem Fab.setCtx_eligible (f : Fab) (n : CtxId) (x : Ctx) : (f.setCtx n x).eligible = f.eligible := rfl
@[simp] theorem Fab.setCtx_pairs (f : Fab) (n : CtxId) (x : Ctx) : (f.setCtx n x).pairs = f.pairs := rfl
@[simp] theorem Fab.setCtx_swapK (f : Fab) (n : CtxId) (x : Ctx) : (f.setCtx n x).swapK = f.swapK := rfl
@[simp] theorem Fab.setCtx_tlbinv (f : Fab) (n : CtxId) (x : Ctx) : (f.setCtx n x).tlbinv = f.tlbinv := rfl
@[simp] theorem Fab.setCtx_ctxbase (f : Fab) (n : CtxId) (x : Ctx) : (f.setCtx n x).ctxbase = f.ctxbase := rfl
@[simp] theorem Fab.setCtx_ctxrsp (f : Fab) (n : CtxId) (x : Ctx) : (f.setCtx n x).ctxrsp = f.ctxrsp := rfl
@[simp] theorem Fab.setCtx_trapq (f : Fab) (n : CtxId) (x : Ctx) : (f.setCtx n x).trapq = f.trapq := rfl
@[simp] theorem Fab.setCtx_answers (f : Fab) (n : CtxId) (x : Ctx) : (f.setCtx n x).answers = f.answers := rfl
@[simp] theorem Fab.setCtx_chimed (f : Fab) (n : CtxId) (x : Ctx) : (f.setCtx n x).chimed = f.chimed := rfl
@[simp] theorem Fab.setCtx_out (f : Fab) (n : CtxId) (x : Ctx) : (f.setCtx n x).out = f.out := rfl
@[simp] theorem Fab.setCtx_ids (f : Fab) (n : CtxId) (x : Ctx) : (f.setCtx n x).ids = f.ids := rfl
@[simp] theorem Fab.setCtx_cycle (f : Fab) (n : CtxId) (x : Ctx) : (f.setCtx n x).cycle = f.cycle := rfl
@[simp] theorem Fab.setCtx_urgent (f : Fab) (n : CtxId) (x : Ctx) : (f.setCtx n x).urgent = f.urgent := rfl
@[simp] theorem Fab.setCtx_due (f : Fab) (n : CtxId) (x : Ctx) : (f.setCtx n x).due = f.due := rfl
@[simp] theorem Fab.setCtx_past (f : Fab) (n : CtxId) (x : Ctx) : (f.setCtx n x).past = f.past := rfl
@[simp] theorem Fab.modCtx_cores (f : Fab) (n : CtxId) (x : Ctx → Ctx) : (f.modCtx n x).cores = f.cores := rfl
@[simp] theorem Fab.modCtx_ctlb (f : Fab) (n : CtxId) (x : Ctx → Ctx) : (f.modCtx n x).ctlb = f.ctlb := rfl
@[simp] theorem Fab.modCtx_mem (f : Fab) (n : CtxId) (x : Ctx → Ctx) : (f.modCtx n x).mem = f.mem := rfl
@[simp] theorem Fab.modCtx_dirty (f : Fab) (n : CtxId) (x : Ctx → Ctx) : (f.modCtx n x).dirty = f.dirty := rfl
@[simp] theorem Fab.modCtx_host (f : Fab) (n : CtxId) (x : Ctx → Ctx) : (f.modCtx n x).host = f.host := rfl
@[simp] theorem Fab.modCtx_poison (f : Fab) (n : CtxId) (x : Ctx → Ctx) : (f.modCtx n x).poison = f.poison := rfl
@[simp] theorem Fab.modCtx_live (f : Fab) (n : CtxId) (x : Ctx → Ctx) : (f.modCtx n x).live = f.live := rfl
@[simp] theorem Fab.modCtx_kernels (f : Fab) (n : CtxId) (x : Ctx → Ctx) : (f.modCtx n x).kernels = f.kernels := rfl
@[simp] theorem Fab.modCtx_watches (f : Fab) (n : CtxId) (x : Ctx → Ctx) : (f.modCtx n x).watches = f.watches := rfl
@[simp] theorem Fab.modCtx_wl (f : Fab) (n : CtxId) (x : Ctx → Ctx) : (f.modCtx n x).wl = f.wl := rfl
@[simp] theorem Fab.modCtx_rot (f : Fab) (n : CtxId) (x : Ctx → Ctx) : (f.modCtx n x).rot = f.rot := rfl
@[simp] theorem Fab.modCtx_winAt (f : Fab) (n : CtxId) (x : Ctx → Ctx) : (f.modCtx n x).winAt = f.winAt := rfl
@[simp] theorem Fab.modCtx_elems (f : Fab) (n : CtxId) (x : Ctx → Ctx) : (f.modCtx n x).elems = f.elems := rfl
@[simp] theorem Fab.modCtx_decs (f : Fab) (n : CtxId) (x : Ctx → Ctx) : (f.modCtx n x).decs = f.decs := rfl
@[simp] theorem Fab.modCtx_wakes (f : Fab) (n : CtxId) (x : Ctx → Ctx) : (f.modCtx n x).wakes = f.wakes := rfl
@[simp] theorem Fab.modCtx_msgs (f : Fab) (n : CtxId) (x : Ctx → Ctx) : (f.modCtx n x).msgs = f.msgs := rfl
@[simp] theorem Fab.modCtx_ops (f : Fab) (n : CtxId) (x : Ctx → Ctx) : (f.modCtx n x).ops = f.ops := rfl
@[simp] theorem Fab.modCtx_chimes (f : Fab) (n : CtxId) (x : Ctx → Ctx) : (f.modCtx n x).chimes = f.chimes := rfl
@[simp] theorem Fab.modCtx_bars (f : Fab) (n : CtxId) (x : Ctx → Ctx) : (f.modCtx n x).bars = f.bars := rfl
@[simp] theorem Fab.modCtx_rwrites (f : Fab) (n : CtxId) (x : Ctx → Ctx) : (f.modCtx n x).rwrites = f.rwrites := rfl
@[simp] theorem Fab.modCtx_links (f : Fab) (n : CtxId) (x : Ctx → Ctx) : (f.modCtx n x).links = f.links := rfl
@[simp] theorem Fab.modCtx_sent (f : Fab) (n : CtxId) (x : Ctx → Ctx) : (f.modCtx n x).sent = f.sent := rfl
@[simp] theorem Fab.modCtx_strand (f : Fab) (n : CtxId) (x : Ctx → Ctx) : (f.modCtx n x).strand = f.strand := rfl
@[simp] theorem Fab.modCtx_reads (f : Fab) (n : CtxId) (x : Ctx → Ctx) : (f.modCtx n x).reads = f.reads := rfl
@[simp] theorem Fab.modCtx_loose (f : Fab) (n : CtxId) (x : Ctx → Ctx) : (f.modCtx n x).loose = f.loose := rfl
@[simp] theorem Fab.modCtx_contribs (f : Fab) (n : CtxId) (x : Ctx → Ctx) : (f.modCtx n x).contribs = f.contribs := rfl
@[simp] theorem Fab.modCtx_reqs (f : Fab) (n : CtxId) (x : Ctx → Ctx) : (f.modCtx n x).reqs = f.reqs := rfl
@[simp] theorem Fab.modCtx_sels (f : Fab) (n : CtxId) (x : Ctx → Ctx) : (f.modCtx n x).sels = f.sels := rfl
@[simp] theorem Fab.modCtx_eligible (f : Fab) (n : CtxId) (x : Ctx → Ctx) : (f.modCtx n x).eligible = f.eligible := rfl
@[simp] theorem Fab.modCtx_pairs (f : Fab) (n : CtxId) (x : Ctx → Ctx) : (f.modCtx n x).pairs = f.pairs := rfl
@[simp] theorem Fab.modCtx_swapK (f : Fab) (n : CtxId) (x : Ctx → Ctx) : (f.modCtx n x).swapK = f.swapK := rfl
@[simp] theorem Fab.modCtx_tlbinv (f : Fab) (n : CtxId) (x : Ctx → Ctx) : (f.modCtx n x).tlbinv = f.tlbinv := rfl
@[simp] theorem Fab.modCtx_ctxbase (f : Fab) (n : CtxId) (x : Ctx → Ctx) : (f.modCtx n x).ctxbase = f.ctxbase := rfl
@[simp] theorem Fab.modCtx_ctxrsp (f : Fab) (n : CtxId) (x : Ctx → Ctx) : (f.modCtx n x).ctxrsp = f.ctxrsp := rfl
@[simp] theorem Fab.modCtx_trapq (f : Fab) (n : CtxId) (x : Ctx → Ctx) : (f.modCtx n x).trapq = f.trapq := rfl
@[simp] theorem Fab.modCtx_answers (f : Fab) (n : CtxId) (x : Ctx → Ctx) : (f.modCtx n x).answers = f.answers := rfl
@[simp] theorem Fab.modCtx_chimed (f : Fab) (n : CtxId) (x : Ctx → Ctx) : (f.modCtx n x).chimed = f.chimed := rfl
@[simp] theorem Fab.modCtx_out (f : Fab) (n : CtxId) (x : Ctx → Ctx) : (f.modCtx n x).out = f.out := rfl
@[simp] theorem Fab.modCtx_ids (f : Fab) (n : CtxId) (x : Ctx → Ctx) : (f.modCtx n x).ids = f.ids := rfl
@[simp] theorem Fab.modCtx_cycle (f : Fab) (n : CtxId) (x : Ctx → Ctx) : (f.modCtx n x).cycle = f.cycle := rfl
@[simp] theorem Fab.modCtx_urgent (f : Fab) (n : CtxId) (x : Ctx → Ctx) : (f.modCtx n x).urgent = f.urgent := rfl
@[simp] theorem Fab.modCtx_due (f : Fab) (n : CtxId) (x : Ctx → Ctx) : (f.modCtx n x).due = f.due := rfl
@[simp] theorem Fab.modCtx_past (f : Fab) (n : CtxId) (x : Ctx → Ctx) : (f.modCtx n x).past = f.past := rfl
@[simp] theorem Fab.push_cores (f : Fab) (i : Instr) : (f.push i).cores = f.cores := rfl
@[simp] theorem Fab.push_ctlb (f : Fab) (i : Instr) : (f.push i).ctlb = f.ctlb := rfl
@[simp] theorem Fab.push_mem (f : Fab) (i : Instr) : (f.push i).mem = f.mem := rfl
@[simp] theorem Fab.push_dirty (f : Fab) (i : Instr) : (f.push i).dirty = f.dirty := rfl
@[simp] theorem Fab.push_host (f : Fab) (i : Instr) : (f.push i).host = f.host := rfl
@[simp] theorem Fab.push_poison (f : Fab) (i : Instr) : (f.push i).poison = f.poison := rfl
@[simp] theorem Fab.push_ctxs (f : Fab) (i : Instr) : (f.push i).ctxs = f.ctxs := rfl
@[simp] theorem Fab.push_live (f : Fab) (i : Instr) : (f.push i).live = f.live := rfl
@[simp] theorem Fab.push_kernels (f : Fab) (i : Instr) : (f.push i).kernels = f.kernels := rfl
@[simp] theorem Fab.push_watches (f : Fab) (i : Instr) : (f.push i).watches = f.watches := rfl
@[simp] theorem Fab.push_wl (f : Fab) (i : Instr) : (f.push i).wl = f.wl := rfl
@[simp] theorem Fab.push_rot (f : Fab) (i : Instr) : (f.push i).rot = f.rot := rfl
@[simp] theorem Fab.push_winAt (f : Fab) (i : Instr) : (f.push i).winAt = f.winAt := rfl
@[simp] theorem Fab.push_elems (f : Fab) (i : Instr) : (f.push i).elems = f.elems := rfl
@[simp] theorem Fab.push_decs (f : Fab) (i : Instr) : (f.push i).decs = f.decs := rfl
@[simp] theorem Fab.push_wakes (f : Fab) (i : Instr) : (f.push i).wakes = f.wakes := rfl
@[simp] theorem Fab.push_msgs (f : Fab) (i : Instr) : (f.push i).msgs = f.msgs := rfl
@[simp] theorem Fab.push_ops (f : Fab) (i : Instr) : (f.push i).ops = f.ops := rfl
@[simp] theorem Fab.push_chimes (f : Fab) (i : Instr) : (f.push i).chimes = f.chimes := rfl
@[simp] theorem Fab.push_bars (f : Fab) (i : Instr) : (f.push i).bars = f.bars := rfl
@[simp] theorem Fab.push_rwrites (f : Fab) (i : Instr) : (f.push i).rwrites = f.rwrites := rfl
@[simp] theorem Fab.push_links (f : Fab) (i : Instr) : (f.push i).links = f.links := rfl
@[simp] theorem Fab.push_sent (f : Fab) (i : Instr) : (f.push i).sent = f.sent := rfl
@[simp] theorem Fab.push_strand (f : Fab) (i : Instr) : (f.push i).strand = f.strand := rfl
@[simp] theorem Fab.push_reads (f : Fab) (i : Instr) : (f.push i).reads = f.reads := rfl
@[simp] theorem Fab.push_loose (f : Fab) (i : Instr) : (f.push i).loose = f.loose := rfl
@[simp] theorem Fab.push_contribs (f : Fab) (i : Instr) : (f.push i).contribs = f.contribs := rfl
@[simp] theorem Fab.push_reqs (f : Fab) (i : Instr) : (f.push i).reqs = f.reqs := rfl
@[simp] theorem Fab.push_sels (f : Fab) (i : Instr) : (f.push i).sels = f.sels := rfl
@[simp] theorem Fab.push_eligible (f : Fab) (i : Instr) : (f.push i).eligible = f.eligible := rfl
@[simp] theorem Fab.push_pairs (f : Fab) (i : Instr) : (f.push i).pairs = f.pairs := rfl
@[simp] theorem Fab.push_swapK (f : Fab) (i : Instr) : (f.push i).swapK = f.swapK := rfl
@[simp] theorem Fab.push_tlbinv (f : Fab) (i : Instr) : (f.push i).tlbinv = f.tlbinv := rfl
@[simp] theorem Fab.push_ctxbase (f : Fab) (i : Instr) : (f.push i).ctxbase = f.ctxbase := rfl
@[simp] theorem Fab.push_ctxrsp (f : Fab) (i : Instr) : (f.push i).ctxrsp = f.ctxrsp := rfl
@[simp] theorem Fab.push_trapq (f : Fab) (i : Instr) : (f.push i).trapq = f.trapq := rfl
@[simp] theorem Fab.push_answers (f : Fab) (i : Instr) : (f.push i).answers = f.answers := rfl
@[simp] theorem Fab.push_chimed (f : Fab) (i : Instr) : (f.push i).chimed = f.chimed := rfl
@[simp] theorem Fab.push_out (f : Fab) (i : Instr) : (f.push i).out = f.out := rfl
@[simp] theorem Fab.push_ids (f : Fab) (i : Instr) : (f.push i).ids = f.ids := rfl
@[simp] theorem Fab.push_cycle (f : Fab) (i : Instr) : (f.push i).cycle = f.cycle := rfl
@[simp] theorem Fab.push_urgent (f : Fab) (i : Instr) : (f.push i).urgent = f.urgent := rfl
@[simp] theorem Fab.push_due (f : Fab) (i : Instr) : (f.push i).due = f.due ++ [i] := rfl
@[simp] theorem Fab.push_past (f : Fab) (i : Instr) : (f.push i).past = f.past := rfl
@[simp] theorem Fab.emit_cores (f : Fab) (x : Out) : (f.emit x).cores = f.cores := rfl
@[simp] theorem Fab.emit_ctlb (f : Fab) (x : Out) : (f.emit x).ctlb = f.ctlb := rfl
@[simp] theorem Fab.emit_mem (f : Fab) (x : Out) : (f.emit x).mem = f.mem := rfl
@[simp] theorem Fab.emit_dirty (f : Fab) (x : Out) : (f.emit x).dirty = f.dirty := rfl
@[simp] theorem Fab.emit_host (f : Fab) (x : Out) : (f.emit x).host = f.host := rfl
@[simp] theorem Fab.emit_poison (f : Fab) (x : Out) : (f.emit x).poison = f.poison := rfl
@[simp] theorem Fab.emit_ctxs (f : Fab) (x : Out) : (f.emit x).ctxs = f.ctxs := rfl
@[simp] theorem Fab.emit_live (f : Fab) (x : Out) : (f.emit x).live = f.live := rfl
@[simp] theorem Fab.emit_kernels (f : Fab) (x : Out) : (f.emit x).kernels = f.kernels := rfl
@[simp] theorem Fab.emit_watches (f : Fab) (x : Out) : (f.emit x).watches = f.watches := rfl
@[simp] theorem Fab.emit_wl (f : Fab) (x : Out) : (f.emit x).wl = f.wl := rfl
@[simp] theorem Fab.emit_rot (f : Fab) (x : Out) : (f.emit x).rot = f.rot := rfl
@[simp] theorem Fab.emit_winAt (f : Fab) (x : Out) : (f.emit x).winAt = f.winAt := rfl
@[simp] theorem Fab.emit_elems (f : Fab) (x : Out) : (f.emit x).elems = f.elems := rfl
@[simp] theorem Fab.emit_decs (f : Fab) (x : Out) : (f.emit x).decs = f.decs := rfl
@[simp] theorem Fab.emit_wakes (f : Fab) (x : Out) : (f.emit x).wakes = f.wakes := rfl
@[simp] theorem Fab.emit_msgs (f : Fab) (x : Out) : (f.emit x).msgs = f.msgs := rfl
@[simp] theorem Fab.emit_ops (f : Fab) (x : Out) : (f.emit x).ops = f.ops := rfl
@[simp] theorem Fab.emit_chimes (f : Fab) (x : Out) : (f.emit x).chimes = f.chimes := rfl
@[simp] theorem Fab.emit_bars (f : Fab) (x : Out) : (f.emit x).bars = f.bars := rfl
@[simp] theorem Fab.emit_rwrites (f : Fab) (x : Out) : (f.emit x).rwrites = f.rwrites := rfl
@[simp] theorem Fab.emit_links (f : Fab) (x : Out) : (f.emit x).links = f.links := rfl
@[simp] theorem Fab.emit_sent (f : Fab) (x : Out) : (f.emit x).sent = f.sent := rfl
@[simp] theorem Fab.emit_strand (f : Fab) (x : Out) : (f.emit x).strand = f.strand := rfl
@[simp] theorem Fab.emit_reads (f : Fab) (x : Out) : (f.emit x).reads = f.reads := rfl
@[simp] theorem Fab.emit_loose (f : Fab) (x : Out) : (f.emit x).loose = f.loose := rfl
@[simp] theorem Fab.emit_contribs (f : Fab) (x : Out) : (f.emit x).contribs = f.contribs := rfl
@[simp] theorem Fab.emit_reqs (f : Fab) (x : Out) : (f.emit x).reqs = f.reqs := rfl
@[simp] theorem Fab.emit_sels (f : Fab) (x : Out) : (f.emit x).sels = f.sels := rfl
@[simp] theorem Fab.emit_eligible (f : Fab) (x : Out) : (f.emit x).eligible = f.eligible := rfl
@[simp] theorem Fab.emit_pairs (f : Fab) (x : Out) : (f.emit x).pairs = f.pairs := rfl
@[simp] theorem Fab.emit_swapK (f : Fab) (x : Out) : (f.emit x).swapK = f.swapK := rfl
@[simp] theorem Fab.emit_tlbinv (f : Fab) (x : Out) : (f.emit x).tlbinv = f.tlbinv := rfl
@[simp] theorem Fab.emit_ctxbase (f : Fab) (x : Out) : (f.emit x).ctxbase = f.ctxbase := rfl
@[simp] theorem Fab.emit_ctxrsp (f : Fab) (x : Out) : (f.emit x).ctxrsp = f.ctxrsp := rfl
@[simp] theorem Fab.emit_trapq (f : Fab) (x : Out) : (f.emit x).trapq = f.trapq := rfl
@[simp] theorem Fab.emit_answers (f : Fab) (x : Out) : (f.emit x).answers = f.answers := rfl
@[simp] theorem Fab.emit_chimed (f : Fab) (x : Out) : (f.emit x).chimed = f.chimed := rfl
@[simp] theorem Fab.emit_out (f : Fab) (x : Out) : (f.emit x).out = f.out ++ [x] := rfl
@[simp] theorem Fab.emit_ids (f : Fab) (x : Out) : (f.emit x).ids = f.ids := rfl
@[simp] theorem Fab.emit_cycle (f : Fab) (x : Out) : (f.emit x).cycle = f.cycle := rfl
@[simp] theorem Fab.emit_urgent (f : Fab) (x : Out) : (f.emit x).urgent = f.urgent := rfl
@[simp] theorem Fab.emit_due (f : Fab) (x : Out) : (f.emit x).due = f.due := rfl
@[simp] theorem Fab.emit_past (f : Fab) (x : Out) : (f.emit x).past = f.past := rfl

/-! Updates of a core and of the state. -/

@[simp] theorem Core.setThread_occ (x : Core) (h : ThreadId) (t : Thread) : (x.setThread h t).occ = x.occ := rfl
@[simp] theorem Core.setThread_spad (x : Core) (h : ThreadId) (t : Thread) : (x.setThread h t).spad = x.spad := rfl
@[simp] theorem Core.setThread_zflags (x : Core) (h : ThreadId) (t : Thread) : (x.setThread h t).zflags = x.zflags := rfl
@[simp] theorem Core.setThread_xb0 (x : Core) (h : ThreadId) (t : Thread) : (x.setThread h t).xb0 = x.xb0 := rfl
@[simp] theorem Core.setThread_xb1 (x : Core) (h : ThreadId) (t : Thread) : (x.setThread h t).xb1 = x.xb1 := rfl
@[simp] theorem Core.setThread_bank (x : Core) (h : ThreadId) (t : Thread) : (x.setThread h t).bank = x.bank := rfl
@[simp] theorem Core.setThread_xphase (x : Core) (h : ThreadId) (t : Thread) : (x.setThread h t).xphase = x.xphase := rfl
@[simp] theorem Core.setThread_acc (x : Core) (h : ThreadId) (t : Thread) : (x.setThread h t).acc = x.acc := rfl
@[simp] theorem Core.setThread_wbuf (x : Core) (h : ThreadId) (t : Thread) : (x.setThread h t).wbuf = x.wbuf := rfl
@[simp] theorem Core.setThread_ct0 (x : Core) (h : ThreadId) (t : Thread) : (x.setThread h t).ct0 = x.ct0 := rfl
@[simp] theorem Core.setThread_ct1 (x : Core) (h : ThreadId) (t : Thread) : (x.setThread h t).ct1 = x.ct1 := rfl
@[simp] theorem Core.setThread_ctActive (x : Core) (h : ThreadId) (t : Thread) : (x.setThread h t).ctActive = x.ctActive := rfl
@[simp] theorem Core.setThread_cbs (x : Core) (h : ThreadId) (t : Thread) : (x.setThread h t).cbs = x.cbs := rfl
@[simp] theorem Core.setThread_bars (x : Core) (h : ThreadId) (t : Thread) : (x.setThread h t).bars = x.bars := rfl
@[simp] theorem Core.setThread_trees (x : Core) (h : ThreadId) (t : Thread) : (x.setThread h t).trees = x.trees := rfl
@[simp] theorem Core.setThread_agemax (x : Core) (h : ThreadId) (t : Thread) : (x.setThread h t).agemax = x.agemax := rfl
@[simp] theorem Core.setThread_landctl (x : Core) (h : ThreadId) (t : Thread) : (x.setThread h t).landctl = x.landctl := rfl
@[simp] theorem Core.setThread_aggage (x : Core) (h : ThreadId) (t : Thread) : (x.setThread h t).aggage = x.aggage := rfl
@[simp] theorem Core.setThread_runq (x : Core) (h : ThreadId) (t : Thread) : (x.setThread h t).runq = x.runq := rfl
@[simp] theorem Core.setThread_late (x : Core) (h : ThreadId) (t : Thread) : (x.setThread h t).late = x.late := rfl
@[simp] theorem Core.setThread_chain (x : Core) (h : ThreadId) (t : Thread) : (x.setThread h t).chain = x.chain := rfl
@[simp] theorem Core.setThread_inbox (x : Core) (h : ThreadId) (t : Thread) : (x.setThread h t).inbox = x.inbox := rfl
@[simp] theorem Core.setThread_agg (x : Core) (h : ThreadId) (t : Thread) : (x.setThread h t).agg = x.agg := rfl
@[simp] theorem Core.setThread_flog (x : Core) (h : ThreadId) (t : Thread) : (x.setThread h t).flog = x.flog := rfl
@[simp] theorem Core.setThread_mq (x : Core) (h : ThreadId) (t : Thread) : (x.setThread h t).mq = x.mq := rfl
@[simp] theorem Core.setThread_mwait (x : Core) (h : ThreadId) (t : Thread) : (x.setThread h t).mwait = x.mwait := rfl
@[simp] theorem Core.setThread_exports (x : Core) (h : ThreadId) (t : Thread) : (x.setThread h t).exports = x.exports := rfl
@[simp] theorem Core.setThread_power (x : Core) (h : ThreadId) (t : Thread) : (x.setThread h t).power = x.power := rfl
@[simp] theorem Core.setThread_idle (x : Core) (h : ThreadId) (t : Thread) : (x.setThread h t).idle = x.idle := rfl
@[simp] theorem Core.setThread_held (x : Core) (h : ThreadId) (t : Thread) : (x.setThread h t).held = x.held := rfl
@[simp] theorem Core.setThread_traffic (x : Core) (h : ThreadId) (t : Thread) : (x.setThread h t).traffic = x.traffic := rfl
@[simp] theorem Core.setThread_tlb (x : Core) (h : ThreadId) (t : Thread) : (x.setThread h t).tlb = x.tlb := rfl
@[simp] theorem Core.setThread_swaps (x : Core) (h : ThreadId) (t : Thread) : (x.setThread h t).swaps = x.swaps := rfl
@[simp] theorem Core.setThread_sched (x : Core) (h : ThreadId) (t : Thread) : (x.setThread h t).sched = x.sched := rfl
@[simp] theorem State.withCur_m (s : State) (t : Thread) : (s.withCur t).m = s.m := rfl
@[simp] theorem State.withCur_core (s : State) (t : Thread) : (s.withCur t).core = s.core := rfl
@[simp] theorem State.withCur_th (s : State) (t : Thread) : (s.withCur t).th = s.th := rfl
@[simp] theorem State.withCur_agenda (s : State) (t : Thread) : (s.withCur t).agenda = s.agenda := rfl
@[simp] theorem State.withCur_f_ctlb (s : State) (t : Thread) : (s.withCur t).f.ctlb = s.f.ctlb := rfl
@[simp] theorem State.withCur_f_mem (s : State) (t : Thread) : (s.withCur t).f.mem = s.f.mem := rfl
@[simp] theorem State.withCur_f_dirty (s : State) (t : Thread) : (s.withCur t).f.dirty = s.f.dirty := rfl
@[simp] theorem State.withCur_f_host (s : State) (t : Thread) : (s.withCur t).f.host = s.f.host := rfl
@[simp] theorem State.withCur_f_poison (s : State) (t : Thread) : (s.withCur t).f.poison = s.f.poison := rfl
@[simp] theorem State.withCur_f_ctxs (s : State) (t : Thread) : (s.withCur t).f.ctxs = s.f.ctxs := rfl
@[simp] theorem State.withCur_f_live (s : State) (t : Thread) : (s.withCur t).f.live = s.f.live := rfl
@[simp] theorem State.withCur_f_kernels (s : State) (t : Thread) : (s.withCur t).f.kernels = s.f.kernels := rfl
@[simp] theorem State.withCur_f_watches (s : State) (t : Thread) : (s.withCur t).f.watches = s.f.watches := rfl
@[simp] theorem State.withCur_f_wl (s : State) (t : Thread) : (s.withCur t).f.wl = s.f.wl := rfl
@[simp] theorem State.withCur_f_rot (s : State) (t : Thread) : (s.withCur t).f.rot = s.f.rot := rfl
@[simp] theorem State.withCur_f_winAt (s : State) (t : Thread) : (s.withCur t).f.winAt = s.f.winAt := rfl
@[simp] theorem State.withCur_f_elems (s : State) (t : Thread) : (s.withCur t).f.elems = s.f.elems := rfl
@[simp] theorem State.withCur_f_decs (s : State) (t : Thread) : (s.withCur t).f.decs = s.f.decs := rfl
@[simp] theorem State.withCur_f_wakes (s : State) (t : Thread) : (s.withCur t).f.wakes = s.f.wakes := rfl
@[simp] theorem State.withCur_f_msgs (s : State) (t : Thread) : (s.withCur t).f.msgs = s.f.msgs := rfl
@[simp] theorem State.withCur_f_ops (s : State) (t : Thread) : (s.withCur t).f.ops = s.f.ops := rfl
@[simp] theorem State.withCur_f_chimes (s : State) (t : Thread) : (s.withCur t).f.chimes = s.f.chimes := rfl
@[simp] theorem State.withCur_f_bars (s : State) (t : Thread) : (s.withCur t).f.bars = s.f.bars := rfl
@[simp] theorem State.withCur_f_rwrites (s : State) (t : Thread) : (s.withCur t).f.rwrites = s.f.rwrites := rfl
@[simp] theorem State.withCur_f_links (s : State) (t : Thread) : (s.withCur t).f.links = s.f.links := rfl
@[simp] theorem State.withCur_f_sent (s : State) (t : Thread) : (s.withCur t).f.sent = s.f.sent := rfl
@[simp] theorem State.withCur_f_strand (s : State) (t : Thread) : (s.withCur t).f.strand = s.f.strand := rfl
@[simp] theorem State.withCur_f_reads (s : State) (t : Thread) : (s.withCur t).f.reads = s.f.reads := rfl
@[simp] theorem State.withCur_f_loose (s : State) (t : Thread) : (s.withCur t).f.loose = s.f.loose := rfl
@[simp] theorem State.withCur_f_contribs (s : State) (t : Thread) : (s.withCur t).f.contribs = s.f.contribs := rfl
@[simp] theorem State.withCur_f_reqs (s : State) (t : Thread) : (s.withCur t).f.reqs = s.f.reqs := rfl
@[simp] theorem State.withCur_f_sels (s : State) (t : Thread) : (s.withCur t).f.sels = s.f.sels := rfl
@[simp] theorem State.withCur_f_eligible (s : State) (t : Thread) : (s.withCur t).f.eligible = s.f.eligible := rfl
@[simp] theorem State.withCur_f_pairs (s : State) (t : Thread) : (s.withCur t).f.pairs = s.f.pairs := rfl
@[simp] theorem State.withCur_f_swapK (s : State) (t : Thread) : (s.withCur t).f.swapK = s.f.swapK := rfl
@[simp] theorem State.withCur_f_tlbinv (s : State) (t : Thread) : (s.withCur t).f.tlbinv = s.f.tlbinv := rfl
@[simp] theorem State.withCur_f_ctxbase (s : State) (t : Thread) : (s.withCur t).f.ctxbase = s.f.ctxbase := rfl
@[simp] theorem State.withCur_f_ctxrsp (s : State) (t : Thread) : (s.withCur t).f.ctxrsp = s.f.ctxrsp := rfl
@[simp] theorem State.withCur_f_trapq (s : State) (t : Thread) : (s.withCur t).f.trapq = s.f.trapq := rfl
@[simp] theorem State.withCur_f_answers (s : State) (t : Thread) : (s.withCur t).f.answers = s.f.answers := rfl
@[simp] theorem State.withCur_f_chimed (s : State) (t : Thread) : (s.withCur t).f.chimed = s.f.chimed := rfl
@[simp] theorem State.withCur_f_out (s : State) (t : Thread) : (s.withCur t).f.out = s.f.out := rfl
@[simp] theorem State.withCur_f_ids (s : State) (t : Thread) : (s.withCur t).f.ids = s.f.ids := rfl
@[simp] theorem State.withCur_f_cycle (s : State) (t : Thread) : (s.withCur t).f.cycle = s.f.cycle := rfl
@[simp] theorem State.withCur_f_urgent (s : State) (t : Thread) : (s.withCur t).f.urgent = s.f.urgent := rfl
@[simp] theorem State.withCur_f_due (s : State) (t : Thread) : (s.withCur t).f.due = s.f.due := rfl
@[simp] theorem State.withCur_f_past (s : State) (t : Thread) : (s.withCur t).f.past = s.f.past := rfl

/-! Finite maps. -/

theorem mget_mset {α : Type} (d : α) (a b : Nat) (x : α) (m : AMap α) :
    mget d (mset a x m) b = if b = a then x else mget d m b := by
  induction m with
  | nil => simp [mset, mget]
  | cons e m ih =>
    obtain ⟨k, v⟩ := e
    simp only [mset]
    split
    · rename_i h; simp only [mget]
    · split
      · rename_i h1 h2; subst h2; simp only [mget]; split <;> rfl
      · rename_i h1 h2
        simp only [mget, ih]
        by_cases hk : b = k
        · subst hk; simp [show ¬ b = a from fun h => h2 h.symm]
        · simp [hk]

@[simp] theorem mget_mset_same {α : Type} (d : α) (a : Nat) (x : α) (m : AMap α) : mget d (mset a x m) a = x := by
  simp [mget_mset]

theorem mget_mset_ne {α : Type} (d : α) {a b : Nat} (h : b ≠ a) (x : α) (m : AMap α) :
    mget d (mset a x m) b = mget d m b := by
  simp [mget_mset, h]

theorem mset_mset {α : Type} (a : Nat) (x y : α) (m : AMap α) : mset a x (mset a y m) = mset a x m := by
  induction m with
  | nil => simp [mset]
  | cons e m ih =>
    obtain ⟨k, v⟩ := e
    simp only [mset]
    split
    · simp [mset]
    · split
      · simp [mset]
      · rename_i h1 h2; simp [mset, h1, h2, ih]

/-! Cores, threads and contexts read after they are written. -/

@[simp] theorem Fab.core_setCore (f : Fab) (c : CoreId) (x : Core) : (f.setCore c x).core c = x := by
  simp [Fab.core, Fab.setCore]

theorem Fab.core_setCore_ne (f : Fab) {c k : CoreId} (h : k ≠ c) (x : Core) : (f.setCore c x).core k = f.core k := by
  have : k.val ≠ c.val := fun e => h (Fin.ext e)
  simp [Fab.core, Fab.setCore, mget_mset_ne _ this]

@[simp] theorem Fab.core_modCore (f : Fab) (c : CoreId) (g : Core → Core) : (f.modCore c g).core c = g (f.core c) := by
  simp [Fab.modCore]

theorem Fab.core_modCore_ne (f : Fab) {c k : CoreId} (h : k ≠ c) (g : Core → Core) : (f.modCore c g).core k = f.core k :=
  Fab.core_setCore_ne f h _

@[simp] theorem Fab.setCore_setCore (f : Fab) (c : CoreId) (x y : Core) : (f.setCore c x).setCore c y = f.setCore c y := by
  simp [Fab.setCore, mset_mset]

theorem Core.setThread_same (x : Core) (h : ThreadId) (t : Thread) : (x.setThread h t).threads[h] = t := by
  simp [Core.setThread]

@[simp] theorem Core.setThread_same_val (x : Core) (h : ThreadId) (t : Thread) :
    (x.setThread h t).threads[h.val] = t := x.setThread_same h t

theorem Core.setThread_ne (x : Core) {h k : ThreadId} (e : k ≠ h) (t : Thread) :
    (x.setThread h t).threads[k] = x.threads[k] := by
  have : h.val ≠ k.val := fun q => e (Fin.ext q.symm)
  simp [Core.setThread, this]

@[simp] theorem Fab.core_setThread (f : Fab) (c : CoreId) (h : ThreadId) (t : Thread) :
    (f.setThread c h t).core c = (f.core c).setThread h t := by
  simp [Fab.setThread]

@[simp] theorem Fab.core_modThread (f : Fab) (c : CoreId) (h : ThreadId) (g : Thread → Thread) :
    (f.modThread c h g).core c = (f.core c).setThread h (g (f.thread c h)) := by
  simp [Fab.modThread]

@[simp] theorem Fab.thread_setThread (f : Fab) (c : CoreId) (h : ThreadId) (t : Thread) :
    (f.setThread c h t).thread c h = t := by
  simp [Fab.thread]

@[simp] theorem Fab.thread_modThread (f : Fab) (c : CoreId) (h : ThreadId) (g : Thread → Thread) :
    (f.modThread c h g).thread c h = g (f.thread c h) := by
  simp [Fab.modThread]

theorem Fab.thread_setThread_ne (f : Fab) {c k : CoreId} {h j : ThreadId} (e : (k, j) ≠ (c, h)) (t : Thread) :
    (f.setThread c h t).thread k j = f.thread k j := by
  by_cases hk : k = c
  · subst hk
    have : j ≠ h := fun q => e (by rw [q])
    simp only [Fab.thread, Fab.core_setThread, Core.setThread_ne _ this]
  · simp only [Fab.thread, Fab.setThread, Fab.core_setCore_ne f hk]

@[simp] theorem Fab.setThread_setThread (f : Fab) (c : CoreId) (h : ThreadId) (t u : Thread) :
    (f.setThread c h t).setThread c h u = f.setThread c h u := by
  simp [Fab.setThread, Core.setThread, Vector.set_set]

@[simp] theorem Fab.modThread_modThread (f : Fab) (c : CoreId) (h : ThreadId) (g k : Thread → Thread) :
    (f.modThread c h g).modThread c h k = f.modThread c h fun t => k (g t) := by
  simp [Fab.modThread]

@[simp] theorem Fab.ctx_setCtx (f : Fab) (n : CtxId) (x : Ctx) : (f.setCtx n x).ctx n = x := by
  simp [Fab.ctx, Fab.setCtx]

@[simp] theorem Fab.ctx_modCtx (f : Fab) (n : CtxId) (g : Ctx → Ctx) : (f.modCtx n g).ctx n = g (f.ctx n) := by
  simp [Fab.modCtx]

theorem Fab.ctx_setCtx_ne (f : Fab) {n k : CtxId} (h : k ≠ n) (x : Ctx) : (f.setCtx n x).ctx k = f.ctx k := by
  have : k.val ≠ n.val := fun e => h (Fin.ext e)
  simp [Fab.ctx, Fab.setCtx, mget_mset_ne _ this]

@[simp] theorem State.cur_withCur (s : State) (t : Thread) : (s.withCur t).cur = t := by
  simp [State.cur, State.withCur]

@[simp] theorem State.withCur_withCur (s : State) (t u : Thread) : (s.withCur t).withCur u = s.withCur u := by
  simp [State.withCur]

/-! Registers read after they are written (R59). -/

theorem Thread.rd_wr (t : Thread) (r q : SReg) (x : Word) :
    (t.wr r x).rd q = if q = r ∧ r ≠ 0 then x else t.rd q := by
  unfold Thread.wr Thread.rd
  by_cases hr : r = 0
  · simp [hr]
  · by_cases hq : q = r
    · subst hq; simp [hr]
    · have : r.val ≠ q.val := fun e => hq (Fin.ext e.symm)
      simp [hr, hq, this]

@[simp] theorem Thread.rd_zero (t : Thread) : t.rd 0 = 0 := rfl

theorem Thread.rdv_wrv (t : Thread) (r q : VReg) (x : Line) : (t.wrv r x).rdv q = if q = r then x else t.rdv q := by
  unfold Thread.wrv Thread.rdv
  by_cases hq : q = r
  · subst hq; simp
  · have : r.val ≠ q.val := fun e => hq (Fin.ext e.symm)
    simp [hq, this]

theorem setBit_getLsbD (x : BitVec 8) (i j : Nat) (b : Bool) (hj : j < 8) :
    (setBit x i b).getLsbD j = if j = i then b else x.getLsbD j := by
  unfold setBit
  split
  · rename_i h
    by_cases e : j = i
    · subst e; simp [h, hj]
    · simp only [BitVec.getLsbD_or, BitVec.getLsbD_shiftLeft, e, if_false]
      have : (decide (j < i) || !(1#8).getLsbD (j - i)) = true := by
        by_cases q : j < i
        · simp [q]
        · have : j - i ≠ 0 := by omega
          simp [BitVec.getLsbD_one, this]
      rcases Bool.eq_false_or_eq_true (decide (j < i)) with h1 | h1 <;> simp_all
  · rename_i h
    by_cases e : j = i
    · subst e; simp [h, hj]
    · simp only [BitVec.getLsbD_and, BitVec.getLsbD_not, BitVec.getLsbD_shiftLeft, e, if_false, hj]
      have : (decide (j < i) || !(1#8).getLsbD (j - i)) = true := by
        by_cases q : j < i
        · simp [q]
        · have : j - i ≠ 0 := by omega
          simp [BitVec.getLsbD_one, this]
      rcases Bool.eq_false_or_eq_true (decide (j < i)) with h1 | h1 <;> simp_all

theorem Thread.rdp_wrp (t : Thread) (r q : PReg) (b : Bool) :
    (t.wrp r b).rdp q = if q = r ∧ r ≠ 0 then b else t.rdp q := by
  unfold Thread.wrp Thread.rdp
  by_cases hr : r = 0
  · simp [hr]
  · by_cases hq : q = r
    · subst hq
      simp only [hr, if_false, ne_eq, not_false_eq_true, and_self, if_true, decide_false, Bool.false_or,
        setBit_getLsbD _ _ _ _ q.isLt]
    · have : q.val ≠ r.val := fun e => hq (Fin.ext e)
      simp only [hr, hq, if_false, false_and, setBit_getLsbD _ _ _ _ q.isLt, this]

@[simp] theorem Thread.rd_wrp (t : Thread) (r : PReg) (b : Bool) (q : SReg) : (t.wrp r b).rd q = t.rd q := by
  simp [Thread.rd]
@[simp] theorem Thread.rd_wrv (t : Thread) (r : VReg) (x : Line) (q : SReg) : (t.wrv r x).rd q = t.rd q := rfl
@[simp] theorem Thread.rd_adv (t : Thread) (q : SReg) : t.adv.rd q = t.rd q := rfl
@[simp] theorem Thread.rd_jump (t : Thread) (p : Pc) (q : SReg) : (t.jump p).rd q = t.rd q := rfl
@[simp] theorem Thread.rdp_wr (t : Thread) (r : SReg) (x : Word) (q : PReg) : (t.wr r x).rdp q = t.rdp q := by
  simp [Thread.rdp]
@[simp] theorem Thread.rdp_wrv (t : Thread) (r : VReg) (x : Line) (q : PReg) : (t.wrv r x).rdp q = t.rdp q := rfl
@[simp] theorem Thread.rdp_adv (t : Thread) (q : PReg) : t.adv.rdp q = t.rdp q := rfl
@[simp] theorem Thread.rdp_jump (t : Thread) (p : Pc) (q : PReg) : (t.jump p).rdp q = t.rdp q := rfl
@[simp] theorem Thread.rdv_wr (t : Thread) (r : SReg) (x : Word) (q : VReg) : (t.wr r x).rdv q = t.rdv q := by
  simp [Thread.rdv]
@[simp] theorem Thread.rdv_wrp (t : Thread) (r : PReg) (b : Bool) (q : VReg) : (t.wrp r b).rdv q = t.rdv q := by
  simp [Thread.rdv]
@[simp] theorem Thread.rdv_adv (t : Thread) (q : VReg) : t.adv.rdv q = t.rdv q := rfl
@[simp] theorem Thread.rdv_jump (t : Thread) (p : Pc) (q : VReg) : (t.jump p).rdv q = t.rdv q := rfl

end Sys2Proof.Machine
end

