-- ==== Sys2Proof/Laws/Access.lean ====
section
/-! SUPPORT. What a store, a translation and an access check leave alone: threads, contexts and the current occupant. -/

namespace Sys2Proof.Machine

/-! Stores change no core and no context. -/

theorem Fab.pokeOwn_keeps {bs : List Byte} {f : Fab} {m : Mgt} {mask : Bool} {la : Nat} :
    (f.pokeOwn m mask la bs).cores = f.cores ∧ (f.pokeOwn m mask la bs).ctxs = f.ctxs := by
  induction bs generalizing f la with
  | nil => exact ⟨rfl, rfl⟩
  | cons b bs ih =>
    rw [Fab.pokeOwn]
    refine ⟨ih.1.trans ?_, ih.2.trans ?_⟩ <;> split <;> rfl

theorem Fab.settle_keeps {f : Fab} {m : Mgt} {w : Option Who} {l : Nat} :
    (f.settle m w l).cores = f.cores ∧ (f.settle m w l).ctxs = f.ctxs := by
  unfold Fab.settle
  split <;> exact ⟨rfl, rfl⟩

theorem Fab.settleAll_keeps {k : Nat} {f : Fab} {m : Mgt} {w : Option Who} {l : Nat} :
    (f.settleAll m w l k).cores = f.cores ∧ (f.settleAll m w l k).ctxs = f.ctxs := by
  induction k generalizing f l with
  | zero => exact ⟨rfl, rfl⟩
  | succ k ih => exact ⟨ih.1.trans Fab.settle_keeps.1, ih.2.trans Fab.settle_keeps.2⟩

theorem Fab.wakeAll_keeps {ws : List Watch} {f : Fab} {w : Option Who} {gpa n : Nat} :
    (f.wakeAll w gpa n ws).cores = f.cores ∧ (f.wakeAll w gpa n ws).ctxs = f.ctxs := by
  induction ws generalizing f with
  | nil => exact ⟨rfl, rfl⟩
  | cons x xs ih =>
    rw [Fab.wakeAll]
    refine ⟨ih.1.trans ?_, ih.2.trans ?_⟩ <;> split <;> rfl

/-- A store changes neither the cores nor the contexts. -/
theorem Fab.store_keeps {f : Fab} {m : Mgt} {w : Option Who} {mask : Bool} {gpa : Nat} {bs : List Byte} :
    (f.store m w mask gpa bs).cores = f.cores ∧ (f.store m w mask gpa bs).ctxs = f.ctxs := by
  unfold Fab.store
  split
  · exact ⟨Fab.wakeAll_keeps.1.trans (Fab.pokeOwn_keeps.1.trans Fab.settleAll_keeps.1),
      Fab.wakeAll_keeps.2.trans (Fab.pokeOwn_keeps.2.trans Fab.settleAll_keeps.2)⟩
  · split
    · exact ⟨Fab.wakeAll_keeps.1, Fab.wakeAll_keeps.2⟩
    · exact ⟨rfl, rfl⟩
  · obtain ⟨x, l, e⟩ := Fab.post_spec { f with ids := f.ids + 1 } m ⟨f.ids, w.getD Who.none, 0, gpa, bs, 0x39, 1, none, none, none, none⟩
    rw [e]; exact ⟨rfl, rfl⟩
  · exact ⟨rfl, rfl⟩

@[simp] theorem Fab.store_thread (f : Fab) (m : Mgt) (w : Option Who) (mask : Bool) (gpa : Nat) (bs : List Byte) (c : CoreId)
    (h : ThreadId) : (f.store m w mask gpa bs).thread c h = f.thread c h := by
  simp [Fab.thread, Fab.core, Fab.store_keeps.1]
@[simp] theorem Fab.store_core (f : Fab) (m : Mgt) (w : Option Who) (mask : Bool) (gpa : Nat) (bs : List Byte) (c : CoreId) :
    (f.store m w mask gpa bs).core c = f.core c := by
  simp [Fab.core, Fab.store_keeps.1]
@[simp] theorem Fab.store_ctx (f : Fab) (m : Mgt) (w : Option Who) (mask : Bool) (gpa : Nat) (bs : List Byte) (n : CtxId) :
    (f.store m w mask gpa bs).ctx n = f.ctx n := by
  simp [Fab.ctx, Fab.store_keeps.2]

/-! A translation fills TLBs, and may write a leaf that it touches first (R312, R313). -/

theorem Fab.fillCore_core (f : Fab) (c d : CoreId) (e : TlbEnt) :
    ∃ l, (f.fillCore c e).core d = { f.core d with tlb := l } := by
  by_cases h : d = c
  · subst h
    exact ⟨_, by simp [Fab.fillCore, Fab.modCore]; rfl⟩
  · exact ⟨(f.core d).tlb, Fab.core_modCore_ne f h _⟩

theorem Fab.touchLeaf_keeps {f : Fab} {m : Mgt} {addr e : Nat} {wr : Option Nat} :
    (f.touchLeaf m addr e wr).cores = f.cores ∧ (f.touchLeaf m addr e wr).ctxs = f.ctxs := by
  unfold Fab.touchLeaf
  split
  · exact ⟨rfl, rfl⟩
  · split
    · next e' _ _ _ _ =>
      obtain ⟨x, l, h⟩ := Fab.post_spec { f with ids := f.ids + 1 } m
        ⟨f.ids, Who.none, 0, addr, leBytes 8 e', 0, 0, none, none, none, some (BitVec.ofNat 64 e)⟩
      rw [h]; exact ⟨rfl, rfl⟩
    · exact Fab.store_keeps

/-- The reads of a walk that leave through ports change the links only. -/
theorem Fab.walkOut_keeps {as : List Nat} {f : Fab} {m : Mgt} :
    (f.walkOut m as).cores = f.cores ∧ (f.walkOut m as).ctxs = f.ctxs := by
  induction as generalizing f with
  | nil => exact ⟨rfl, rfl⟩
  | cons a as ih =>
    rw [Fab.walkOut]
    refine ⟨ih.1.trans ?_, ih.2.trans ?_⟩ <;> split <;> (try rfl) <;> split <;> rfl

/-- What a walk finds at its leaf leaves cores and contexts alone. -/
theorem Fab.leafFound_keeps {f g : Fab} {m : Mgt} {n : CtxId} {k va addr e size : Nat} {t : TlbEnt} {wr : Option Nat} {e' : Nat}
    (h : f.leafFound m n k va addr e size = some (t, wr, e', g)) : g.cores = f.cores ∧ g.ctxs = f.ctxs := by
  unfold Fab.leafFound at h
  dsimp only at h
  split at h
  · split at h
    · split at h
      · simp only [Option.map_eq_some_iff] at h
        obtain ⟨r, _, hr⟩ := h
        cases hr; exact ⟨rfl, rfl⟩
      · cases h
    · cases h; exact ⟨rfl, rfl⟩
  · cases h

/-- A translation changes nothing of a core but its TLB, and no context. -/
theorem Fab.translate_keeps {f g : Fab} {m : Mgt} {c : CoreId} {n : CtxId} {va : Nat} {ok : TlbEnt → Bool} {e : TlbEnt}
    (h : f.translate m c n va ok = some (e, g)) :
    (∀ d, ∃ l, g.core d = { f.core d with tlb := l }) ∧ g.ctxs = f.ctxs := by
  unfold Fab.translate at h
  split at h
  · cases h; exact ⟨fun d => ⟨(f.core d).tlb, rfl⟩, rfl⟩
  · simp only at h
    split at h
    · cases h; exact ⟨fun d => f.fillCore_core c d _, rfl⟩
    · split at h
      · cases h
      · next addr e' size _ =>
        split at h
        · cases h
        · next t wr e'' g' hl =>
          split at h
          · cases h
            have hk := Fab.leafFound_keeps hl
            refine ⟨fun d => ?_, Fab.touchLeaf_keeps.2.trans (Fab.walkOut_keeps.2.trans hk.2)⟩
            obtain ⟨l, hl⟩ := Fab.fillCore_core ((g'.walkOut m (f.walkReads m (f.ctx n) va 1 walkLevels (f.ctx n).ptroot)).touchLeaf m addr e'' wr) c d e
            exact ⟨l, hl.trans (by simp [Fab.core, Fab.touchLeaf_keeps.1, Fab.walkOut_keeps.1, hk.1])⟩
          · cases h

/-- An access check changes nothing of a core but its TLB, and no context. -/
theorem Fab.check_keeps {f g : Fab} {m : Mgt} {c : CoreId} {w : Who} {r : Req} {t : Tgt} (h : f.check m c w r = .ok (t, g)) :
    (∀ d, ∃ l, g.core d = { f.core d with tlb := l }) ∧ g.ctxs = f.ctxs := by
  unfold Fab.check at h
  simp only at h
  split at h
  · cases h
  · (repeat' split at h) <;> first | (cases h; done) | (cases h; exact ⟨fun d => ⟨(f.core d).tlb, rfl⟩, rfl⟩)
  · (repeat' split at h) <;> first | (cases h; done) | (cases h; exact ⟨fun d => ⟨(f.core d).tlb, rfl⟩, rfl⟩)
  · (repeat' split at h) <;> first | (cases h; done) | (cases h; exact Fab.translate_keeps ‹_›)

theorem Fab.check_thread {f g : Fab} {m : Mgt} {c : CoreId} {w : Who} {r : Req} {t : Tgt} (h : f.check m c w r = .ok (t, g))
    (d : CoreId) (k : ThreadId) : g.thread d k = f.thread d k := by
  obtain ⟨l, hl⟩ := (Fab.check_keeps h).1 d
  simp [Fab.thread, hl]

theorem Fab.check_who {f g : Fab} {m : Mgt} {c : CoreId} {w : Who} {r : Req} {t : Tgt} (h : f.check m c w r = .ok (t, g))
    (d : CoreId) (k : ThreadId) : g.who d k = f.who d k := by
  obtain ⟨l, hl⟩ := (Fab.check_keeps h).1 d
  simp [Fab.who, Core.who, hl]

end Sys2Proof.Machine
end

