-- ==== Sys2Proof/Laws/Encoding.lean ====
section
/-! SUPPORT. The fields of a head and of a tail are read back as they were written (R29, R38). -/

namespace Sys2Proof

/-- Whether field values fit their widths. -/
def fits : List Nat → List Nat → Bool
  | [], [] => true
  | w :: ws, v :: vs => v < 2 ^ w && fits ws vs
  | _, _ => false

/-- Whether an encoding lies in the map of R40 and its fields fit (R29, R38). -/
def Raw.fits (r : Raw) : Bool :=
  r.major < 64 && r.minor < 16 && (cellFmts r.major r.minor).contains r.fmt && Sys2Proof.fits r.fmt.widths r.fields &&
    r.fmt.zOk r.fields

theorem pack_lt {ws vs : List Nat} (h : fits ws vs = true) : pack ws vs < 2 ^ ws.sum := by
  induction ws generalizing vs with
  | nil => cases vs <;> simp [pack]
  | cons w ws ih =>
    cases vs with
    | nil => simp [fits] at h
    | cons v vs =>
      simp only [fits, Bool.and_eq_true, decide_eq_true_eq] at h
      have := ih h.2
      simp only [pack, List.sum_cons, Nat.pow_add, Nat.mod_eq_of_lt h.1]
      calc v * 2 ^ ws.sum + pack ws vs < v * 2 ^ ws.sum + 2 ^ ws.sum := by omega
        _ = (v + 1) * 2 ^ ws.sum := by rw [Nat.add_mul, Nat.one_mul]
        _ ≤ 2 ^ w * 2 ^ ws.sum := Nat.mul_le_mul_right _ h.1

theorem unpack_add {ws : List Nat} (x k : Nat) : unpack ws (k * 2 ^ ws.sum + x) = unpack ws x := by
  induction ws generalizing x k with
  | nil => rfl
  | cons w ws ih =>
    simp only [unpack, List.sum_cons, List.cons.injEq]
    have e : k * 2 ^ (w + ws.sum) = k * 2 ^ w * 2 ^ ws.sum := by rw [Nat.pow_add, Nat.mul_assoc]
    rw [e]
    constructor
    · rw [Nat.add_comm, Nat.add_mul_div_right _ _ (Nat.two_pow_pos _), Nat.add_mul_mod_self_right]
    · exact ih _ _

/-- Fields that fit are read back from the tail that holds them. -/
theorem unpack_pack {ws vs : List Nat} (h : fits ws vs = true) : unpack ws (pack ws vs) = vs := by
  induction ws generalizing vs with
  | nil => cases vs <;> simp_all [fits, unpack]
  | cons w ws ih =>
    cases vs with
    | nil => simp [fits] at h
    | cons v vs =>
      simp only [fits, Bool.and_eq_true, decide_eq_true_eq] at h
      have hl := pack_lt h.2
      simp only [pack, unpack, Nat.mod_eq_of_lt h.1, List.cons.injEq]
      constructor
      · rw [Nat.add_comm, Nat.add_mul_div_right _ _ (Nat.two_pow_pos _), Nat.div_eq_of_lt hl, Nat.zero_add,
          Nat.mod_eq_of_lt h.1]
      · rw [unpack_add, ih h.2]

theorem Fmt.tl_lt (f : Fmt) : f.tl < 4 := by cases f <;> decide

/-- The widths of a format make up its tail. -/
theorem Fmt.sum_widths (f : Fmt) : f.widths.sum = 8 * tailBytes f.tl := by cases f <;> decide

variable (r : Raw)

theorem Raw.head_lt (h : r.fits = true) : r.head < 2 ^ 16 := by
  simp only [Raw.fits, Bool.and_eq_true, decide_eq_true_eq] at h
  have := r.fmt.tl_lt
  have := r.g.gp.isLt
  have := Bool.toNat_lt r.g.gn
  unfold Raw.head
  omega

theorem Raw.head_major (h : r.fits = true) : r.head / 1024 % 64 = r.major := by
  simp only [Raw.fits, Bool.and_eq_true, decide_eq_true_eq] at h
  have := r.fmt.tl_lt
  have := r.g.gp.isLt
  have := Bool.toNat_lt r.g.gn
  unfold Raw.head
  omega

theorem Raw.head_tl (h : r.fits = true) : r.head / 256 % 4 = r.fmt.tl := by
  simp only [Raw.fits, Bool.and_eq_true, decide_eq_true_eq] at h
  have := r.fmt.tl_lt
  have := r.g.gp.isLt
  have := Bool.toNat_lt r.g.gn
  unfold Raw.head
  omega

theorem Raw.head_minor (h : r.fits = true) : r.head % 16 = r.minor := by
  simp only [Raw.fits, Bool.and_eq_true, decide_eq_true_eq] at h
  unfold Raw.head
  omega

theorem Raw.head_guard (h : r.fits = true) :
    (⟨Fin.ofNat 8 (r.head / 32), r.head / 16 % 2 == 1⟩ : Guard) = r.g := by
  simp only [Raw.fits, Bool.and_eq_true, decide_eq_true_eq] at h
  have hg := r.g.gp.isLt
  have hn := Bool.toNat_lt r.g.gn
  have ht := r.fmt.tl_lt
  have e1 : r.head / 32 % 8 = r.g.gp.val := by unfold Raw.head; omega
  have e2 : r.head / 16 % 2 = r.g.gn.toNat := by unfold Raw.head; omega
  obtain ⟨g, _, _, _, _⟩ := r
  obtain ⟨gp, gn⟩ := g
  simp only [Guard.mk.injEq]
  exact ⟨Fin.ext e1, by rw [e2]; cases gn <;> rfl⟩

theorem Raw.tail_lt (h : r.fits = true) : r.tail < 2 ^ (8 * tailBytes r.fmt.tl) := by
  simp only [Raw.fits, Bool.and_eq_true] at h
  rw [← Fmt.sum_widths]
  exact pack_lt h.1.2

theorem Raw.unpack_tail (h : r.fits = true) : unpack r.fmt.widths r.tail = r.fields := by
  simp only [Raw.fits, Bool.and_eq_true] at h
  exact unpack_pack h.1.2

/-- No cell permits two formats with one tail length (R40). -/
theorem cellFmts_tl {major minor : Nat} {f g : Fmt} (hf : f ∈ cellFmts major minor) (hg : g ∈ cellFmts major minor)
    (e : f.tl = g.tl) : f = g := by
  unfold cellFmts at hf hg
  repeat' split at hf
  all_goals (first | (simp at hf; done) | skip)
  all_goals (simp_all; try (rcases hf with rfl | rfl <;> rcases hg with rfl | rfl <;> simp_all [Fmt.tl]))

end Sys2Proof
end

