-- ==== Sys2Proof/Laws/Frame.lean ====
section
/-! SUPPORT. What the frame of a head does, case by case, and that every head runs in it; what an event leaves alone. -/

namespace Sys2Proof.Machine

/-- A thread that executes heads passes the first check of the frame. -/
theorem State.alive_cases {s : State} (h : s.cur.alive) :
    (decide ((s.f.thread s.core s.th).st ≠ .running) && decide ((s.f.thread s.core s.th).st ≠ .routine)) = false := by
  rcases h with e | e <;> (have e' : (s.f.thread s.core s.th).st = _ := e; simp [e'])

/-- Registers to which no value is to come are awaited by no head. -/
theorem Thread.settled_awaits {t : Thread} {ds : List Dst} (h : t.settled ds) : t.awaits ds = false := by
  rw [Thread.awaits, List.any_eq_false]
  intro p hp hq
  simp only [Pend.into, List.contains_eq_mem, Bool.and_eq_true, decide_eq_true_eq] at hq
  exact absurd hq.2 (by simp [h p hp hq.1])

/-- Registers with no refused answer stop no head. -/
theorem Thread.clean_refusedAt {t : Thread} {ds : List Dst} (h : t.clean ds) : t.refusedAt ds = none := by
  rw [Thread.refusedAt, List.findSome?_eq_none_iff]
  intro p hp
  split
  · next e he =>
    split
    · next hi => exact absurd he (h p hp (by simpa [Pend.into] using hi) e)
    · rfl
  · rfl

/-- The frame of a head that acts. -/
theorem State.head_runs {s : State} {g : Guard} {rs ws : List Dst} (h : s.Runs g rs ws)
    (body : Mgt → Fab → CoreId → ThreadId → Fab) :
    s.head g rs ws body = .next { s with f := body s.m s.f s.core s.th } := by
  have hg : ¬ (s.f.thread s.core s.th).rdp g.gp = g.gn := h.guard
  have hr : (s.f.thread s.core s.th).awaits rs = false := Thread.settled_awaits h.reads
  have hw : (s.f.thread s.core s.th).awaits ws = false := Thread.settled_awaits h.writes
  have hc : (s.f.thread s.core s.th).refusedAt rs = none := Thread.clean_refusedAt h.clean
  unfold State.head
  simp only [State.alive_cases h.alive, hg, hr, hw, hc, if_false, Bool.or_self, Bool.false_eq_true]

/-- A head whose guard is false only goes on. -/
theorem State.head_nop {s : State} {g : Guard} (h : s.cur.alive) (hg : s.cur.rdp g.gp = g.gn) (rs ws : List Dst)
    (body : Mgt → Fab → CoreId → ThreadId → Fab) : s.head g rs ws body = .next (s.withCur s.cur.adv) := by
  have hg' : (s.f.thread s.core s.th).rdp g.gp = g.gn := hg
  unfold State.head
  simp only [State.alive_cases h, hg', if_true, if_false, Bool.false_eq_true]
  rfl

/-- A head that reads a register to which the answer was refused traps there (R330). -/
theorem State.head_refused {s : State} {g : Guard} (h : s.cur.alive) (hg : s.cur.rdp g.gp ≠ g.gn) {rs : List Dst} {p : Pend}
    {e : Cause} (hp : s.cur.refusedAt rs = some (p, e)) (ws : List Dst) (body : Mgt → Fab → CoreId → ThreadId → Fab) :
    s.head g rs ws body = .next { s with f := s.f.refuse s.m s.core s.th p e } := by
  have hg' : ¬ (s.f.thread s.core s.th).rdp g.gp = g.gn := hg
  have hp' : (s.f.thread s.core s.th).refusedAt rs = some (p, e) := hp
  unfold State.head
  simp only [State.alive_cases h, hg', hp', if_false, Bool.false_eq_true]

/-- A head with a register to which a value is still to come waits (R152). -/
theorem State.head_waits {s : State} {g : Guard} (h : s.cur.alive) (hg : s.cur.rdp g.gp ≠ g.gn) {rs ws : List Dst}
    (hp : s.cur.refusedAt rs = none) (hw : s.cur.awaits rs = true ∨ s.cur.awaits ws = true)
    (body : Mgt → Fab → CoreId → ThreadId → Fab) : s.head g rs ws body = .next s := by
  have hg' : ¬ (s.f.thread s.core s.th).rdp g.gp = g.gn := hg
  have hp' : (s.f.thread s.core s.th).refusedAt rs = none := hp
  have hw' : ((s.f.thread s.core s.th).awaits rs || (s.f.thread s.core s.th).awaits ws) = true := Bool.or_eq_true_iff.mpr hw
  unfold State.head
  simp only [State.alive_cases h, hg', hp', hw', if_false, if_true, Bool.false_eq_true]

theorem State.local_runs {s : State} {g : Guard} {rs ws : List Dst} (h : s.Runs g rs ws) (body : Thread → Thread) :
    s.local g rs ws body = .next (s.withCur (body s.cur).adv) := s.head_runs h _

theorem State.flow_runs {s : State} {g : Guard} {rs ws : List Dst} (h : s.Runs g rs ws) (body : Thread → Thread) :
    s.flow g rs ws body = .next (s.withCur (body s.cur)) := s.head_runs h _

/-- A thread that executes heads never stops one: the frame of a head answers a next state. -/
theorem State.head_next {s : State} (h : s.cur.alive) (g : Guard) (rs ws : List Dst)
    (body : Mgt → Fab → CoreId → ThreadId → Fab) : ∃ t, s.head g rs ws body = .next t := by
  unfold State.head
  simp only [State.alive_cases h, if_false, Bool.false_eq_true]
  split
  · exact ⟨_, rfl⟩
  · split
    · exact ⟨_, rfl⟩
    · split <;> exact ⟨_, rfl⟩

/-- The frame of a head leaves the management side, the current thread's place and the agenda alone. -/
theorem State.head_keeps {s t : State} {g : Guard} {rs ws : List Dst} {body : Mgt → Fab → CoreId → ThreadId → Fab}
    (h : s.head g rs ws body = .next t) : t.m = s.m ∧ t.core = s.core ∧ t.th = s.th ∧ t.agenda = s.agenda := by
  unfold State.head at h
  simp only at h
  split at h
  · cases h
  · split at h
    · cases h; exact ⟨rfl, rfl, rfl, rfl⟩
    · split at h
      · cases h; exact ⟨rfl, rfl, rfl, rfl⟩
      · split at h <;> (cases h; exact ⟨rfl, rfl, rfl, rfl⟩)

seal State.head in
/-- Every head runs in the frame, with its own guard, the registers that it reads and writes, and a body. -/
theorem exec_head {i : Instr} {g : Guard} (h : i.guard = some g) :
    ∃ body, ∀ s, exec i s = s.head g i.reads i.dests body := by
  cases i <;> (first | (cases h; done) | skip) <;> (cases h; exact ⟨_, fun _ => rfl⟩)

end Sys2Proof.Machine
end

