-- ==== Sys2Proof/Laws/PerInstr.lean ====
section
/-! SUPPORT. Fits: the encoding of a well-formed head lies in the opcode map and its field values fit their widths
(R29, R38 to R40), one lemma for each constructor; an event has no encoding. -/

namespace Sys2Proof.Laws.Fits

def Statement (i : Instr) : Prop := i.wf = true → ∀ r, i.raw = some r → r.fits = true

theorem event {i : Instr} (h : i.raw = none) : Statement i := fun _ r e => by rw [h] at e; cases e

theorem s3 {g : Guard} {major minor : Nat} {a b c : SReg}
    (h : (major < 64 && minor < 16 && (cellFmts major minor).contains .s3) = true) :
    (rawS3 g major minor a b c).fits = true := by
  simp only [Bool.and_eq_true, decide_eq_true_eq] at h
  have := a.isLt; have := b.isLt; have := c.isLt
  simp [rawS3, Raw.fits, Sys2Proof.fits, Fmt.widths, Fmt.zOk, Fmt.zAt, h.1.1, h.1.2, List.contains_iff_mem.mp h.2]

theorem v4 {g : Guard} {major minor : Nat} {d a b : VReg} {ty : Ty}
    (h : (major < 64 && minor < 16 && (cellFmts major minor).contains .v4) = true) :
    (rawV4 g major minor d a b ty).fits = true := by
  simp only [Bool.and_eq_true, decide_eq_true_eq] at h
  have := d.isLt; have := a.isLt; have := b.isLt
  have : ty.code < 16 := by cases ty <;> decide
  simp [rawV4, Raw.fits, Sys2Proof.fits, Fmt.widths, Fmt.zOk, Fmt.zAt, h.1.1, h.1.2, List.contains_iff_mem.mp h.2] <;> omega

theorem mm {g : Guard} {minor : Nat} {m : MMOps} (h : minor < 3) : (rawMM g minor m).fits = true := by
  obtain ⟨acc, a, b, k, mode, ka, kb, x⟩ := m
  have := a.isLt; have := b.isLt; have := k.isLt; have := x.isLt
  have h1 : acc.acc < 4 := by cases acc <;> simp only [AccSel.acc] <;> omega
  have h2 : acc.w < 2 := by cases acc <;> simp only [AccSel.w] <;> omega
  have h3 : mode.code < 4 := by cases mode <;> decide
  have h4 : ka.code < 4 := by cases ka <;> decide
  have h5 : kb.code < 4 := by cases kb <;> decide
  have h6 : minor < 16 := by omega
  simp [rawMM, Raw.fits, Sys2Proof.fits, Fmt.widths, Fmt.zOk, Fmt.zAt, cellFmts, h, h6] <;> omega

theorem addReg (g : Guard) (d : SReg) (a : SReg) (b : SReg) : Statement (.addReg g d a b) :=
  fun _ _ e => by cases e; exact s3 rfl
theorem subReg (g : Guard) (d : SReg) (a : SReg) (b : SReg) : Statement (.subReg g d a b) :=
  fun _ _ e => by cases e; exact s3 rfl
theorem mulReg (g : Guard) (d : SReg) (a : SReg) (b : SReg) : Statement (.mulReg g d a b) :=
  fun _ _ e => by cases e; exact s3 rfl
theorem mulhReg (g : Guard) (d : SReg) (a : SReg) (b : SReg) : Statement (.mulhReg g d a b) :=
  fun _ _ e => by cases e; exact s3 rfl
theorem mulhzReg (g : Guard) (d : SReg) (a : SReg) (b : SReg) : Statement (.mulhzReg g d a b) :=
  fun _ _ e => by cases e; exact s3 rfl
theorem divsReg (g : Guard) (d : SReg) (a : SReg) (b : SReg) : Statement (.divsReg g d a b) :=
  fun _ _ e => by cases e; exact s3 rfl
theorem divzReg (g : Guard) (d : SReg) (a : SReg) (b : SReg) : Statement (.divzReg g d a b) :=
  fun _ _ e => by cases e; exact s3 rfl
theorem remsReg (g : Guard) (d : SReg) (a : SReg) (b : SReg) : Statement (.remsReg g d a b) :=
  fun _ _ e => by cases e; exact s3 rfl
theorem remzReg (g : Guard) (d : SReg) (a : SReg) (b : SReg) : Statement (.remzReg g d a b) :=
  fun _ _ e => by cases e; exact s3 rfl
theorem andReg (g : Guard) (d : SReg) (a : SReg) (b : SReg) : Statement (.andReg g d a b) :=
  fun _ _ e => by cases e; exact s3 rfl
theorem orReg (g : Guard) (d : SReg) (a : SReg) (b : SReg) : Statement (.orReg g d a b) :=
  fun _ _ e => by cases e; exact s3 rfl
theorem xorReg (g : Guard) (d : SReg) (a : SReg) (b : SReg) : Statement (.xorReg g d a b) :=
  fun _ _ e => by cases e; exact s3 rfl
theorem andnReg (g : Guard) (d : SReg) (a : SReg) (b : SReg) : Statement (.andnReg g d a b) :=
  fun _ _ e => by cases e; exact s3 rfl
theorem shlReg (g : Guard) (d : SReg) (a : SReg) (b : SReg) : Statement (.shlReg g d a b) :=
  fun _ _ e => by cases e; exact s3 rfl
theorem shrzReg (g : Guard) (d : SReg) (a : SReg) (b : SReg) : Statement (.shrzReg g d a b) :=
  fun _ _ e => by cases e; exact s3 rfl
theorem shrsReg (g : Guard) (d : SReg) (a : SReg) (b : SReg) : Statement (.shrsReg g d a b) :=
  fun _ _ e => by cases e; exact s3 rfl
theorem addImm (g : Guard) (d : SReg) (a : SReg) (imm : BitVec 22) : Statement (.addImm g d a imm) := fun _ _ e => by
  cases e
  have := d.isLt; have := a.isLt; have := imm.isLt
  simp [rawI22, Raw.fits, Sys2Proof.fits, Fmt.widths, Fmt.zOk, Fmt.zAt, cellFmts] <;> omega
theorem subImm (g : Guard) (d : SReg) (a : SReg) (imm : BitVec 22) : Statement (.subImm g d a imm) := fun _ _ e => by
  cases e
  have := d.isLt; have := a.isLt; have := imm.isLt
  simp [rawI22, Raw.fits, Sys2Proof.fits, Fmt.widths, Fmt.zOk, Fmt.zAt, cellFmts] <;> omega
theorem mulImm (g : Guard) (d : SReg) (a : SReg) (imm : BitVec 22) : Statement (.mulImm g d a imm) := fun _ _ e => by
  cases e
  have := d.isLt; have := a.isLt; have := imm.isLt
  simp [rawI22, Raw.fits, Sys2Proof.fits, Fmt.widths, Fmt.zOk, Fmt.zAt, cellFmts] <;> omega
theorem mulhImm (g : Guard) (d : SReg) (a : SReg) (imm : BitVec 22) : Statement (.mulhImm g d a imm) := fun _ _ e => by
  cases e
  have := d.isLt; have := a.isLt; have := imm.isLt
  simp [rawI22, Raw.fits, Sys2Proof.fits, Fmt.widths, Fmt.zOk, Fmt.zAt, cellFmts] <;> omega
theorem mulhzImm (g : Guard) (d : SReg) (a : SReg) (imm : BitVec 22) : Statement (.mulhzImm g d a imm) := fun _ _ e => by
  cases e
  have := d.isLt; have := a.isLt; have := imm.isLt
  simp [rawI22, Raw.fits, Sys2Proof.fits, Fmt.widths, Fmt.zOk, Fmt.zAt, cellFmts] <;> omega
theorem divsImm (g : Guard) (d : SReg) (a : SReg) (imm : BitVec 22) : Statement (.divsImm g d a imm) := fun _ _ e => by
  cases e
  have := d.isLt; have := a.isLt; have := imm.isLt
  simp [rawI22, Raw.fits, Sys2Proof.fits, Fmt.widths, Fmt.zOk, Fmt.zAt, cellFmts] <;> omega
theorem divzImm (g : Guard) (d : SReg) (a : SReg) (imm : BitVec 22) : Statement (.divzImm g d a imm) := fun _ _ e => by
  cases e
  have := d.isLt; have := a.isLt; have := imm.isLt
  simp [rawI22, Raw.fits, Sys2Proof.fits, Fmt.widths, Fmt.zOk, Fmt.zAt, cellFmts] <;> omega
theorem remsImm (g : Guard) (d : SReg) (a : SReg) (imm : BitVec 22) : Statement (.remsImm g d a imm) := fun _ _ e => by
  cases e
  have := d.isLt; have := a.isLt; have := imm.isLt
  simp [rawI22, Raw.fits, Sys2Proof.fits, Fmt.widths, Fmt.zOk, Fmt.zAt, cellFmts] <;> omega
theorem remzImm (g : Guard) (d : SReg) (a : SReg) (imm : BitVec 22) : Statement (.remzImm g d a imm) := fun _ _ e => by
  cases e
  have := d.isLt; have := a.isLt; have := imm.isLt
  simp [rawI22, Raw.fits, Sys2Proof.fits, Fmt.widths, Fmt.zOk, Fmt.zAt, cellFmts] <;> omega
theorem andImm (g : Guard) (d : SReg) (a : SReg) (imm : BitVec 22) : Statement (.andImm g d a imm) := fun _ _ e => by
  cases e
  have := d.isLt; have := a.isLt; have := imm.isLt
  simp [rawI22, Raw.fits, Sys2Proof.fits, Fmt.widths, Fmt.zOk, Fmt.zAt, cellFmts] <;> omega
theorem orImm (g : Guard) (d : SReg) (a : SReg) (imm : BitVec 22) : Statement (.orImm g d a imm) := fun _ _ e => by
  cases e
  have := d.isLt; have := a.isLt; have := imm.isLt
  simp [rawI22, Raw.fits, Sys2Proof.fits, Fmt.widths, Fmt.zOk, Fmt.zAt, cellFmts] <;> omega
theorem xorImm (g : Guard) (d : SReg) (a : SReg) (imm : BitVec 22) : Statement (.xorImm g d a imm) := fun _ _ e => by
  cases e
  have := d.isLt; have := a.isLt; have := imm.isLt
  simp [rawI22, Raw.fits, Sys2Proof.fits, Fmt.widths, Fmt.zOk, Fmt.zAt, cellFmts] <;> omega
theorem andnImm (g : Guard) (d : SReg) (a : SReg) (imm : BitVec 22) : Statement (.andnImm g d a imm) := fun _ _ e => by
  cases e
  have := d.isLt; have := a.isLt; have := imm.isLt
  simp [rawI22, Raw.fits, Sys2Proof.fits, Fmt.widths, Fmt.zOk, Fmt.zAt, cellFmts] <;> omega
theorem shlImm (g : Guard) (d : SReg) (a : SReg) (imm : BitVec 22) : Statement (.shlImm g d a imm) := fun _ _ e => by
  cases e
  have := d.isLt; have := a.isLt; have := imm.isLt
  simp [rawI22, Raw.fits, Sys2Proof.fits, Fmt.widths, Fmt.zOk, Fmt.zAt, cellFmts] <;> omega
theorem shrzImm (g : Guard) (d : SReg) (a : SReg) (imm : BitVec 22) : Statement (.shrzImm g d a imm) := fun _ _ e => by
  cases e
  have := d.isLt; have := a.isLt; have := imm.isLt
  simp [rawI22, Raw.fits, Sys2Proof.fits, Fmt.widths, Fmt.zOk, Fmt.zAt, cellFmts] <;> omega
theorem shrsImm (g : Guard) (d : SReg) (a : SReg) (imm : BitVec 22) : Statement (.shrsImm g d a imm) := fun _ _ e => by
  cases e
  have := d.isLt; have := a.isLt; have := imm.isLt
  simp [rawI22, Raw.fits, Sys2Proof.fits, Fmt.widths, Fmt.zOk, Fmt.zAt, cellFmts] <;> omega
theorem cmpReg (g : Guard) (c : Cond) (pd : PReg) (pe : PReg) (a : SReg) (b : SReg) :
    Statement (.cmpReg g c pd pe a b) := fun _ _ e => by
  cases e
  have := pd.isLt; have := pe.isLt; have := a.isLt; have := b.isLt
  cases c <;> simp [Raw.fits, Sys2Proof.fits, Fmt.widths, Fmt.zOk, Fmt.zAt, cellFmts, Cond.code] <;> omega
theorem cmpImm (g : Guard) (c : Cond) (pd : PReg) (pe : PReg) (a : SReg) (imm : BitVec 21) :
    Statement (.cmpImm g c pd pe a imm) := fun _ _ e => by
  cases e
  have := pd.isLt; have := pe.isLt; have := a.isLt; have := imm.isLt
  cases c <;> simp [Raw.fits, Sys2Proof.fits, Fmt.widths, Fmt.zOk, Fmt.zAt, cellFmts, Cond.code] <;> omega
theorem pand (g : Guard) (pd : PReg) (pa : PReg) (pb : PReg) : Statement (.pand g pd pa pb) := fun _ _ e => by
  cases e
  have := pd.isLt; have := pa.isLt; have := pb.isLt
  simp [rawPl, Raw.fits, Sys2Proof.fits, Fmt.widths, Fmt.zOk, Fmt.zAt, cellFmts] <;> omega
theorem por (g : Guard) (pd : PReg) (pa : PReg) (pb : PReg) : Statement (.por g pd pa pb) := fun _ _ e => by
  cases e
  have := pd.isLt; have := pa.isLt; have := pb.isLt
  simp [rawPl, Raw.fits, Sys2Proof.fits, Fmt.widths, Fmt.zOk, Fmt.zAt, cellFmts] <;> omega
theorem pxor (g : Guard) (pd : PReg) (pa : PReg) (pb : PReg) : Statement (.pxor g pd pa pb) := fun _ _ e => by
  cases e
  have := pd.isLt; have := pa.isLt; have := pb.isLt
  simp [rawPl, Raw.fits, Sys2Proof.fits, Fmt.widths, Fmt.zOk, Fmt.zAt, cellFmts] <;> omega
theorem pandn (g : Guard) (pd : PReg) (pa : PReg) (pb : PReg) : Statement (.pandn g pd pa pb) := fun _ _ e => by
  cases e
  have := pd.isLt; have := pa.isLt; have := pb.isLt
  simp [rawPl, Raw.fits, Sys2Proof.fits, Fmt.widths, Fmt.zOk, Fmt.zAt, cellFmts] <;> omega
theorem pnot (g : Guard) (pd : PReg) (pa : PReg) : Statement (.pnot g pd pa) := fun _ _ e => by
  cases e
  have := pd.isLt; have := pa.isLt
  simp [rawPl, Raw.fits, Sys2Proof.fits, Fmt.widths, Fmt.zOk, Fmt.zAt, cellFmts] <;> omega
theorem prd (g : Guard) (d : SReg) : Statement (.prd g d) := fun _ _ e => by
  cases e
  have := d.isLt
  simp [rawPl, Raw.fits, Sys2Proof.fits, Fmt.widths, Fmt.zOk, Fmt.zAt, cellFmts] <;> omega
theorem pwr (g : Guard) (a : SReg) : Statement (.pwr g a) := fun _ _ e => by
  cases e
  have := a.isLt
  simp [rawPl, Raw.fits, Sys2Proof.fits, Fmt.widths, Fmt.zOk, Fmt.zAt, cellFmts] <;> omega
theorem sel (g : Guard) (d : SReg) (pc : PReg) (a : SReg) (b : SReg) : Statement (.sel g d pc a b) := fun _ _ e => by
  cases e
  have := d.isLt; have := pc.isLt; have := a.isLt; have := b.isLt
  simp [Raw.fits, Sys2Proof.fits, Fmt.widths, Fmt.zOk, Fmt.zAt, cellFmts] <;> omega
theorem liL27 (g : Guard) (d : SReg) (imm : BitVec 27) : Statement (.liL27 g d imm) := fun _ _ e => by
  cases e
  have := d.isLt; have := imm.isLt
  simp [Raw.fits, Sys2Proof.fits, Fmt.widths, Fmt.zOk, Fmt.zAt, cellFmts] <;> omega
theorem liL59 (g : Guard) (d : SReg) (imm : BitVec 59) : Statement (.liL59 g d imm) := fun _ _ e => by
  cases e
  have := d.isLt; have := imm.isLt
  simp [Raw.fits, Sys2Proof.fits, Fmt.widths, Fmt.zOk, Fmt.zAt, cellFmts] <;> omega
theorem lih (g : Guard) (d : SReg) (a : SReg) (k : BitVec 6) : Statement (.lih g d a k) := fun _ _ e => by
  cases e
  have := d.isLt; have := a.isLt; have := k.isLt
  simp [Raw.fits, Sys2Proof.fits, Fmt.widths, Fmt.zOk, Fmt.zAt, cellFmts] <;> omega
theorem addpc (g : Guard) (d : SReg) (imm : BitVec 27) : Statement (.addpc g d imm) := fun _ _ e => by
  cases e
  have := d.isLt; have := imm.isLt
  simp [Raw.fits, Sys2Proof.fits, Fmt.widths, Fmt.zOk, Fmt.zAt, cellFmts] <;> omega
theorem clz (g : Guard) (d : SReg) (a : SReg) : Statement (.clz g d a) := fun _ _ e => by cases e; exact s3 rfl
theorem ctz (g : Guard) (d : SReg) (a : SReg) : Statement (.ctz g d a) := fun _ _ e => by cases e; exact s3 rfl
theorem popc (g : Guard) (d : SReg) (a : SReg) : Statement (.popc g d a) := fun _ _ e => by cases e; exact s3 rfl
theorem sext (g : Guard) (d : SReg) (a : SReg) (k : BitVec 6) : Statement (.sext g d a k) := fun _ _ e => by
  cases e
  have := d.isLt; have := a.isLt; have := k.isLt
  simp [Raw.fits, Sys2Proof.fits, Fmt.widths, Fmt.zOk, Fmt.zAt, cellFmts] <;> omega
theorem zext (g : Guard) (d : SReg) (a : SReg) (k : BitVec 6) : Statement (.zext g d a k) := fun _ _ e => by
  cases e
  have := d.isLt; have := a.isLt; have := k.isLt
  simp [Raw.fits, Sys2Proof.fits, Fmt.widths, Fmt.zOk, Fmt.zAt, cellFmts] <;> omega
theorem min (g : Guard) (u : Bool) (d : SReg) (a : SReg) (b : SReg) : Statement (.min g u d a b) :=
  fun _ _ e => by cases e; cases u <;> exact s3 rfl
theorem max (g : Guard) (u : Bool) (d : SReg) (a : SReg) (b : SReg) : Statement (.max g u d a b) :=
  fun _ _ e => by cases e; cases u <;> exact s3 rfl
theorem brJ16 (g : Guard) (off : BitVec 11) (hx : BitVec 5) : Statement (.brJ16 g off hx) := fun _ _ e => by
  cases e
  have := off.isLt; have := hx.isLt
  simp [Raw.fits, Sys2Proof.fits, Fmt.widths, Fmt.zOk, Fmt.zAt, cellFmts] <;> omega
theorem brJ32 (g : Guard) (off : BitVec 27) (hx : BitVec 5) : Statement (.brJ32 g off hx) := fun _ _ e => by
  cases e
  have := off.isLt; have := hx.isLt
  simp [Raw.fits, Sys2Proof.fits, Fmt.widths, Fmt.zOk, Fmt.zAt, cellFmts] <;> omega
theorem callJ16 (g : Guard) (off : BitVec 11) (hx : BitVec 5) : Statement (.callJ16 g off hx) := fun _ _ e => by
  cases e
  have := off.isLt; have := hx.isLt
  simp [Raw.fits, Sys2Proof.fits, Fmt.widths, Fmt.zOk, Fmt.zAt, cellFmts] <;> omega
theorem callJ32 (g : Guard) (off : BitVec 27) (hx : BitVec 5) : Statement (.callJ32 g off hx) := fun _ _ e => by
  cases e
  have := off.isLt; have := hx.isLt
  simp [Raw.fits, Sys2Proof.fits, Fmt.widths, Fmt.zOk, Fmt.zAt, cellFmts] <;> omega
theorem brReg (g : Guard) (b : SReg) : Statement (.brReg g b) := fun _ _ e => by cases e; exact s3 rfl
theorem callReg (g : Guard) (b : SReg) : Statement (.callReg g b) := fun _ _ e => by cases e; exact s3 rfl
theorem ret (g : Guard) : Statement (.ret g) := fun _ _ e => by
  cases e
  rfl
theorem brc (g : Guard) (c : SReg) (off : BitVec 22) (hx : BitVec 5) : Statement (.brc g c off hx) := fun _ _ e => by
  cases e
  have := c.isLt; have := off.isLt; have := hx.isLt
  simp [Raw.fits, Sys2Proof.fits, Fmt.widths, Fmt.zOk, Fmt.zAt, cellFmts] <;> omega
theorem ld (g : Guard) (ty : LdTy) (d : SReg) (a : SReg) (sc : Scope) (o : Order) (imm : BitVec 17) :
    Statement (.ld g ty d a sc o imm) := fun _ _ e => by
  cases e
  have := d.isLt; have := a.isLt
  have : sc.code < 6 := by cases sc <;> decide
  have : o.code < 4 := by cases o <;> decide
  have := imm.isLt
  cases ty <;> simp [Raw.fits, Sys2Proof.fits, Fmt.widths, Fmt.zOk, Fmt.zAt, cellFmts, LdTy.code] <;> omega
theorem st (g : Guard) (ty : StTy) (d : SReg) (a : SReg) (sc : Scope) (o : Order) (imm : BitVec 17) :
    Statement (.st g ty d a sc o imm) := fun _ _ e => by
  cases e
  have := d.isLt; have := a.isLt
  have : sc.code < 6 := by cases sc <;> decide
  have : o.code < 4 := by cases o <;> decide
  have := imm.isLt
  cases ty <;> simp [Raw.fits, Sys2Proof.fits, Fmt.widths, Fmt.zOk, Fmt.zAt, cellFmts, StTy.code] <;> omega
theorem stw (g : Guard) (v : VReg) (a : SReg) (imm : BitVec 17) : Statement (.stw g v a imm) := fun _ _ e => by
  cases e
  have := v.isLt; have := a.isLt; have := imm.isLt
  simp [rawMv, Raw.fits, Sys2Proof.fits, Fmt.widths, Fmt.zOk, Fmt.zAt, cellFmts] <;> omega
theorem xst (g : Guard) (wd : Wd) (x : SReg) (c : SReg) (o : SReg) (imm : BitVec 17) :
    Statement (.xst g wd x c o imm) := fun _ _ e => by
  cases e
  have := x.isLt; have := c.isLt; have := o.isLt; have := imm.isLt
  cases wd <;> simp [Raw.fits, Sys2Proof.fits, Fmt.widths, Fmt.zOk, Fmt.zAt, cellFmts, Wd.code] <;> omega
theorem ldt (g : Guard) (ty : LdTy) (t : Tag) (a : SReg) (imm : BitVec 22) : Statement (.ldt g ty t a imm) := fun _ _ e => by
  cases e
  have := t.isLt; have := a.isLt; have := imm.isLt
  cases ty <;> simp [Raw.fits, Sys2Proof.fits, Fmt.widths, Fmt.zOk, Fmt.zAt, cellFmts, LdTy.code] <;> omega
theorem take (g : Guard) (d : SReg) (k : SReg) (pd : PReg) : Statement (.take g d k pd) := fun _ _ e => by
  cases e
  have := d.isLt; have := k.isLt; have := pd.isLt
  simp [Raw.fits, Sys2Proof.fits, Fmt.widths, Fmt.zOk, Fmt.zAt, cellFmts] <;> omega
theorem amo (g : Guard) (op : AOp) (a : SReg) (b : SReg) (sc : Scope) (o : Order) (u : AUse) (wd : Wd) :
    Statement (.amo g op a b sc o u wd) := fun hw _ e => by
  cases e
  have := a.isLt; have := b.isLt
  have : sc.code < 6 := by cases sc <;> decide
  have : o.code < 4 := by cases o <;> decide
  have : u.code < 3 := by cases u <;> decide
  have : wd.code < 2 := by cases wd <;> decide
  cases op <;> first | (simp [Instr.wf] at hw; done) | (simp [Raw.fits, Sys2Proof.fits, Fmt.widths, Fmt.zOk, Fmt.zAt, cellFmts, AOp.code] <;> omega)
theorem amor (g : Guard) (op : AOp) (d : SReg) (a : SReg) (b : SReg) (sc : Scope) (o : Order) (u : AUse) (wd : Wd) :
    Statement (.amor g op d a b sc o u wd) := fun _ _ e => by
  cases e
  have := d.isLt; have := a.isLt; have := b.isLt
  have : sc.code < 6 := by cases sc <;> decide
  have : o.code < 4 := by cases o <;> decide
  have : u.code < 3 := by cases u <;> decide
  have : wd.code < 2 := by cases wd <;> decide
  cases op <;> simp [Raw.fits, Sys2Proof.fits, Fmt.widths, Fmt.zOk, Fmt.zAt, cellFmts, AOp.code] <;> omega
theorem amorCas (g : Guard) (d : SReg) (a : SReg) (b : SReg) (c : SReg) (sc : Scope) (o : Order) (u : AUse) (wd : Wd) :
    Statement (.amorCas g d a b c sc o u wd) := fun _ _ e => by
  cases e
  have := d.isLt; have := a.isLt; have := b.isLt; have := c.isLt
  have : sc.code < 6 := by cases sc <;> decide
  have : o.code < 4 := by cases o <;> decide
  have : u.code < 3 := by cases u <;> decide
  have : wd.code < 2 := by cases wd <;> decide
  simp [Raw.fits, Sys2Proof.fits, Fmt.widths, Fmt.zOk, Fmt.zAt, cellFmts] <;> omega
theorem addw (g : Guard) (a : SReg) (b : SReg) : Statement (.addw g a b) := fun _ _ e => by cases e; exact s3 rfl
theorem fence (g : Guard) (sc : Scope) (o : Order) : Statement (.fence g sc o) := fun _ _ e => by
  cases e
  have : sc.code < 6 := by cases sc <;> decide
  have : o.code < 4 := by cases o <;> decide
  simp [Raw.fits, Sys2Proof.fits, Fmt.widths, Fmt.zOk, Fmt.zAt, cellFmts] <;> omega
theorem rflush (g : Guard) : Statement (.rflush g) := fun _ _ e => by
  cases e
  rfl
theorem wdrain (g : Guard) : Statement (.wdrain g) := fun _ _ e => by
  cases e
  rfl
theorem vadd (g : Guard) (d : VReg) (a : VReg) (b : VReg) (ty : Ty) : Statement (.vadd g d a b ty) :=
  fun _ _ e => by cases e; exact v4 rfl
theorem vsub (g : Guard) (d : VReg) (a : VReg) (b : VReg) (ty : Ty) : Statement (.vsub g d a b ty) :=
  fun _ _ e => by cases e; exact v4 rfl
theorem vmul (g : Guard) (d : VReg) (a : VReg) (b : VReg) (ty : Ty) : Statement (.vmul g d a b ty) :=
  fun _ _ e => by cases e; exact v4 rfl
theorem vmin (g : Guard) (d : VReg) (a : VReg) (b : VReg) (ty : Ty) : Statement (.vmin g d a b ty) :=
  fun _ _ e => by cases e; exact v4 rfl
theorem vmax (g : Guard) (d : VReg) (a : VReg) (b : VReg) (ty : Ty) : Statement (.vmax g d a b ty) :=
  fun _ _ e => by cases e; exact v4 rfl
theorem vabs (g : Guard) (d : VReg) (a : VReg) (ty : Ty) : Statement (.vabs g d a ty) :=
  fun _ _ e => by cases e; exact v4 rfl
theorem vneg (g : Guard) (d : VReg) (a : VReg) (ty : Ty) : Statement (.vneg g d a ty) :=
  fun _ _ e => by cases e; exact v4 rfl
theorem vand (g : Guard) (d : VReg) (a : VReg) (b : VReg) (ty : Ty) : Statement (.vand g d a b ty) :=
  fun _ _ e => by cases e; exact v4 rfl
theorem vor (g : Guard) (d : VReg) (a : VReg) (b : VReg) (ty : Ty) : Statement (.vor g d a b ty) :=
  fun _ _ e => by cases e; exact v4 rfl
theorem vxor (g : Guard) (d : VReg) (a : VReg) (b : VReg) (ty : Ty) : Statement (.vxor g d a b ty) :=
  fun _ _ e => by cases e; exact v4 rfl
theorem vshl (g : Guard) (d : VReg) (a : VReg) (b : VReg) (ty : Ty) : Statement (.vshl g d a b ty) :=
  fun _ _ e => by cases e; exact v4 rfl
theorem vshr (g : Guard) (d : VReg) (a : VReg) (b : VReg) (ty : Ty) : Statement (.vshr g d a b ty) :=
  fun _ _ e => by cases e; exact v4 rfl
theorem vdiv (g : Guard) (d : VReg) (a : VReg) (b : VReg) (ty : Ty) : Statement (.vdiv g d a b ty) :=
  fun _ _ e => by cases e; exact v4 rfl
theorem vsqrt (g : Guard) (d : VReg) (a : VReg) (ty : Ty) : Statement (.vsqrt g d a ty) :=
  fun _ _ e => by cases e; exact v4 rfl
theorem vadds (g : Guard) (d : VReg) (a : VReg) (b : VReg) (ty : Ty) : Statement (.vadds g d a b ty) :=
  fun _ _ e => by cases e; exact v4 rfl
theorem vsubs (g : Guard) (d : VReg) (a : VReg) (b : VReg) (ty : Ty) : Statement (.vsubs g d a b ty) :=
  fun _ _ e => by cases e; exact v4 rfl
theorem vfma (g : Guard) (d : VReg) (a : VReg) (b : VReg) (c : VReg) (ty : Ty) :
    Statement (.vfma g d a b c ty) := fun _ _ e => by
  cases e
  have := d.isLt; have := a.isLt; have := b.isLt; have := c.isLt
  have : ty.code < 15 := by cases ty <;> decide
  simp [rawVf, Raw.fits, Sys2Proof.fits, Fmt.widths, Fmt.zOk, Fmt.zAt, cellFmts] <;> omega
theorem vfms (g : Guard) (d : VReg) (a : VReg) (b : VReg) (c : VReg) (ty : Ty) :
    Statement (.vfms g d a b c ty) := fun _ _ e => by
  cases e
  have := d.isLt; have := a.isLt; have := b.isLt; have := c.isLt
  have : ty.code < 15 := by cases ty <;> decide
  simp [rawVf, Raw.fits, Sys2Proof.fits, Fmt.widths, Fmt.zOk, Fmt.zAt, cellFmts] <;> omega
theorem vfnma (g : Guard) (d : VReg) (a : VReg) (b : VReg) (c : VReg) (ty : Ty) :
    Statement (.vfnma g d a b c ty) := fun _ _ e => by
  cases e
  have := d.isLt; have := a.isLt; have := b.isLt; have := c.isLt
  have : ty.code < 15 := by cases ty <;> decide
  simp [rawVf, Raw.fits, Sys2Proof.fits, Fmt.widths, Fmt.zOk, Fmt.zAt, cellFmts] <;> omega
theorem vfnms (g : Guard) (d : VReg) (a : VReg) (b : VReg) (c : VReg) (ty : Ty) :
    Statement (.vfnms g d a b c ty) := fun _ _ e => by
  cases e
  have := d.isLt; have := a.isLt; have := b.isLt; have := c.isLt
  have : ty.code < 15 := by cases ty <;> decide
  simp [rawVf, Raw.fits, Sys2Proof.fits, Fmt.widths, Fmt.zOk, Fmt.zAt, cellFmts] <;> omega
theorem vcmp (g : Guard) (c : VCond) (d : VReg) (a : VReg) (b : VReg) (ty : Ty) : Statement (.vcmp g c d a b ty) :=
  fun _ _ e => by cases e; cases c <;> exact v4 rfl
theorem vsel (g : Guard) (d : VReg) (a : VReg) (b : VReg) (c : VReg) (ty : Ty) :
    Statement (.vsel g d a b c ty) := fun _ _ e => by
  cases e
  have := d.isLt; have := a.isLt; have := b.isLt; have := c.isLt
  have : ty.code < 15 := by cases ty <;> decide
  simp [rawVf, Raw.fits, Sys2Proof.fits, Fmt.widths, Fmt.zOk, Fmt.zAt, cellFmts] <;> omega
theorem vcvt (g : Guard) (d : VReg) (a : VReg) (tyd : Ty) (tys : Ty) : Statement (.vcvt g d a tyd tys) := fun _ _ e => by
  cases e
  have := d.isLt; have := a.isLt
  have : tyd.code < 15 := by cases tyd <;> decide
  have : tys.code < 15 := by cases tys <;> decide
  simp [rawVc, Raw.fits, Sys2Proof.fits, Fmt.widths, Fmt.zOk, Fmt.zAt, cellFmts] <;> omega
theorem vcvtz (g : Guard) (d : VReg) (a : VReg) (tyd : Ty) (tys : Ty) : Statement (.vcvtz g d a tyd tys) := fun _ _ e => by
  cases e
  have := d.isLt; have := a.isLt
  have : tyd.code < 15 := by cases tyd <;> decide
  have : tys.code < 15 := by cases tys <;> decide
  simp [rawVc, Raw.fits, Sys2Proof.fits, Fmt.widths, Fmt.zOk, Fmt.zAt, cellFmts] <;> omega
theorem vcvthi (g : Guard) (d : VReg) (a : VReg) (tyd : Ty) (tys : Ty) : Statement (.vcvthi g d a tyd tys) := fun _ _ e => by
  cases e
  have := d.isLt; have := a.isLt
  have : tyd.code < 15 := by cases tyd <;> decide
  have : tys.code < 15 := by cases tys <;> decide
  simp [rawVc, Raw.fits, Sys2Proof.fits, Fmt.widths, Fmt.zOk, Fmt.zAt, cellFmts] <;> omega
theorem vcvtzhi (g : Guard) (d : VReg) (a : VReg) (tyd : Ty) (tys : Ty) :
    Statement (.vcvtzhi g d a tyd tys) := fun _ _ e => by
  cases e
  have := d.isLt; have := a.isLt
  have : tyd.code < 15 := by cases tyd <;> decide
  have : tys.code < 15 := by cases tys <;> decide
  simp [rawVc, Raw.fits, Sys2Proof.fits, Fmt.widths, Fmt.zOk, Fmt.zAt, cellFmts] <;> omega
theorem vredadd (g : Guard) (d : SReg) (a : VReg) (ty : Ty) : Statement (.vredadd g d a ty) := fun _ _ e => by
  cases e
  have := d.isLt; have := a.isLt
  have : ty.code < 15 := by cases ty <;> decide
  simp [rawVq, Raw.fits, Sys2Proof.fits, Fmt.widths, Fmt.zOk, Fmt.zAt, cellFmts] <;> omega
theorem vredmin (g : Guard) (d : SReg) (a : VReg) (ty : Ty) : Statement (.vredmin g d a ty) := fun _ _ e => by
  cases e
  have := d.isLt; have := a.isLt
  have : ty.code < 15 := by cases ty <;> decide
  simp [rawVq, Raw.fits, Sys2Proof.fits, Fmt.widths, Fmt.zOk, Fmt.zAt, cellFmts] <;> omega
theorem vredmax (g : Guard) (d : SReg) (a : VReg) (ty : Ty) : Statement (.vredmax g d a ty) := fun _ _ e => by
  cases e
  have := d.isLt; have := a.isLt
  have : ty.code < 15 := by cases ty <;> decide
  simp [rawVq, Raw.fits, Sys2Proof.fits, Fmt.widths, Fmt.zOk, Fmt.zAt, cellFmts] <;> omega
theorem vredand (g : Guard) (d : SReg) (a : VReg) (ty : Ty) : Statement (.vredand g d a ty) := fun _ _ e => by
  cases e
  have := d.isLt; have := a.isLt
  have : ty.code < 15 := by cases ty <;> decide
  simp [rawVq, Raw.fits, Sys2Proof.fits, Fmt.widths, Fmt.zOk, Fmt.zAt, cellFmts] <;> omega
theorem vredor (g : Guard) (d : SReg) (a : VReg) (ty : Ty) : Statement (.vredor g d a ty) := fun _ _ e => by
  cases e
  have := d.isLt; have := a.isLt
  have : ty.code < 15 := by cases ty <;> decide
  simp [rawVq, Raw.fits, Sys2Proof.fits, Fmt.widths, Fmt.zOk, Fmt.zAt, cellFmts] <;> omega
theorem vperm (g : Guard) (d : VReg) (a : VReg) (b : VReg) (ty : Ty) : Statement (.vperm g d a b ty) :=
  fun _ _ e => by cases e; exact v4 rfl
theorem vzip (g : Guard) (d : VReg) (a : VReg) (b : VReg) (ty : Ty) : Statement (.vzip g d a b ty) :=
  fun _ _ e => by cases e; exact v4 rfl
theorem vunzip (g : Guard) (d : VReg) (a : VReg) (b : VReg) (ty : Ty) : Statement (.vunzip g d a b ty) :=
  fun _ _ e => by cases e; exact v4 rfl
theorem vbcast (g : Guard) (d : VReg) (a : SReg) (ty : Ty) : Statement (.vbcast g d a ty) := fun _ _ e => by
  cases e
  have := d.isLt; have := a.isLt
  have : ty.code < 15 := by cases ty <;> decide
  simp [Raw.fits, Sys2Proof.fits, Fmt.widths, Fmt.zOk, Fmt.zAt, cellFmts] <;> omega
theorem vextr (g : Guard) (d : SReg) (v : VReg) (ty : Ty) (lane : BitVec 6) :
    Statement (.vextr g d v ty lane) := fun _ _ e => by
  cases e
  have := d.isLt; have := v.isLt
  have : ty.code < 15 := by cases ty <;> decide
  have := lane.isLt
  simp [Raw.fits, Sys2Proof.fits, Fmt.widths, Fmt.zOk, Fmt.zAt, cellFmts] <;> omega
theorem vins (g : Guard) (x : SReg) (v : VReg) (ty : Ty) (lane : BitVec 6) :
    Statement (.vins g x v ty lane) := fun _ _ e => by
  cases e
  have := x.isLt; have := v.isLt
  have : ty.code < 15 := by cases ty <;> decide
  have := lane.isLt
  simp [Raw.fits, Sys2Proof.fits, Fmt.widths, Fmt.zOk, Fmt.zAt, cellFmts] <;> omega
theorem vld (g : Guard) (v : VReg) (a : SReg) (imm : BitVec 17) : Statement (.vld g v a imm) := fun _ _ e => by
  cases e
  have := v.isLt; have := a.isLt; have := imm.isLt
  simp [rawMv, Raw.fits, Sys2Proof.fits, Fmt.widths, Fmt.zOk, Fmt.zAt, cellFmts] <;> omega
theorem vst (g : Guard) (v : VReg) (a : SReg) (imm : BitVec 17) : Statement (.vst g v a imm) := fun _ _ e => by
  cases e
  have := v.isLt; have := a.isLt; have := imm.isLt
  simp [rawMv, Raw.fits, Sys2Proof.fits, Fmt.widths, Fmt.zOk, Fmt.zAt, cellFmts] <;> omega
theorem bfly2 (g : Guard) (d : VReg) (a : VReg) (b : VReg) (c : VReg) (ty : Ty) :
    Statement (.bfly2 g d a b c ty) := fun _ _ e => by
  cases e
  have := d.isLt; have := a.isLt; have := b.isLt; have := c.isLt
  have : ty.code < 15 := by cases ty <;> decide
  simp [rawVf, Raw.fits, Sys2Proof.fits, Fmt.widths, Fmt.zOk, Fmt.zAt, cellFmts] <;> omega
theorem bfly4 (g : Guard) (d : VReg) (a : VReg) (c : VReg) (ty : Ty) : Statement (.bfly4 g d a c ty) := fun _ _ e => by
  cases e
  have := d.isLt; have := a.isLt; have := c.isLt
  have : ty.code < 15 := by cases ty <;> decide
  simp [rawVf, Raw.fits, Sys2Proof.fits, Fmt.widths, Fmt.zOk, Fmt.zAt, cellFmts] <;> omega
theorem twid (g : Guard) (d : VReg) (a : SReg) (b : SReg) : Statement (.twid g d a b) := fun _ _ e => by
  cases e
  have := d.isLt; have := a.isLt; have := b.isLt
  simp [Raw.fits, Sys2Proof.fits, Fmt.widths, Fmt.zOk, Fmt.zAt, cellFmts] <;> omega
theorem rand (g : Guard) (d : VReg) (a : SReg) (b : SReg) (c : SReg) (ty : Ty) :
    Statement (.rand g d a b c ty) := fun _ _ e => by
  cases e
  have := d.isLt; have := a.isLt; have := b.isLt; have := c.isLt
  have : ty.code < 15 := by cases ty <;> decide
  simp [Raw.fits, Sys2Proof.fits, Fmt.widths, Fmt.zOk, Fmt.zAt, cellFmts] <;> omega
theorem mma (g : Guard) (m : MMOps) : Statement (.mma g m) := fun _ _ e => by cases e; exact mm (by decide)
theorem mmag (g : Guard) (m : MMOps) : Statement (.mmag g m) := fun _ _ e => by cases e; exact mm (by decide)
theorem mconv (g : Guard) (m : MMOps) : Statement (.mconv g m) := fun _ _ e => by cases e; exact mm (by decide)
theorem mldw (g : Guard) (w : SReg) (a : SReg) (n : SReg) : Statement (.mldw g w a n) :=
  fun _ _ e => by cases e; exact s3 rfl
theorem mrd (g : Guard) (acc : AccSel) (a : SReg) (ty : Ty) (raw : Bool) : Statement (.mrd g acc a ty raw) := fun _ _ e => by
  cases e
  have : acc.acc < 4 := by cases acc <;> simp only [AccSel.acc] <;> omega
  have : acc.w < 2 := by cases acc <;> simp only [AccSel.w] <;> omega
  have := a.isLt
  have : ty.code < 15 := by cases ty <;> decide
  have := Bool.toNat_lt raw
  simp [rawMr, Raw.fits, Sys2Proof.fits, Fmt.widths, Fmt.zOk, Fmt.zAt, cellFmts] <;> omega
theorem mwr (g : Guard) (acc : AccSel) (a : SReg) (ty : Ty) (raw : Bool) : Statement (.mwr g acc a ty raw) := fun _ _ e => by
  cases e
  have : acc.acc < 4 := by cases acc <;> simp only [AccSel.acc] <;> omega
  have : acc.w < 2 := by cases acc <;> simp only [AccSel.w] <;> omega
  have := a.isLt
  have : ty.code < 15 := by cases ty <;> decide
  have := Bool.toNat_lt raw
  simp [rawMr, Raw.fits, Sys2Proof.fits, Fmt.widths, Fmt.zOk, Fmt.zAt, cellFmts] <;> omega
theorem mspill (g : Guard) (a : SReg) (m : SReg) : Statement (.mspill g a m) := fun _ _ e => by cases e; exact s3 rfl
theorem mfill (g : Guard) (a : SReg) (m : SReg) : Statement (.mfill g a m) := fun _ _ e => by cases e; exact s3 rfl
theorem ctload (g : Guard) (e : SReg) (a : SReg) (n : SReg) : Statement (.ctload g e a n) :=
  fun _ _ e => by cases e; exact s3 rfl
theorem ctswap (g : Guard) : Statement (.ctswap g) := fun _ _ e => by
  cases e
  rfl
theorem mzero (g : Guard) (acc : AccSel) : Statement (.mzero g acc) := fun _ _ e => by
  cases e
  have : acc.acc < 4 := by cases acc <;> simp only [AccSel.acc] <;> omega
  have : acc.w < 2 := by cases acc <;> simp only [AccSel.w] <;> omega
  simp [Raw.fits, Sys2Proof.fits, Fmt.widths, Fmt.zOk, Fmt.zAt, cellFmts] <;> omega
theorem tspawn (g : Guard) (a : SReg) (b : SReg) : Statement (.tspawn g a b) := fun _ _ e => by cases e; exact s3 rfl
theorem tdec (g : Guard) (a : SReg) (b : SReg) : Statement (.tdec g a b) := fun _ _ e => by cases e; exact s3 rfl
theorem twatch (g : Guard) (a : SReg) (b : SReg) : Statement (.twatch g a b) := fun _ _ e => by cases e; exact s3 rfl
theorem tend (g : Guard) : Statement (.tend g) := fun _ _ e => by
  cases e
  rfl
theorem tunwatch (g : Guard) (a : SReg) : Statement (.tunwatch g a) := fun _ _ e => by cases e; exact s3 rfl
theorem cbadv (g : Guard) (cb : Fin 16) (a : SReg) (prod : Bool) : Statement (.cbadv g cb a prod) := fun _ _ e => by
  cases e
  have := cb.isLt; have := a.isLt; have := Bool.toNat_lt prod
  simp [Raw.fits, Sys2Proof.fits, Fmt.widths, Fmt.zOk, Fmt.zAt, cellFmts] <;> omega
theorem send (g : Guard) (a : SReg) (b : SReg) : Statement (.send g a b) := fun _ _ e => by cases e; exact s3 rfl
theorem xcopy (g : Guard) (a : SReg) (b : SReg) : Statement (.xcopy g a b) := fun _ _ e => by cases e; exact s3 rfl
theorem xgather (g : Guard) (a : SReg) (b : SReg) : Statement (.xgather g a b) := fun _ _ e => by cases e; exact s3 rfl
theorem xpref (g : Guard) (a : SReg) (b : SReg) : Statement (.xpref g a b) := fun _ _ e => by cases e; exact s3 rfl
theorem xcoll (g : Guard) (a : SReg) (b : SReg) : Statement (.xcoll g a b) := fun _ _ e => by cases e; exact s3 rfl
theorem resume (g : Guard) (a : SReg) (b : SReg) (c : SReg) : Statement (.resume g a b c) :=
  fun _ _ e => by cases e; exact s3 rfl
theorem barset (g : Guard) (bn : Fin 8) (a : SReg) (tree : Bool) : Statement (.barset g bn a tree) := fun _ _ e => by
  cases e
  have := bn.isLt; have := a.isLt; have := Bool.toNat_lt tree
  simp [Raw.fits, Sys2Proof.fits, Fmt.widths, Fmt.zOk, Fmt.zAt, cellFmts] <;> omega
theorem barv (g : Guard) (bn : Fin 8) (tree : Bool) : Statement (.barv g bn tree) := fun _ _ e => by
  cases e
  have := bn.isLt; have := Bool.toNat_lt tree
  simp [Raw.fits, Sys2Proof.fits, Fmt.widths, Fmt.zOk, Fmt.zAt, cellFmts] <;> omega
theorem trap (g : Guard) (code : BitVec 16) : Statement (.trap g code) := fun _ _ e => by
  cases e
  have := code.isLt
  simp [Raw.fits, Sys2Proof.fits, Fmt.widths, Fmt.zOk, Fmt.zAt, cellFmts] <;> omega
theorem rte (g : Guard) : Statement (.rte g) := fun _ _ e => by
  cases e
  rfl
theorem ctlrd (g : Guard) (d : SReg) (c : Ctl) : Statement (.ctlrd g d c) := fun _ _ e => by
  cases e
  have := d.isLt
  have : c.code < 67 := by cases c <;> decide
  simp [Raw.fits, Sys2Proof.fits, Fmt.widths, Fmt.zOk, Fmt.zAt, cellFmts] <;> omega
theorem ctlwr (g : Guard) (x : SReg) (c : Ctl) : Statement (.ctlwr g x c) := fun _ _ e => by
  cases e
  have := x.isLt
  have : c.code < 67 := by cases c <;> decide
  simp [Raw.fits, Sys2Proof.fits, Fmt.widths, Fmt.zOk, Fmt.zAt, cellFmts] <;> omega
theorem timenow (g : Guard) (d : SReg) : Statement (.timenow g d) := fun _ _ e => by cases e; exact s3 rfl
theorem nop (g : Guard) : Statement (.nop g) := fun _ _ e => by
  cases e
  rfl
theorem landingSlotArrival (c : CoreId) (h : ThreadId) (t : Tag) (got : SlotValue) : Statement (.landingSlotArrival c h t got) :=
  event rfl
theorem landingSlotFault (c : CoreId) (h : ThreadId) (t : Tag) (got : SlotFault) : Statement (.landingSlotFault c h t got) :=
  event rfl
theorem remoteAnswer (c : CoreId) (h : ThreadId) (id : Nat) (ans : RemAns) : Statement (.remoteAnswer c h id ans) :=
  event rfl
theorem remoteWriteAck (id : Nat) (refusal : Option Cause) : Statement (.remoteWriteAck id refusal) := event rfl
theorem ingressRequest (p : PortId) (q : IngReq) : Statement (.ingressRequest p q) := event rfl
theorem linkLostTimeout (dev : Nat) : Statement (.linkLostTimeout dev) := event rfl
theorem aggageExpiry (c : CoreId) (b : Fin 16) : Statement (.aggageExpiry c b) := event rfl
theorem aggregationElementApply (id : Nat) (merge : Bool) : Statement (.aggregationElementApply id merge) := event rfl
theorem xstLand (id : Nat) : Statement (.xstLand id) := event rfl
theorem flushAcknowledge (c : CoreId) (h : ThreadId) : Statement (.flushAcknowledge c h) := event rfl
theorem writeBudgetWindow (k : StackId) : Statement (.writeBudgetWindow k) := event rfl
theorem writeLaneDrain (id : Nat) : Statement (.writeLaneDrain id) := event rfl
theorem wlcBackgroundPromote (id : Nat) : Statement (.wlcBackgroundPromote id) := event rfl
theorem decrementApply (id : Nat) : Statement (.decrementApply id) := event rfl
theorem wakeWrite (id : Nat) : Statement (.wakeWrite id) := event rfl
theorem firingBind (c : CoreId) (h : ThreadId) : Statement (.firingBind c h) := event rfl
theorem messageInject (id : Nat) : Statement (.messageInject id) := event rfl
theorem messageArrival (src : MsgSrc) : Statement (.messageArrival src) := event rfl
theorem copyStep (id : Nat) : Statement (.copyStep id) := event rfl
theorem gatherElement (id : Nat) : Statement (.gatherElement id) := event rfl
theorem prefetchLine (id : Nat) : Statement (.prefetchLine id) := event rfl
theorem xcollContribution (src : CollSrc) : Statement (.xcollContribution src) := event rfl
theorem collectiveComplete (n : CtxId) (id : BitVec 32) : Statement (.collectiveComplete n id) := event rfl
theorem chime (id : Nat) : Statement (.chime id) := event rfl
theorem matrixExecute (c : CoreId) : Statement (.matrixExecute c) := event rfl
theorem matrixComplete (c : CoreId) : Statement (.matrixComplete c) := event rfl
theorem mmagPanelAvailable (c : CoreId) (h : ThreadId) : Statement (.mmagPanelAvailable c h) := event rfl
theorem barrierArrivalReceive (id : Nat) : Statement (.barrierArrivalReceive id) := event rfl
theorem barrierRelease (id : Nat) : Statement (.barrierRelease id) := event rfl
theorem treeRelease (c : CoreId) (bn : Fin 8) : Statement (.treeRelease c bn) := event rfl
theorem trapEntry (c : CoreId) (h : ThreadId) : Statement (.trapEntry c h) := event rfl
theorem trapqRead : Statement (.trapqRead) := event rfl
theorem trapcmdResume (n : CtxId) (vcore : BitVec 16) (h : ThreadId) : Statement (.trapcmdResume n vcore h) := event rfl
theorem trapcmdAbort (n : CtxId) (vcore : BitVec 16) (h : ThreadId) : Statement (.trapcmdAbort n vcore h) := event rfl
theorem create (tag : BitVec 16) (n : CtxId) : Statement (.create tag n) := event rfl
theorem suspend (tag : BitVec 16) (n : CtxId) : Statement (.suspend tag n) := event rfl
theorem ctxResume (tag : BitVec 16) (n : CtxId) : Statement (.ctxResume tag n) := event rfl
theorem destroy (tag : BitVec 16) (n : CtxId) : Statement (.destroy tag n) := event rfl
theorem ctxUpdate (tag : BitVec 16) (n : CtxId) : Statement (.ctxUpdate tag n) := event rfl
theorem badcmd (tag : BitVec 16) (n : CtxId) : Statement (.badcmd tag n) := event rfl
theorem ctxrspRead : Statement (.ctxrspRead) := event rfl
theorem leaseGrant : Statement (.leaseGrant) := event rfl
theorem preemptRetireExpiry (n : CtxId) : Statement (.preemptRetireExpiry n) := event rfl
theorem preemptComplete (n : CtxId) : Statement (.preemptComplete n) := event rfl
theorem teardownComplete (n : CtxId) : Statement (.teardownComplete n) := event rfl
theorem doorbellWrite (n : CtxId) (q : QueueId) : Statement (.doorbellWrite n q) := event rfl
theorem ticketWrite (n : CtxId) (q : QueueId) : Statement (.ticketWrite n q) := event rfl
theorem launchStart (n : CtxId) (q : QueueId) : Statement (.launchStart n q) := event rfl
theorem dispatchSelection : Statement (.dispatchSelection) := event rfl
theorem taskPlace (id : Nat) : Statement (.taskPlace id) := event rfl
theorem kernelComplete (kid : BitVec 32) : Statement (.kernelComplete kid) := event rfl
theorem swapInstant : Statement (.swapInstant) := event rfl
theorem swapExchangeBegin (a : CoreId) (b : CoreId) : Statement (.swapExchangeBegin a b) := event rfl
theorem swapAbandon (a : CoreId) (b : CoreId) : Statement (.swapAbandon a b) := event rfl
theorem swapExchangeEnd (a : CoreId) (b : CoreId) : Statement (.swapExchangeEnd a b) := event rfl
theorem coreGate (c : CoreId) : Statement (.coreGate c) := event rfl
theorem coreWakeComplete (c : CoreId) : Statement (.coreWakeComplete c) := event rfl
theorem coreFence (u : FenceUnit) : Statement (.coreFence u) := event rfl
theorem tlbinv (w : Word) : Statement (.tlbinv w) := event rfl
theorem tlbinvDone : Statement (.tlbinvDone) := event rfl
theorem tlbinvrspRead : Statement (.tlbinvrspRead) := event rfl
theorem portEnable (p : PortId) : Statement (.portEnable p) := event rfl
theorem portDisable (p : PortId) : Statement (.portDisable p) := event rfl
theorem trainingSuccess (p : PortId) (four : Bool) : Statement (.trainingSuccess p four) := event rfl
theorem trainingFail (p : PortId) : Statement (.trainingFail p) := event rfl
theorem negotiationComplete (p : PortId) (peer : PeerInfo) : Statement (.negotiationComplete p peer) := event rfl
theorem flitReceive (p : PortId) (f : Flit) : Statement (.flitReceive p f) := event rfl
theorem flitReplayLimit (p : PortId) : Statement (.flitReplayLimit p) := event rfl
theorem portstatRead (p : PortId) : Statement (.portstatRead p) := event rfl
theorem timeFlitSend (p : PortId) : Statement (.timeFlitSend p) := event rfl
theorem timeFlitReceive (p : PortId) (counter : Word) (hops : BitVec 8) (path : TimePath) : Statement (.timeFlitReceive p counter hops path) :=
  event rfl
theorem ptmExchange (hostTime : Word) : Statement (.ptmExchange hostTime) := event rfl
theorem hostBar2Access (a : Bar2) : Statement (.hostBar2Access a) := event rfl
theorem registerWrite (off : Nat) (val : Word) : Statement (.registerWrite off val) := event rfl
theorem mgmtCommand (m : Mgmt) : Statement (.mgmtCommand m) := event rfl
theorem fwUpdate (img : Image) : Statement (.fwUpdate img) := event rfl
theorem recover (img : Image) : Statement (.recover img) := event rfl
theorem quote (nonce : BitVec 256) : Statement (.quote nonce) := event rfl
theorem healthstatRead : Statement (.healthstatRead) := event rfl
theorem poisonlogRead : Statement (.poisonlogRead) := event rfl
theorem powerOn : Statement (.powerOn) := event rfl
theorem selftestComplete (bad : List FenceUnit) : Statement (.selftestComplete bad) := event rfl
theorem powerWindow (milliwatts : Nat) (celsius : Nat) : Statement (.powerWindow milliwatts celsius) := event rfl
theorem thermalTrip : Statement (.thermalTrip) := event rfl
theorem scrub (f : ScrubFind) : Statement (.scrub f) := event rfl
theorem poison (line : Nat) : Statement (.poison line) := event rfl
theorem idleRetest (bad : List CoreId) : Statement (.idleRetest bad) := event rfl
theorem homeSliceAnswer (c : CoreId) (h : ThreadId) (id : Nat) : Statement (.homeSliceAnswer c h id) := event rfl
theorem powerLoss (inFlashWrite : Bool) : Statement (.powerLoss inFlashWrite) := event rfl
theorem pcieCompletionTimeout (c : CoreId) (h : ThreadId) (id : Nat) : Statement (.pcieCompletionTimeout c h id) := event rfl
theorem atomicopRequesterEnableWrite (en : Bool) : Statement (.atomicopRequesterEnableWrite en) := event rfl
theorem hostPortDown (down : Bool) : Statement (.hostPortDown down) := event rfl

end Sys2Proof.Laws.Fits
end

