-- ==== Sys2Proof/Tests/Slice0.lean ====
section
/-! SUPPORT. Tests of the model on values that the spec writes out, and a witness for the hypotheses of every statement. -/

namespace Sys2Proof.Tests

set_option Elab.async false

open Sys2Proof Sys2Proof.Machine

/-- No guard: p0 is one. -/
def g0 : Guard := ⟨0, false⟩
/-- The guard (!p0): never. -/
def never : Guard := ⟨0, true⟩

/-! Ill-formed terms are refused. -/

/-- Two destinations of one name, and a loop counter that is s0 (R133, R143, R159). -/
theorem test_wf_registers :
    (Instr.cmpReg g0 .eq 3 3 1 2).wf = false ∧ (Instr.cmpImm g0 .eq 3 3 1 0).wf = false ∧ (Instr.brc g0 0 0 0).wf = false ∧
    (Instr.take g0 6 6 2).wf = false ∧ (Instr.take g0 0 0 2).wf = true := by decide

/-- Orders, operations and uses (R102, R152, R161, R162). -/
theorem test_wf_orders :
    (Instr.ld g0 .s8 1 2 .core .rel 0).wf = false ∧ (Instr.st g0 .z8 1 2 .core .acq 0).wf = false ∧
    (Instr.fence g0 .core .rlx).wf = false ∧ (Instr.amo g0 .add 1 2 .dev .acq .none .w64).wf = false ∧
    (Instr.amo g0 .swap 1 2 .dev .rlx .none .w64).wf = false ∧ (Instr.amo g0 .fadd 1 2 .dev .rlx .none .w64).wf = false ∧
    (Instr.amor g0 .add 1 2 3 .dev .ar .comm .w64).wf = false ∧ (Instr.amorCas g0 1 2 3 4 .dev .rlx .comm .w64).wf = false := by
  decide

/-- Types (R171 to R180, R206). -/
theorem test_wf_types :
    (Instr.vadd g0 1 2 3 .t8).wf = false ∧ (Instr.vsub g0 1 2 3 .t6).wf = false ∧ (Instr.vmul g0 1 2 3 .t6).wf = false ∧
    (Instr.vneg g0 1 2 .t8).wf = false ∧ (Instr.vmin g0 1 2 3 .c32).wf = false ∧ (Instr.vmax g0 1 2 3 .c16).wf = false ∧
    (Instr.vabs g0 1 2 .c32).wf = false ∧ (Instr.vshl g0 1 2 3 .f32).wf = false ∧ (Instr.vshr g0 1 2 3 .f16).wf = false ∧
    (Instr.vdiv g0 1 2 3 .s32).wf = false ∧ (Instr.vsqrt g0 1 2 .z32).wf = false ∧ (Instr.vadds g0 1 2 3 .f32).wf = false ∧
    (Instr.vsubs g0 1 2 3 .b16).wf = false ∧ (Instr.vfma g0 1 2 3 4 .s32).wf = false ∧ (Instr.vfms g0 1 2 3 4 .c32).wf = false ∧
    (Instr.vfnma g0 1 2 3 4 .t8).wf = false ∧ (Instr.vfnms g0 1 2 3 4 .z8).wf = false ∧
    (Instr.vcmp g0 .lt 1 2 3 .c32).wf = false ∧ (Instr.vcmp g0 .uno 1 2 3 .s8).wf = false ∧
    (Instr.vcmp g0 .eq 1 2 3 .t8).wf = false := by decide

/-- Conversions, reductions, lanes and register groups (R179 to R186). -/
theorem test_wf_vectors :
    (Instr.vcvt g0 1 2 .c32 .f32).wf = false ∧ (Instr.vcvtz g0 1 2 .f32 .c16).wf = false ∧
    (Instr.vcvthi g0 1 2 .f32 .s32).wf = false ∧ (Instr.vcvtzhi g0 1 2 .t8 .t6).wf = false ∧
    (Instr.vredadd g0 1 2 .t8).wf = false ∧ (Instr.vredmin g0 1 2 .c32).wf = false ∧ (Instr.vredmax g0 1 2 .t6).wf = false ∧
    (Instr.vredand g0 1 2 .f32).wf = false ∧ (Instr.vredor g0 1 2 .c16).wf = false ∧
    (Instr.vextr g0 1 2 .f32 16).wf = false ∧ (Instr.vins g0 1 2 .z64 8).wf = false ∧
    (Instr.bfly2 g0 5 0 1 2 .c32).wf = false ∧ (Instr.bfly2 g0 4 0 1 2 .f32).wf = false ∧
    (Instr.bfly4 g0 2 4 8 .c32).wf = false ∧ (Instr.bfly4 g0 4 1 8 .c32).wf = false ∧ (Instr.bfly4 g0 4 8 14 .c32).wf = false ∧
    (Instr.rand g0 6 1 2 3 .c32).wf = false := by decide

/-- Accumulator transfers, control registers, and the arguments of events (R206, R237, R289, R329). -/
theorem test_wf_others :
    (Instr.mrd g0 .tile 6 .f16 true).wf = false ∧ (Instr.mwr g0 .tile 6 .c32 false).wf = false ∧
    (Instr.ctlwr g0 1 .timenow).wf = false ∧ (Instr.ctlwr g0 1 .lsstat).wf = false ∧ (Instr.ctlwr g0 1 .fade).wf = true ∧
    (Instr.ingressRequest 0 ⟨9216, 0, 0, .read 8⟩).wf = false ∧ (Instr.ingressRequest 0 ⟨1, 0, 2 ^ 39, .read 8⟩).wf = false ∧
    (Instr.swapExchangeBegin 3 3).wf = false ∧ (Instr.swapAbandon 3 3).wf = false ∧ (Instr.swapExchangeEnd 3 3).wf = false := by
  decide

/-! Words of the worked encodings that end each instruction chapter. -/

/-- 08_isa_memory. -/
theorem test_decode_memory :
    decodeHead 0x4603 0x08DC0000 = .ok (.st g0 .z64 1 3 .dev .rel 0) ∧
    decodeHead 0x4604 0x01000040 = .ok (.stw g0 0 2 0x40) ∧
    decodeHead 0x4606 0x090A0000 = .ok (.xst g0 .w64 1 4 5 0) ∧
    decodeHead 0x4A02 0x28800010 = .ok (.ldt g0 .s32 5 2 16) ∧
    decodeHead 0x4908 0x31D0 = .ok (.take g0 6 7 2) ∧
    decodeHead 0x4E00 0x00820628 = .ok (.amo g0 .add 2 1 .dev .rlx .comm .w64) ∧
    decodeHead 0x5500 0x10C0 = .ok (.addw g0 2 3) ∧
    decodeHead 0x5501 0x7800 = .ok (.fence g0 .dev .ar) := ⟨rfl, rfl, rfl, rfl, rfl, rfl, rfl, rfl⟩

/-- 09_isa_vector. -/
theorem test_decode_vector :
    decodeHead 0x8100 0x5671 = .ok (.vadd g0 5 6 7 .f16) ∧
    decodeHead 0x8600 0x12340000 = .ok (.vfma g0 1 2 3 4 .f32) ∧
    decodeHead 0x8D00 0x2810 = .ok (.vcvt g0 2 8 .f16 .f32) ∧
    decodeHead 0x9100 0x2180 = .ok (.vredadd g0 4 3 .f32) ∧
    decodeHead 0x9A00 0x22800080 = .ok (.vld g0 2 5 0x80) ∧
    decodeHead 0x9E00 0x40123000 = .ok (.bfly2 g0 4 0 1 2 .c32) ∧
    decodeHead 0x9D02 0x2190 = .ok (.twid g0 2 3 4) ∧
    decodeHead 0x9E03 0x60886000 = .ok (.rand g0 6 1 2 3 .f32) := ⟨rfl, rfl, rfl, rfl, rfl, rfl, rfl, rfl⟩

/-- 10_isa_matrix. -/
theorem test_decode_matrix :
    decodeHead 0xC300 0x4219152800000000 = .ok (.mma g0 ⟨.quarter 1, 2, 3, 4, .accum, .k32, .k32, 5⟩) ∧
    decodeHead 0xC103 0x10C8 = .ok (.mldw g0 2 3 4) ∧
    decodeHead 0xC108 0x28CC = .ok (.ctload g0 5 3 6) ∧
    decodeHead 0xC204 0x8C400000 = .ok (.mrd g0 (.quarter 2) 6 .b16 false) ∧
    decodeHead 0xC204 0x0C180000 = .ok (.mrd g0 .tile 6 .f32 true) ∧
    decodeHead 0xC106 0x3A00 = .ok (.mspill g0 7 8) ∧
    decodeHead 0xC10A 0x2000 = .ok (.mzero g0 .tile) := ⟨rfl, rfl, rfl, rfl, rfl, rfl, rfl⟩

/-- 11_isa_tasks. -/
theorem test_decode_tasks :
    decodeHead 0xE100 0x10C0 = .ok (.tspawn g0 2 3) ∧ decodeHead 0xE101 0x3000 = .ok (.tdec g0 6 0) ∧
    decodeHead 0xE102 0x2140 = .ok (.twatch g0 4 5) ∧ decodeHead 0xE105 0x3200 = .ok (.cbadv g0 3 4 false) ∧
    decodeHead 0xE501 0x10C0 = .ok (.xcopy g0 2 3) ∧ decodeHead 0xE900 0x4500 = .ok (.barset g0 2 5 false) ∧
    decodeHead 0xED00 0x0042 = .ok (.trap g0 0x42) ∧ decodeHead 0xEE02 0x20080000 = .ok (.ctlrd g0 4 .trapcause) ∧
    decodeHead 0xED04 0x4800 = .ok (.timenow g0 9) ∧ decodeHead 0xEC01 0 = .ok (.rte g0) ∧
    decodeHead 0xEC05 0 = .ok (.nop g0) := ⟨rfl, rfl, rfl, rfl, rfl, rfl, rfl, rfl, rfl, rfl, rfl⟩

/-- Words that the chapters say take ILLEGAL_OP. -/
theorem test_decode_refused :
    (∃ e, decodeHead 0x4E00 0x28820628 = .error e) ∧ (∃ e, decodeHead 0x4908 0x3190 = .error e) ∧
    (∃ e, decodeHead 0x9E00 0x50123000 = .error e) ∧ (∃ e, decodeHead 0x8100 0x123D = .error e) ∧
    (∃ e, decodeHead 0xC10A 0x6000 = .error e) ∧ (∃ e, decodeHead 0xC204 0x0C300000 = .error e) ∧
    (∃ e, decodeHead 0xC106 0x3A02 = .error e) ∧ (∃ e, decodeHead 0xE501 0x10C2 = .error e) :=
  ⟨⟨_, rfl⟩, ⟨_, rfl⟩, ⟨_, rfl⟩, ⟨_, rfl⟩, ⟨_, rfl⟩, ⟨_, rfl⟩, ⟨_, rfl⟩, ⟨_, rfl⟩⟩

/-! Numbers, on the worked values of 05_numbers and 09_isa_vector. -/

/-- R81, R82, R83: t6 0x1E and 0x0B, t8 0x4B, and the roundings of 100 and -3.2. -/
theorem test_tapered :
    (tapDecode 6 0x1E).eq (.fin false 64 0) = true ∧ (tapDecode 6 0x0B).eq (.fin false 7 (-4)) = true ∧
    (tapDecode 8 0x4B).eq (.fin false 27 (-4)) = true ∧ (tapDecode 8 0xB5).eq (.fin true 27 (-4)) = true ∧
    tapRound 6 .near (.fin false 100 0) = 0x1E ∧ tapRound 6 .near (.fin true 13421773 (-22)) = 0x2A := by decide

/-- R84: z32 70,000 to f16 under VCVT and under VCVTZ. -/
theorem test_convert :
    convert .near .f16 .z32 70000 = 0x7C00 ∧ convert .zero .f16 .z32 70000 = 0x7BFF ∧
    convert .near .f16 .f32 0x4788B800 = 0x7C00 ∧ convert .zero .f16 .f32 0x4788B800 = 0x7BFF := by decide

/-- R180: the tree of the worked VREDADD, 1 + (2^-24 + 2^-24). -/
theorem test_tree_sum : f32.addBits (f32.addBits 0x3F800000 0) (f32.addBits 0x33800000 0x33800000) = 0x3F800001 := by decide

/-- R95: BFLY2 on a = (1, 0), b = (1, 1), w = (c, -c) with c = 0x3F3504F3. -/
theorem test_butterfly :
    bfly2Elem f32 (cjoin f32 0x3F800000 0) (cjoin f32 0x3F800000 0x3F800000) (cjoin f32 0x3F3504F3 0xBF3504F3) =
      (cjoin f32 0x401A827A 0, cjoin f32 0xBED413CC 0) := by decide

/-- R86 to R89, R382: one, then 2^-24 twice, then FADE 0.5; and the examples of AMO and AMOR (R161). -/
theorem test_pairs :
    (let p := pairAdd (pairAdd (pairAdd 0 0x3F800000) 0x33800000) 0x33800000
     f32.round .near (pairVal p) = 0x3F800001 ∧ f32.round .near (pairVal (pairFade p 0x3F000000)) = 0x3F000001) := by decide

theorem test_atomics :
    (atomRun .maxS .w32 false (leBytes 4 0xFFFFFFFF) 5).bytes = leBytes 4 5 ∧
    (atomRun .maxZ .w32 false (leBytes 4 0xFFFFFFFF) 5).bytes = leBytes 4 0xFFFFFFFF ∧
    (atomRun .add .w32 false (leBytes 4 0xFFFFFFFF) 1).bytes = leBytes 4 0 ∧
    (atomRun .add .w32 false (leBytes 4 0xFFFFFFFF) 1).old = 0x00000000FFFFFFFF ∧
    (atomRun .fadd .w32 false (leBytes 4 0x7F7FFFFF) 0x7F7FFFFF).bytes = leBytes 4 0x7F800000 ∧
    (atomRun .fadd .w32 false (leBytes 4 0x7F7FFFFF) 0x7F7FFFFF).old = 0x7F7FFFFF := by decide

/-! Small states: context 0 with a lease of core 0, and thread 0 of the core in a firing of the record at 0x4000. -/

/-- The first 64 KiB of device memory at virtual address 0. -/
def page : TlbEnt := ⟨0, 0, 2 ^ 16, 0, true, true, true, true, false, false, 0, 0, 0⟩
/-- A counter firing of the record at 0x4000, kernel 0. -/
def fir : Firing := ⟨.counter, 3, 0x4000, some 0, 0, 0, false, false, [], [], none, none⟩
def thr : Thread := { Thread.reset with st := .running, pc := 0x1000, npc := 0x1001, firing := some fir }
def ctx : Ctx := { Ctx.reset with st := .active, lw := 1, lh := 1, lease := .granted }
/-- The state with a thread 0, a core and a context of the caller's making. -/
def mk (t : Thread) (x : Core) (n : Ctx) : State :=
  { State.reset with
    f := { Fab.reset with cores := [(0, { x with threads := x.threads.set 0 t })], ctxs := [(0, n)] }
    m := { Mgt.reset with dev := .running, devnum := 0 } }
def cor : Core := { Core.reset with occ := some ⟨0, 0, 0⟩, tlb := [page] }
/-- The state with scalar registers set. -/
def regs (l : List (SReg × Word)) : State := mk (l.foldl (fun t p => t.wr p.1 p.2) thr) cor ctx
def st : State := regs []

/-- The management side with port 0 UP toward device 5. -/
def toFive : Mgt := { st.m with desttab := [(5, ⟨true, 0xF, 1⟩)], ports := st.m.ports.set 0 { Port.reset with st := .up } }

/-- A head of no guard runs on a thread without outstanding loads. -/
theorem runs (s : State) (rs ws : List Dst) (h : s.cur.st = .running) (hp : s.cur.pend = []) : s.Runs g0 rs ws := by
  refine ⟨.inl h, by simp [g0, Thread.rdp], ?_, ?_, ?_⟩ <;> intro p q <;> rw [hp] at q <;> cases q

/-- It runs whatever it reads and writes. -/
theorem goes (s : State) (h : s.cur.st = .running) (hp : s.cur.pend = []) : ∀ rs ws, s.Runs g0 rs ws :=
  fun rs ws => runs s rs ws h hp

/-- What an instruction leaves, read by p; none where it does not answer a next state. -/
def after {α : Type} (i : Instr) (s : State) (p : State → α) : Option α :=
  match exec i s with
  | .next t => some (p t)
  | _ => none

/-- The state in which the head is tried that a state issues next. -/
def tried (s : State) : State := match s.toIssue with | some (u, c, h) => u.attempt exec c h | none => s
def mayTry (s : State) : Bool :=
  match s.toIssue with | some (u, c, h) => { u with core := c, th := h }.mayIssue | none => false
theorem issues (s : State) (h : mayTry s = true) : s.Issues (tried s) := by
  unfold mayTry at h
  unfold tried
  cases e : s.toIssue with
  | none => rw [e] at h; cases h
  | some r => rw [e] at h; exact ⟨r.1, r.2.1, r.2.2, e, h, rfl⟩

/-- The walk of a state's fetch. -/
def walkOf (t : State) : Option (TlbEnt × Fab) :=
  t.f.translate t.m t.core (t.f.core t.core).ctxId (t.cur.pc.toNat / 64 * 64) (·.exe)
/-- The fabric after the walk of a state's fetch. -/
def walked (t : State) : Fab := ((walkOf t).map (·.2)).getD t.f
/-- Whether a state's thread comes to line d, read from its home, on page e. -/
def comes (t : State) (e : TlbEnt) (d : Line) : Bool :=
  let gpa := e.gpa (t.cur.pc.toNat / 64 * 64)
  decide (t.cur.pc.toNat / 64 * 64 < peerBase) && (walkOf t).map (·.1) = some e && e.exe && (t.cur.codeOf gpa).isNone &&
    !(walked t).codeBad t.m gpa &&
    match (walked t).codeRead t.m t.core t.th e gpa with | .done bs => d = bytesLine bs | _ => false
theorem line_of (t : State) (e : TlbEnt) (d : Line) (h : comes t e d = true) : t.Line e (walked t) d := by
  simp only [comes, Bool.and_eq_true, decide_eq_true_eq, Bool.not_eq_true', Option.isNone_iff_eq_none] at h
  obtain ⟨⟨⟨⟨⟨h1, h2⟩, h3⟩, h4⟩, h5⟩, h6⟩ := h
  refine ⟨h1, ?_, h3, .inr ⟨h4, h5, ?_⟩⟩
  · obtain ⟨x, hx, hy⟩ := Option.map_eq_some_iff.mp h2
    change walkOf t = _
    simp [walked, hx, ← hy]
  · split at h6
    · next bs hb => exact ⟨bs, hb, of_decide_eq_true h6⟩
    · cases h6

/-- The codes of an answer that was not refused. -/
theorem ok_of {ε α : Type} {r : Except ε α} {a : α} (h : r.toOption = some a) : r = .ok a := by
  cases r <;> simp_all [Except.toOption]
theorem error_of {ε α : Type} {r : Except ε α} (h : r.toOption.isNone = true) : ∃ e, r = .error e := by
  cases r <;> simp_all [Except.toOption]

/-! Witnesses: decoding, the step, the frame. -/

/-- StepRunsDecodedHead: the placed NOP. -/
def nopState : State := State.reset.withFetchWord 16 0xEC05
theorem witness_StepRunsDecodedHead :
    nopState.Issues (tried nopState) ∧
    (∃ g d, (tried nopState).Line (placedPage nopState.m) g d ∧ decodeLine (lineBytes d) = .ok ⟨1, [(0xEC05, 0)]⟩) ∧
    decodeHead 0xEC05 0 = .ok (.nop g0) :=
  ⟨issues _ (by decide +kernel), ⟨_, bytesLine (tableLine 16 0xEC05), line_of _ _ _ (by decide +kernel),
    ok_of (by decide +kernel)⟩, rfl⟩

/-- R43: a line stored to in its own kernel has an earlier version, and a kernel boundary leaves none. A thread inside a line goes
on in it as it was read; one at its first head reads it again. -/
def storedTo : Fab := st.f.store st.m none false 0x2008 [7]
def inLine (pc : Pc) : Fab := (mk { thr with pc := pc, code := some (0x1000, 0) } cor ctx).f
theorem test_code_versions :
    ((storedTo.versions st.m 0 0x2000).length, (storedTo.versions st.m 0 0x2040).length,
      ((storedTo.boundary 0).versions st.m 0 0x2000).length) = (1, 0, 0) ∧
    (((inLine 0x1001).boundary 0).thread 0 0).code = some (0x1000, 0) ∧
    (((inLine 0x1000).boundary 0).thread 0 0).code = none ∧ ((inLine 0x1000).core 0).occ = some ⟨0, 0, 0⟩ ∧
    st.m.isOther 0x1000 = false := by decide +kernel

/-- The step of that state is the NOP's: the PC goes to the next line, as R32 says of a line's last head. -/
theorem test_step : (match step nopState with | .next t => t.cur.pc | _ => 0) = 64 := by decide +kernel

/-- R277: of two threads of one role the scheduler takes them in turn; the thread not chosen ages by one, the one chosen is at 0, and a
head that stalls keeps its age and leaves the cycle to the other. -/
theorem test_scheduler :
    (let t : Thread := { thr with firing := some { fir with role := 1 } }
     let x : Core := { cor with threads := (cor.threads.set 0 { t with age := 7 }).set 3 { t with pc := 0x2000 } }
     let y := (x.newCycle 1 fun k => k = 3).chosen 0
     let z := x.stalled 0
     x.choose [0, 3] = some 0 ∧ y.threads[0].age = 0 ∧ y.threads[3].age = 1 ∧ y.choose [0, 3] = some 3 ∧
     z.threads[0].age = 7 ∧ z.untried 0 = false ∧ z.untried 3 = true) := by decide +kernel

/-- A core whose page has other rights. -/
def corWith (e : TlbEnt) : Core := { cor with tlb := [e] }
/-- The state whose thread 0 fetches at a PC, with a line stored at 0x1000. -/
def at' (pc : Pc) (e : TlbEnt) (line : List Byte) : State :=
  let s := mk { thr with pc := pc, npc := pc } (corWith e) ctx
  { s with f := { s.f with mem := pokes [] 0x1000 line } }

/-- The state whose page is device 5's memory, with a read of its line that has had an answer, or has none yet. -/
def farLine (ans : Option RemAns) : State :=
  let s := at' 0x1000 { page with pbase := 5 * 2 ^ 39 } []
  { s with m := toFive, f := { s.f with reads := [⟨0, .head 0 0 3, 0, 5 * 2 ^ 39 + 0x1000, 64, ans⟩] } }
/-- FetchTraps, in the order of its clauses: past the region, no page, not executable; poisoned, no route, no host; refused and awaited;
no count, no head, no instruction. -/
theorem witness_FetchTraps_page :
    (let s := at' (BitVec.ofNat 57 peerBase) page []
     s.Issues (tried s) ∧ peerBase ≤ (tried s).cur.pc.toNat / 64 * 64) ∧
    (let s := at' 0x10000 page []
     s.Issues (tried s) ∧ (walkOf (tried s)).isNone = true) ∧
    (let s := at' 0x1000 { page with exe := false } []
     s.Issues (tried s) ∧ (walkOf (tried s)).map (·.1.exe) = some false) :=
  ⟨⟨issues _ (by decide +kernel), by decide +kernel⟩, ⟨issues _ (by decide +kernel), by decide +kernel⟩,
    ⟨issues _ (by decide +kernel), by decide +kernel⟩⟩
theorem witness_FetchTraps_read :
    (let p := { at' 0x1000 page [] with f := { (at' 0x1000 page []).f with poison := [0x40] } }
     p.Issues (tried p) ∧ (walkOf (tried p)).map (fun w => w.2.poisoned (w.1.gpa 0x1000) 64) = some true) ∧
    (let s := at' 0x1000 { page with pbase := 5 * 2 ^ 39 } []
     s.Issues (tried s) ∧ s.m.place (5 * 2 ^ 39 + 0x1000) = .other 5 0x1000 ∧ s.m.routed 5 = false) ∧
    (let s := at' 0x1000 { page with pbase := 0x3FFF * 2 ^ 39 } []
     let s := { s with m := { s.m with hostUp := false } }
     s.Issues (tried s) ∧ s.m.place (0x3FFF * 2 ^ 39 + 0x1000) = .host 0x1000 ∧ s.m.hostLink = false) ∧
    (let s := farLine (some (.refused .linkLost))
     s.Issues (tried s) ∧ (tried s).f.codeBad s.m (5 * 2 ^ 39 + 0x1000) = false ∧
       (match (tried s).f.codeRead s.m 0 0 { page with pbase := 5 * 2 ^ 39 } (5 * 2 ^ 39 + 0x1000) with
        | .bad c => c == .linkLost | _ => false) = true) ∧
    (let s := farLine none
     s.Issues (tried s) ∧ (tried s).f.codeBad s.m (5 * 2 ^ 39 + 0x1000) = false ∧
       (match (tried s).f.codeRead s.m 0 0 { page with pbase := 5 * 2 ^ 39 } (5 * 2 ^ 39 + 0x1000) with
        | .wait _ => true | _ => false) = true) :=
  ⟨⟨issues _ (by decide +kernel), by decide +kernel⟩, ⟨issues _ (by decide +kernel), by decide +kernel⟩,
    ⟨issues _ (by decide +kernel), by decide +kernel⟩, ⟨issues _ (by decide +kernel), by decide +kernel, by decide +kernel⟩,
    ⟨issues _ (by decide +kernel), by decide +kernel, by decide +kernel⟩⟩
theorem witness_FetchTraps_line :
    (let s := at' 0x1000 page []
     s.Issues (tried s) ∧ ∃ e g d why, (tried s).Line e g d ∧ decodeLine (lineBytes d) = .error why) ∧
    (let s := at' 0x1001 page (tableLine 16 0xEC05)
     s.Issues (tried s) ∧ ∃ e g d l, (tried s).Line e g d ∧ decodeLine (lineBytes d) = .ok l ∧ l.heads[1]? = none) ∧
    (let s := at' 0x1000 page (tableLine 16 0xFC00)
     s.Issues (tried s) ∧ ∃ e g d l why, (tried s).Line e g d ∧ decodeLine (lineBytes d) = .ok l ∧
       l.heads[0]? = some (0xFC00, 0) ∧ decodeHead 0xFC00 0 = .error why) := by
  refine ⟨⟨issues _ (by decide +kernel), page, walked (tried (at' 0x1000 page [])), 0, ?_⟩, ⟨issues _ (by decide +kernel), page, _, bytesLine (tableLine 16 0xEC05),
      ⟨1, [(0xEC05, 0)]⟩, line_of _ _ _ (by decide +kernel), ok_of (by decide +kernel), rfl⟩,
    ⟨issues _ (by decide +kernel), page, _, bytesLine (tableLine 16 0xFC00), ⟨1, [(0xFC00, 0)]⟩, _,
      line_of _ _ _ (by decide +kernel), ok_of (by decide +kernel), rfl, rfl⟩⟩
  obtain ⟨why, hw⟩ := error_of (r := decodeLine (lineBytes 0)) (by decide +kernel)
  exact ⟨why, line_of _ _ _ (by decide +kernel), hw⟩

theorem witness_HeadRoundTrip : (Instr.liL59 g0 31 (-1)).isEvent = false ∧ (Instr.liL59 g0 31 (-1)).wf = true := by decide
theorem witness_DecodedHeadReencodes : 0xEC05 < 2 ^ 16 ∧ 0 < 2 ^ (8 * tailBytes (0xEC05 / 256 % 4)) ∧
    decodeHead 0xEC05 0 = .ok (.nop g0) := ⟨by decide, by decide, rfl⟩
/-- LineRoundTrip: a full line of 31 heads without tails. -/
theorem witness_LineRoundTrip :
    (let hs := List.replicate 31 (0xEC05, 0, 0)
     hs ≠ [] ∧ (∀ p ∈ hs, p.1 < 2 ^ 16 ∧ p.2.1 = p.1 / 256 % 4 ∧ p.2.2 < 2 ^ (8 * tailBytes p.2.1)) ∧
     2 * hs.length + (hs.map fun p => tailBytes p.2.1).sum ≤ 62) := by decide

def ticking : State := { st with agenda := [.tick 10] }
theorem witness_MgtInvKept : ticking.m.Inv ∧ ∃ t, step ticking = .next t :=
  ⟨⟨by decide, by decide, by decide, by decide, by decide, by decide, by decide, by decide⟩, _, rfl⟩

/-- A load of s5 from the address in s1 that is owed. -/
def owed (q : PSt) : Pend := ⟨0, .s 5, 0x2000, .mem 0x2000 page, .load .z32, .core, .rlx, .none, false, false, q, false⟩
def withPend (q : PSt) : State := mk { thr with pend := [owed q] } cor ctx
/-- HeadFrame: a false guard; a refusal at a source; a value owed, to a source or to a destination, or refused at a destination. -/
theorem witness_HeadFrame :
    (let bad := fun (q : PSt) (i : Instr) => (withPend q).cur.pend.findSome? fun p => match p.st with
       | .refused cause => if i.reads.contains p.dst then some (p, cause) else none
       | _ => none
     (Instr.nop never).guard = some never ∧ st.cur.st = .running ∧ st.cur.rdp never.gp = never.gn ∧
     st.cur.rdp g0.gp ≠ g0.gn ∧
     bad (.refused .conflict) (.addReg g0 1 5 2) = some (owed (.refused .conflict), .conflict) ∧
     bad .waiting (.addReg g0 1 5 2) = none ∧ bad .waiting (.addReg g0 5 1 2) = none ∧
     bad (.refused .conflict) (.addReg g0 5 1 2) = none ∧
     (withPend .waiting).cur.pend = [owed .waiting] ∧ (Instr.addReg g0 1 5 2).reads = [.s 5, .s 2] ∧
     (Instr.addReg g0 5 1 2).dests = [.s 5]) := by decide

theorem witness_FrameRegisterHeads : (Instr.addReg g0 1 2 3).writes = some ([.s 1], []) ∧
    ∃ t, exec (.addReg g0 1 2 3) st = .next t ∧ t.cur.st = st.cur.st := ⟨rfl, _, rfl, rfl⟩

/-! Scalar instructions. -/

theorem runsSt (l : List (SReg × Word)) (rs ws : List Dst) (h : (regs l).cur.st = .running) (hp : (regs l).cur.pend = []) :
    (regs l).Runs g0 rs ws := runs _ rs ws h hp

theorem witness_ScalarArithmetic : st.Runs g0 [.s 2, .s 3] [.s 1] ∧ st.Runs g0 [.s 2] [.s 1] :=
  ⟨runs _ _ _ rfl rfl, runs _ _ _ rfl rfl⟩
theorem witness_ScalarDivides : (regs [(3, -1)]).Runs g0 [.s 2, .s 3] [.s 1] ∧ (regs [(3, -1)]).cur.rd 3 ≠ 0 ∧
    (-1 : BitVec 22).signExtend 64 ≠ 0 := ⟨runs _ _ _ rfl rfl, by decide, by decide⟩
theorem witness_DivideByZeroTraps : st.Runs g0 [.s 2, .s 3] [.s 1] ∧ st.cur.rd 3 = 0 ∧ st.cur.rd 0 = 0 :=
  ⟨runs _ _ _ rfl rfl, by decide, by decide⟩
theorem witness_CompareResults :
    (let s := regs [(1, -1), (2, 1)]
     s.Runs g0 [.s 1, .s 2] [] ∧ s.Runs g0 [.s 1] [] ∧ s.cur.rd 1 = -1 ∧ s.cur.rd 2 = 1) :=
  ⟨runs _ _ _ rfl rfl, runs _ _ _ rfl rfl, by decide, by decide⟩
theorem witness_PredicatesAndSelect : st.Runs g0 [] [] ∧ st.Runs g0 [] [.s 1] ∧ st.Runs g0 [.s 1] [] ∧
    st.Runs g0 [.s 1, .s 2] [.s 3] ∧ st.cur.alive ∧ st.cur.rdp never.gp = never.gn :=
  ⟨runs _ _ _ rfl rfl, runs _ _ _ rfl rfl, runs _ _ _ rfl rfl, runs _ _ _ rfl rfl, .inl rfl, by decide⟩
theorem witness_ConstantsAndAddresses : st.Runs g0 [] [.s 1] ∧ st.Runs g0 [.s 2] [.s 1] :=
  ⟨runs _ _ _ rfl rfl, runs _ _ _ rfl rfl⟩
theorem witness_CountsExtensionsMinMax : st.Runs g0 [.s 2] [.s 1] ∧ st.Runs g0 [.s 2, .s 3] [.s 1] :=
  ⟨runs _ _ _ rfl rfl, runs _ _ _ rfl rfl⟩
theorem witness_ControlFlow : st.Runs g0 [] [] ∧ st.Runs g0 [] [.s 30] ∧ st.Runs g0 [.s 5] [] ∧ st.Runs g0 [.s 5] [.s 30] ∧
    st.Runs g0 [.s 30] [] ∧ st.Runs g0 [.s 5] [.s 5] :=
  ⟨runs _ _ _ rfl rfl, runs _ _ _ rfl rfl, runs _ _ _ rfl rfl, runs _ _ _ rfl rfl, runs _ _ _ rfl rfl, runs _ _ _ rfl rfl⟩

/-- The value that a head writes to s3. -/
def s3 (i : Instr) (l : List (SReg × Word)) : Option Word := after i (regs l) fun t => t.cur.rd 3

/-- R131: wrap-around, the high half of a product, shift counts modulo 64. -/
theorem test_arithmetic :
    s3 (.addReg g0 3 1 2) [(1, -1), (2, 2)] = some 1 ∧ s3 (.subImm g0 3 1 (-1)) [(1, -1)] = some 0 ∧
    s3 (.mulhReg g0 3 1 2) [(1, -1), (2, 2)] = some (-1) ∧ s3 (.mulhzReg g0 3 1 2) [(1, -1), (2, 2)] = some 1 ∧
    s3 (.andnImm g0 3 1 0xF) [(1, 0xFF)] = some 0xF0 ∧ s3 (.shlReg g0 3 1 2) [(1, 1), (2, 65)] = some 2 ∧
    s3 (.shrsImm g0 3 1 63) [(1, -8)] = some (-1) ∧ s3 (.shrzImm g0 3 1 63) [(1, -8)] = some 1 := by decide +kernel
/-- R131, R132: quotients toward zero, the sign of a remainder, the overflow of the signed divide. -/
theorem test_divide :
    s3 (.divsReg g0 3 1 2) [(1, -7), (2, 2)] = some (-3) ∧ s3 (.remsReg g0 3 1 2) [(1, -7), (2, 2)] = some (-1) ∧
    s3 (.divzImm g0 3 1 2) [(1, -1)] = some 0x7FFFFFFFFFFFFFFF ∧ s3 (.remzImm g0 3 1 2) [(1, -1)] = some 1 ∧
    s3 (.divsReg g0 3 1 2) [(1, 0x8000000000000000), (2, -1)] = some 0x8000000000000000 ∧
    s3 (.remsReg g0 3 1 2) [(1, 0x8000000000000000), (2, -1)] = some 0 := by decide +kernel
/-- R136 to R141. -/
theorem test_constants :
    s3 (.sel g0 3 0 1 2) [(1, 7), (2, 8)] = some 7 ∧ s3 (.liL27 g0 3 (-1)) [] = some (-1) ∧
    s3 (.lih g0 3 1 0x3F) [(1, 5)] = some 0xFC00000000000005 ∧ s3 (.addpc g0 3 64) [] = some 0x1040 ∧
    s3 (.clz g0 3 1) [] = some 64 ∧ s3 (.ctz g0 3 1) [(1, 8)] = some 3 ∧ s3 (.popc g0 3 1) [(1, -1)] = some 64 ∧
    s3 (.sext g0 3 1 7) [(1, 0x180)] = some (-128) ∧ s3 (.zext g0 3 1 7) [(1, 0x180)] = some 0x80 ∧
    s3 (.min g0 false 3 1 2) [(1, -1), (2, 1)] = some (-1) ∧ s3 (.max g0 true 3 1 2) [(1, -1), (2, 1)] = some (-1) := by decide +kernel
/-- R133 to R135: a compare writes both predicates; p0 is not written; PRD and PWR. -/
theorem test_predicates :
    after (.cmpReg g0 .ltZ 3 4 1 2) (regs [(1, -1), (2, 1)]) (fun t => t.cur.p) = some 0x11 ∧
    after (.cmpImm g0 .eq 0 0 1 0) st (fun t => t.cur.p) = some 1 ∧
    after (.pwr g0 1) (regs [(1, 0xF0)]) (fun t => t.cur.p) = some 0xF1 ∧ s3 (.prd g0 3) [] = some 1 ∧
    after (.pandn g0 2 0 1) st (fun t => t.cur.p) = some 5 := by decide +kernel
/-- R32, R33, R142, R143: targets by line, the link, and a loop that ends. -/
theorem test_branches :
    after (.brJ16 g0 (-1) 2) st (fun t => t.cur.pc) = some 0xFC2 ∧
    after (.callJ32 g0 1 0) st (fun t => (t.cur.pc, t.cur.rd 30)) = some (0x1040, 0x1001) ∧
    after (.ret g0) (regs [(30, 0x2003)]) (fun t => t.cur.pc) = some 0x2003 ∧
    after (.brc g0 1 1 0) (regs [(1, 2)]) (fun t => (t.cur.pc, t.cur.rd 1)) = some (0x1040, 1) ∧
    after (.brc g0 1 1 0) (regs [(1, 1)]) (fun t => (t.cur.pc, t.cur.rd 1)) = some (0x1001, 0) ∧
    after (.brReg never 1) st (fun t => t.cur.pc) = some 0x1001 := by decide +kernel

/-! Memory instructions. -/

/-- The state with scalar registers and a page of other rights. -/
def paged (l : List (SReg × Word)) (e : TlbEnt) (n : Ctx) : State :=
  mk (l.foldl (fun t p => t.wr p.1 p.2) thr) (corWith e) n
def who : Who := st.f.who 0 0
/-- An address of the local window at an offset. -/
def loc (off : Nat) : Word := BitVec.ofNat 64 (locBase + off)
/-- A firing of another task has written the first line of the page. -/
def clash : Ctx := { ctx with det := true, conf := [(0, ⟨9, 5, false⟩)] }

/-- What the walk of an address says of its page. -/
def walkIs (s : State) (ea : Nat) (p : TlbEnt → Bool) : Bool := (s.f.translate st.m 0 0 ea fun _ => true).any fun r => p r.1
/-- AccessChecks: the boundary address of each clause, and a page for each check of a translated access. -/
theorem witness_AccessChecks :
    2 ^ 57 ≤ (BitVec.ofNat 64 (2 ^ 57)).toNat ∧
    (let ea := (BitVec.ofNat 64 0x01FFFF0400000000).toNat
     0x01FFFF0400000000 ≤ ea ∧ ea < locBase) ∧
    (BitVec.ofNat 64 (peerBase - 1)).toNat < peerBase ∧ peerBase ≤ (BitVec.ofNat 64 peerBase).toNat ∧
    locBase ≤ (loc 0).toNat ∧ locBase + 0x24000 ≤ (loc 0x24000).toNat ∧ (loc 0x23FFF).toNat % 4 ≠ 0 ∧
    (loc 0x23FFF).toNat < locBase + 0x24000 ∧
    (st.f.translate st.m 0 0 0x10000 fun _ => true).isNone = true ∧
    walkIs st 0xFFF8 (fun e => e.grants .store && !e.stable && st.m.place (e.gpa 0xFFF8) = .own 0xFFF8) = true ∧
    walkIs (paged [] { page with rd := false } ctx) 0 (fun e => !e.grants .load) = true ∧
    walkIs (paged [] { page with stable := true } ctx) 0 (fun e => e.stable && e.grants .store) = true ∧
    walkIs (paged [] { page with pbase := 5 * 2 ^ 39 } ctx) 0 (fun e => st.m.place (e.gpa 0) = .other 5 0) = true ∧
    st.m.routed 5 = false ∧
    (paged [] page { ctx with det := true }).f.ctx 0 = { ctx with det := true } ∧
    walkIs (paged [] { page with chk := true } clash) 0 (fun e => recorded st.m clash e && clash.conflicts who (e.gpa 0) false) =
      true ∧
    ctx.conflicts who 0 false = false ∧ st.f.poisoned 0 64 = false ∧ ctx.inLease 0 0 = true ∧ ctx.inLease 1 0 = false := by
  refine ⟨by decide, by decide, by decide, by decide, by decide, by decide, by decide, by decide, by decide +kernel,
    by decide +kernel, by decide +kernel, by decide +kernel, by decide +kernel, by decide, by decide, by decide +kernel, by decide,
    by decide, by decide, by decide⟩

theorem inWindow (s : State) (ea : Word) (n off : Nat) (h : ea.toNat = locBase + off) (hi : off < 0x24000)
    (ha : ea.toNat % n = 0) (hb : s.Free s.f (.loc off) n) : s.InWindow ea n off := ⟨h, hi, ha, hb⟩

/-- LocalLoads: at the last byte of the scratchpad, and at the last line of the window. -/
theorem witness_LocalLoads :
    (let s := regs [(1, loc 0x1FFFF), (2, loc 0x23FC0)]
     (∀ rs ws, s.Runs g0 rs ws) ∧ s.InWindow (s.cur.rd 1 + (0 : BitVec 17).signExtend 64) 1 0x1FFFF ∧
     s.InWindow (s.cur.rd 2 + (0 : BitVec 17).signExtend 64) 64 0x23FC0) :=
  ⟨goes _ rfl rfl, inWindow _ _ _ _ (by decide) (by decide) (by decide) ⟨rfl, by decide +kernel⟩,
   inWindow _ _ _ _ (by decide) (by decide) (by decide) ⟨rfl, by decide +kernel⟩⟩

/-- A page of another device, one whose slices keep records, and what is held of the other device at a boundary. -/
def fivePage : TlbEnt := { page with pbase := 5 * 2 ^ 39 }
def chkPage : TlbEnt := { page with chk := true }
/-- MemoryLoadsAreOwed, at the last word and the last line of the page; at a page with records; and at another device. -/
theorem witness_MemoryLoadsAreOwed :
    (let s := regs [(1, 0xFFFC), (2, 0xFFC0)]
     (∀ rs ws, s.Runs g0 rs ws) ∧
     (∃ gpa k, s.Checked (memReq 0xFFFC 4 .load) gpa page k ∧ s.Free k (.mem gpa page) 4 ∧
       recorded s.m (k.ctx 0) page = false ∧ s.m.isOther gpa = false) ∧
     ∃ gpa k, s.Checked (memReq 0xFFC0 64 .load) gpa page k ∧ s.Free k (.mem gpa page) 64) :=
  ⟨goes _ rfl rfl, ⟨_, _, rfl, ⟨rfl, by decide +kernel⟩, rfl, rfl⟩, ⟨_, _, rfl, rfl, by decide +kernel⟩⟩
theorem witness_MemoryLoadsAreOwed_away :
    (let s := paged [(1, 0x100)] chkPage { ctx with det := true }
     ∃ k, s.Checked (memReq 0x100 4 .load) 0x100 chkPage k ∧ s.Free k (.mem 0x100 chkPage) 4 ∧
       recorded s.m (k.ctx 0) chkPage = true ∧ chkPage.stable = false) ∧
    (let s := { paged [(1, 0x100)] fivePage ctx with m := toFive }
     ∃ k, s.Checked (memReq 0x100 4 .load) (5 * 2 ^ 39 + 0x100) fivePage k ∧ s.Free k (.mem (5 * 2 ^ 39 + 0x100) fivePage) 4 ∧
       recorded s.m (k.ctx 0) fivePage = false ∧ s.m.place (5 * 2 ^ 39 + 0x100) = .other 5 0x100 ∧
       k.remoteCopy s.m 0 0 fivePage (5 * 2 ^ 39 + 0x100) = none) :=
  ⟨⟨_, rfl, ⟨rfl, by decide +kernel⟩, by decide, rfl⟩, ⟨_, rfl, ⟨rfl, by decide +kernel⟩, by decide, by decide, by decide +kernel⟩⟩

/-- An outstanding AMOR at 0x2000, and one at a core's scratchpad. -/
def owedAdd (t : Tgt) : Pend := { owed .waiting with op := .amor .add .w64 1, tgt := t }
def withOwed (t : Tgt) (x : Core) : State := mk { thr with pend := [owedAdd t] } x ctx
theorem witness_HomeSliceAnswers :
    (st.f.thread 0 0).owed 0 false = none ∧
    (let s := withPend .waiting
     (s.f.thread 0 0).owed 0 false = some (owed .waiting) ∧ (owed .waiting).held = false ∧
     (owed .waiting).tgt = .mem 0x2000 page ∧ (owed .waiting).op.isLoad = true ∧ page.stable = false ∧
     s.f.poisoned 0x2000 (owed .waiting).size = false ∧ st.m.place 0x2000 = .own 0x2000 ∧
     Fab.poisoned { s.f with poison := [0x80] } 0x2000 (owed .waiting).size = true) ∧
    (let s := withOwed (.mem 0x2000 page) cor
     (s.f.thread 0 0).owed 0 false = some (owedAdd (.mem 0x2000 page)) ∧ (owedAdd (.mem 0x2000 page)).op.isLoad = false) ∧
    (let m := { st.m with hostUp := false }
     m.place (0x3FFF * 2 ^ 39) = .host 0 ∧ m.hostLink = false) ∧
    (let s := withOwed (.peer 1 0 8) cor
     (s.f.thread 0 0).owed 0 false = some (owedAdd (.peer 1 0 8)) ∧ s.f.find 0 1 0 = none) ∧
    (let s := withOwed (.peer 0 0 8) cor
     s.f.find 0 0 0 = some 0 ∧ s.f.closed 0 = false ∧ (s.f.core 0).locked 8 8 = false) ∧
    (withOwed (.peer 0 0 8) { cor with power := .gated }).f.closed 0 = true := by decide +kernel

/-- HomeSliceAnswers: an atomic of a parked routine, and a delivery whose register a later head has written. -/
def looseState : State :=
  { st with f := { st.f with loose := [⟨0, 0, who, { owedAdd (.mem 0x2000 page) with id := 7 }⟩] } }
theorem witness_HomeSliceAnswers_loose :
    (looseState.f.thread 0 0).owed 7 false = none ∧ (looseState.f.thread 0 0).pend = [] ∧
    looseState.f.poisoned 0x2000 (owedAdd (.mem 0x2000 page)).size = false ∧ looseState.m.hostLost 0x2000 = false ∧
    (let s := mk { thr with pend := [{ owed .waiting with overwritten := true }] } cor ctx
     (s.f.thread 0 0).owed 0 false = some { owed .waiting with overwritten := true }) := by decide +kernel

/-- StoreHeads: a release at .dev to the window and to memory, and VST. -/
theorem witness_StoreHeads :
    (let s := regs [(1, loc 0x23FF8), (2, 0x2000), (3, loc 0)]
     (∀ rs ws, s.Runs g0 rs ws) ∧ ((loc 0x23FF8).toNat = locBase + 0x23FF8 ∧ 0x23FF8 < 0x24000 ∧ (loc 0x23FF8).toNat % 8 = 0) ∧
     (∃ k, s.Released s.f true .dev .core k ∧ s.Free k (.loc 0x23FF8) 8) ∧
     (∃ gpa k0 k, s.Checked (memReq 0x2000 8 .store) gpa page k0 ∧ s.Released k0 true .dev .dev k ∧
       s.Free k (.mem gpa page) 8) ∧
     ((loc 0).toNat = locBase + 0 ∧ (loc 0).toNat % 64 = 0) ∧ s.Free s.f (.loc 0) 64 ∧
     ∃ gpa k, s.Checked (memReq 0x2000 64 .store) gpa page k ∧ s.Free k (.mem gpa page) 64) :=
  ⟨goes _ rfl rfl, by decide, ⟨_, rfl, rfl, by decide +kernel⟩, ⟨_, _, _, rfl, rfl, rfl, by decide +kernel⟩,
   by decide, ⟨rfl, by decide +kernel⟩, ⟨_, _, rfl, rfl, by decide +kernel⟩⟩

/-- StoredBytes: the end of the scratchpad, device memory and host memory, and another device. -/
theorem witness_StoredBytes :
    (0x1FFC0 < 0x24000 ∧ 0x1FFC0 + 64 ≤ 0x20000) ∧ st.m.place 0x2000 = .own 0x2000 ∧
    st.m.place (0x3FFF * 2 ^ 39 + 8) = .host 8 ∧ st.m.place (9215 * 2 ^ 39) = .other 9215 0 ∧ st.f.owned 0x2000 = false ∧
    st.m.hostLink = true ∧ Mgt.hostLink { st.m with hostUp := false } = false := by
  decide

/-- The state with a write budget and lines of the current task in the budget queue of stack 0. -/
def budget (allow : Nat) (lines : Nat) (l : List (SReg × Word)) : State :=
  let s := paged l page { ctx with allow := Vector.replicate 8 allow }
  { s with f := { s.f with wl := (List.range lines).map fun i => ⟨i, who, 0, 100 + i, 0, 0, 0, .budget, none, false, false, false⟩ } }
/-- StreamingStore: with an allowance, with none and 31 lines queued, with none and 32; to host memory. -/
theorem witness_StreamingStore :
    (∀ p ∈ [(1, 0), (0, 31), (0, 32)],
      let s := budget p.1 p.2 [(1, 0x2000)]
      s.cur.st = .running ∧ s.cur.pend = [] ∧ (s.f.ctx who.ctx).allow[stackOf 0x2000] = p.1 ∧
      s.f.inBudget who.ctx (stackOf 0x2000) = p.2) ∧
    (∃ gpa e k, (budget 0 32 [(1, 0x2000)]).Checked { memReq 0x2000 64 .store with loc := false } gpa e k ∧
      (budget 0 32 [(1, 0x2000)]).Free k (.mem gpa e) 64 ∧ st.m.place gpa = .own 0x2000) ∧
    ∃ gpa e k, (paged [(1, 0)] { page with pbase := 0x3FFF * 2 ^ 39 } ctx).Checked { memReq 0 64 .store with loc := false } gpa e k ∧
      ∀ la, st.m.place gpa ≠ .own la :=
  ⟨by decide +kernel, ⟨_, _, _, rfl, ⟨rfl, by decide +kernel⟩, rfl⟩, _, _, _, rfl, by intro la h; cases h⟩

/-- A core with an exchange barrier register on. -/
def xchCore : Core := { cor with bars := cor.bars.set 0 { BarReg.zero with desc := 0xC000 } }
/-- ExchangeStore, clause by clause. -/
theorem witness_ExchangeStore :
    (∀ rs ws, st.Runs g0 rs ws) ∧ 2 ^ 16 ≤ (0x10000 : Word).toNat ∧ (0xFFFF : Word).toNat < 2 ^ 16 ∧
    (st.f.ctx who.ctx).inLease 1 0 = false ∧ (st.f.ctx who.ctx).inLease 0 0 = true ∧ (0x1FFFF : Word).toNat < 0x20000 ∧
    0x23FFF < (0x24000 : Word).toNat ∧ (0x20004 : Word).toNat % 8 ≠ 0 ∧ (0x23FF8 : Word).toNat % 8 = 0 ∧
    (st.f.core 0).exchange = none ∧
    (let s := mk thr xchCore ctx
     (∀ rs ws, s.Runs g0 rs ws) ∧ (∃ b, (s.f.core 0).exchange = some b) ∧ (s.f.core 0).logFull = false ∧
     s.f.inWay s.m 0 0 who s.f.ids none 0 = false) :=
  ⟨goes _ rfl rfl, by decide, by decide, by decide, by decide, by decide, by decide, by decide, by decide, by rfl,
   goes _ rfl rfl, ⟨_, rfl⟩, by rfl, by decide⟩

/-- A landing set with one slot in a state. -/
def slotted (x : SlotSt) (cause : Option Cause) (det : Bool) : State :=
  mk { thr with ls := ⟨Landing.empty.slots.set 31 ⟨0, x, 0x2000, .z32, 7, cause, 0⟩, if x = .armed then [] else [31]⟩ } cor
    { ctx with det := det }
/-- A value is awaited in s5 while slot 31 has landed. -/
def takeWaits : State := { slotted .landed none false with
  f := (slotted .landed none false).f.modThread 0 0 fun t => { t with pend := [owed .waiting] } }
/-- LandingSlots: busy and free, of this device and of another; none used, all armed, landed, its destination awaited or not, faulted,
in tag order. -/
theorem witness_LandingSlots :
    (∀ rs ws, st.Runs g0 rs ws) ∧ (slotted .landed none false).cur.ls.slots[31].st ≠ .free ∧ st.cur.ls.slots[31].st = .free ∧
    (∃ gpa e, st.f.tgtOf st.m 0 0 0x2000 = some (.mem gpa e) ∧ st.m.place gpa = .own 0x2000) ∧
    (let s := { paged [] fivePage ctx with m := toFive }
     ∃ e, s.f.tgtOf s.m 0 0 0x100 = some (.mem (5 * 2 ^ 39 + 0x100) e) ∧ s.m.place (5 * 2 ^ 39 + 0x100) = .other 5 0x100) ∧
    (∀ j : Tag, st.cur.ls.slots[j].st = .free) ∧ (slotted .armed none false).cur.ls.pick false = none ∧
    (slotted .landed none false).cur.ls.pick false = some 31 ∧ (slotted .landed none false).cur.settled [.s 5, .s 6] ∧
    (takeWaits.cur.ls.pick false = some 31 ∧ ¬takeWaits.cur.settled [.s 5, .s 6] ∧ takeWaits.Runs g0 [] []) ∧
    ((slotted .faulted (some .pageFault) true).cur.ls.pick true = some 31 ∧
      (slotted .faulted (some .pageFault) true).cur.ls.slots[31].cause = some .pageFault) :=
  ⟨goes _ rfl rfl, by decide, by decide, ⟨_, _, rfl, by decide⟩, ⟨_, rfl, by decide⟩,
   by decide, by decide, by decide, fun p h => (by cases h),
   ⟨by decide, fun h => absurd (h (owed .waiting) (by decide) (by decide)) (by decide),
     .inl rfl, by decide, fun p _ h => (by cases h), fun p _ h => (by cases h), fun p _ h => (by cases h)⟩, by decide, by decide⟩

theorem witness_AtomicResults : (leBytes 8 (2 ^ 64 - 1)).length = 64 / 8 ∧ (leBytes 4 0).length = 32 / 8 ∧
    (leBytes 64 (2 ^ 448 + 2 ^ 449)).length = 64 ∧ 0x7F7FFFFF % f32.signBit < f32.infBits ∧ f32.infBits ≤ 0x7F800000 % f32.signBit ∧
    (BitVec.ofNat 512 (leNum (leBytes 64 (2 ^ 449)))).getLsbD 449 = true ∧
    (BitVec.ofNat 512 (leNum (leBytes 64 (2 ^ 448)))).getLsbD 448 = true ∧
    (BitVec.ofNat 512 (leNum (leBytes 64 (2 ^ 448)))).getLsbD 449 = false := by decide +kernel

/-- R90 to R92: 2^446 + 2^446 leaves the range of a window and sets OVF; the largest f32 adds exactly; an infinity sets INV alone. -/
theorem test_window_add :
    (let at' := fun (bs : List Byte) (b : Word) => (atomRun .fadd .w32 true bs b).bytes
     leNum (at' (leBytes 64 (2 ^ 447 - 2 ^ 256)) 0x3F800000) = 2 ^ 447 + 2 ^ 448 ∧
     leNum (at' (leBytes 64 (2 ^ 448 - 2 ^ 256)) 0x3F800000) = 0 ∧
     leNum (at' (leBytes 64 5) 0x00000001) = 5 + 2 ^ (256 - 149) ∧
     leNum (at' (leBytes 64 5) 0x7F800000) = 5 + 2 ^ 449) ∧
    (atomRun .fadd .w32 true (leBytes 64 (2 ^ 448 + 5)) 0).old = 0x7FC00001 ∧
    (atomRun .fadd .w32 true (leBytes 64 (3 * 2 ^ 255)) 0).old = 0x3FC00000 := by decide +kernel

/-- LocalAtomics: AMO, AMOR and CAS of a word of the window, and ADDW. -/
theorem witness_LocalAtomics :
    (let s := regs [(1, loc 64)]
     (∀ rs ws, s.Runs g0 rs ws) ∧
     (∃ k0 k, s.f.check s.m 0 who (atomReq (loc 64) .fadd .w32 .none true) = .ok (.loc 64, k0) ∧
       s.Released k0 true .dev .core k ∧ s.Free k (.loc 64) 64 ∧ (k.core 0).locked 64 64 = false) ∧
     (∃ k0 k, s.f.check s.m 0 who (atomReq (loc 64) .add .w64 .none false) = .ok (.loc 64, k0) ∧
       s.Released k0 true .dev .core k ∧ s.Free k (.loc 64) 8) ∧
     (∃ k0 k, s.f.check s.m 0 who (atomReq (loc 64) .swap .w64 .none false) = .ok (.loc 64, k0) ∧
       s.Released k0 false .dev .core k ∧ s.Free k (.loc 64) 8) ∧
     (loc 0x20000).toNat ≥ locBase + 0x20000 ∧ (loc 64).toNat = locBase + 64 ∧ (loc 64).toNat % 64 = 0 ∧
     (loc 72).toNat % 64 ≠ 0 ∧ s.Free s.f (.loc 64) 64 ∧ (s.f.core 0).locked 64 64 = false) :=
  ⟨goes _ rfl rfl, ⟨_, _, rfl, rfl, ⟨rfl, by decide +kernel⟩, by decide⟩,
   ⟨_, _, rfl, rfl, rfl, by decide +kernel⟩, ⟨_, _, rfl, rfl, rfl, by decide +kernel⟩, by decide, by decide, by decide, by decide,
   ⟨rfl, by decide +kernel⟩, by decide⟩

/-- An ADDW that an earlier posted atomic of its core holds, at the peer address of its own scratchpad. -/
def toOwn : Elem := ⟨5, who, BitVec.ofNat 64 (peerBase + 64), 0, false, .amo .add .w32 1 .none, .core 0 0, .flight, 0, true, []⟩
theorem witness_LocalAtomics_addwWaits :
    (Fab.aggWait { st.f with elems := [toOwn] } 0 who (.loc 64) 64).isSome = true ∧
    (Fab.aggWait { st.f with elems := [toOwn] } 0 who (.loc 128) 64).isSome = false := by decide +kernel

/-- AtomicsThatLeave: a peer core, this device's memory, and host memory, whose path carries no atomics. -/
theorem witness_AtomicsThatLeave :
    (let s := regs [(1, 0x2000)]
     ∀ rs ws, s.Runs g0 rs ws) := goes _ rfl rfl
theorem witness_AtomicsThatLeave_peer :
    (match (regs [(1, 0x2000)]).f.check st.m 0 who (atomReq (BitVec.ofNat 64 peerBase) .add .w64 .none true) with
     | .ok (.peer 0 0 0, _) => true
     | _ => false) = true := by decide +kernel
theorem witness_AtomicsThatLeave_posted :
    ∃ gpa e k0 k, (regs [(1, 0x2000)]).f.check st.m 0 who (atomReq 0x2000 .add .w64 .none true) = .ok (.mem gpa e, k0) ∧
       (regs [(1, 0x2000)]).Released k0 true .dev .dev k ∧ (regs [(1, 0x2000)]).Free k (.mem gpa e) 8 ∧
       (k.core 0).logFull = false := ⟨_, _, _, _, rfl, rfl, ⟨rfl, by decide +kernel⟩, rfl⟩
theorem witness_AtomicsThatLeave_returning :
    ∃ gpa e k0 k, (regs [(1, 0x2000)]).f.check st.m 0 who (atomReq 0x2000 .swap .w64 .none false) = .ok (.mem gpa e, k0) ∧
       (regs [(1, 0x2000)]).Released k0 true .dev .dev k ∧ (regs [(1, 0x2000)]).Free k (.mem gpa e) 8 :=
  ⟨_, _, _, _, rfl, rfl, rfl, by decide +kernel⟩
theorem witness_AtomicsThatLeave_paths :
    pathCarries st.m 0x2000 0 = true ∧ pathCarries st.m (0x3FFF * 2 ^ 39) 0 = false ∧ (st.f.core 0).logFull = false ∧
    st.f.find who.ctx who.vx who.vy = some 0 ∧ (st.f.core 0).holds who.fid = true ∧ (st.f.core 0).flog = [] := by decide +kernel
theorem witness_AtomicsThatLeave_host :
    ∃ e k0, (paged [] { page with pbase := 0x3FFF * 2 ^ 39 } ctx).f.check st.m 0 who (atomReq 0 .add .w64 .none false) =
      .ok (.mem (0x3FFF * 2 ^ 39) e, k0) := ⟨_, _, rfl⟩

/-- An AMO of the task, in a buffer. -/
def amoElem (x : ElSt) : Elem := ⟨5, who, 0x2000, 0x2000, false, .amo .add .w32 1 .none, .slice 0, x, 0, true, []⟩
def withBuf : State := mk thr { cor with agg := [(0, ⟨.slice 0, [amoElem .buffered], 0⟩)] } ctx
/-- FencesAndDrains: a value owed and none; an own atomic in a buffer, on its way, and none; a drain before its lines have entered
their queues, and after. -/
theorem witness_FencesAndDrains :
    (∀ rs ws, st.Runs g0 rs ws) ∧ (withPend .waiting).Runs g0 [] [] ∧ (withPend .waiting).cur.owes = true ∧ st.cur.owes = false ∧
    st.f.ownAtoms 0 0 = none ∧ (withPend .waiting).f.ownAtoms 0 0 = none ∧ (∃ k, withBuf.f.ownAtoms 0 0 = some k) ∧
    (∃ k, st.f.flush st.m 0 0 true true .dev = .done k) ∧ (∃ k, withBuf.f.flush st.m 0 0 true true .dev = .stop k) ∧
    (st.f.core 0).flog = [] ∧ (st.f.sendAll 0).elems = [] ∧ (∃ e ∈ (withBuf.f.sendAll 0).elems, e.who.fid ∈ withBuf.cur.fids) ∧
    st.f.wl = [] ∧ st.cur.wdrain = none ∧ (mk { thr with wdrain := some (true, [9]) } cor ctx).cur.wdrain = some (true, [9]) :=
  ⟨goes _ rfl rfl, ⟨.inl rfl, by decide, fun p _ h => (by cases h), fun p _ h => (by cases h), fun p _ h => (by cases h)⟩, by decide, by decide, by rfl, by rfl, ⟨_, rfl⟩, ⟨_, rfl⟩,
   ⟨_, rfl⟩, rfl, rfl, by decide, rfl, rfl, rfl⟩

/-- An entry of the unit. -/
def entry (i : Instr) (done : Bool) : MEntry :=
  ⟨0, who, i, loc 0, loc 0x1000, 16, 0, 2, 2, 0, 0, 0x3F800000, false, [], none, none, [], [], [], done⟩
/-- FencesAndDrains: an MFILL that still reads, an atomic of a parked routine, an MSPILL whose lines have not entered their queue, a line
in the matrix unit, and one in the budget queue. -/
def unitLine (p : WPlace) (mid : Option Nat) : WEntry := ⟨0, who, 0, 100, 0, 0, 0, p, mid, false, false, false⟩
theorem witness_FencesAndDrains_units :
    (let fill := mk thr { cor with mq := [entry (.mfill g0 1 2) false] } ctx
     (∃ e ∈ (fill.f.core 0).mq, e.who.fid ∈ fill.cur.fids ∧ e.fills = true) ∧ ∀ rs ws, fill.Runs g0 rs ws) ∧
    (∃ x ∈ looseState.f.loose, x.who.fid ∈ looseState.cur.fids) ∧
    (let spill := mk thr { cor with mq := [{ entry (.mspill g0 1 2) false with lines := [(0x2000, 0)] }] } ctx
     (∃ e ∈ (spill.f.core 0).mq, e.who.fid ∈ spill.cur.fids ∧ e.done = false ∧ e.lines ≠ []) ∧ spill.cur.wdrain = none) ∧
    (let f := { st.f with ids := 1, wl := [unitLine .budget none] }
     ∀ e ∈ f.wl, e.who.ctx = who.ctx ∧ e.place = .budget ∧ e.id < f.ids) ∧
    ∀ e ∈ [unitLine .unit (some 7)], e.place = .unit ∧ e.mid ≠ none ∧ e.who.fid ∈ st.cur.fids :=
  ⟨⟨by decide +kernel, goes _ rfl rfl⟩, by decide +kernel, by decide +kernel, by decide, by decide⟩

/-- R152, R154: a byte store to the scratchpad is read back, extended by its load's type. -/
theorem test_store_load :
    (after (.st g0 .z8 2 1 .core .rlx 0) (regs [(1, loc 5), (2, 0x1FE)]) id).bind
      (fun s => after (.ld g0 .s8 3 1 .core .rlx 0) s fun t => t.cur.rd 3) = some (-2) ∧
    after (.st g0 .z64 2 1 .dev .rel 8) (regs [(1, 0x2000), (2, 0x0102030405060708)]) (fun t => t.f.bytesAt t.m 0x2008 8) =
      some [8, 7, 6, 5, 4, 3, 2, 1] ∧
    after (.vst g0 5 1 0) (regs [(1, loc 0x20000)]) (fun t => t.cur.pc) = some 0x1001 := by decide +kernel
/-- R159: TAKE of a landed slot empties it; with nothing in use it clears the flag and leaves the registers. -/
theorem test_take :
    after (.take g0 3 4 2) (slotted .landed none false) (fun t => (t.cur.rd 3, t.cur.rd 4, t.cur.rdp 2, t.cur.ls.slots[31].st)) =
      some (7, 31, true, .free) ∧
    after (.take g0 3 4 2) (regs [(3, 9)]) (fun t => (t.cur.rd 3, t.cur.rdp 2)) = some (9, false) := by decide +kernel
/-- R161, R162, R165: a local exchange, a compare and swap that fails, and ADDW of one to a zero window. -/
theorem test_local_atomics :
    after (.amor g0 .swap 3 1 2 .core .rlx .none .w32) (regs [(1, loc 8), (2, -1)])
      (fun t => (t.cur.rd 3, (t.f.core 0).locBytes 8 8)) = some (0, [255, 255, 255, 255, 0, 0, 0, 0]) ∧
    after (.amorCas g0 3 1 2 4 .core .rlx .none .w64) (regs [(1, loc 8), (2, 5), (4, 1)])
      (fun t => (t.f.core 0).locBytes 8 8) = some [0, 0, 0, 0, 0, 0, 0, 0] ∧
    after (.addw g0 1 2) (regs [(1, loc 64), (2, 0x3F800000)])
      (fun t => windowF32 (leNum ((t.f.core 0).locBytes 64 64))) = some 0x3F800000 := by decide +kernel

/-! Vector and transform instructions. -/

theorem witness_VectorLanes : ∀ rs ws, st.Runs g0 rs ws := goes _ rfl rfl
/-- VectorElements: an integer type, and NaNs in each place. -/
theorem witness_VectorElements : Ty.isI .z64 = true ∧ tyFp .b16 = some b16 ∧ 0xFFFF < 2 ^ b16.width ∧ b16.isNan 0xFFFF = true ∧
    b16.isNan 0x7F80 = false := by decide
/-- FormatsRoundTrip: the largest patterns, and the least value that overflows. -/
theorem witness_FormatsRoundTrip : f16 ∈ [f32, f16, b16] ∧ 0xFC00 < 2 ^ f16.width ∧ f16.isNan 0xFC00 = false ∧
    2 ^ (f16.bias + 1) ≤ 1 * 2 ^ 16 := by decide
/-- VectorElements: finite and infinite patterns at their limits, and complex lanes. -/
theorem witness_VectorElements_values :
    (tyFp .f16 = some f16 ∧ 0xFBFF < 2 ^ f16.width ∧ 0xFBFF % f16.signBit < f16.infBits ∧ 0xFC00 % f16.signBit = f16.infBits ∧
      (f16.decode 0xFBFF).scaled 25 < 0 ∧ (f16.decode 1).scaled 25 = 2 ∧ (f16.decode 0x8000).scaled 25 = 0) ∧
    0x3C007BFF < 2 ^ (2 * f16.width) := by decide +kernel
/-- FormatsRoundTrip: a finite value between two patterns, for each of the K. -/
theorem witness_FormatsRoundTrip_finite :
    f32.bias + f32.fw ≤ 150 ∧ (0 : Int) ≤ -150 + 150 ∧ 0 < 3 ∧ 16 ≤ 16 ∧ (0 : Int) ≤ -16 + 16 ∧
    (f16.round .near (.fin true 3 (-25)), f16.round .zero (.fin true 3 (-25))) = (0x8002, 0x8001) := by decide +kernel
theorem witness_ConversionsAndReductions : (∀ rs ws, st.Runs g0 rs ws) ∧ 0xFF < 2 ^ Ty.t6.width ∧ Ty.t6.isC = false ∧
    Ty.isI .z8 = true ∧ tyFp .b16 = some b16 ∧ tyFp .f32 = some f32 ∧ tyFp .t8 = none ∧ (elemVal .t8 0x80).isNan = true ∧
    (elemVal .f32 0x7F800001).isNan = true := ⟨goes _ rfl rfl, by decide +kernel⟩
theorem witness_PermutesAndTransforms : ∀ rs ws, st.Runs g0 rs ws := goes st rfl rfl
/-- PermutesAndTransforms: finite, with finite products, and a NaN. -/
theorem witness_PermutesAndTransforms_values :
    (∀ x ∈ [cjoin f16 0x3C00 0, cjoin f16 0x7BFF 0xFBFF], x < 2 ^ (2 * f16.width) ∧ x % 2 ^ 16 % f16.signBit < f16.infBits ∧
      x / 2 ^ 16 % f16.signBit < f16.infBits) ∧ f16.isNan 0x7C01 = true ∧ cjoin f16 0x7C01 0 < 2 ^ (2 * f16.width) := by decide

/-- Vector registers of 32-bit lanes. -/
def lanes32 (xs : List Nat) : Line := BitVec.ofNat 512 (xs.foldr (fun x n => x % 2 ^ 32 + 2 ^ 32 * n) 0)
def vecs (l : List (VReg × Line)) : State := mk (l.foldl (fun t p => t.wrv p.1 p.2) thr) cor ctx
/-- Lane j of v3 in w bits after a head. -/
def v3 (i : Instr) (l : List (VReg × Line)) (w j : Nat) : Option Nat :=
  after i (vecs l) fun t => (t.cur.rdv 3).toNat / 2 ^ (w * j) % 2 ^ w

/-- R174: lanes wrap or saturate, and a shift by the lane width or more gives zero. -/
theorem test_vector_integers :
    v3 (.vadd g0 3 1 2 .z8) [(1, lanes32 [0xFF]), (2, lanes32 [0x02])] 8 0 = some 1 ∧
    v3 (.vadds g0 3 1 2 .z8) [(1, lanes32 [0xFF]), (2, lanes32 [0x02])] 8 0 = some 0xFF ∧
    v3 (.vsubs g0 3 1 2 .s32) [(1, lanes32 [0, 0x80000000]), (2, lanes32 [0, 1])] 32 1 = some 0x80000000 ∧
    v3 (.vshl g0 3 1 2 .z8) [(1, lanes32 [1]), (2, lanes32 [200])] 8 0 = some 0 ∧
    v3 (.vcmp g0 .lt 3 1 2 .s32) [(1, lanes32 [0, 0xFFFFFFFF]), (2, lanes32 [0, 1])] 32 1 = some 0xFFFFFFFF := by decide +kernel
/-- R174 to R176 on f32: a NaN is quieted and delivered, and only NE and UNO hold of it. -/
theorem test_vector_floats :
    v3 (.vadd g0 3 1 2 .f32) [(1, lanes32 [0x7F800001]), (2, lanes32 [0x3F800000])] 32 0 = some 0x7FC00001 ∧
    v3 (.vfma g0 3 1 2 4 .f32) [(1, lanes32 [0x40000000]), (2, lanes32 [0x40400000]), (4, lanes32 [0x3F800000])] 32 0 =
      some 0x40E00000 ∧
    v3 (.vcmp g0 .uno 3 1 2 .f32) [(1, lanes32 [0x7FC00000])] 32 0 = some 0xFFFFFFFF ∧
    v3 (.vsqrt g0 3 1 .f32) [(1, lanes32 [0x40800000])] 32 0 = some 0x40000000 ∧
    v3 (.vdiv g0 3 1 2 .f32) [(1, lanes32 [0x3F800000]), (2, lanes32 [0x40000000])] 32 0 = some 0x3F000000 := by decide +kernel
/-- R179: the worked conversions, down and up again, low half and high half. -/
theorem test_vector_conversions :
    v3 (.vcvt g0 3 1 .f16 .f32) [(1, lanes32 [0x3F800000, 0x4788B800]), (3, lanes32 (List.replicate 16 0xFFFFFFFF))] 16 1 =
      some 0x7C00 ∧
    v3 (.vcvt g0 3 1 .f16 .f32) [(3, lanes32 (List.replicate 16 0xFFFFFFFF))] 16 16 = some 0 ∧
    v3 (.vcvthi g0 3 1 .f16 .f32) [(1, lanes32 [0x3F800000]), (3, lanes32 [0x12345678])] 16 0 = some 0x5678 ∧
    v3 (.vcvthi g0 3 1 .f16 .f32) [(1, lanes32 [0x3F800000])] 16 16 = some 0x3C00 ∧
    v3 (.vcvt g0 3 1 .f32 .f16) [(1, lanes32 [0x7BFF3C00])] 32 1 = some 0x477FE000 := by decide +kernel
/-- R180: the worked reduction; R181: PERM past the last lane, ZIP and EXTR. -/
theorem test_vector_moves :
    after (.vredadd g0 4 3 .f32) (vecs [(3, lanes32 [0x3F800000, 0, 0x33800000, 0x33800000])]) (fun t => t.cur.rd 4) =
      some 0x3F800001 ∧
    v3 (.vperm g0 3 1 2 .z32) [(1, lanes32 [5, 6]), (2, lanes32 [1, 16])] 64 0 = some 6 ∧
    v3 (.vzip g0 3 1 2 .z32) [(1, lanes32 [5, 6]), (2, lanes32 [7, 8])] 32 3 = some 8 ∧
    v3 (.vunzip g0 3 1 2 .z32) [(1, lanes32 [5, 6, 9]), (2, lanes32 [7, 8])] 32 1 = some 9 ∧
    after (.vextr g0 4 3 .s16 1) (vecs [(3, lanes32 [0x80000000])]) (fun t => t.cur.rd 4) = some 0xFFFFFFFFFFFF8000 := by
  decide +kernel
/-- R95, R96, R183, R185: the worked stage of eight points. -/
theorem test_butterfly_stage :
    after (.twid g0 2 3 4) (regs [(3, 8)]) (fun t => (t.cur.rdv 2).extractLsb' 64 64) = some 0xBF3504F33F3504F3 ∧
    after (.bfly2 g0 4 0 1 2 .c32)
      (vecs [(0, lanes32 [0, 0, 0x3F800000, 0]), (1, lanes32 [0, 0, 0x3F800000, 0x3F800000]),
        (2, lanes32 [0, 0, 0x3F3504F3, 0xBF3504F3])])
      (fun t => ((t.cur.rdv 4).extractLsb' 64 64, (t.cur.rdv 5).extractLsb' 64 64)) =
      some (0x00000000401A827A, 0x00000000BED413CC) := by decide +kernel

/-! Matrix instructions. -/

/-- The operands of a product: A in s1, B in s2, K in s3, the descriptor in s4. -/
def mm (acc : AccSel) : MMOps := ⟨acc, 1, 2, 3, .accum, .k16, .k16, 4⟩
/-- A shape record at scratchpad 0x4000: one pixel of 16 channels, one tap. -/
def record : List Byte :=
  leBytes 8 (16 * 2 ^ 48 + 2 ^ 16 + 1) ++
    leBytes 8 (2 ^ 44 + 2 ^ 40 + 2 ^ 36 + 2 ^ 32 + 2 ^ 24 + 2 ^ 16 + 1) ++ leBytes 16 0
def matrix (l : List (SReg × Word)) (t : Thread) (x : Core) : State :=
  mk (l.foldl (fun t p => t.wr p.1 p.2) t) { x with spad := pokes [] 0x4000 record } ctx
def mmaRegs : List (SReg × Word) := [(1, loc 0), (2, loc 0x1000), (3, 16)]
/-- Whether a check of memory passes. -/
def isOk {α β : Type} : Except α β → Bool
  | .ok _ => true
  | .error _ => false

/-- MatrixIssue: MMA and MCONV with their operands inside the scratchpad. -/
theorem witness_MatrixIssue :
    (let s := matrix mmaRegs thr cor
     s.cur.st = .running ∧ s.cur.pend = []) ∧
    (let p := spansOf thr (mm .tile) 16 0 0 false false
     fmtBad thr = false ∧ pitchBad 0 p.rowA = false ∧ pitchBad 0 p.rowB = false ∧
     (loc 0).toNat + p.lenA ≤ locBase + 0x20000 ∧ (loc 0x1000).toNat + p.lenB ≤ locBase + 0x20000 ∧ p.sclA = 0 ∧ p.sclB = 0 ∧
     let rd := extOf (loc 0) p.lenA ++ extOf (loc 0x1000) p.lenB
     ((matrix mmaRegs thr cor).f.matWaits st.m 0 0 rd (spadTgts rd)).isNone = true) ∧
    (let s := matrix ((4, loc 0x4000) :: mmaRegs) thr cor
     (match s.f.shape s.m 0 0 (loc 0x4000) with
      | .done bs f =>
        let ws := shapeWords bs
        let rd := extOf (loc 0) 32 ++ extOf (loc 0x1000) 32
        (convOf ws).ok 16 && !(convOf ws).wb && (convOf ws).ih * (convOf ws).iw * pitchOf (convOf ws).pitch ((convOf ws).c * 2) == 32 &&
          (convOf ws).k * 2 == 32 && (f.matWaits s.m 0 0 rd (spadTgts rd)).isNone
      | _ => false) = true) :=
  ⟨⟨rfl, rfl⟩, by decide +kernel, by decide +kernel⟩
/-- MatrixIssue: the other heads; MSPILL and MFILL of one quarter. -/
theorem witness_MatrixIssue_others :
    (32768 % 16 = 0 ∧ (0 : Word).toNat + 32768 ≤ 32768 ∧ (loc 0x18000).toNat + 32768 ≤ locBase + 0x20000) ∧
    (250 + 6 ≤ 256 ∧ (loc 0x1FFF4).toNat + 2 * 6 ≤ locBase + 0x20000 ∧ (loc 0x1FFF4).toNat % 2 = 0) ∧
    (loc 0).toNat + xferLen .tile .f32 true ≤ locBase + 0x20000 ∧ (st.f.matWaits st.m 0 0 [] []).isNone = true ∧
    (∀ q ∈ maskQuarters 1, ((0xC000 : Word).toNat + 16384 * q.val) % 2 ^ 64 + 16384 ≤ peerBase) ∧
    (∀ want ∈ [Want.store, .load], (match st.f.quarterLines st.m 0 (st.f.who 0 0) want (quarterAddrs 0xC000 1) with
      | .ok (ls, f) => (f.matWaits st.m 0 0 [] (ls.map fun l => (.mem l.1 l.2, 64))).isNone
      | .error _ => false) = true) := by decide +kernel

/-- MatrixChecks: a K, a format, a pitch; extents and an alignment at their limits. -/
theorem witness_MatrixChecks :
    (∀ rs ws, st.Runs g0 rs ws) ∧ 24 % 16 ≠ 0 ∧ fmtBad { thr with ctl := { thr.ctl with fmta := 0 } } = true ∧ fmtBad thr = false ∧
    16 * 1 < 16 * matBits ((fmtTy thr.ctl.fmta).getD .b16) / 8 ∧ 32768 < (32784 : Word).toNat ∧
    256 < (250 : Word).toNat + (7 : Word).toNat ∧ 16 ≤ (16 : Word).toNat ∧ 0 < xferLen (.quarter 0) .b16 false ∧
    (loc 0x20000).toNat ≥ locBase + 0x20000 ∧ locBase + 0x20000 < (loc 0x1FFF0).toNat + xferLen (.quarter 0) .b16 false ∧
    (loc 8).toNat % 16 ≠ 0 := ⟨goes st rfl rfl, by decide +kernel⟩

/-- MatrixChecks: a record that cannot be loaded, and one of zeros, which is none. -/
theorem witness_MatrixChecks_records :
    (match st.f.shape st.m 0 0 0x10000 with | .fault .pageFault _ => true | _ => false) = true ∧
    (match st.f.shape st.m 0 0 (loc 0x4000) with | .done bs _ => !(convOf (shapeWords bs)).ok 16 | _ => false) = true := by
  decide +kernel

/-- A panel, and the exports of a square of one core. -/
def panel0 : Panel := ⟨2, 32, [], []⟩
def export0 (isA : Bool) (d : Word) : Export := ⟨0, 0, 1, 1, isA, mm .tile, 16, d, panel0, [], [0], 3, false⟩
def squared (d : Word) : State :=
  matrix mmaRegs thr { cor with exports := [export0 true d, export0 false d], mwait := [⟨0, 3, g0, 0x1000, 0x1001, mm .tile⟩] }
/-- MmagReadsItsPanels: a square of one core whose panels agree, and one whose panels do not. -/
theorem witness_MmagReadsItsPanels :
    (∀ rs ws, (squared 0).Runs g0 rs ws) ∧ (∀ rs ws, (squared 1).Runs g0 rs ws) ∧ kBad 16 = false ∧
    squareOf 0 = ⟨0, 0, 1, 1⟩ ∧ 0 + 1 ≤ ctx.lw ∧ 0 + 1 ≤ ctx.lh :=
  ⟨goes _ rfl rfl, goes _ rfl rfl, by decide, by decide, by decide, by decide⟩
theorem witness_MmagReadsItsPanels_there :
    (squared 0).f.find 0 0 0 = some 0 ∧ ((squared 0).f.core 0).exports = [export0 true 0, export0 false 0] ∧
    ((squared 1).f.core 0).exports = [export0 true 1, export0 false 1] ∧
    ((squared 0).f.core 0).mwait = [⟨0, ((squared 0).f.who 0 0).fid, g0, (squared 0).cur.pc, 0x1001, mm .tile⟩] ∧
    ((squared 0).f.core 0).mq = [] := ⟨rfl, rfl, rfl, rfl, rfl⟩
theorem witness_MmagReadsItsPanels_agree :
    (export0 true 0).square = squareOf 0 ∧ ((squared 0).f.core 0).exportFor (squareOf 0) true 0 = some (export0 true 0) ∧
    ((squared 0).f.core 0).exportFor (squareOf 0) false 0 = some (export0 false 0) ∧
    (export0 true 0).agrees (mm .tile) 16 0 = true ∧ (export0 true 1).agrees (mm .tile) 16 0 = false := by decide
/-- The lower core of a square of one column and two rows: it owns an A panel and reads the B panel of the core above. -/
def owner : State :=
  let s := matrix ((4, 2 ^ 50) :: mmaRegs) thr { cor with occ := some ⟨0, 0, 1⟩ }
  { s with f := { s.f with ctxs := [(0, { ctx with lh := 2, map := [(0, 5)] })] } }
theorem witness_MmagReadsItsPanels_owner : (∀ rs ws, owner.Runs g0 rs ws) := goes _ rfl rfl
theorem witness_MmagReadsItsPanels_exports :
    let p := spansOf owner.cur (mm .tile) 16 0 0 false false
    let ext := extOf (loc 0) p.lenA
    squareOf (2 ^ 50) = ⟨0, 0, 1, 2⟩ ∧ owner.f.find 0 0 0 = some 5 ∧ (owner.f.core 0).exports = [] ∧ (owner.f.core 0).mwait = [] ∧
    fmtBad owner.cur = false ∧ pitchBad 0 p.rowA = false ∧ pitchBad 0 p.rowB = false ∧ p.sclA = 0 ∧ p.sclB = 0 ∧
    (loc 0).toNat + p.lenA ≤ locBase + 0x20000 ∧ (owner.f.matWaits owner.m 0 0 ext (spadTgts ext)).isNone = true ∧
    ((owner.f.core 5).exportFor (squareOf (2 ^ 50)) false 1) = none := by decide +kernel

theorem witness_ProductPairs : 0 < blkSize .k16 ∧ 31 < accRows (.quarter 3) ∧ 63 < accCols (.quarter 3) := by decide

def unit (i : Instr) (done : Bool) : State := mk thr { cor with mq := [entry i done] } ctx
/-- MatrixUnitEvents, for each kind of instruction. -/
theorem witness_MatrixUnitEvents :
    ∀ i ∈ [Instr.mma g0 (mm .tile), .mmag g0 (mm .tile), .mconv g0 (mm .tile), .mldw g0 1 2 3, .mrd g0 .tile 1 .b16 false,
        .mwr g0 .tile 1 .b16 false, .ctload g0 1 2 3, .mzero g0 .tile, .mfill g0 1 2, .mspill g0 1 2, .ctswap g0],
      ((unit i false).f.core 0).mq = [entry i false] ∧ (entry i false).done = false ∧
      ((unit i false).f.core 0).entryWaits (entry i false) = false ∧ ((unit i true).f.core 0).mq = [entry i true] ∧
      (entry i true).done = true ∧ (unit i true).f.wl = [] := by decide +kernel

/-- MatrixUnitEvents: an MFILL of another device's line, asked for and answered, and one of this device's. -/
def filling (gpa : Nat) (rs : List FarRead) : State :=
  { mk thr { cor with mq := [{ entry (.mfill g0 1 2) false with lines := [(gpa, 0)] }] } ctx with m := toFive } |> fun s =>
    { s with f := { s.f with reads := rs } }
theorem witness_MatrixUnitEvents_fill :
    (let a := 5 * 2 ^ 39
     let mine := fun (s : State) (a : Nat) => s.f.reads.find? fun r => r.by' = .unit 0 0 && r.gpa = a && r.len = 64
     toFive.isOther a = true ∧ toFive.isOther 0x2000 = false ∧ st.f.readBad toFive 0x2000 = false ∧
     mine (filling a []) a = none ∧ mine (filling 0x2000 []) 0x2000 = none ∧
     (mine (filling a [⟨1, .unit 0 0, 0, a, 64, some (.value 7)⟩]) a).bind (·.ans) = some (.value 7) ∧
     ((filling a []).f.core 0).mq.map (·.lines) = [[(a, 0)]]) := by decide +kernel

/-- R86, R87, R196: 1 × 2 sixteen times over, added to a pair of 1, is 33; and as a b16 element (R206). -/
theorem test_product :
    addBlocks (fun _ => b16.decode 0x3F80) (fun _ => b16.decode 0x4000) 16 16 1 0 0x3F800000 = 0x42040000 ∧
    pairElem .b16 false 0x42040000 = 0x4204 ∧ elemPair .b16 false 0x4204 = 0x42040000 := by decide +kernel
/-- R191: a K that is no multiple of 16; R190: the thread goes on while the unit holds the entry. -/
theorem test_matrix_issue :
    after (.mma g0 (mm .tile)) (regs [(3, 17)]) (fun t => t.cur.st) = some .parked ∧
    after (.mma g0 (mm .tile)) (regs mmaRegs) (fun t => (t.cur.pc, (t.f.core 0).mq.length)) = some (0x1001, 1) ∧
    after (.ctswap g0) st (fun t => (t.f.core 0).ctActive) = some true := by decide +kernel

/-! Tasks, barriers, messages, traps, control registers. -/

/-- A page tree at 0x8000 that maps virtual 0 to 64 KiB onto device memory, readable, writable and executable. -/
def tables : Memory :=
  [(0x8000, 0x9001), (0x9000, 0xA001), (0xA000, 0xB001), (0xB000, 0xC001), (0xC000, 0x8F)].foldl
    (fun m p => pokes m p.1 (leBytes 8 p.2)) []
def wctx : Ctx := { ctx with ptroot := 0x8000, windows := ctx.windows.set 0 ⟨1, true, 0, 2 ^ 37 - 1⟩ }
/-- The state with that tree and a fabric of the caller's making. -/
def fab (l : List (SReg × Word)) (f : Fab → Fab) : State :=
  let s := mk (l.foldl (fun t p => t.wr p.1 p.2) thr) cor wctx
  { s with f := f { s.f with mem := tables } }
/-- A live record at 0x4000, of kernel 0, one firing running. -/
def live0 : LiveRec := ⟨0, 0x4000, 0, 0, 0, [], 1, false, false, none, [], none, false⟩
def live1 (f : Fab) : Fab := { f with live := [(0x4000, live0)] }

/-- TaskHeads: TSPAWN of an address that fails, a count too large, a live record, and a record that passes its checks. -/
theorem witness_TaskHeads_spawn :
    (∀ rs ws, st.Runs g0 rs ws) ∧ (∃ e k, st.f.operand st.m 0 0 0x10000 64 true true false = .error (e, k)) ∧
    2 ^ 32 ≤ (0x100000000 : Word).toNat ∧ (0xFFFFFFFF : Word).toNat < 2 ^ 32 ∧ who.kid = some 0 ∧
    (∃ k, st.Released st.f true .dom .dom k ∧ k.liveAt 0x2000 = none ∧ k.recChecks st.m 0 0x2000 0x2000 = 0) ∧
    (fab [] live1).f.liveAt 0x4000 = some live0 ∧ st.m.place 0x2000 = .own 0x2000 :=
  ⟨goes st rfl rfl, ⟨_, _, rfl⟩, by decide, by decide, by decide, ⟨_, rfl, rfl, by decide +kernel⟩, rfl, by decide⟩
theorem witness_TaskHeads_operand : ∃ k, st.f.operand st.m 0 0 0x2000 64 true true false = .ok (some 0x2000, k) := ⟨_, rfl⟩
theorem witness_TaskHeads_word : isOk (st.f.operand st.m 0 0 (loc 0) 8 true false true) = true := by decide +kernel
/-- TaskHeads: TSPAWN of a record whose line is poisoned, and of one whose line is not. -/
theorem witness_TaskHeads_poison :
    (Fab.recPoison { st.f with poison := [0x2000 / 64] } st.m 0 0x2000 0x2000).isSome = true ∧
    st.f.recPoison st.m 0 0x2000 0x2000 = none ∧ who.kid = some 0 := by decide +kernel
/-- A watch on a word, and a core that holds sixteen. -/
def watching (n : Nat) (f : Fab) : Fab := { f with watches := (List.range n).map fun i => ⟨8 * i, 0, 0, 0x4000⟩ }
/-- The distributor's watch on word 0 of a queue's descriptor, at address 0. -/
def distributed (f : Fab) : Fab := f.setQueue 0 0 { Queue.reset with watch0 := some 0 }
/-- TaskHeads: TWATCH of a watched word, with sixteen held, with fifteen; TEND; CBADV. -/
theorem witness_TaskHeads_watch :
    (∃ k, (fab [] (watching 16)).f.operand st.m 0 0 0 8 true false false = .ok (some 0, k)) ∧
    (⟨0, 0, 0, 0x4000⟩ : Watch) ∈ (fab [] (watching 16)).f.watches ∧
    (((fab [] (watching 16)).f.watches.filter fun y => y.ctx = 0 && y.vcore = 0).length = Config.watches) ∧
    (((fab [] (watching 15)).f.watches.filter fun y => y.ctx = 0 && y.vcore = 0).length < Config.watches) ∧
    (∀ y ∈ (fab [] (watching 15)).f.watches, y.word ≠ 120) ∧
    (∀ p ∈ (fab [] (watching 15)).f.ctxs, p.2.queues = []) ∧
    (∃ p ∈ (fab [] distributed).f.ctxs, ∃ y ∈ p.2.queues,
      (fab [] distributed).f.watchOf st.m (Fin.ofNat 64 p.1) y.1 0 y.2.watch0 = some 0) :=
  ⟨⟨_, rfl⟩, by decide, by decide, by decide, by decide, by decide, by decide⟩
/-- R255: a word that the distributor watches is busy. -/
theorem test_distributor_watch :
    after (.twatch g0 1 2) { regs [(2, 0x4000)] with f := distributed (regs [(2, 0x4000)]).f }
      (fun t => (t.cur.ctl.trapcause, t.f.watches.length)) = some (0x15, 0) := by decide +kernel
theorem witness_TaskHeads_end :
    (st.f.core 0).mq = [] ∧ st.cur.ls.count .armed = 0 ∧ (slotted .armed none false).cur.ls.count .armed ≠ 0 ∧
    (fab [] live1).cur.firing = some fir ∧ (fab [] live1).f.liveRec st.m 0 fir.recAddr = some (0x4000, live0) := by
  decide +kernel
/-- A descriptor of 4 elements and an allowance of 2 to consume. -/
def buffered : State :=
  mk ({ thr with firing := some { fir with allowC := [(3, 2)] } }.wr 4 2)
    { cor with cbs := cor.cbs.set 3 ⟨0, 1, 4, 0, 0, true⟩ } ctx
theorem witness_TaskHeads_buffer :
    (∀ rs ws, buffered.Runs g0 rs ws) ∧ (st.f.core 0).cbs[(3 : Fin 16)].en = false ∧ (buffered.f.core 0).cbs[(3 : Fin 16)].en = true ∧
    buffered.cur.allowance false 3 = 2 ∧ buffered.cur.allowance true 3 = 0 ∧ ∃ k, buffered.Released buffered.f true .core .core k :=
  ⟨goes _ rfl rfl, by decide, by decide, by decide, by decide, _, rfl⟩
/-- R218: CSEQ goes on by two. -/
theorem test_cbadv : after (.cbadv g0 3 4 false) buffered (fun t => ((t.f.core 0).cbs[(3 : Fin 16)].cseq, t.cur.pc)) =
    some (2, 0x1001) := by decide +kernel
/-- R212, R266: TSPAWN with a count writes COUNT, KERNEL and STATE ARMED; TDEC sends a decrement of one. -/
theorem test_spawn :
    after (.tspawn g0 1 2) (regs [(1, 0x2000), (2, 3)])
      (fun t => (t.f.word t.m 0x2008, t.f.word t.m 0x2028, t.cur.pc)) = some (3, 2 ^ 60, 0x1001) ∧
    after (.tdec g0 1 0) (regs [(1, 0x2000)]) (fun t => t.f.decs.map (·.n)) = some [1] := by decide +kernel

/-- The state with a barrier register and a tree membership. -/
def barred (r : BarReg) (priv : Bool) (f : Fab → Fab) : State :=
  let s := mk thr { cor with bars := cor.bars.set 2 r, trees := cor.trees.set 2 r } { ctx with priv := priv }
  { s with f := f s.f }
/-- BarrierRegisters: refused for its context, its shape and its arrivals; and set. -/
theorem witness_BarrierRegisters :
    (∀ rs ws, st.Runs g0 rs ws) ∧ (st.f.core 0).occ = some ⟨0, 0, 0⟩ ∧ (st.f.ctx 0).priv = false ∧
    bits (2 ^ 48) 63 48 ≠ 0 ∧ (0x2000 : Word).getLsbD 13 = true ∧ 0 < bits 0x10000 23 16 ∧ ¬(bits (2 ^ 32) 39 32 < 1) ∧
    bits 0x8000 63 48 = 0 ∧ (0x8000 : Word).getLsbD 15 = true ∧
    ((barred { BarReg.zero with arr := true } true id).f.core 0).bars[(2 : Fin 8)].arr = true ∧
    ((barred BarReg.zero true id).f.core 0).bars[(2 : Fin 8)].arr = false := ⟨goes st rfl rfl, by decide⟩
/-- A register that is set, with its block at scratchpad 0. -/
def onReg : BarReg := { BarReg.zero with desc := 0x4000 }
/-- A message of the sweep at register 2. -/
def barMsg (k : BKind) (d : Word) (f : Fab) : Fab := { f with bars := [⟨7, k, 0, 2, 0, 0, d, 5⟩] }
/-- BarrierArrivals: BARV unset, busy and set; an arrival that agrees and one that does not; a release; a tree of one core. -/
theorem witness_BarrierArrivals :
    (∀ rs ws, (barred onReg true id).Runs g0 rs ws) ∧ (∃ k, (barred onReg true id).Released (barred onReg true id).f true .dom .dom k) ∧
    BarReg.zero.on = false ∧ onReg.on = true ∧ onReg.arr = false ∧ { onReg with arr := true }.arr = true ∧
    barX0 onReg.desc = 0 ∧ barX1 onReg.desc = 0 ∧ barY0 onReg.desc = 0 ∧ barY1 onReg.desc = 0 ∧
    (barred onReg true (barMsg .row 0x4000)).f.bars.find? (·.id = 7) = some ⟨7, .row, 0, 2, 0, 0, 0x4000, 5⟩ ∧
    (barred onReg true (barMsg .row 0x4000)).f.find 0 0 0 = some 0 ∧ (barred onReg true id).f.closed 0 = false ∧
    barSame onReg.desc 0x4000 = true ∧ barSame onReg.desc 0x10000 = false ∧
    ((barred onReg true id).f.core 0).phaseWaits onReg.desc = false :=
  ⟨goes _ rfl rfl, ⟨_, rfl⟩, by decide, by decide, by decide, by decide, by decide, by decide, by decide, by decide, by decide,
   by decide, by decide, by decide, by decide, by decide⟩
theorem witness_BarrierArrivals_waits :
    (let x := { cor with mq := [{ entry (.mma g0 (mm .tile)) false with rd := [(0, 16)] }] }
     x.phaseWaits onReg.desc) = true ∧
    (let s := barred { onReg with arr := true, counted := true } true id
     s.f.treeReady 0 2 onReg.desc = true ∧ s.f.members 0 (barCores onReg.desc) = some [(⟨0, 0, 0⟩, 0)] ∧
     (s.f.core 0).occ = some ⟨0, 0, 0⟩) := by decide +kernel
/-- BarrierArrivals: an XST of the core that has not landed; a run queue that is full and one with room; a register that stands
for its release, and one that does not. -/
theorem witness_BarrierArrivals_cases :
    (barred onReg true fun f => { f with elems := [{ amoElem .flight with op := .xst 0 0 0x20000 8 0 0 }] }).f.xstsOut ⟨0, 0, 0⟩ = true ∧
    (barred onReg true id).f.xstsOut ⟨0, 0, 0⟩ = false ∧
    ((barred onReg true id).f.core 0).runq.length < Config.runQueue ∧ ((barred onReg true id).f.core 0).late = [] ∧
    (let x := { cor with runq := List.replicate 64 ⟨0, 0x4000, .bound⟩ }
     ¬(x.runq.length < Config.runQueue ∧ x.late = [])) ∧
    ({ onReg with arr := true }.on = true ∧ onReg.arr = false) ∧
    ({ cor with mq := [{ entry (.mma g0 (mm .tile)) false with rd := [(0, 16)] }] }).phaseWaits onReg.desc = true := by
  decide +kernel
/-- R296, R298: the lone core of a rectangle arrives and its own release adds one to PHASE. -/
theorem test_barrier :
    (after (.barv g0 2 false) (barred onReg true id) id).bind
      (fun s => after (.barrierRelease 0) s fun t => (t.f.core 0).locBytes 0 8) = some [1, 0, 0, 0, 0, 0, 0, 0] := by
  decide +kernel

/-- A block at scratchpad 0 whose word 0 is w, with copies of the core in flight. -/
def blocks (w n : Nat) : State :=
  let s := mk (thr.wr 1 (loc 0)) { cor with spad := pokes [] 0 (leBytes 8 w) } ctx
  { s with f := { s.f with msgs := List.replicate n ⟨99, 1, 0, 0, who, 0, 0, 0, true⟩ } }
/-- How the load of a message block ends: a trap, a wait or a block. -/
def loadEnd : LoadRes → Nat
  | .fault .. => 0
  | .wait _ => 1
  | .done .. => 2
def blockReq (a : Word) : Req := { memReq a 64 .load with check6 := false }
/-- An atomic of the task on the block's line, in a buffer. -/
def blockBuf : State := { withBuf with f := { withBuf.f with cores := withBuf.f.cores.map fun x => (x.1, { x.2 with
  agg := [(0, ⟨.slice 0, [{ amoElem .buffered with ea := 0x2000 }], 0⟩)] }) } }
/-- MessageHeads: a block that cannot be read, one whose load waits, RK 3, a target outside the lease, 128 copies in flight, and
none of these. -/
theorem witness_MessageHeads :
    (∀ w n rs ws, (blocks w n).Runs g0 rs ws) ∧ loadEnd (st.f.loadNow st.m 0 0 (blockReq 0x10000)) = 0 ∧
    loadEnd (blockBuf.f.loadNow st.m 0 0 (blockReq 0x2000)) = 1 ∧
    loadEnd ((blocks 0 0).f.loadNow st.m 0 0 (blockReq (loc 0))) = 2 ∧ blkRk (lineOf [3]) = 3 ∧ blkRk (lineOf [0]) = 0 ∧
    (blocks 0 0).f.ctx 0 = ctx ∧ ctx.inLease (blkVx (lineOf [2 ^ 24])) 0 = false ∧ ctx.inLease (blkVx (lineOf [0])) 0 = true ∧
    (blocks 0 128).f.copiesOf who = Config.copyFlight ∧ (blocks 0 127).f.copiesOf who < Config.copyFlight :=
  ⟨fun w n => goes _ rfl rfl, by decide +kernel⟩
theorem witness_MessageHeads_released : ∃ k, (blocks 0 0).Released (blocks 0 0).f true .dom .dom k := ⟨_, rfl⟩
/-- R221: a SEND with no HOLD is injected next. -/
theorem test_send : after (.send g0 1 2) (blocks 0 0) (fun t => (t.f.msgs.map (·.form), t.f.due, t.cur.pc)) =
    some ([0], [.messageInject 0], 0x1001) := by decide +kernel

/-- The state in a trap routine, and in a report firing. -/
def routine : State := mk { thr with st := .routine, ctl := { thr.ctl with trappc := 0x1001 } } cor ctx
def reporting : State := mk { thr with firing := some { fir with kind := .report, kid := none } } cor ctx
theorem goesIn (s : State) (h : s.cur.st = .routine) (hp : s.cur.pend = []) : ∀ rs ws, s.Runs g0 rs ws := by
  intro rs ws
  refine ⟨.inr h, by simp [g0, Thread.rdp], ?_, ?_, ?_⟩ <;> intro p q <;> rw [hp] at q <;> cases q
/-- SoftwareTrap: a task, a report, a routine that is owed nothing, and room in TRAPQ. -/
theorem witness_SoftwareTrap :
    (∀ rs ws, st.Runs g0 rs ws) ∧ st.cur.st = .running ∧ st.cur.firing.map (·.kind) ≠ some .report ∧ routine.cur.owes = false ∧
    (∀ rs ws, routine.Runs g0 rs ws) ∧ st.cur.rdp never.gp = never.gn :=
  ⟨goes _ rfl rfl, rfl, by decide, by decide, goesIn _ rfl rfl, by decide⟩
/-- A context with a trap record at 0x5000. -/
def trapping (t : Thread) : State := mk t cor { ctx with traprec := 0x5000 }
/-- TrapEntryAndReturn: no record, a record that cannot be read, one that can; the routine, a report and neither; a value
owed; a parked thread. -/
theorem witness_TrapEntryAndReturn :
    (st.f.ctx 0).traprec = 0 ∧ ((trapping thr).f.ctx 0).traprec ≠ 0 ∧
    isOk ((trapping thr).f.lineWords st.m 0 who 0x5000) = true ∧
    isOk ((mk thr Core.reset { ctx with traprec := 0x5000 }).f.lineWords st.m 0 who 0x5000) = false ∧
    routine.cur.st = .routine ∧ reporting.cur.firing.map (·.kind) = some .report ∧
    (mk { thr with st := .trapping } cor ctx).cur.st = .trapping ∧ (withPend .waiting).cur.owes = true ∧ st.cur.owes = false ∧
    st.f.coreNum 0 0 = some 0 ∧ (mk { thr with st := .parked } cor ctx).cur.st = .parked ∧
    st.f.frameAt 0 0 = 0x40400 ∧ st.f.saveAt 0 + landingOff 0 = 0x40400 + (landingOff 0 - frameOff 0) ∧ landingOff 0 = 0x43400 :=
  ⟨by decide, by decide, by decide +kernel, by decide +kernel, rfl, rfl, rfl, by decide, by decide, rfl, rfl, by decide, by decide, by decide⟩
/-- TrapEntryAndReturn: a routine with an unanswered atomic; a parked task whose matrix instructions the unit holds, and one without;
aborting; a host command that reaches BAR0 and one that does not; a saved slot that stands as it was saved. -/
def parked (x : TState) (es : List MEntry) : State := mk { thr with st := x } { cor with mq := es } ctx
theorem witness_TrapEntryAndReturn_parked :
    (let s := mk { thr with st := .routine, pend := [owedAdd (.mem 0x2000 page)] } cor ctx
     s.cur.st = .routine ∧ (∀ p ∈ s.cur.pend, p.st.open = true ∧ p.op.isLoad = false) ∧ s.cur.owes = true) ∧
    (let held := fun (s : State) => (s.f.core 0).mq.any fun e => s.cur.fids.contains e.who.fid
     (parked .parked [entry (.mma g0 (mm .tile)) false]).cur.st = .parked ∧ held (parked .parked [entry (.mma g0 (mm .tile)) false]) = true ∧
     held (parked .parked []) = false ∧ (parked .aborting []).cur.st = .aborting ∧
     (parked .parked []).f.coreNum 0 (0 : BitVec 16).toNat = some 0) ∧
    st.m.bar0 = true ∧ Mgt.bar0 { st.m with hostUp := false } = false ∧ routine.cur.take = none ∧ routine.cur.savedPend = [] ∧
    ∀ q : Tag, (routine.f.savedSet routine.m 0 0).slots[q].st = .free := by decide +kernel
/-- The frame and the landing set of the thread lie in this device's memory. -/
theorem witness_TrapEntryAndReturn_memory : ∀ j, j < 0x10000 → st.m.place (0x40400 + j) = .own (0x40400 + j) := by
  intro j hj
  have h1 : (0x40400 + j) / 2 ^ 39 = 0 := by omega
  have h2 : (0x40400 + j) % 2 ^ 39 = 0x40400 + j := by omega
  unfold Mgt.place
  rw [h1, h2]
  rfl

/-- R339, R340: a divide by zero enters the routine with the trap registers set; without a record the thread parks. -/
theorem test_trap :
    after (.divsReg g0 1 2 3) (trapping thr) (fun t => (t.cur.st, t.cur.ctl.trapcause, t.cur.ctl.trappc, t.cur.rd 1, t.cur.rd 2)) =
      some (.routine, 0x0A, 0x1000, 0x5000, 0x40400) ∧
    after (.divsReg g0 1 2 3) st (fun t => (t.cur.st, t.f.trapq)) = some (.parked, [0x800000000000000A]) := by decide +kernel
/-- R234, R235: TRAPPC of TRAP is the next PC, and RTE goes there with the registers of the frame: s7 lies at 0x38. -/
theorem test_trap_return :
    after (.trap g0 0x42) (trapping thr) (fun t => (t.cur.ctl.trappc, t.cur.ctl.trapaddr)) = some (0x1001, 0x42) ∧
    after (.rte g0) { routine with f := { routine.f with mem := pokes [] 0x40438 [9] } }
      (fun t => (t.cur.st, t.cur.pc, t.cur.rd 7)) = some (.running, 0x1001, 9) := by decide +kernel

/-- R342, R365: RTE takes the landing set as it stands in the save area: the routine has put the value 9 into slot 0. -/
theorem test_repaired_slot :
    after (.rte g0) { routine with f := { routine.f with mem := pokes [] 0x43400 (leBytes 8 9 ++ leBytes 8 (2 ^ 63)) } }
      (fun t => (t.cur.ls.slots[0].st, t.cur.ls.slots[0].val)) = some (.landed, 9) := by decide +kernel

/-- ControlRegisters: an unprivileged and a privileged context. -/
theorem witness_ControlRegisters :
    (∀ rs ws, st.Runs g0 rs ws) ∧ (st.f.core 0).occ = some ⟨0, 0, 0⟩ ∧ (st.f.ctx (st.f.core 0).ctxId).priv = false ∧
    ((barred onReg true id).f.ctx 0).priv = true := ⟨goes _ rfl rfl, rfl, rfl, rfl⟩
/-- R70, R236: reserved bits are dropped, AGEMAX is clamped, and AGEMAX of an unprivileged context traps. -/
theorem test_control_registers :
    after (.ctlwr g0 1 .fmta) (regs [(1, 0xFF)]) (fun t => t.cur.ctl.fmta) = some 0x1F ∧
    after (.ctlwr g0 0 .agemax) (barred onReg true id) (fun t => (t.f.core 0).agemax) = some 16 ∧
    after (.ctlwr g0 1 .agemax) st (fun t => (t.cur.st, t.f.trapq)) = some (.parked, [0x800000000000000F]) ∧
    after (.ctlrd g0 3 .fade) st (fun t => t.cur.rd 3) = some 0x3F800000 := by decide +kernel

/-! Events. -/

/-- The slot's load is a value, lies outside, or fails. -/
def slotKind : SlotRes → Nat
  | .fault .. => 0
  | .value .. => 1
  | .away .. => 2
  | .wait _ => 3
/-- A thread with tag 31 armed at an address, and a page. -/
def armed (ea : Word) (e : TlbEnt) : State :=
  mk { thr with ls := ⟨Landing.empty.slots.set 31 ⟨0, .armed, ea, .z32, 0, none, 0⟩, []⟩ } (corWith e) ctx
/-- The page at another device, and at the host. -/
def farPage : TlbEnt := { page with pbase := 9215 * 2 ^ 39 }
def hostPage : TlbEnt := { page with pbase := 0x3FFF * 2 ^ 39 }
/-- Port 0 UP, with a route to device 9215 over it, and an ingress window over the first 64 KiB for devices 1 to 2. -/
def linked (m : Mgt) : Mgt :=
  { m with
    ports := m.ports.set 0 { Port.reset with en := true, st := .up }, ingwin := m.ingwin.set 0 ⟨true, true, 0, 1, 2, 0⟩
    desttab := [(9215, ⟨true, 15, 1⟩)] }
/-- The state with a fabric and registers of the caller's making. -/
def with' (s : State) (f : Fab → Fab) (m : Mgt → Mgt) : State := { s with f := f s.f, m := m s.m }
def slotOf (s : State) : Slot := s.cur.ls.slots[31]

/-- AnswersFromOutside: slots that find a value, fail, and lie outside. -/
theorem witness_AnswersFromOutside_slots :
    (∀ ea e, (armed ea e).f.armedAt (armed ea e).m 0 0 31 0 = some (false, ⟨0, .armed, ea, .z32, 0, none, 0⟩)) ∧
    (let s := armed 0x2000 page
     slotKind (s.f.slotLoad s.m 0 0 false (slotOf s)) = 1) ∧
    (let s := armed 0x10000 page
     slotKind (s.f.slotLoad s.m 0 0 false (slotOf s)) = 0) ∧
    (let s := with' (armed 0x2000 farPage) id linked
     slotKind (s.f.slotLoad s.m 0 0 false (slotOf s)) = 2) ∧
    (let s := with' (armed 0x2000 page) (fun f => f.modCore 0 fun x => { x with
       agg := [(0, ⟨.slice 0, [{ amoElem .buffered with id := 0 }], 0⟩)] }) id
     slotKind (s.f.slotLoad s.m 0 0 false (slotOf s)) = 3) ∧
    (let s := armed 0x2000 hostPage
     slotKind (s.f.slotLoad s.m 0 0 false (slotOf s)) = 1 ∧ s.f.slotAtHost s.m 0 0 (slotOf s) = true) :=
  ⟨fun _ _ => rfl, by decide +kernel⟩

/-- An answer owed by another device. -/
def far (held : Bool) : Pend :=
  { owed .waiting with tgt := .mem (9215 * 2 ^ 39 + 0x2000) farPage, remote := true, held := held }
def farState (held : Bool) : State := mk { thr with pend := [far held] } (corWith farPage) ctx
/-- A remote write of the task that is not acknowledged. -/
def rw : RWrite := ⟨4, who, 0x2000, 9215 * 2 ^ 39 + 0x2000, [1], 0x11, 0, none, none, none, none⟩
def written : State := with' st (fun f => { f with rwrites := [rw] }) id
def admits (q : IngReq) : Bool :=
  (linked st.m).ingwin.toList.any fun w => w.admits q.dev q.addr (ingSize q.kind) (ingWrites q.kind)
/-- A SEND on its way to device 9215. -/
def farSend : Msg := ⟨6, 0, lineOf [2 ^ 43 + 9215 * 2 ^ 44], 0, who, 0, 0, 0, true⟩

/-- AnswersFromOutside: answers owed, held and not; a write whose issuer has its lease; windows that let in the last byte of a
range and not the next; a device without a route. -/
theorem witness_AnswersFromOutside_remote :
    (∀ b, (farState b).cur.owed 0 true = some (far b)) ∧ (farState true).cur.st = .running ∧
    written.f.rwrites.find? (·.id = 4) = some rw ∧ rw.who.fid ≠ 0 ∧ written.f.find rw.who.ctx rw.who.vx rw.who.vy = some 0 ∧
    (written.f.core 0).flog = [] ∧ (written.f.core 0).holds rw.who.fid = true ∧
    (linked st.m).ports[(0 : PortId)].st = .up ∧ admits ⟨2, 0, 0xFFF8, .read 8⟩ = true ∧ admits ⟨1, 0, 0xFFFF, .write [1]⟩ = true ∧
    admits ⟨2, 0, 0xFFF9, .read 8⟩ = false ∧ admits ⟨3, 0, 0, .read 8⟩ = false ∧ (linked st.m).devnum ≠ 0x3FFF ∧
    st.f.poisoned 0xFFF8 8 = false ∧ st.m.routed 9215 = false ∧ 9215 ≠ st.m.devnum.toNat ∧
    (far false).tgt.isAt st.m 9215 = true ∧ farSend.away 9215 = true ∧
    (let s := mk { thr with pend := [owed .waiting] } (corWith hostPage) ctx
     s.cur.owed 0 false = some (owed .waiting) ∧
     (match s.f.check s.m 0 (s.f.who 0 0) (owed .waiting).req with
      | .ok (.mem gpa _, _) => gpa == 0x3FFF * 2 ^ 39 + 0x2000
      | _ => false) = true) := by
  refine ⟨by decide, by decide, ?_⟩; decide +kernel
/-- R62, R157, R152: a landing value is extended and ordered; the owner's answer goes to the destination; an admitted write. -/
theorem test_answers :
    after (.landingSlotArrival 0 0 31 ⟨0, 0xFFFFFFFF00000005⟩) (with' (armed 0x2000 farPage) (fun f => { f with sent := [⟨.slot 0 0 0, 9215, 0, some 0⟩] }) linked)
      (fun t => ((slotOf t).st, (slotOf t).val, t.cur.ls.order)) =
      some (.landed, 5, [31]) ∧
    after (.remoteAnswer 0 0 0 (.value 0x1FFFFFFFF)) (farState true) (fun t => (t.cur.rd 5, t.cur.pend, t.cur.pc)) =
      some (0xFFFFFFFF, [], 0x1001) ∧
    after (.ingressRequest 0 ⟨2, 7, 0xFFFF, .write [9]⟩) (with' st id linked) (fun t => (t.f.devByte 0xFFFF, t.f.answers)) =
      some (9, [⟨2, 7, none, []⟩]) := by decide +kernel

/-- An element of the task, and a state with elements. -/
def el (e : ElOp) (d : Dest) (q : ElSt) : Elem := ⟨7, who, loc 0, 0x2000, false, e, d, q, 0, true, []⟩
def elems (s : State) (l : List Elem) : State := with' s (fun f => { f with elems := l }) id
def addOp : ElOp := .amo .add .w32 1 .comm
/-- A buffer that is one cycle old. -/
def aged (age : BitVec 16) : State :=
  with' (mk thr { cor with agg := [(0, ⟨.slice 0, [el addOp (.slice 0) .buffered], 0⟩)], aggage := age } ctx)
    (fun f => { f with cycle := 1 }) id
/-- ElementsAndWriteLane: a buffer at its age and one below; atomics at a slice, a core and another device; two that merge. -/
theorem witness_ElementsAndWriteLane_atomics :
    ((aged 1).f.core 0).agg.find? (·.1 = 0) = some (0, ⟨.slice 0, [el addOp (.slice 0) .buffered], 0⟩) ∧
    (aged 2).f.cycle < 0 + ((aged 2).f.core 0).aggage.toNat ∧ 0 + ((aged 1).f.core 0).aggage.toNat ≤ (aged 1).f.cycle ∧
    (∀ d ∈ [Dest.slice 0, .core 0 0, .device 9215 0],
      (elems st [el addOp d .flight]).f.elems.find? (fun e => e.id = 7 && e.st == .flight) = some (el addOp d .flight) ∧
      (elems st [el addOp d .flight]).f.behind (el addOp d .flight) = false) ∧
    st.m.place 0x2000 = .own 0x2000 ∧ st.f.poisoned 0x2000 4 = false ∧ clash.conflicts who 0 true = true ∧
    ctx.conflicts who 0x2000 true = false ∧ st.f.find 0 0 0 = some 0 ∧ st.f.closed 0 = false ∧ (st.f.core 0).locked 0 4 = false ∧
    (let a := el addOp (.core 0 0) .flight
     (elems st [a, { a with id := 8 }]).f.elems.find? (mergeable ctx a) = some { a with id := 8 }) := by decide +kernel

/-- A core in phase 1 of its exchange register. -/
def phased : State := mk thr { xchCore with xphase := 1 } ctx
def xstOp (stamp : Nat) : ElOp := .xst 0 0 0x20000 8 5 stamp
/-- An entry of the write queue. -/
def lane (wlc : Nat) (data : Line) : WEntry := ⟨9, who, 0, 128, 0, data, wlc, .queue, none, false, false, false⟩
def laned (wlc : Nat) : State := with' st (fun f => { f with wl := [lane wlc 1] }) id
/-- ElementsAndWriteLane: XST elements of an earlier, the same and a later phase, or without a register; a queued line. -/
theorem witness_ElementsAndWriteLane_rest :
    (∀ n ∈ [0, 1, 2], (elems phased [el (xstOp n) (.core 0 0) .flight]).f.elems.find?
      (fun e => e.id = 7 && (e.st == .flight || e.st == .held)) = some (el (xstOp n) (.core 0 0) .flight)) ∧
    (phased.f.core 0).exchange.isNone = false ∧ (phased.f.core 0).xphase = 1 ∧ (st.f.core 0).exchange = none ∧
    phased.f.find 0 0 0 = some 0 ∧ phased.f.closed 0 = false ∧
    (laned 1).f.wl.find? (·.id = 9) = some (lane 1 1) ∧ (laned 1).f.nextLine 0 = some (lane 1 1) ∧
    (laned 1).f.dirtyAt 128 = none := by decide +kernel
/-- ElementsAndWriteLane: an element behind another, one that is posted, a core that is closed, a window that has passed, a line
that its home slice holds dirty. -/
theorem witness_ElementsAndWriteLane_more :
    (let a := el addOp (.slice 0) .flight
     (elems st [{ a with id := 6 }, a]).f.behind a = true ∧ (elems st [a]).f.posted a = false) ∧
    (let a := el (xstOp 1) (.core 0 0) .flight
     (elems phased [{ a with id := 6 }, a]).f.behind a = true ∧ (elems phased [a]).f.behind a = false) ∧
    (mk thr { xchCore with power := .gated } ctx).f.closed 0 = true ∧ st.m.windowNo 0 = st.f.winAt[(0 : StackId)] ∧
    (let m := { st.m with time := Vector.replicate 4 20000 }
     m.windowNo 0 ≠ st.f.winAt[(0 : StackId)]) ∧
    (with' (laned 1) (fun f => { f with dirty := [(128, ⟨none, 0, 0, 0, 0, none⟩)] }) id).f.dirtyAt 128 = some ⟨none, 0, 0, 0, 0, none⟩ := by
  decide +kernel
/-- AnswersFromOutside: a write of an engine's step, and one to host memory. -/
theorem witness_AnswersFromOutside_writes :
    (let r := { rw with op := some (3, 8), who := Who.none }
     (with' st (fun f => { f with rwrites := [r] }) id).f.rwrites.find? (·.id = 4) = some r ∧ r.op = some (3, 8)) ∧
    (let r := { rw with gpa := 0x3FFF * 2 ^ 39 + 8 }
     st.m.atHost r.gpa = true ∧ r.queue = none ∧ st.cur.owed 4 false = none ∧ st.f.elems = []) ∧ st.m.atHost rw.gpa = false ∧
    (with' st id linked).m.routed 9215 = true := by decide +kernel
/-- AnswersFromOutside: a slot whose load has left, one of the save area, an answer to another read, a write that covers a poisoned line
in part, a decrement by a link peer refused and applied, and what waits for a lost device. -/
theorem witness_AnswersFromOutside_more :
    (let s := with' (armed 0x2000 farPage) (fun f => { f with sent := [⟨.slot 0 0 0, 9215, 0, some 0⟩] }) id
     (∃ y ∈ s.f.sent, y.what = .slot 0 0 0 ∧ y.dev = 9215) ∧ (s.f.armedAt s.m 0 0 31 0).isSome = true) ∧
    (let r : FarRead := ⟨7, .head 0 0 3, 0, 9215 * 2 ^ 39, 64, none⟩
     let s := with' st (fun f => { f with reads := [r] }) id
     s.cur.owed 7 true = none ∧ s.f.reads.find? (fun r => r.id = 7 && r.ans.isNone) = some r ∧
     st.m.place r.gpa = .other 9215 0) ∧
    (let f := { st.f with poison := [0x80] }
     f.partPoison 0x2000 8 = true ∧ f.partPoison 0x2000 64 = false ∧ f.partPoison 0x2040 8 = false ∧
     (match f.linkDecrement st.m 0x2000 1 0 with | .error e => e == .pageFault | _ => false) = true ∧
     (match st.f.linkDecrement st.m 0x2000 1 0 with | .error e => e == .taskRecord | _ => false) = true) ∧
    (let f := live1 (pokes [] 0x4008 [2] |> fun m => { st.f with mem := m })
     (match f.linkDecrement st.m 0x4000 3 0 with | .error e => e == .countUnderflow | _ => false) = true ∧
     (match f.linkDecrement st.m 0x4000 1 0 with | .ok _ => true | _ => false) = true) ∧
    (⟨2, 7, 0, .ack true⟩ : IngReq).kind = .ack true ∧ ∀ chime, (⟨2, 7, 0, .read 8⟩ : IngReq).kind ≠ .ack chime := by
  decide +kernel

/-- R163, R120, R116: a posted addition at the home slice; an XST of the current phase fills the shadow bank; a line drains. -/
theorem test_elements :
    after (.aggregationElementApply 7 false) (elems st [el addOp (.slice 0) .flight]) (fun t => t.f.bytesAt t.m 0x2000 4) =
      some [1, 0, 0, 0] ∧
    after (.xstLand 7) (elems phased [el (xstOp 1) (.core 0 0) .flight]) (fun t => peeks (t.f.core 0).shadow 0 2) = some [5, 0] ∧
    after (.writeLaneDrain 9) (laned 1) (fun t => (peeks t.f.mem 8192 2, t.f.wl)) = some ([1, 0], []) := by decide +kernel

/-- A record at 0x4000 with COUNT and PEND, live in kernel 0. -/
def recorded' (count pend : Nat) (f : Fab) : Fab :=
  live1 { f with mem := pokes (pokes f.mem 0x4008 (leBytes 8 count)) 0x4030 (leBytes 8 pend) }
/-- A decrement of n on its way to the record. -/
def decs (count n : Nat) : State :=
  fab [] fun f => { recorded' count 0 f with decs := [⟨5, 0, 0x4000, n, 0, .wake⟩] }
/-- Nothing waits in a chain, and no run queue is full. -/
def calm (s : State) : Bool :=
  (List.finRange 2304).all fun d => (s.f.core d).chain.isEmpty && (s.f.core d).late.isEmpty && decide ((s.f.core d).runq.length < Config.runQueue)
/-- TaskEvents: decrements below, at and above COUNT of a live record, with no chain. -/
theorem witness_TaskEvents_decrement :
    (∀ n ∈ [1, 2, 3],
      (decs 2 n).f.decs.find? (·.id = 5) = some ⟨5, 0, 0x4000, n, 0, .wake⟩ ∧
      (decs 2 n).f.recWr st.m 0 0x4000 = some 0x4000 ∧ (decs 2 n).f.field st.m 0x4000 1 31 0 = 2 ∧
      (decs 2 n).f.liveAt 0x4000 = some live0 ∧ (decs 2 n).f.recPend st.m 0x4000 = 0) ∧
    st.m.place 0x4000 = .own 0x4000 ∧ calm (decs 2 2) = true := by decide +kernel
/-- A counter firing in the run queue. -/
def ready : State :=
  fab [] fun f => (recorded' 0 1 f).modCore 0 fun x => { x with runq := [⟨0, 0x4000, .counter 0⟩] }
/-- A message of a block whose words are l, and its chime. -/
def msg (form : Nat) (l : List Nat) : Msg := ⟨6, form, lineOf l, 9, who, 0, 0, 0, true⟩
def chimed' (l : List Nat) : State :=
  with' st (fun f => { f with chimes := [⟨8, msg 1 l, .done, none, 0, 0, false, false⟩] }) id
/-- TaskEvents: thread 1 may take the only firing; chimes with no area and RK 1, and with an area in the window. -/
theorem witness_TaskEvents_bind :
    ready.f.binds 0 = true ∧ (ready.f.core 0).mayTake 1 = true ∧ (ready.f.core 0).runq = [⟨0, 0x4000, .counter 0⟩] ∧
    (ready.f.core 0).inbox = [] ∧ (ready.f.core 0).flog = [] ∧ calm ready = true ∧
    ready.f.liveRec ready.m (ready.f.core 0).ctxId 0x4000 = some (0x4000, live0) ∧ ready.f.recPend ready.m 0x4000 = 1 ∧
    wordOf (lineOf [1]) 3 = 0 ∧ blkRk (lineOf [1]) = 1 ∧
    wordOf (lineOf [0, 0, 0, locBase + 0x1FFC0]) 3 % 2 ^ 57 = locBase + 0x1FFC0 ∧
    blkRk (lineOf [0, 0, 0, locBase + 0x1FFC0]) = 0 ∧
    (chimed' [1]).f.chimes.find? (·.id = 8) = some ⟨8, msg 1 [1], .done, none, 0, 0, false, false⟩ ∧
    (∀ l ∈ [[1], [0, 0, 0, locBase + 0x1FFC0]], st.f.statusFlies ⟨8, msg 1 l, .done, none, 0, 0, false, false⟩ = false) ∧
    st.f.find 0 0 0 = some 0 ∧ st.f.closed 0 = false ∧ (st.f.core 0).locked 0x1FFC0 64 = false := by decide +kernel
/-- A kernel of queue 0, and a wake. -/
def kern (intr : Bool) : Kernel := ⟨7, 0, 0, 0, 0, 0, intr, .running⟩
def ending (intr : Bool) : State := with' st (fun f => { f with kernels := [kern intr] }) id
def waking : State := with' st (fun f => { f with wakes := [⟨3, 0, 0x4000, 0⟩] }) id
theorem witness_TaskEvents_kernel :
    waking.f.wakes.find? (·.id = 3) = some ⟨3, 0, 0x4000, 0⟩ ∧
    (∀ b, (ending b).f.kernels.find? (fun k => k.kid = 7 && (ending b).f.mayComplete st.m k) = some (kern b)) ∧
    ((ending true).f.ctx 0).st = .active ∧ ((ending true).f.ctx 0).pre = none := by decide +kernel
/-- R214, R271: a decrement that leaves COUNT above zero, one that reaches it; the firing's registers. -/
theorem test_tasks :
    after (.decrementApply 5) (decs 2 1) (fun t => (t.f.field t.m 0x4000 1 31 0, t.f.decs.length)) = some (1, 0) ∧
    after (.decrementApply 5) (decs 2 2) (fun t => t.f.recPend t.m 0x4000) = some 1 ∧
    after (.firingBind 0 1) ready (fun t => ((t.f.thread 0 1).st, (t.f.thread 0 1).rd 1, t.f.recPend t.m 0x4000)) =
      some (.running, 0x4000, 0) ∧
    after (.kernelComplete 7) (ending false) (fun t => (t.f.kernels, t.f.out)) = some ([], []) := by decide +kernel

/-- A message in flight that has been injected, or an operation of an engine. -/
def sent (x : Msg) : State := with' st (fun f => { f with msgs := [x] }) id
def op (x : Msg) (started : Bool) (pos : Nat) : EngOp := ⟨x, started, pos, 0, none, false, false, [], none⟩
def oping (x : Msg) (started : Bool) (pos : Nat) : State := with' st (fun f => { f with ops := [op x started pos] }) id
/-- n copies that wait in the copy engine's inbox, and a fifth message. -/
def fullCopies (n : Nat) : State :=
  with' (sent (msg 1 [])) (fun f => { f with ops := List.replicate n (op { msg 1 [] with id := 50 } false 0) }) id
/-- EngineEvents: a message due and gone; an inbox with room and a full one; a SEND to a live record and to a full inbox. -/
theorem witness_EngineEvents_messages :
    (sent { msg 1 [] with gone := false }).f.msgs.find? (fun x => x.id = 6 && !x.gone && x.due ≤ st.f.cycle) =
      some { msg 1 [] with gone := false } ∧
    (sent (msg 1 [])).f.msgs.find? (fun x => x.id = 6) = some (msg 1 []) ∧ (msg 1 []).gone = true ∧ (msg 1 []).form ≠ 0 ∧
    (fullCopies Config.copyInbox).f.inboxFull (msg 1 []) = true ∧ (fullCopies (Config.copyInbox - 1)).f.inboxFull (msg 1 []) = false ∧
    blkRmt (lineOf [0, 0, 0, 0, 0x4000]) = false ∧ blkVx (lineOf [0, 0, 0, 0, 0x4000]) = 0 ∧
    st.f.find 0 0 0 = some 0 ∧ st.f.closed 0 = false ∧
    ((with' st (fun f => f.modCore 0 fun x => { x with inbox := List.replicate Config.taskInbox ⟨0, 0, 0, 0⟩ }) id).f.core 0).inbox.length =
      Config.taskInbox ∧
    (st.f.core 0).inbox.length < Config.taskInbox ∧ ((fab [] live1).f.liveRec st.m 0 0x4000).isSome = true := by decide +kernel
/-- A copy, a gather of one element of four bytes within the window, a prefetch. -/
def copyMsg (size : Nat) : Msg := msg 1 [0, 0, 0, 0, 0x2000, 0x3000, size]
def gatherMsg (count : Nat) : Msg := msg 2 [0, 0, 0, 0, locBase, locBase + 0x1000, 4 * 2 ^ 32 + count, locBase]
def prefMsg (ea size : Nat) : Msg := msg 3 [0, 0, 0, 0, ea, 0, size]
theorem witness_EngineEvents_engines :
    (oping (copyMsg 0) false 0).f.recvCore (copyMsg 0) ≠ none ∧
    (copyMsg 0).early (cpSize (copyMsg 0).blk) (st.f.copyBad (copyMsg 0)) = some .done ∧
    cpSize (copyMsg 64).blk = 64 ∧ (oping (copyMsg 64) true 64).f.rwrites = [] ∧
    (gatherMsg 0).early (gaCount (gatherMsg 0).blk) (gatherBad (gatherMsg 0).blk) = some .done ∧
    (let b := (gatherMsg 1).blk
     gaCount b = 1 ∧ gaSize b = 4 ∧ gaIdx b + 4 * 0 = locBase + 0 ∧ leNum ((st.f.core 0).locBytes 0 4) = 0 ∧
     gaBase b = locBase ∧ gaDst b + 4 * 0 = locBase + 0x1000 ∧ (st.f.core 0).locked 0x1000 4 = false) ∧
    (prefMsg 0 0).early (cpSize (prefMsg 0 0).blk) none = some .done ∧
    st.f.prefFault st.m 0 0 (wordOf (prefMsg 0xFFC0 64).blk 4) = none ∧
    st.f.prefFault st.m 0 0 (wordOf (prefMsg 0x10000 64).blk 4) = some .pageFault ∧
    collOp (msg 4 [0, 0, 0, 0, 0, 0, 3 * 2 ^ 36]).blk = none := by decide +kernel
/-- The state with two ranks for context 0, and contributions of slots. -/
def coll (l : List (Nat × Option Msg)) : State :=
  with' st (fun f => { f with contribs := l.map fun p => ⟨0, 9, .sum, .s32, 1, p.1, [[2]], p.2, 0, false, none⟩ }) (fun m => { m with collslots := [(0, 2)] })
/-- EngineEvents: a contribution that overlaps and one that does not; a collective not yet covered, covered by others, and
covered with one of this device. -/
theorem witness_EngineEvents_collectives :
    (coll [(0, none)]).f.collBad (coll []).m 0 9 .sum .s32 1 0 1 = true ∧
    (coll [(0, none)]).f.collBad (coll []).m 0 9 .sum .s32 1 1 1 = false ∧
    (coll [(0, none)]).f.covered (coll []).m 0 9 = false ∧ (coll [(0, none), (1, none)]).f.covered (coll []).m 0 9 = true ∧
    (let s := with' (coll [(0, some (msg 4 []))]) id (fun m => { m with collslots := [(0, 1)] })
     s.f.contribsOf 0 9 = [⟨0, 9, .sum, .s32, 1, 0, [[2]], some (msg 4 []), 0, false, none⟩] ∧ s.f.covered s.m 0 9 = true) := by decide +kernel
/-- EngineEvents: a message behind another to one inbox; a copy for a core outside the lease; an operation that awaits the answer
to a write, and one whose write failed; the result of a collective. -/
theorem witness_EngineEvents_more :
    (let a := msg 0 [0, 0, 0, 0, 0x4000]
     (with' st (fun f => { f with msgs := [{ a with id := 5 }, a] }) id).f.msgBehind a = true ∧ (sent a).f.msgBehind a = false ∧
     (sent a).f.sent = []) ∧
    (let x := msg 1 [2 ^ 24, 0, 0, 0, 0, 0, 0, 2 ^ 4]
     blkCbf x.blk = true ∧ (oping x false 0).f.recvCore x = none) ∧
    (with' (oping (copyMsg 64) true 64) (fun f => { f with rwrites := [{ rw with op := some (6, 0) }] }) id).f.awaits 6 = true ∧
    (oping (copyMsg 64) true 64).f.awaits 6 = false ∧
    (let s := with' (coll [(0, some (msg 4 [0, 0, 0, 0, 0, locBase]))]) id (fun m => { m with collslots := [(0, 1)] })
     (match s.f.engWrites s.m 0 who 4 (fun ea => some (6, (ea - locBase) / 4)) (.collectiveComplete 0 9) 2 0 locBase
        (s.f.collBytes s.m 0 9) with
      | .done g => !g.awaits 6
      | _ => false) = true) := by decide +kernel
/-- A copy of eight bytes from scratchpad 0 to an address, its word 7 as given. -/
def moveMsg (dst w7 : Nat) : Msg := msg 1 [0, 0, 0, 0, locBase, dst, 8, w7]
/-- It is under way; its core's scratchpad starts with 1 to 8, buffer 3 has room, and thread 7 takes landing handlers. -/
def moving (x : Msg) (hand gran : Bool) : State :=
  let s := fab [] fun f => { live1 f with ops := [{ op x true 0 with handler := hand, granDone := gran }] }
  with' s (fun f => (f.modCore 0 fun y =>
    { y with spad := pokes [] 0 [1, 2, 3, 4, 5, 6, 7, 8], landctl := true, cbs := y.cbs.set 3 ⟨0, 0, 4, 0, 0x40, true⟩ }).modCtx 0
    fun n => { n with nolimit := Vector.replicate 8 true }) id
/-- EngineEvents: a copy within the window, to memory, into a buffer, and with a landing handler. -/
theorem witness_EngineEvents_copy :
    (let x := moveMsg (locBase + 0x1000) 0
     let s := moving x false false
     s.f.recvCore x = some 0 ∧ blkLh x.blk = false ∧ blkCbf x.blk = false ∧ cpSrc x.blk + 0 = locBase + 0 ∧
     cpDst x.blk + 0 = locBase + 0x1000 ∧ (s.f.flying 6).length = 0 ∧ s.f.stepEnd s.m 0 x 0 = 8 ∧ s.f.closed 0 = false ∧
     (s.f.core 0).locked 0x1000 8 = false) ∧
    (let x := moveMsg 0x3000 0
     let s := moving x false false
     s.f.stepEnd s.m 0 x 0 = 8 ∧ ((s.f.check s.m 0 x.who (engReq 0x3000 8 .store)).toOption.any fun r =>
       r.1 = .mem 0x3000 page) = true ∧ (s.f.ctx 0).mayEnter (stackOf 0x3000) = true) ∧
    (let x := moveMsg 0 (2 ^ 4 + 3)
     let s := moving x false false
     let cb := (s.f.core 0).cbs[(3 : Fin 16)]
     s.f.recvCore x = some 0 ∧ blkCbf x.blk = true ∧ blkCb x.blk = 3 ∧ freeCount cb = 4 ∧ slotOff cb 0 = 0x1000 ∧ elemBytes cb = 64 ∧
     (s.f.core 0).locked 0x1000 64 = false) ∧
    (let x := moveMsg (locBase + 0x1000) (2 ^ 5 + 0x4000)
     let s := moving x false false
     blkLh x.blk = true ∧ blkLhrec x.blk = 0x4000 ∧ (s.f.core 0).landctl = true ∧ ((s.f.core 0).threads[7]).st = .free ∧
     (s.f.liveRec s.m 0 0x4000).isSome = true ∧ s.f.mayBind s.m 0 0x4000 = true) := by decide +kernel
/-- EngineEvents: an operation between two steps of a context that is being stopped; a decrement behind another; accepted
contributions. -/
theorem witness_EngineEvents_stopped :
    (let x := moveMsg (locBase + 0x1000) 0
     let s := with' (moving x false false) (fun f => f.modCtx 0 fun n => { n with pre := some .engines }) id
     s.f.enginesOff 0 = true ∧ s.f.betweenSteps s.m (op x true 0) = true) ∧ st.f.enginesOff 0 = false ∧
    (let d : Dec := ⟨5, 0, 0x4000, 1, 0, .tdec who⟩
     (fab [] fun f => { recorded' 2 0 f with decs := [{ d with id := 4 }, d] }).f.decBehind st.m d = true ∧
     (fab [] fun f => { recorded' 2 0 f with decs := [d] }).f.decBehind st.m d = false) ∧
    (let x := msg 4 [0, 0, 0, 0, locBase, 0x3000, 7 * 2 ^ 32 + 1, 2 ^ 16]
     let s := with' (oping x false 0) id (fun m => { m with collslots := [(0, 2)] })
     collOp x.blk = some .sum ∧ collTy x.blk = some .s32 ∧ cpSrc x.blk = locBase + 0 ∧ collSlots x.blk = 1 ∧ gaCount x.blk = 1 ∧
     s.f.collBad s.m 0 9 .sum .s32 1 0 1 = false) ∧
    (let l : LinkContrib := ⟨2, 0, 9, .sum, .s32, 1, 1, [[5]]⟩
     (coll [(0, none)]).f.collBad (coll []).m l.ctx l.id l.op l.ty l.count l.slot0 l.slots.length = false ∧
     ∀ x ∈ l.slots, x.length = l.count) := by decide +kernel
/-- R225, R230: a step moves the bytes within the window, into a buffer, whose PSEQ advances, and to a landing handler as v0 and v1. -/
theorem test_copy_steps :
    after (.copyStep 6) (moving (moveMsg (locBase + 0x1000) 0) false false)
      (fun t => (t.f.ops.map (·.pos), (t.f.core 0).locBytes 0x1000 8)) = some ([8], [1, 2, 3, 4, 5, 6, 7, 8]) ∧
    after (.copyStep 6) (moving { moveMsg 0 (2 ^ 4 + 3) with blk := lineOf [0, 0, 0, 0, locBase, 0, 64, 2 ^ 4 + 3] } false false)
      (fun t => (t.f.ops.map (·.pos), (t.f.core 0).locBytes 0x1000 2, ((t.f.core 0).cbs[(3 : Fin 16)]).pseq)) =
      some ([64], [1, 2], 1) ∧
    after (.copyStep 6) (moving (moveMsg (locBase + 0x1000) (2 ^ 5 + 0x4000)) false false)
      (fun t => ((t.f.thread 0 7).st, (t.f.thread 0 7).rdv 0, (t.f.thread 0 7).rdv 1, t.f.ops.map (·.handler))) =
      some (.running, 0x0807060504030201, lineOf [locBase + 0x1000, 8, 9], [true]) ∧
    after (.copyStep 6) (moving (moveMsg (locBase + 0x1000) (2 ^ 5 + 0x4000)) false true)
      (fun t => t.f.ops.map fun o => (o.pos, o.granDone)) = some [(8, false)] := by decide +kernel
/-- R226, R225, R333: a gathered element; a copy's step; the sum of two ranks. -/
theorem test_engines :
    after (.gatherElement 6) (with' (oping (gatherMsg 1) true 0) (fun f => f.modCore 0 fun x => x.locWrite 0 [0, 0, 0, 0]) id)
      (fun t => (t.f.ops.map (·.pos), (t.f.core 0).locBytes 0x1000 4)) = some ([1], [0, 0, 0, 0]) ∧
    after (.copyStep 6) (with' (oping (copyMsg 8) true 0) (fun f =>
        { f with mem := pokes [] 0x2000 [1, 2, 3, 4, 5, 6, 7, 8] }.modCtx 0 fun n => { n with nolimit := Vector.replicate 8 true }) id)
      (fun t => t.f.bytesAt t.m 0x3000 8) = some [1, 2, 3, 4, 5, 6, 7, 8] ∧
    (coll [(0, none), (1, none)]).f.collBytes (coll []).m 0 9 = [4, 0, 0, 0] := by decide +kernel

/-- A FREE context 0 whose record at 0x10000 has one queue, a lease of w by h, and one window over the first 128 MiB. -/
def recWords (w h : Nat) : List (Nat × Nat) :=
  [(0, 0x8000), (1, 2 ^ 59), (2, 256 * h + w), (8, 3 * 2 ^ 61), (9, 0x7FF0000), (24, 0x100000)]
def created (w h : Nat) : State :=
  with' State.reset
    (fun f => { f with ctxbase := 0x10000, mem := (recWords w h).foldl (fun m p => pokes m (0x10000 + 8 * p.1) (leBytes 8 p.2)) tables })
    (fun m => { m with dev := .running, devnum := 0 })
/-- The state of context 0 in a state, with a pre-emption's step. -/
def inSt (x : CtxSt) (p : Option PreStep) : State :=
  with' st (fun f => f.setCtx 0 { ctx with st := x, pre := p, lease := if x = .active then .granted else .ending }) id
/-- ContextEvents: not running; busy; FREE with a record that is valid and one that is not; every other state. -/
theorem witness_ContextEvents_commands :
    State.reset.m.dev ≠ .running ∧ (inSt .destroying none).f.ctxBusy = true ∧ st.m.dev = .running ∧ st.f.ctxBusy = false ∧
    (with' st id fun m => { m with hostUp := false }).m.bar0 = false ∧ st.m.bar0 = true ∧ (created 1 1).m.bar0 = true ∧
    (created 1 1).m.dev = .running ∧ (created 1 1).f.ctxBusy = false ∧ ((created 1 1).f.ctx 0).st = .free ∧
    (let s := created 1 1
     s.f.ctxReadable s.m 0 = true ∧ recValid s.m (s.f.ctxRecord s.m 0) = true) ∧
    (let s := created 49 1
     recValid s.m (s.f.ctxRecord s.m 0) = false) ∧
    (∀ x ∈ [CtxSt.waiting, .active, .suspended], ((inSt x none).f.ctx 0).st = x ∧ (inSt x none).f.ctxBusy = false) := by
  decide +kernel
/-- One request, of a lease of w by h, on a device with core 0 taken, or fenced. -/
def asking (w h : Nat) (fenced : Bool) : State :=
  with' st (fun f => { f with reqs := [1], ctxs := f.ctxs ++ [(1, { Ctx.reset with st := .waiting, lease := .requested, lw := w, lh := h })] })
    (fun m => { m with fencedCores := if fenced then [0] else [] })
/-- ContextEvents: a lease with no room on any core, with none for now, and with room beside core 0. -/
theorem witness_ContextEvents_grant :
    findRect 48 48 (fun c => !(asking 48 48 true).m.coreFenced c) = none ∧
    findRect 48 48 (fun c => !(asking 48 48 false).m.coreFenced c) = some (0, 0) ∧
    (let s := asking 48 48 false
     findRect 48 48 (fun c => !s.m.coreFenced c && (s.f.core c).occ.isNone) = none) ∧
    (let s := asking 2 1 false
     findRect 2 1 (fun c => !s.m.coreFenced c && (s.f.core c).occ.isNone) = some (1, 0) ∧ (s.f.ctx 1).saved = false ∧
     s.f.reqs = [1]) := by decide +kernel
/-- ContextEvents: a request that waits, and behind it one that no rectangle can hold. -/
theorem witness_ContextEvents_later :
    (let s := with' (asking 48 48 false) (fun f => { f with reqs := [1, 2], ctxs := f.ctxs ++ [(2, { Ctx.reset with lw := 49, lh := 1 })] }) id
     s.f.reqs = [1, 2] ∧ findRect 48 48 (fun c => !s.m.coreFenced c && (s.f.core c).occ.isNone) = none ∧
     findRect 48 48 (fun c => !s.m.coreFenced c) = some (0, 0) ∧ (s.f.ctx 2).lw = 49 ∧
     findRect 49 1 (fun c => !s.m.coreFenced c) = none) := by decide +kernel
/-- The state whose thread is free and whose context is at a step of its pre-emption. -/
def stepping (p : PreStep) : State :=
  with' (mk Thread.reset cor ctx) (fun f => f.setCtx 0 { ctx with st := .suspending, pre := some p, lease := .ending, stopping := true }) id
theorem witness_ContextEvents_preempt :
    (∀ p ∈ [PreStep.retire, .engines, .buffers, .loads, .barriers, .save],
      (stepping p).f.preReady (stepping p).m 0 = true ∧ ((stepping p).f.ctx 0).pre = some p) ∧
    (inSt .suspending (some .retire)).f.preReady st.m 0 = false ∧ ((inSt .destroying none).f.ctx 0).st = .destroying ∧
    (inSt .destroying none).f.pairs = [] := by decide +kernel
/-- R242, R279, R346, R249: CREATE, the grant that follows, a step of a pre-emption, and a teardown. -/
theorem test_contexts :
    (after (.create 3 0) (created 1 1) id).bind (fun s => after .leaseGrant s fun t =>
      ((t.f.ctx 0).st, (t.f.ctx 0).nq, (t.f.core 0).occ, t.f.ctxrspValue)) = some (.active, 1, some ⟨0, 0, 0⟩, 0x300002000) ∧
    after (.suspend 3 0) st (fun t => ((t.f.ctx 0).st, (t.f.ctx 0).pre, t.f.ctxrspValue)) =
      some (.suspending, some .retire, 0x300003001) ∧
    after (.teardownComplete 0) (inSt .destroying none) (fun t => ((t.f.ctx 0).st, (t.f.core 0).occ)) = some (.free, none) := by
  decide +kernel

/-- Queue 0 with its descriptor at 0x5000 and its ring of two launches at 0x6000; the words of memory are the caller's. -/
def queued (y : Queue) (words : List (Nat × Nat)) (f : Fab → Fab) : State :=
  let s := fab [] id
  with' s (fun g => f { g.setCtx 0 (({ wctx with nq := 1, qtab := 0x5000 }).setQueue 0 y) with
    mem := words.foldl (fun m p => pokes m p.1 (leBytes 8 p.2)) g.mem }) id
def que (x : QSt) : Queue := { Queue.reset with st := x, tickets := 8, ring := 0x6000, log2sz := 1 }
def waitingQ : Queue := { que .waiting with pidx := 1 }
/-- The distributor may write words 3 and 4. -/
def writesQ (s : State) (y : Queue) : Bool := ((s.f.setQueue 0 0 y).queueWords s.m 0 0 y false).isSome
def pidx (s : State) : Option Nat := (s.f.devRead s.m 0 ((s.f.ctx 0).descAt 0) 8).map leNum
def tickets (s : State) : Option Nat := (s.f.descWords s.m 0 0).map fun ws => ws.getD 1 0 % 2 ^ 11
/-- QueueEvents: PIDX as before, one on, and one beyond the ring; TICKETS of zero and of one. -/
theorem witness_QueueEvents_descriptor :
    (∀ x ∈ [QSt.empty, .faulted], ∀ p ∈ [0, 1, 2, 3],
      pidx (queued (que x) [(0x5000, p)] id) = some p ∧ ((queued (que x) [(0x5000, p)] id).f.ctx 0).hasQueue 0 = true ∧
      tickets (queued (que x) [(0x5008, p)] id) = some p) ∧
    writesQ (queued (que .empty) [(0x5000, 1)] id) waitingQ = true ∧
    writesQ (queued (que .empty) [] id) { que .off with tickets := 0 } = true := by decide +kernel
/-- The launch record at the head of the ring. -/
def launchWords (s : State) : Option (List Nat) :=
  (s.f.devRead s.m 0 (0x6000 + 64 * 0) 64).map fun bs => (List.range 8).map (wordOf (bytesLine bs))
/-- QueueEvents: a ring that is not mapped; a launch that waits for its queue's kernel; one with no record, and one with one. -/
theorem witness_QueueEvents_launch :
    (let s := queued { waitingQ with ring := 0x20000 } [] id
     s.f.devRead s.m 0 (0x20000 + 64 * 0) 64 = none) ∧
    ((queued waitingQ [] id).f.queue 0 0) = waitingQ ∧ ((queued waitingQ [] id).f.ctx 0).st = .active ∧
    ((queued waitingQ [] id).f.ctx 0).pre = none ∧ ((queued waitingQ [] id).f.ctx 0).hasQueue 0 = true ∧ waitingQ.posted = 1 ∧
    (let s := queued waitingQ [(0x6020, 1)] (fun f => { f with kernels := [kern false] })
     (launchWords s).map (·.getD 4 0) = some 1 ∧ ∃ k ∈ s.f.kernels, k.ctx = 0 ∧ k.q = 0) ∧
    (let s := queued waitingQ [] id
     (launchWords s).map (s.f.launchOk s.m 0) = some false) ∧
    (let s := queued waitingQ [(0x6000, 0x4000), (0x6008, 1)] id
     (launchWords s).map (s.f.launchOk s.m 0) = some true ∧ s.f.kernels = []) := by decide +kernel
def dispatching : State := queued { que .dispatching with tail := [0x4000], unbound := 1 } [] live1
/-- A selected task of kernel 0. -/
def selected : State := queued (que .dispatching) [] fun f => { live1 f with sels := [⟨2, 0, 0, 0, 0x4000⟩] }
theorem witness_QueueEvents_dispatch :
    st.f.eligibleNow = [] ∧ dispatching.f.eligibleNow = [0] ∧ leastBy dispatching.f.pass dispatching.f.eligibleNow = some 0 ∧
    selected.f.sels.find? (·.id = 2) = some ⟨2, 0, 0, 0, 0x4000⟩ ∧ (selected.f.ctx 0).st = .active ∧ (selected.f.ctx 0).pre = none ∧
    ((with' selected (fun f => f.modCtx 0 fun x => { x with pre := some .retire }) id).f.ctx 0).pre ≠ none ∧
    selected.f.liveRec selected.m 0 0x4000 = some (0x4000, live0) ∧ selected.f.placeFor selected.m 0 = some 0 ∧
    (selected.f.core 0).runq.length < Config.runQueue ∧ (selected.f.core 0).chain = [] ∧ (selected.f.core 0).late = [] ∧
    selected.f.pinOf selected.m 0x4000 = none := by decide +kernel
/-- R255, R258, R261, R262: a doorbell; a launch of one ready record; its selection; its place. -/
theorem test_queues :
    after (.doorbellWrite 0 0) (queued (que .empty) [(0x5000, 1)] id) (fun t => ((t.f.queue 0 0).st, t.f.due)) =
      some (.waiting, [.launchStart 0 0]) ∧
    after (.launchStart 0 0) (queued waitingQ [(0x6000, 0x4000), (0x6008, 1), (0x4000, 0x1000)] id)
      (fun t => ((t.f.queue 0 0).st, (t.f.queue 0 0).cidx, (t.f.queue 0 0).tail, t.f.kernels.map (·.kid))) =
      some (.dispatching, 1, [0x4000], [0]) ∧
    after .dispatchSelection dispatching (fun t => ((t.f.queue 0 0).pass, t.f.sels.map (·.recAddr))) = some (131072, [0x4000]) ∧
    after (.taskPlace 2) selected (fun t => (t.f.core 0).runq) = some [⟨0, 0x4000, .counter 0⟩] := by decide +kernel

/-- Cores 0 and 1 of one lease, with a pair of them. -/
def twins (t : Thread) (begun : Bool) : State :=
  with' (mk t cor { ctx with lw := 2 })
    (fun f => { f with
      cores := f.cores ++ [(1, { Core.reset with occ := some ⟨0, 1, 0⟩, traffic := [(0, 100)] })], pairs := [⟨0, 1, 3, begun, 0⟩] }) id
/-- PlacementEvents: a pair that waits with a task on its core, without one, and one that exchanges; idle and waking cores;
fences. -/
theorem witness_PlacementEvents :
    (twins thr false).f.pairs.any (fun p => p.lo = 0 && p.hi = 1 && !p.begun) = true ∧
    ((twins thr false).f.core 0).between = false ∧ ((twins Thread.reset false).f.core 0).between = true ∧
    ((twins Thread.reset false).f.core 1).between = true ∧
    (let s := twins Thread.reset true
     s.f.pairs.find? (fun p => p.lo = 0 && p.hi = 1 && p.begun) = some ⟨0, 1, 3, true, 0⟩ ∧
     (s.f.core 0).occ = some ⟨0, 0, 0⟩ ∧ (s.f.core 1).occ = some ⟨0, 1, 0⟩ ∧ (s.f.ctx 0).vnum 0 0 ≠ (s.f.ctx 0).vnum 1 0 ∧
     (fenceCores (.router 0)).any (fun d => s.f.pairs.any fun p => p.begun && (p.lo = d || p.hi = d)) = true) := by
  decide +kernel
theorem witness_PlacementEvents_idle :
    st.m.gten = true ∧ st.f.idle 5 = true ∧ (st.f.core 5).power = .awake ∧ (st.f.core 5).held = [] ∧
    ((with' st (fun f => f.modCore 5 fun x => { x with power := .waking }) id).f.core 5).power = .waking ∧
    st.m.dev = .running ∧ State.reset.m.dev ≠ .running ∧ st.f.pairs = [] ∧ (0 : CoreId) ∉ st.m.fencedCores ∧
    (st.f.core 0).occ = some ⟨0, 0, 0⟩ ∧ (st.f.ctx 0).st = .active ∧ (st.f.ctx 0).pre = none := by decide +kernel
/-- PlacementEvents: an instant that has passed and one that has not; a pair whose 5 µs are over; a core idle for IDLEGATE. -/
theorem witness_PlacementEvents_times :
    st.m.time[0].toNat < st.m.swapAt ∧
    (with' st id fun m => { m with time := Vector.replicate 4 200000 }).m.swapAt ≤ 200000 ∧
    (let s := with' (twins thr false) (fun f => { f with pairs := [⟨0, 1, 3, false, 5000⟩] }) id
     s.f.pairs.any (fun p => p.lo = 0 && p.hi = 1 && !p.begun && decide (Config.swapWait ≤ p.waited)) = true) ∧
    (twins thr false).f.pairs.any (fun p => p.lo = 0 && p.hi = 1 && !p.begun && decide (p.waited < Config.swapWait)) = true ∧
    1000 * st.m.idlegate.toNat ≤ ({ cor with idle := 20000 }).idle ∧ ¬(1000 * st.m.idlegate.toNat ≤ cor.idle) := by decide +kernel
/-- R283, R290, R294: a gated core; an exchange; a lost core suspends its context. -/
theorem test_placement :
    after (.coreGate 5) (with' st (fun f => f.modCore 5 fun x => { x with idle := 20000 }) id) (fun t => (t.f.core 5).power) =
      some .gated ∧ after (.coreGate 5) st (fun t => (t.f.core 5).power) = some .awake ∧
    after (.swapExchangeEnd 0 1) (twins Thread.reset true)
      (fun t => ((t.f.core 0).occ.map (·.vx), (t.f.core 0).swaps, (t.f.ctx 0).map)) = some (some 1, [(3, 0)], [(0, 1), (1, 0)]) ∧
    after (.coreFence (.core 0)) st (fun t => (t.m.replace, t.m.fencedCores, (t.f.ctx 0).lost, (t.f.ctx 0).st)) =
      some (true, [0], true, .suspending) := by decide +kernel

/-- Port 3 in a state, with the other registers as they are. -/
def porting (x : Port) : State := with' st id (fun m => { m with ports := m.ports.set 3 x })
def upPort : Port := { Port.reset with en := true, st := .up }
/-- Port 3 UP, with flits that it keeps. -/
def keeping (l : List (Nat × LinkPkt)) : State := with' (porting upPort) (fun f => { f with links := [(3, ⟨2, l, []⟩)] }) id
/-- LinkAndHostEvents: an invalidation under way and none; one that may end and one that may not; ports in each state. -/
theorem witness_LinkAndHostEvents_ports :
    st.f.tlbinv.busy = false ∧ st.m.bar0 = true ∧ State.reset.m.bar0 = false ∧
    (let s := with' st (fun f => { f with tlbinv := ⟨true, false, 0, false, 0, 2 ^ 57, true⟩ }) id
     s.f.tlbinv.busy = true ∧ s.f.tlbReady s.m = true ∧
     (with' s (fun f => { f with rwrites := [rw] }) id).f.tlbReady s.m = false) ∧
    st.m.clusterFenced (portCluster 3) = false ∧
    (with' st id fun m => m.fence (.router (Fin.ofNat 576 (portCluster 3)))).m.clusterFenced (portCluster 3) = true ∧
    (∀ x ∈ [PortSt.training, .retraining, .negotiating, .up], (porting { Port.reset with st := x }).m.ports[(3 : PortId)].st = x) ∧
    ((keeping []).f.tx 3).opens 3 .time = true ∧ ((keeping []).f.tx 3).wait = [] ∧
    ((keeping (List.replicate 1024 (0, .time))).f.tx 3).opens 3 .time = false ∧ upPort.consec < Config.replayLimit ∧
    Config.replayLimit ≤ { upPort with consec := 16 }.consec ∧ st.m.tmaster = false ∧ (0xFE : BitVec 8).toNat < 0xFF ∧
    (∀ q : PortId, q ≠ 3 → (porting upPort).m.ports[q].st ≠ .up) ∧
    (with' st id fun m => { m with tmaster := true }).m.tmaster = true ∧ (∀ y ∈ State.reset.f.ctxs, y.2.st ≠ .active) ∧
    (∃ y ∈ st.f.ctxs, y.2.st = .active) := by
  decide +kernel
/-- LinkAndHostEvents: peers of another domain, of the same number, of a number too great, and one that is taken. -/
theorem witness_LinkAndHostEvents_peers :
    (let bad := fun (p : PeerInfo) => 9215 < st.m.devnum.toNat ∨ (p.sw = false ∧ 9215 < p.devnum.toNat)
     (⟨false, 1, 5, 0⟩ : PeerInfo).domid ≠ st.m.domid ∧ (⟨false, 0, 0, 0⟩ : PeerInfo).devnum = st.m.devnum ∧
     bad ⟨false, 0, 9216, 0⟩ ∧ ¬bad ⟨false, 0, 9215, 0⟩ ∧ ¬bad ⟨true, 0, 0, 0⟩) ∧
    st.m.hostLink = true ∧ (with' st id fun m => { m with hostUp := false }).m.hostLink = false ∧ st.m.dev = .running ∧
    2 ^ 39 - 8 + wdSize .w64 ≤ 2 ^ 39 ∧ st.f.poison = [] ∧ st.f.poisoned (st.m.local.gpa (2 ^ 39 - 8)) 8 = false ∧
    st.f.owned (st.m.local.gpa 0x2000) = false ∧ State.reset.m.dev = .off ∧ (∀ y ∈ State.reset.f.ctxs, y.2.st = .free) := by
  decide +kernel
/-- R327, R323, R336, R317: bring-up; an acknowledgement; a FetchAdd; the range of 2 MiB pages. -/
theorem test_links :
    after (.negotiationComplete 3 ⟨false, 0, 7, 15⟩) (porting { Port.reset with en := true, st := .negotiating, lanes := 4, capoff := 8 })
      (fun t => t.m.ports[(3 : PortId)].stat) = some 0x3004070003800000 ∧
    after (.flitReceive 3 ⟨0, 1, true, false⟩) (keeping [(0, .time), (1, .time)])
      (fun t => ((t.f.tx 3).kept, t.m.ports[(3 : PortId)].rxSeq)) = some ([(1, .time)], 1) ∧
    after (.hostBar2Access (.fetchAdd 0x2000 .w32 5)) st (fun t => (t.f.bytesAt t.m 0x2000 4, t.f.out)) =
      some ([5, 0, 0, 0], [.hostData (some [0, 0, 0, 0])]) ∧
    tlbRange (BitVec.ofNat 64 (0x210000 / 2 ^ 16 * 2 ^ 23 + 2 ^ 14 + 1)) = (0x200000, 0x600000) := by decide +kernel

/-- An image whose parts agree: no body, and the digest of no body in its header. -/
def digest : BitVec 256 := Config.sha256 []
def image : Image :=
  { magic := 0x464B4D50, svn := 0, bodyLen := 0, digest := digest, key := 0
    header := leBytes 4 0x464B4D50 ++ List.replicate 28 0 ++ leBytes 32 digest.toNat ++ List.replicate 64 0
    signature := List.replicate 16224 0, body := [] }
/-- An image of another magic number. -/
def badImage : Image := { image with magic := 0 }
/-- A device whose fuses name the image's key. -/
def keyed (d : DevSt) (i : Option Image) : Mgt := { Mgt.reset with dev := d, image := i, keyDigest := Config.sha256 (leBytes 48 0) }

theorem leNum_map_range (n x : Nat) : leNum ((List.range n).map fun i => BitVec.ofNat 8 (x / 2 ^ (8 * i))) = x % 2 ^ (8 * n) := by
  induction n generalizing x with
  | zero => simp [leNum, Nat.mod_one]
  | succ k ih =>
    have h : (List.range k).map (fun i => BitVec.ofNat 8 (x / 2 ^ (8 * (i + 1)))) =
        (List.range k).map fun i => BitVec.ofNat 8 (x / 256 / 2 ^ (8 * i)) := by
      refine List.map_congr_left fun i _ => ?_
      rw [Nat.div_div_eq_div_mul, Nat.mul_add, Nat.pow_add, Nat.mul_comm (2 ^ (8 * i))]
    rw [List.range_succ_eq_map, List.map_cons, List.map_map]
    simp only [leNum, Function.comp_def, Nat.succ_eq_add_one, h, ih, Nat.mul_zero, Nat.pow_zero, Nat.div_one,
      BitVec.toNat_ofNat]
    rw [Nat.mul_add, Nat.add_comm (8 * k), Nat.pow_add, Nat.mod_mul]

/-- ManagementEvents: the image is accepted where its signature is valid. The signature check is the hardware's, and opaque
here (log 7): what it answers cannot be shown. -/
theorem witness_ManagementEvents_image (h : Config.sigValid image.key image.header image.signature = true) :
    ∀ d i, (keyed d i).accepts image = true := by
  intro d i
  have hd : leNum ((image.header.drop 0x20).take 32) = digest.toNat := by
    have e : (image.header.drop 0x20).take 32 = leBytes 32 digest.toNat := rfl
    rw [e, leBytes, leNum_map_range]
    exact Nat.mod_eq_of_lt digest.isLt
  have hw : imageWhole image = true := by
    have h1 : image.header.length = 128 := rfl
    have h2 : leNum ((image.header.drop 0).take 4) = 0x464B4D50 := rfl
    have h3 : leNum ((image.header.drop 8).take 8) = 0 := rfl
    have h4 : leNum ((image.header.drop 16).take 8) = 0 := rfl
    have h5 : leNum ((image.header.drop 0x40).take 48) = 0 := rfl
    have h6 : image.signature.length = 16224 := List.length_replicate
    simp only [imageWhole, h1, h2, h3, h4, h5, h6, hd]
    have e1 : image.magic = 0x464B4D50 := rfl
    have e2 : image.svn = 0 := rfl
    have e3 : image.bodyLen = 0 := rfl
    have e4 : image.digest = digest := rfl
    have e5 : image.key = 0 := rfl
    have e6 : image.body = [] := rfl
    simp [e1, e2, e3, e4, e5, e6]
  simp only [Mgt.accepts, hw, h, Bool.true_and]
  have e1 : image.magic = 0x464B4D50 := rfl
  have e3 : image.key = 0 := rfl
  have e4 : image.digest = Config.sha256 image.body := rfl
  simp [e1, e3, e4, keyed, Mgt.reset]
theorem witness_ManagementEvents_refused : ∀ d i, (keyed d i).accepts badImage = false := by
  intro d i
  simp [Mgt.accepts, badImage]

/-- ManagementEvents: device states, poison present and not, slices with seven errors and fewer, cores with and without a task,
the path busy and free. -/
theorem witness_ManagementEvents_states :
    (∀ d ∈ [DevSt.off, .selftest, .running, .recovery], (keyed d none).dev = d) ∧
    (∀ x, (keyed .selftest none).image = some x → (keyed .selftest none).accepts x = false) ∧
    st.f.pairs = [] ∧ st.m.gline 5 ∉ st.f.poison ∧ 5 < 2 ^ 33 ∧
    (with' st (fun f => { f with poison := [5] }) id).f.poison = [st.m.gline 5] ∧
    (with' (laned 1) (fun f => { f with dirty := [(5, ⟨none, 0, 0, 0, 0, none⟩)] }) id).f.dirtyAt 5 = some ⟨none, 0, 0, 0, 0, none⟩ ∧
    st.f.dirtyAt 5 = none ∧ mget 0 st.m.sliceErrs 9 + 1 < 8 ∧ mget 0 [(9, 7)] 9 = 7 ∧
    mget 0 st.m.retries 9 + 1 < 8 ∧ mget 0 (with' st id fun m => { m with retries := [(9, 7)] }).m.retries 9 = 7 ∧ (st.f.core 0).occ ≠ none ∧ (st.f.core 5).occ = none ∧
    st.m.mgmtBusy = false ∧ (with' st id fun m => { m with mgmtBusy := true }).m.mgmtBusy = true :=
  ⟨by decide, (by intro x h; cases h), by decide +kernel⟩
/-- ManagementEvents: a retest in which core 5, which no lease has, fails, and one in which the failing core has a task. -/
theorem witness_ManagementEvents_retest :
    st.m.dev = .running ∧ st.f.pairs = [] ∧ ((5 : CoreId) ∈ [(5 : CoreId)] ∧ (st.f.core 5).occ = none) ∧ (5 : CoreId) ∉ st.m.fencedCores ∧
    (∀ d : CoreId, ¬(d ∈ [(0 : CoreId)] ∧ (st.f.core d).occ = none)) ∧ (keyed .recovery none).dev ≠ .running := by
  refine ⟨by decide +kernel, by decide +kernel, by decide +kernel, by decide +kernel, ?_, by decide⟩
  rintro d ⟨h, ho⟩
  rw [List.mem_singleton.mp h] at ho
  revert ho
  decide +kernel
/-- R353, R360: eight failed retries of one flit fence the router; a retest fences the failing core that is free. -/
theorem test_retests :
    after (.scrub (.meshRetry 9)) (with' st id fun m => { m with retries := [(9, 7)] }) (fun t => (t.m.fencedRouters, t.m.replace)) =
      some ([9], true) ∧
    after (.idleRetest [5, 0]) st (fun t => (t.m.fencedCores, t.m.replace)) = some ([5], true) ∧
    after (.idleRetest [0]) st (fun t => (t.m.fencedCores, t.m.replace)) = some ([], false) := by decide +kernel
/-- R354, R352, R351, R350: a poisoned line; HEALTHSTAT; the trip; a second command. -/
theorem test_management :
    after (.poison 5) st (fun t => (t.f.poison, t.m.poisons, t.m.poisonlog, t.f.out)) = some ([5], 1, [5], [.alert 5]) ∧
    after .healthstatRead st (fun t => t.f.out) = some [.reg 0x6000 0x0200090002400000] ∧
    after (.powerWindow 2400001 111) st (fun t => (t.m.paced, t.f.due)) = some (true, [.thermalTrip]) ∧
    after (.mgmtCommand (.read 0x6000)) (with' st id fun m => { m with mgmtBusy := true }) (fun t => t.f.out) =
      some [.mgmt 1 []] := by decide +kernel

end Sys2Proof.Tests
end

section
/-! SUPPORT. What a store leaves in device and host memory, byte by byte (R105, R154, R265), and what the window of a core holds
after a write (R15, R67). -/

namespace Sys2Proof.Machine

/-! The local window. -/

@[simp] theorem Core.visible_setVisible (x : Core) (m : Memory) : (x.setVisible m).visible = m := by
  unfold Core.setVisible Core.visible; split <;> simp_all
@[simp] theorem Core.shadow_setVisible (x : Core) (m : Memory) : (x.setVisible m).shadow = x.shadow := by
  unfold Core.setVisible Core.shadow; split <;> simp_all
@[simp] theorem Core.setVisible_spad (x : Core) (m : Memory) : (x.setVisible m).spad = x.spad := by
  unfold Core.setVisible; split <;> rfl
@[simp] theorem Core.setVisible_threads (x : Core) (m : Memory) : (x.setVisible m).threads = x.threads := by
  unfold Core.setVisible; split <;> rfl

@[simp] theorem Core.locWrite_shadow (x : Core) (off : Nat) (bs : List Byte) : (x.locWrite off bs).shadow = x.shadow := by
  unfold Core.locWrite
  split
  · rfl
  · exact x.shadow_setVisible _

@[simp] theorem Core.locWrite_threads (x : Core) (off : Nat) (bs : List Byte) : (x.locWrite off bs).threads = x.threads := by
  unfold Core.locWrite
  split
  · rfl
  · exact x.setVisible_threads _

theorem Core.locWrite_spad (x : Core) (off : Nat) (bs : List Byte) :
    (x.locWrite off bs).spad = if off < 0x20000 then pokes x.spad off bs else x.spad := by
  unfold Core.locWrite
  split
  · rfl
  · exact x.setVisible_spad _

theorem Core.locWrite_visible (x : Core) (off : Nat) (bs : List Byte) :
    (x.locWrite off bs).visible = if off < 0x20000 then x.visible else pokes x.visible (off - 0x20000) bs := by
  unfold Core.locWrite
  split
  · rfl
  · exact x.visible_setVisible _

theorem peeks_one (m : Memory) (a : Nat) : peeks m a 1 = [peek m a] := by simp [peeks]

/-- The bytes written are read back. -/
theorem Core.locBytes_locWrite (x : Core) (off : Nat) (bs : List Byte) : (x.locWrite off bs).locBytes off bs.length = bs := by
  unfold Core.locBytes
  rw [Core.locWrite_spad, Core.locWrite_visible]
  by_cases h : off < 0x20000 <;> simp only [h, if_true, if_false, peeks_pokes]

/-- Every other byte of the scratchpad and of the visible bank stays. -/
theorem Core.locBytes_locWrite_of_outside (x : Core) {off a : Nat} {bs : List Byte}
    (out : ¬(off ≤ a ∧ a < off + bs.length)) : (x.locWrite off bs).locBytes a 1 = x.locBytes a 1 := by
  unfold Core.locBytes
  rw [Core.locWrite_spad, Core.locWrite_visible]
  by_cases ha : a < 0x20000 <;> by_cases ho : off < 0x20000 <;>
    simp only [ha, ho, if_true, if_false, peeks_one, peek_pokes]
  · rw [if_neg out]
  · rw [if_neg (by omega)]

/-! Lines that a home slice holds. -/

theorem find?_mset {α : Type} (a c : Nat) (x : α) (m : AMap α) :
    ((mset a x m).find? (·.1 = c)).map (·.2) = if c = a then some x else (m.find? (·.1 = c)).map (·.2) := by
  induction m with
  | nil => by_cases h : a = c <;> simp [mset, h, eq_comm]
  | cons q m ih =>
    obtain ⟨k, v⟩ := q
    simp only [mset]
    split
    · by_cases h : a = c <;> simp [List.find?_cons, h, eq_comm]
    · split
      · next h => subst h; by_cases h : a = c <;> simp [h, eq_comm]
      · next h =>
        by_cases hk : k = c
        · simp [hk, show c ≠ a by omega]
        · simpa [List.find?_cons, hk] using ih

theorem Fab.dirtyAt_mset {f g : Fab} {l : Nat} {d : Dirty} (e : g.dirty = mset l d f.dirty) (k : Nat) :
    g.dirtyAt k = if k = l then some d else f.dirtyAt k := by
  unfold Fab.dirtyAt
  rw [e, find?_mset]

/-- A byte of a line that a home slice holds is read past the write lane. -/
theorem Fab.devByte_of_dirty {f : Fab} {a : Nat} (h : (f.dirtyAt (a / 64)).isSome = true) : f.devByte a = peek f.mem a := by
  simp [Fab.devByte, Fab.overlay, h]

theorem Fab.overlay_congr {f g : Fab} {l : Nat} (hd : (g.dirtyAt l).isSome = (f.dirtyAt l).isSome) (hw : g.wl = f.wl) :
    g.overlay l = f.overlay l := by
  unfold Fab.overlay
  rw [hd, hw]

theorem Fab.devByte_congr {f g : Fab} {a : Nat} (hd : (g.dirtyAt (a / 64)).isSome = (f.dirtyAt (a / 64)).isSome)
    (hw : g.wl = f.wl) (hm : peek g.mem a = peek f.mem a) : g.devByte a = f.devByte a := by
  unfold Fab.devByte
  rw [Fab.overlay_congr hd hw, hm]

@[simp] theorem length_lineBytes (d : Line) : (lineBytes d).length = 64 := by simp [lineBytes, leBytes]

theorem getD_lineBytes (d : Line) {i : Nat} (h : i < 64) : (lineBytes d).getD i 0 = BitVec.ofNat 8 (d.toNat / 2 ^ (8 * i)) := by
  simp [lineBytes, leBytes, h]

/-- Bringing a line into its home slice changes what the slices and HBM4E hold. -/
theorem Fab.settle_spec (f : Fab) (m : Mgt) (w : Option Who) (l : Nat) :
    ∃ d x, f.settle m w l = { f with dirty := d, mem := x } := by
  unfold Fab.settle
  split
  · exact ⟨_, f.mem, rfl⟩
  · exact ⟨_, _, rfl⟩

theorem Fab.settle_dirtyAt (f : Fab) (m : Mgt) (w : Option Who) (l k : Nat) :
    ((f.settle m w l).dirtyAt k).isSome = (decide (k = l) || (f.dirtyAt k).isSome) := by
  have set : ∃ d, (f.settle m w l).dirty = mset l d f.dirty := by
    unfold Fab.settle
    split <;> exact ⟨_, rfl⟩
  obtain ⟨d, e⟩ := set
  rw [Fab.dirtyAt_mset e]
  by_cases h : k = l <;> simp [h]

/-- A byte of the line is in memory now as device observers read it before: the newest data on the write lane included (R105, R116). -/
theorem Fab.peek_settle_same (f : Fab) (m : Mgt) (w : Option Who) (a : Nat) :
    peek (f.settle m w (a / 64)).mem a = f.devByte a := by
  unfold Fab.settle
  cases hd : f.dirtyAt (a / 64) with
  | some d => rw [Fab.devByte_of_dirty (by rw [hd]; rfl)]
  | none =>
    unfold Fab.devByte
    cases ho : f.overlay (a / 64) with
    | none => rfl
    | some d =>
      have hi : 64 * (a / 64) ≤ a ∧ a < 64 * (a / 64) + (lineBytes d).length := by rw [length_lineBytes]; omega
      simp only [peek_pokes, hi, and_self, if_true]
      rw [getD_lineBytes d (by omega), show a - 64 * (a / 64) = a % 64 by omega]

/-- A byte of another line stays in memory as it was. -/
theorem Fab.peek_settle_ne (f : Fab) (m : Mgt) (w : Option Who) {l a : Nat} (h : a / 64 ≠ l) :
    peek (f.settle m w l).mem a = peek f.mem a := by
  unfold Fab.settle
  cases hd : f.dirtyAt l with
  | some d => rfl
  | none =>
    cases ho : f.overlay l with
    | none => rfl
    | some d =>
      have hi : ¬(64 * l ≤ a ∧ a < 64 * l + (lineBytes d).length) := by rw [length_lineBytes]; omega
      simp only [peek_pokes, hi, if_false]

/-- Device observers read every byte as before. -/
@[simp] theorem Fab.settle_devByte (f : Fab) (m : Mgt) (w : Option Who) (l a : Nat) :
    (f.settle m w l).devByte a = f.devByte a := by
  by_cases ha : a / 64 = l
  · subst ha
    rw [Fab.devByte_of_dirty (by simp [Fab.settle_dirtyAt]), Fab.peek_settle_same]
  · obtain ⟨d, x, e⟩ := f.settle_spec m w l
    exact Fab.devByte_congr (by simp [Fab.settle_dirtyAt, ha]) (by rw [e]) (f.peek_settle_ne m w ha)

theorem Fab.settleAll_spec (f : Fab) (m : Mgt) (w : Option Who) (l n : Nat) :
    ∃ d x, f.settleAll m w l n = { f with dirty := d, mem := x } := by
  induction n generalizing f l with
  | zero => exact ⟨f.dirty, f.mem, rfl⟩
  | succ n ih =>
    obtain ⟨d, x, e⟩ := f.settle_spec m w l
    rw [Fab.settleAll, e]
    exact ih _ _

theorem Fab.settleAll_dirtyAt (f : Fab) (m : Mgt) (w : Option Who) (l n k : Nat) :
    ((f.settleAll m w l n).dirtyAt k).isSome = (decide (l ≤ k ∧ k < l + n) || (f.dirtyAt k).isSome) := by
  induction n generalizing f l with
  | zero => rw [Fab.settleAll, decide_eq_false (by omega), Bool.false_or]
  | succ n ih =>
    rw [Fab.settleAll, ih, Fab.settle_dirtyAt, ← Bool.or_assoc, ← Bool.decide_or]
    congr 2
    exact propext (by omega)

@[simp] theorem Fab.settleAll_devByte (f : Fab) (m : Mgt) (w : Option Who) (l n a : Nat) :
    (f.settleAll m w l n).devByte a = f.devByte a := by
  induction n generalizing f l with
  | zero => rfl
  | succ n ih => rw [Fab.settleAll, ih, Fab.settle_devByte]

/-- A line takes the class of its page where a home slice holds it; what is held stays as it is (R315). -/
theorem Fab.classed_spec (f : Fab) (m : Mgt) (e : TlbEnt) (l n : Nat) :
    ∃ d, f.classed m e l n = { f with dirty := d } ∧ ∀ k, ((f.classed m e l n).dirtyAt k).isSome = (f.dirtyAt k).isSome := by
  induction n generalizing f l with
  | zero => exact ⟨f.dirty, rfl, fun _ => rfl⟩
  | succ n ih =>
    rw [Fab.classed]
    cases hd : f.dirtyAt l with
    | none => exact ih f (l + 1)
    | some d =>
      let home := d.home.getD (m.homeSlice e.plc e.parg (m.gpa (64 * l)))
      obtain ⟨d', e', h⟩ := ih
        { f with dirty := mset l { d with wlc := e.wlc, plc := e.plc, parg := e.parg, home := some home } f.dirty } (l + 1)
      refine ⟨d', e', fun k => (h k).trans ?_⟩
      rw [Fab.dirtyAt_mset rfl]
      by_cases hk : k = l <;> simp [hk, hd]

@[simp] theorem Fab.classed_devByte (f : Fab) (m : Mgt) (e : TlbEnt) (l n a : Nat) :
    (f.classed m e l n).devByte a = f.devByte a := by
  obtain ⟨d, e', h⟩ := f.classed_spec m e l n
  exact Fab.devByte_congr (h _) (by rw [e']) (by rw [e'])

@[simp] theorem Fab.classed_host (f : Fab) (m : Mgt) (e : TlbEnt) (l n : Nat) : (f.classed m e l n).host = f.host := by
  obtain ⟨d, e', -⟩ := f.classed_spec m e l n
  rw [e']
@[simp] theorem Fab.classed_rwrites (f : Fab) (m : Mgt) (e : TlbEnt) (l n : Nat) : (f.classed m e l n).rwrites = f.rwrites := by
  obtain ⟨d, e', -⟩ := f.classed_spec m e l n
  rw [e']
@[simp] theorem Fab.classed_cores (f : Fab) (m : Mgt) (e : TlbEnt) (l n : Nat) : (f.classed m e l n).cores = f.cores := by
  obtain ⟨d, e', -⟩ := f.classed_spec m e l n
  rw [e']

/-! Bytes written past those that a live record's home slice owns (R265). -/

/-- A range of no bytes covers no address. -/
theorem not_in_nil {la a : Nat} {P : Prop} : ¬((la ≤ a ∧ a < la + ([] : List Byte).length) ∧ P) := by
  rintro ⟨h, -⟩
  rw [List.length_nil] at h
  omega

/-- Of a range, the address of its first byte holds that byte, and the rest of the range does not reach it. -/
theorem ite_getD_cons_self {P : Prop} [Decidable P] (la : Nat) (b : Byte) (bs : List Byte) (y : Byte) :
    (if (la ≤ la ∧ la < la + (b :: bs).length) ∧ P then (b :: bs).getD (la - la) 0 else y) = if P then b else y := by
  have hin : la ≤ la ∧ la < la + (b :: bs).length := by rw [List.length_cons]; omega
  rw [Nat.sub_self, List.getD_cons_zero]
  by_cases hp : P
  · rw [if_pos ⟨hin, hp⟩, if_pos hp]
  · rw [if_neg fun h => hp h.2, if_neg hp]

theorem not_in_rest {la : Nat} {bs : List Byte} {P : Prop} : ¬((la + 1 ≤ la ∧ la < la + 1 + bs.length) ∧ P) := by
  rintro ⟨h, -⟩
  omega

/-- Past the first byte of a range, what is read of the range is read of its rest. -/
theorem ite_getD_cons {P : Prop} [Decidable P] {la a : Nat} (h : a ≠ la) (b : Byte) (bs : List Byte) (y : Byte) :
    (if (la ≤ a ∧ a < la + (b :: bs).length) ∧ P then (b :: bs).getD (a - la) 0 else y) =
      if (la + 1 ≤ a ∧ a < la + 1 + bs.length) ∧ P then bs.getD (a - (la + 1)) 0 else y := by
  have hin : (la ≤ a ∧ a < la + (b :: bs).length) ↔ (la + 1 ≤ a ∧ a < la + 1 + bs.length) := by
    rw [List.length_cons]; omega
  simp only [hin]
  by_cases hi : (la + 1 ≤ a ∧ a < la + 1 + bs.length) ∧ P
  · rw [if_pos hi, if_pos hi, show a - la = a - (la + 1) + 1 by omega, List.getD_cons_succ]
  · rw [if_neg hi, if_neg hi]

/-- Of the bytes written to device memory, those are kept that no live record's home slice owns, or all where none is masked. -/
theorem Fab.pokeOwn_spec (f : Fab) (m : Mgt) (mask : Bool) (la : Nat) (bs : List Byte) :
    ∃ x, f.pokeOwn m mask la bs = { f with mem := x } ∧ ∀ a, peek x a =
      if (la ≤ a ∧ a < la + bs.length) ∧ (mask && f.owned (m.gpa a)) = false then bs.getD (a - la) 0 else peek f.mem a := by
  induction bs generalizing f la with
  | nil => exact ⟨f.mem, rfl, fun a => (if_neg not_in_nil).symm⟩
  | cons b bs ih =>
    rw [Fab.pokeOwn]
    by_cases ho : (mask && f.owned (m.gpa la)) = true
    · obtain ⟨x, e, hx⟩ := ih f (la + 1)
      refine ⟨x, by rw [if_pos ho, e], fun a => (hx a).trans ?_⟩
      by_cases ha : a = la
      · rw [ha, ite_getD_cons_self, if_neg not_in_rest, if_neg (by rw [ho]; exact Bool.noConfusion)]
      · rw [ite_getD_cons ha]
    · obtain ⟨x, e, hx⟩ := ih { f with mem := poke la b f.mem } (la + 1)
      refine ⟨x, by rw [if_neg ho, e], fun a => (hx a).trans ?_⟩
      by_cases ha : a = la
      · rw [ha, ite_getD_cons_self, if_neg not_in_rest, peek_poke, if_pos rfl, if_pos (Bool.eq_false_iff.mpr ho)]
      · rw [ite_getD_cons ha, peek_poke, if_neg ha]
        rfl

/-- So too of those written to host memory. -/
theorem Fab.peek_pokeHost (f : Fab) (gpa pa : Nat) (bs : List Byte) (a : Nat) :
    peek (f.pokeHost gpa pa bs) a =
      if (pa ≤ a ∧ a < pa + bs.length) ∧ f.owned (gpa + (a - pa)) = false then bs.getD (a - pa) 0 else peek f.host a := by
  induction bs generalizing gpa pa with
  | nil => rw [Fab.pokeHost, if_neg not_in_nil]
  | cons b bs ih =>
    have first : peek (f.pokeHost gpa pa (b :: bs)) a =
        if a = pa ∧ f.owned gpa = false then b else peek (f.pokeHost (gpa + 1) (pa + 1) bs) a := by
      rw [Fab.pokeHost]
      cases ho : f.owned gpa <;> simp [peek_poke]
    rw [first, ih]
    rcases Nat.lt_trichotomy a pa with ha | rfl | ha
    · rw [if_neg (by omega), if_neg (by omega), if_neg (by omega)]
    · rw [ite_getD_cons_self, if_neg not_in_rest, Nat.sub_self, Nat.add_zero]
      by_cases ho : f.owned gpa = false
      · rw [if_pos ⟨rfl, ho⟩, if_pos ho]
      · rw [if_neg fun h => ho h.2, if_neg ho]
    · rw [ite_getD_cons (by omega), if_neg (by omega), show gpa + 1 + (a - (pa + 1)) = gpa + (a - pa) by omega]

/-! Stores. -/

theorem Fab.wakeAll_spec (f : Fab) (w : Option Who) (gpa n : Nat) (ws : List Watch) :
    ∃ i k d, f.wakeAll w gpa n ws = { f with ids := i, wakes := k, due := d } := by
  induction ws generalizing f with
  | nil => exact ⟨_, _, _, rfl⟩
  | cons x xs ih =>
    rw [Fab.wakeAll]
    split
    · exact ih _
    · exact ih f

/-- All that the notices of a write change. -/
theorem Fab.notify_spec (f : Fab) (m : Mgt) (w : Option Who) (gpa n : Nat) :
    ∃ i k d, f.notify m w gpa n = { f with ids := i, wakes := k, due := d } := by
  obtain ⟨i, k, d, e⟩ := f.wakeAll_spec w gpa n f.watches
  unfold Fab.notify
  rw [e]
  exact ⟨i, k, _, rfl⟩

theorem Fab.noteWrite_spec (f : Fab) (m : Mgt) (w : Who) (e : TlbEnt) (gpa n : Nat) (comm : Bool) :
    ∃ c, f.noteWrite m w e gpa n comm = { f with ctxs := c } := by
  unfold Fab.noteWrite
  split
  · exact ⟨_, rfl⟩
  · exact ⟨f.ctxs, rfl⟩

/-- Bytes written once their lines are in their home slices are what device observers read (R105). -/
theorem Fab.pokeOwn_settleAll_devByte (f : Fab) (m : Mgt) (w : Option Who) (mask : Bool) (la a : Nat) (bs : List Byte) :
    ((f.settleAll m w (la / 64) ((la + bs.length + 63) / 64 - la / 64)).pokeOwn m mask la bs).devByte a =
      if (la ≤ a ∧ a < la + bs.length) ∧ (mask && f.owned (m.gpa a)) = false then bs.getD (a - la) 0 else f.devByte a := by
  have held := f.settleAll_dirtyAt m w (la / 64) ((la + bs.length + 63) / 64 - la / 64) (a / 64)
  have same := f.settleAll_devByte m w (la / 64) ((la + bs.length + 63) / 64 - la / 64) a
  obtain ⟨d, y, es⟩ := f.settleAll_spec m w (la / 64) ((la + bs.length + 63) / 64 - la / 64)
  rw [es] at held same ⊢
  obtain ⟨x, ep, hx⟩ := Fab.pokeOwn_spec { f with dirty := d, mem := y } m mask la bs
  rw [ep]
  by_cases hi : la ≤ a ∧ a < la + bs.length
  · have dirty : (Fab.dirtyAt { f with dirty := d, mem := y } (a / 64)).isSome = true := by
      rw [held, decide_eq_true (by omega), Bool.true_or]
    rw [← same, Fab.devByte_of_dirty dirty]
    exact (Fab.devByte_of_dirty (f := { f with dirty := d, mem := x }) dirty).trans (hx a)
  · rw [if_neg fun h => hi h.1, ← same]
    exact Fab.devByte_congr rfl rfl ((hx a).trans (if_neg fun h => hi h.1))

/-- A store to this device's memory leaves its bytes there and changes no other byte, and posts nothing (R105, R265). -/
theorem Fab.store_own_spec {m : Mgt} {gpa la : Nat} (hp : m.place gpa = .own la) (f : Fab) (w : Option Who) (mask : Bool)
    (bs : List Byte) :
    (f.store m w mask gpa bs).host = f.host ∧ (f.store m w mask gpa bs).rwrites = f.rwrites ∧
    ∀ a, (f.store m w mask gpa bs).devByte a =
      if (la ≤ a ∧ a < la + bs.length) ∧ (mask && f.owned (m.gpa a)) = false then bs.getD (a - la) 0 else f.devByte a := by
  let k := f.note false (la / 64) ((la + bs.length + 63) / 64 - la / 64)
  have bytes := fun a => k.pokeOwn_settleAll_devByte m w mask la a bs
  obtain ⟨d, y, es⟩ := k.settleAll_spec m w (la / 64) ((la + bs.length + 63) / 64 - la / 64)
  rw [es] at bytes
  obtain ⟨x, ep, -⟩ := Fab.pokeOwn_spec { k with dirty := d, mem := y } m mask la bs
  rw [ep] at bytes
  have stored : ∃ q i v u, f.store m w mask gpa bs =
      { k with dirty := d, mem := x, poison := q, ids := i, wakes := v, due := u } := by
    simp only [Fab.store, hp]
    rw [show f.note false _ _ = k from rfl, es, ep]
    obtain ⟨i, v, u, en⟩ := Fab.notify_spec
      { k with dirty := d, mem := x, poison := k.poison.filter fun l => !(gpa ≤ 64 * l && 64 * l + 64 ≤ gpa + bs.length) }
      m w gpa bs.length
    exact ⟨_, i, v, u, en⟩
  obtain ⟨q, i, v, u, e⟩ := stored
  rw [e]
  exact ⟨rfl, rfl, bytes⟩

/-- A store to host memory leaves its bytes there and changes no other byte, where the host is reached; nothing where it is not
(R265, R337). -/
theorem Fab.store_host_spec {m : Mgt} {gpa pa : Nat} (hp : m.place gpa = .host pa) (f : Fab) (w : Option Who) (mask : Bool)
    (bs : List Byte) :
    ∃ h p i v u, f.store m w mask gpa bs = { f with host := h, past := p, ids := i, wakes := v, due := u } ∧
      (m.hostLink = false → h = f.host) ∧
      (m.hostLink = true → ∀ a, peek h a =
        if (pa ≤ a ∧ a < pa + bs.length) ∧ (mask && f.owned (gpa + (a - pa))) = false then bs.getD (a - pa) 0
        else peek f.host a) := by
  simp only [Fab.store, hp]
  by_cases hl : m.hostLink = true
  · let k := f.note true (pa / 64) ((pa + bs.length + 63) / 64 - pa / 64)
    obtain ⟨i, v, u, e⟩ := Fab.notify_spec { k with host := if mask then k.pokeHost gpa pa bs else pokes k.host pa bs }
      m w gpa bs.length
    rw [if_pos hl]
    refine ⟨_, _, i, v, u, e, fun h => absurd hl (by simp [h]), fun _ a => ?_⟩
    cases mask with
    | true => exact k.peek_pokeHost gpa pa bs a
    | false => simp [k, peek_pokes]
  · rw [if_neg hl]
    exact ⟨f.host, f.past, f.ids, f.wakes, f.due, rfl, fun _ => rfl, fun h => absurd h hl⟩

/-! What a write at a checked place leaves (R154, R337). -/

theorem Fab.putOut_cores (f : Fab) (m : Mgt) (w : Who) (ea : Word) (gpa : Nat) (bs : List Byte) (major minor : Nat)
    (op : Option (Nat × Nat)) : (f.putOut m w ea gpa bs major minor op).cores = f.cores := by
  unfold Fab.putOut
  dsimp only
  split
  · exact Fab.store_keeps.1
  · obtain ⟨x, l, e⟩ := Fab.post_spec { f with ids := f.ids + 1 } m ⟨f.ids, w, ea, gpa, bs, major, minor, none, op, none, none⟩
    rw [e]

theorem Fab.storeOwn_cores (f : Fab) (m : Mgt) (w : Who) (gpa : Nat) (e : TlbEnt) (bs : List Byte) (comm : Bool) :
    (f.storeOwn m w gpa e bs comm).cores = f.cores := by
  obtain ⟨c, hn⟩ := f.noteWrite_spec m w e gpa bs.length comm
  unfold Fab.storeOwn
  rw [Fab.classed_cores, hn]
  exact Fab.store_keeps.1

@[simp] theorem Fab.put_thread (f : Fab) (m : Mgt) (w : Who) (ea : Word) (gpa : Nat) (e : TlbEnt) (bs : List Byte)
    (major minor : Nat) (op : Option (Nat × Nat)) (c : CoreId) (h : ThreadId) :
    (f.put m w ea gpa e bs major minor op).thread c h = f.thread c h := by
  have cores : (f.put m w ea gpa e bs major minor op).cores = f.cores := by
    unfold Fab.put
    split
    · exact f.storeOwn_cores ..
    · exact f.putOut_cores ..
  simp [Fab.thread, Fab.core, cores]

/-- A store to a page of this device, byte by byte; a live record's home slice discards those that it owns (R265). -/
theorem Fab.storeOwn_spec {m : Mgt} {gpa la : Nat} (hp : m.place gpa = .own la) (f : Fab) (w : Who) (e : TlbEnt) (bs : List Byte)
    (comm : Bool) :
    (f.storeOwn m w gpa e bs comm).host = f.host ∧ (f.storeOwn m w gpa e bs comm).rwrites = f.rwrites ∧
    ∀ a, (f.storeOwn m w gpa e bs comm).devByte a =
      if (la ≤ a ∧ a < la + bs.length) ∧ f.owned (m.gpa a) = false then bs.getD (a - la) 0 else f.devByte a := by
  obtain ⟨c, hn⟩ := f.noteWrite_spec m w e gpa bs.length comm
  obtain ⟨host, posted, bytes⟩ := Fab.store_own_spec hp { f with ctxs := c } (some w) true bs
  unfold Fab.storeOwn
  rw [hn]
  refine ⟨?_, ?_, fun a => (Fab.classed_devByte ..).trans (bytes a)⟩
  · rw [Fab.classed_host, host]
  · rw [Fab.classed_rwrites, posted]

/-- A write to host memory is posted, and its bytes are in host memory at once where the host is reached (R337). -/
theorem Fab.putOut_host_spec {m : Mgt} {gpa pa : Nat} (hp : m.place gpa = .host pa) (f : Fab) (w : Who) (ea : Word)
    (bs : List Byte) (major minor : Nat) (op : Option (Nat × Nat)) :
    let g := f.putOut m w ea gpa bs major minor op
    g.rwrites = f.rwrites ++ [⟨f.ids, w, ea, gpa, bs, major, minor, none, op, none, none⟩] ∧
    (∀ a, g.devByte a = f.devByte a) ∧ (m.hostLink = false → g.host = f.host) ∧
    (m.hostLink = true → ∀ a, peek g.host a =
      if (pa ≤ a ∧ a < pa + bs.length) ∧ f.owned (gpa + (a - pa)) = false then bs.getD (a - pa) 0 else peek f.host a) := by
  obtain ⟨h, p, i, v, u, e, lost, reached⟩ := Fab.store_host_spec hp { f with
    ids := f.ids + 1, rwrites := f.rwrites ++ [⟨f.ids, w, ea, gpa, bs, major, minor, none, op, none, none⟩] } (some w) true bs
  simp only [Fab.putOut, hp]
  rw [e]
  exact ⟨rfl, fun _ => rfl, lost, reached⟩

/-- A write to another device is posted, and changes no memory here (R154). -/
theorem Fab.putOut_other_spec {m : Mgt} {gpa dev la : Nat} (hp : m.place gpa = .other dev la) (f : Fab) (w : Who) (ea : Word)
    (bs : List Byte) (major minor : Nat) (op : Option (Nat × Nat)) :
    let g := f.putOut m w ea gpa bs major minor op
    g.sameMemory f ∧ g.rwrites = f.rwrites ++ [⟨f.ids, w, ea, gpa, bs, major, minor, none, op, none, none⟩] := by
  obtain ⟨x, l, e⟩ := Fab.post_spec { f with ids := f.ids + 1 } m ⟨f.ids, w, ea, gpa, bs, major, minor, none, op, none, none⟩
  simp only [Fab.putOut, hp]
  rw [e]
  exact ⟨⟨fun _ => rfl, rfl⟩, rfl⟩

end Sys2Proof.Machine
end

section
/-! The statements settled. -/

namespace Sys2Proof.Machine

/-- Settles O27: a store to the window through the laws of peeks and pokes; one to memory through the bytes that the lines hold once
their home slices have them, past those that a live record's home slice owns. -/
theorem storedBytes : Obligations.StoredBytes := by
  unfold Obligations.StoredBytes
  refine ⟨fun x off bs _ _ => ⟨x.locBytes_locWrite off bs, fun a => x.locBytes_locWrite_of_outside,
    x.locWrite_shadow off bs, x.locWrite_threads off bs⟩, fun f m w ea gpa e bs major minor op => ?_⟩
  refine ⟨f.put_thread m w ea gpa e bs major minor op, ?_, ?_, ?_⟩
  · intro la hp
    obtain ⟨host, posted, bytes⟩ := Fab.storeOwn_spec hp f w e bs false
    simp only [Fab.put, hp]
    refine ⟨fun i hi ho => ?_, fun a ha => ?_, host, posted⟩
    · rw [bytes, if_pos ⟨by omega, ho⟩, Nat.add_sub_cancel_left]
    · rw [bytes, if_neg]
      rintro ⟨hin, ho⟩
      rcases ha with ha | ha
      · exact ha hin
      · simp [ho] at ha
  · intro pa hp
    obtain ⟨posted, dev, lost, bytes⟩ := Fab.putOut_host_spec hp f w ea bs major minor op
    simp only [Fab.put, hp]
    refine ⟨posted, dev, lost, fun hl => ⟨fun i hi ho => ?_, fun a ha => ?_⟩⟩
    · rw [bytes hl, if_pos ⟨by omega, by rwa [Nat.add_sub_cancel_left]⟩, Nat.add_sub_cancel_left]
    · rw [bytes hl, if_neg fun ⟨hin, ho⟩ => ha ⟨hin.1, hin.2, ho⟩]
  · intro dev la hp
    simp only [Fab.put, hp]
    exact Fab.putOut_other_spec hp f w ea bs major minor op

end Sys2Proof.Machine
end

section
/-! SUPPORT. What the scalar arithmetic heads do to the current thread, and the model's results of R131 as operations on bit
vectors (R55, R59, R130 to R132). -/

namespace Sys2Proof.Machine

/-! The constants s0 and p0 (R59). -/

@[simp] theorem Thread.wr_zero (t : Thread) (x : Word) : t.wr 0 x = t := rfl
@[simp] theorem Thread.rdp_zero (t : Thread) : t.rdp 0 = true := rfl
@[simp] theorem Thread.wrp_zero (t : Thread) (b : Bool) : t.wrp 0 b = t := rfl

/-! The shapes of the scalar heads, where they act. The result z is named apart from the model's operation, so that a
statement may write it in its own terms. -/

section
variable {s : State} {g : Guard} {d a b : SReg} {imm : BitVec 22} {op : Word → Word → Word} {z : Word}

theorem binReg_runs (h : s.Runs g [.s a, .s b] [.s d]) (op : Word → Word → Word) (hz : op (s.cur.rd a) (s.cur.rd b) = z) :
    binReg g d a b op s = .next (s.withCur (s.cur.wr d z).adv) := by
  rw [binReg, State.local_runs h, hz]

theorem binImm_runs (h : s.Runs g [.s a] [.s d]) (op : Word → Word → Word) (hz : op (s.cur.rd a) (imm.signExtend 64) = z) :
    binImm g d a imm op s = .next (s.withCur (s.cur.wr d z).adv) := by
  rw [binImm, State.local_runs h, simm, hz]

/-- A divide acts on the values that its thread's registers hold. -/
theorem divReg_runs (h : s.Runs g [.s a, .s b] [.s d]) :
    divReg g d a b op s = .next { s with f := divide s.m s.f s.core s.th d (s.cur.rd a) (s.cur.rd b) op } :=
  s.head_runs h _

theorem divImm_runs (h : s.Runs g [.s a] [.s d]) :
    divImm g d a imm op s = .next { s with f := divide s.m s.f s.core s.th d (s.cur.rd a) (imm.signExtend 64) op } :=
  s.head_runs h _

/-- A divisor that is not zero: the destination takes the result, and the thread goes on. -/
theorem divide_of_ne {x y : Word} (hy : y ≠ 0) (hz : op x y = z) :
    { s with f := divide s.m s.f s.core s.th d x y op } = s.withCur (s.cur.wr d z).adv := by
  rw [divide, if_neg hy, hz]; rfl

/-- A divisor of zero: the trap, whatever the destination and the operation (R132). -/
theorem divide_zero (m : Mgt) (f : Fab) (c : CoreId) (h : ThreadId) (x : Word) :
    divide m f c h d x 0 op = f.trap m c h .divZero 0 := if_pos rfl

theorem divReg_of_ne (h : s.Runs g [.s a, .s b] [.s d]) (hy : s.cur.rd b ≠ 0) (hz : op (s.cur.rd a) (s.cur.rd b) = z) :
    divReg g d a b op s = .next (s.withCur (s.cur.wr d z).adv) := by
  rw [divReg_runs h, divide_of_ne hy hz]

theorem divImm_of_ne (h : s.Runs g [.s a] [.s d]) (hy : imm.signExtend 64 ≠ (0 : Word))
    (hz : op (s.cur.rd a) (imm.signExtend 64) = z) :
    divImm g d a imm op s = .next (s.withCur (s.cur.wr d z).adv) := by
  rw [divImm_runs h, divide_of_ne hy hz]

theorem divReg_zero (h : s.Runs g [.s a, .s b] [.s d]) (hb : s.cur.rd b = 0) :
    divReg g d a b op s = .next { s with f := s.f.trap s.m s.core s.th .divZero 0 } := by
  rw [divReg_runs h, hb, divide_zero]

theorem divImm_zero (h : s.Runs g [.s a] [.s d]) :
    divImm g d a 0 op s = .next { s with f := s.f.trap s.m s.core s.th .divZero 0 } := by
  rw [divImm_runs h, show BitVec.signExtend 64 (0 : BitVec 22) = 0 from rfl, divide_zero]

end

/-! The high half of a product: taking it from the exact product and from the product of 128 bits is one. -/

/-- Bits 127:64 of an integer, as its quotient by 2^64 and as the upper word of its 128 low bits. -/
theorem ofInt_ediv_two_pow (k : Int) :
    BitVec.ofInt 64 (k / 2 ^ 64) = (BitVec.ofInt 128 k >>> 64).truncate 64 := by
  apply BitVec.eq_of_toNat_eq
  simp only [BitVec.truncate_eq_setWidth, BitVec.toNat_setWidth, BitVec.toNat_ushiftRight, BitVec.toNat_ofInt,
    Nat.shiftRight_eq_div_pow]
  omega

theorem mulHigh_eq (x y : Word) : mulHigh x y = ((x.signExtend 128 * y.signExtend 128) >>> 64).truncate 64 := by
  rw [mulHigh, ofInt_ediv_two_pow, BitVec.ofInt_mul]; rfl

theorem mulHighU_eq (x y : Word) : mulHighU x y = ((x.zeroExtend 128 * y.zeroExtend 128) >>> 64).truncate 64 := by
  have product : BitVec.ofInt 128 (x.toNat * y.toNat : Nat) = x.zeroExtend 128 * y.zeroExtend 128 := by
    rw [BitVec.ofInt_natCast, BitVec.ofNat_mul, BitVec.ofNat_toNat, BitVec.ofNat_toNat]
  rw [← product, ← ofInt_ediv_two_pow]
  exact (BitVec.ofInt_natCast 64 _).symm

/-! Shift counts: bits 5:0 of the operand are its value modulo 64. -/

theorem toNat_and_63 (y : Word) : (y &&& 63).toNat = y.toNat % 64 :=
  (BitVec.toNat_and y 63).trans (Nat.and_two_pow_sub_one_eq_mod y.toNat 6)

theorem shl_eq (x y : Word) : shl x y = x <<< (y &&& 63) := by
  rw [shl, BitVec.shiftLeft_eq', toNat_and_63]
theorem shrZ_eq (x y : Word) : shrZ x y = x >>> (y &&& 63) := by
  rw [shrZ, BitVec.ushiftRight_eq', toNat_and_63]
theorem shrS_eq (x y : Word) : shrS x y = x.sshiftRight' (y &&& 63) := by
  rw [shrS, BitVec.sshiftRight_eq', toNat_and_63]

/-! Signed quotient and remainder. -/

/-- The one quotient that leaves the signed range, -2^63 by -1, wraps on both sides. -/
theorem divS_eq (x y : Word) : divS x y = x.sdiv y := by
  apply BitVec.eq_of_toInt_eq
  rw [divS, BitVec.toInt_ofInt, BitVec.toInt_sdiv]

theorem remS_eq (x y : Word) : remS x y = x.srem y := by
  rw [remS, ← BitVec.toInt_srem, BitVec.ofInt_toInt]

end Sys2Proof.Machine
end

section
/-! The statements settled: the register file and the scalar arithmetic heads. -/

namespace Sys2Proof.Machine

/-- Settles O14: each head is a binary operation on a register and a register or an immediate; the high halves and the shifts
through their equations. -/
theorem scalarArithmetic : Obligations.ScalarArithmetic := by
  unfold Obligations.ScalarArithmetic
  intro s g d a b imm
  constructor
  · intro y h
    exact ⟨binReg_runs h (· + ·) rfl, binReg_runs h (· - ·) rfl, binReg_runs h (· * ·) rfl,
      binReg_runs h mulHigh (mulHigh_eq _ _), binReg_runs h mulHighU (mulHighU_eq _ _),
      binReg_runs h (· &&& ·) rfl, binReg_runs h (· ||| ·) rfl, binReg_runs h (· ^^^ ·) rfl,
      binReg_runs h (fun x y => x &&& ~~~y) rfl,
      binReg_runs h shl (shl_eq _ _), binReg_runs h shrZ (shrZ_eq _ _), binReg_runs h shrS (shrS_eq _ _)⟩
  · intro y h
    exact ⟨binImm_runs h (· + ·) rfl, binImm_runs h (· - ·) rfl, binImm_runs h (· * ·) rfl,
      binImm_runs h mulHigh (mulHigh_eq _ _), binImm_runs h mulHighU (mulHighU_eq _ _),
      binImm_runs h (· &&& ·) rfl, binImm_runs h (· ||| ·) rfl, binImm_runs h (· ^^^ ·) rfl,
      binImm_runs h (fun x y => x &&& ~~~y) rfl,
      binImm_runs h shl (shl_eq _ _), binImm_runs h shrZ (shrZ_eq _ _), binImm_runs h shrS (shrS_eq _ _)⟩

/-- Settles O15: the divide acts, and its operation on bit vectors is the one of R131. -/
theorem scalarDivides : Obligations.ScalarDivides := by
  unfold Obligations.ScalarDivides
  intro s g d a b imm
  constructor
  · intro y h hy
    exact ⟨divReg_of_ne h hy (divS_eq _ _), divReg_of_ne h hy (remS_eq _ _), divReg_of_ne h hy BitVec.udiv_def,
      divReg_of_ne h hy BitVec.umod_def⟩
  · intro y h hy
    exact ⟨divImm_of_ne h hy (divS_eq _ _), divImm_of_ne h hy (remS_eq _ _), divImm_of_ne h hy BitVec.udiv_def,
      divImm_of_ne h hy BitVec.umod_def⟩

/-- Settles O12: s0 and p0 by their constants, each other register by the law that reads after a write. -/
theorem registerFile : Obligations.RegisterFile := by
  unfold Obligations.RegisterFile
  intro t
  refine ⟨⟨t.rd_zero, t.wr_zero⟩, ⟨t.rdp_zero, t.wrp_zero⟩, ?_, ?_, ?_, ?_, ?_, ?_⟩
  · intro r x hr
    rw [Thread.rd_wr, if_pos ⟨rfl, hr⟩]
  · intro r q x hq
    rw [Thread.rd_wr, if_neg fun h => hq h.1]
  · intro p b hp
    rw [Thread.rdp_wrp, if_pos ⟨rfl, hp⟩]
  · intro p q b hq
    rw [Thread.rdp_wrp, if_neg fun h => hq h.1]
  · intro r x
    rw [Thread.rdv_wrv, if_pos rfl]
  · intro r q x hq
    rw [Thread.rdv_wrv, if_neg hq]

/-- Settles O16: a divide whose divisor is zero is the trap before its destination and operation are looked at. -/
theorem divideByZeroTraps : Obligations.DivideByZeroTraps := by
  unfold Obligations.DivideByZeroTraps
  intro s g d a b
  constructor
  · intro h hb
    exact ⟨divReg_zero h hb, divReg_zero h hb, divReg_zero h hb, divReg_zero h hb⟩
  · intro h
    exact ⟨divImm_zero h, divImm_zero h, divImm_zero h, divImm_zero h⟩

end Sys2Proof.Machine
end
